-- ==== Sys2Proof/Word.lean ====
section
/-! DEFINITION. The byte and text types of the lane link. -/

namespace Sys2Proof

/-- One 8-bit character of the lane link (R1). -/
abbrev Byte := BitVec 8

/-- 8-bit text, as descriptions and names are kept (section 7.5 of the scope chapter). -/
abbrev Text := List Byte

end Sys2Proof
end

