-- ==== Sys2Proof/Config.lean ====
section
/-! DEFINITION. What one part fixes and the manual does not give, as constants with no body: nothing can
be proved of their values. -/

namespace Sys2Proof.Config

/-- The fixed font (R154): whether a dot of a printable character's cell is on, by double width, double
height, code, row and column of the cell as drawn. The manual gives no dots.
DESIGN CHOICE: log entry 8. -/
opaque fontDot : Bool → Bool → Nat → Nat → Nat → Bool

/-- The row of one dot that is on in the cell of a printable character other than the space, by double
width, double height and code (R154: such a cell has at least one dot on). -/
opaque fontSomeRow : Bool → Bool → Nat → Nat

/-- The column of that dot. -/
opaque fontSomeCol : Bool → Bool → Nat → Nat

/-- The silicon revision, a number taken modulo 26 as a letter A to Z (R198).
DESIGN CHOICE: log entry 9. -/
opaque revision : Nat

/-- The period of the reply to a SCALE_STREAM that turns streaming off, for the n-th such reply: R64 asks
for the period taken, and none is.
DESIGN CHOICE: log entry 10. -/
opaque streamOffPeriod : Nat → BitVec 16

/-- The quotient of Vf at a supply of 0 mV, before its clamp (R170).
DESIGN CHOICE: log entry 11. -/
opaque noVoltage : Nat

/-- Where in the pair of writes of a calibration write a reset falls (R195), for the n-th such reset.
DESIGN CHOICE: log entry 12. -/
opaque calWriteCut : Nat → Nat

end Sys2Proof.Config
end

