-- ==== Sys2Proof/Syntax.lean ====
section
/-! DEFINITION. The commands of the block: one constructor of `Instr` per row of the table of
operations and events, requests with their tag and the payload fields of chapters 2 to 11, events with
what the outside world supplies. -/

namespace Sys2Proof

/-- The two weighing channels (R20). -/
inductive Channel where
  | p | b
  deriving DecidableEq, Repr

/-- The two drawer ports (R129). -/
inductive Port where
  | d1 | d2
  deriving DecidableEq, Repr

/-- The three magnetic heads of the slot reader; two of them are read (R111). -/
inductive Head where
  | alpha | numeric | third
  deriving DecidableEq, Repr

/-- The two tracks the reader decodes. -/
inductive Track where
  | alpha | numeric
  deriving DecidableEq, Repr

/-- The two slots of the card store (R123). -/
inductive CardSlot where
  | one | two
  deriving DecidableEq, Repr

/-- The three sensors of the receipt mechanism that pause or warn (R165); the cutter home switch has
commands of its own. -/
inductive PrintSensor where
  | paperLow | paperOut | cover
  deriving DecidableEq, Repr

/-- One block of 8 consecutive raw converter samples, each a signed 24-bit count (R21, R22). -/
structure Samples where
  s0 : BitVec 24
  s1 : BitVec 24
  s2 : BitVec 24
  s3 : BitVec 24
  s4 : BitVec 24
  s5 : BitVec 24
  s6 : BitVec 24
  s7 : BitVec 24
  deriving DecidableEq, Repr

/-- Reply status codes (Table 1-3). -/
inductive Status where
  | ok | okClamped | okUnchecked | pending
  | refusedState | refusedBusy | refusedFull | refusedRange | refusedHold | refusedLimit
  | refusedPermit | refusedNotFound | refusedCode | refusedLength | refusedNoRoom | refusedBagPending
  deriving DecidableEq, Repr

/-- The commands. A request's fields are those of its payload. Only a JOB_DATA without elements has a length that
the link refuses (R10), and only the texts of TXN_ITEM, TXN_WEIGH and JOB_DATA can be longer than a frame carries
(R2); any other wrong length, or a wrong code, arrives as characters. -/
inductive Instr where
  -- link and reset
  | hardReset
  | rxCharacter (c : Byte) (stopBit : Bool)
  | rxStallTimeout
  | requestExecute
  | frameSent
  -- requests of chapters 1, 10 and 11
  | ident (tag : Byte)
  | laneReset (tag : Byte)
  | condFetch (tag : Byte) (mask : BitVec 16)
  | noteFetch (tag : Byte)
  | pwrStandby (tag : Byte)
  | pwrDormant (tag : Byte)
  | pwrWake (tag : Byte)
  | setGet (tag number : Byte)
  | setPut (tag number : Byte) (value : BitVec 32)
  | setSave (tag : Byte)
  | settingsBlockWritten
  | markerWriteDone
  | calibrationWriteDone
  | evtRoute (tag code priority : Byte)
  | evtBind (tag slot mode trigger action : Byte) (argument : BitVec 32)
  -- requests of chapters 2 and 3
  | scaleRead (tag channel : Byte)
  | scaleZero (tag channel : Byte)
  | scaleTare (tag : Byte)
  | scaleTarePreset (tag : Byte) (grams : BitVec 16)
  | scaleTareClear (tag : Byte)
  | scaleCancel (tag : Byte)
  | scaleStream (tag channel : Byte) (period : BitVec 16)
  | calZero (tag channel : Byte)
  | calSpan (tag channel : Byte) (grams : BitVec 16)
  -- requests of chapter 4
  | bagSkip (tag slot : Byte)
  | bagClearHold (tag : Byte)
  | bagStatus (tag : Byte)
  -- requests of chapter 5
  | txnBegin (tag : Byte) (id date : BitVec 32) (time : BitVec 16)
  | txnItem (tag : Byte) (code : BitVec 32) (quantity : BitVec 16) (price : BitVec 32)
      (weight tolerance : BitVec 16) (description : List Byte)
  | txnWeigh (tag : Byte) (code price : BitVec 32) (description : List Byte)
  | txnVoidItem (tag slot : Byte)
  | txnTotal (tag override : Byte)
  | txnReopen (tag : Byte)
  | txnTender (tag kind : Byte) (amount : BitVec 32) (slot : Byte)
  | txnVoid (tag : Byte)
  | txnClose (tag : Byte)
  | txnStatus (tag : Byte)
  | txnItemGet (tag slot : Byte)
  -- requests of chapter 6
  | cardArm (tag value : Byte)
  | cardSummary (tag slot : Byte)
  | cardRelease (tag slot : Byte)
  | cardDiscard (tag slot : Byte)
  -- requests of chapter 7
  | drawerKick (tag port : Byte)
  | drawerNosale (tag port : Byte)
  | drawerStatus (tag : Byte)
  | drawerClear (tag port : Byte)
  -- requests of chapters 8 and 9
  | jobOpen (tag role : Byte)
  | jobData (tag job : Byte) (elements : List Byte)
  | jobClose (tag job : Byte)
  | jobAbort (tag job : Byte)
  | jobResume (tag : Byte)
  | jobStatus (tag job : Byte)
  | prnClear (tag : Byte)
  | prnFeed (tag lines : Byte)
  -- events of the weighing channels
  | reading (ch : Channel) (block : Samples)
  | converterWarmupEnd
  | initialZeroTimeout (ch : Channel)
  | zeroTimeout (ch : Channel)
  | tareTimeout
  | captureTimeoutExpiry
  | calTimeout (ch : Channel)
  | calEnChange (active : Bool)
  | disturbanceGuardEnd
  | streamPeriodEnd
  | bagEntryOverdue (slot : Byte)
  -- events of the card reader
  | swipeStart (head : Head)
  | trackIdleEnd (track : Track)
  | swipeTimeLimit
  | decodeEnd
  | cardHoldExpiry (slot : CardSlot)
  -- events of the drawers
  | senseInputLevelChange (port : Port) (high : Bool)
  | senseDebouncedChange (port : Port)
  | grantWaitTimeout (port : Port)
  | pulseOnTimeEnd (port : Port)
  | overcurrentTrip (port : Port)
  | overcurrentBreakEnd (port : Port) (comparatorClear : Bool)
  | openWaitTimeout (port : Port)
  | retryWaitEnd (port : Port)
  | leftOpenExpiry (port : Port)
  -- events of the print engine, the supply and the power manager
  | printSensorChange (sensor : PrintSensor) (active : Bool)
  | headTempReading (celsius : Int)
  | lineBoundary (millivolts : BitVec 16)
  | cutterHomeMade
  | cutJamTimeout
  | stallLimitExpiry
  | supplyLowStart (millivolts : BitVec 16)
  | supplyLowEnd (millivolts : BitVec 16)
  | idleTimerExpiry
  | trackTransition (head : Head) (interval : BitVec 32)
  | cutterHomeSwitchOpens
  deriving DecidableEq, Repr

end Sys2Proof
end

