-- ==== Sys2Proof/Decode.lean ====
section
/-! DEFINITION. Reading a command. The table of operations and events gives no row any bits, so
`decodeTableWord` answers none. The requests do have an encoding of their own, the code and payload of a
request frame (Table 1-4): `decodeRequest` is the link controller's check and reading of them (R10), and
`encodeRequest` writes them. -/

namespace Sys2Proof

/-- One byte holding the low 8 bits of a number.
DEDUCED: log entry 39. -/
def u8 (n : Nat) : Byte := BitVec.ofNat 8 n

/-- A Boolean as the byte 0 or 1. -/
def flag8 (b : Bool) : Byte := if b then 1#8 else 0#8

/-- A 2-byte integer, high byte first (section 1.7). -/
def be16 (n : Nat) : List Byte := [u8 (n / 256), u8 n]

/-- A 4-byte integer, high byte first (section 1.7). -/
def be32 (n : Nat) : List Byte := [u8 (n / 16777216), u8 (n / 65536), u8 (n / 256), u8 n]

/-- A 4-byte two's complement integer, high byte first (section 1.7). -/
def beInt32 (i : Int) : List Byte := be32 (BitVec.ofInt 32 i).toNat

/-- A text field: a count byte followed by that many characters (section 1.7). -/
def textField (t : Text) : List Byte := u8 t.length :: t

/-- The characters of a string as 8-bit text. -/
def ascii (s : String) : Text := s.toList.map fun c => u8 c.toNat

/-- The value of bytes read high byte first (section 1.7). -/
def beNat (l : List Byte) : Nat := l.foldl (fun a b => a * 256 + b.toNat) 0

/-- The channel a channel byte names (R20). -/
def Channel.ofByte (b : Byte) : Option Channel :=
  if b = 0#8 then some .p else if b = 1#8 then some .b else none

/-- The channel byte (R20). -/
def Channel.byte : Channel → Byte
  | .p => 0#8
  | .b => 1#8

/-- The port a port byte names (R129). -/
def Port.ofByte (b : Byte) : Option Port :=
  if b = 1#8 then some .d1 else if b = 2#8 then some .d2 else none

/-- The port byte (R129). -/
def Port.byte : Port → Byte
  | .d1 => 1#8
  | .d2 => 2#8

/-- The slot a slot byte names (R125). -/
def CardSlot.ofByte (b : Byte) : Option CardSlot :=
  if b = 1#8 then some .one else if b = 2#8 then some .two else none

/-- The slot number, 1 or 2 (R123). -/
def CardSlot.byte : CardSlot → Byte
  | .one => 1#8
  | .two => 2#8

/-- The status byte (Table 1-3). -/
def Status.code : Status → Byte
  | .ok => 0x00#8
  | .okClamped => 0x01#8
  | .okUnchecked => 0x02#8
  | .pending => 0x03#8
  | .refusedState => 0x10#8
  | .refusedBusy => 0x11#8
  | .refusedFull => 0x12#8
  | .refusedRange => 0x13#8
  | .refusedHold => 0x14#8
  | .refusedLimit => 0x15#8
  | .refusedPermit => 0x16#8
  | .refusedNotFound => 0x17#8
  | .refusedCode => 0x18#8
  | .refusedLength => 0x19#8
  | .refusedNoRoom => 0x1A#8
  | .refusedBagPending => 0x1B#8

/-- A request is accepted when its reply is no refusal status (R11, R183). -/
def Status.accepted : Status → Bool
  | .ok | .okClamped | .okUnchecked | .pending => true
  | _ => false

/-- The command a word spells by the table's bits. No row of the table has bits. -/
def decodeTableWord (_nbits _w : Nat) : Option Instr := none

/-- Two payload bytes as a 16-bit field. -/
def get16 (a b : Byte) : BitVec 16 := BitVec.ofNat 16 (beNat [a, b])

/-- Four payload bytes as a 32-bit field. -/
def get32 (a b c d : Byte) : BitVec 32 := BitVec.ofNat 32 (beNat [a, b, c, d])

/-- A request with no payload (Table 1-4). -/
def noPayload (i : Instr) : List Byte → Except Status Instr
  | [] => .ok i
  | _ => .error .refusedLength

/-- A request with one payload byte (Table 1-4). -/
def onePayload (f : Byte → Instr) : List Byte → Except Status Instr
  | [a] => .ok (f a)
  | _ => .error .refusedLength

/-- The requests without a payload, by code (Table 1-4). -/
def bareRequest (tag : Byte) : Nat → Option Instr
  | 0x01 => some (.ident tag)
  | 0x02 => some (.laneReset tag)
  | 0x04 => some (.noteFetch tag)
  | 0x05 => some (.pwrStandby tag)
  | 0x06 => some (.pwrDormant tag)
  | 0x07 => some (.pwrWake tag)
  | 0x12 => some (.setSave tag)
  | 0x22 => some (.scaleTare tag)
  | 0x24 => some (.scaleTareClear tag)
  | 0x25 => some (.scaleCancel tag)
  | 0x31 => some (.bagClearHold tag)
  | 0x32 => some (.bagStatus tag)
  | 0x45 => some (.txnReopen tag)
  | 0x47 => some (.txnVoid tag)
  | 0x48 => some (.txnClose tag)
  | 0x49 => some (.txnStatus tag)
  | 0x62 => some (.drawerStatus tag)
  | 0x74 => some (.jobResume tag)
  | 0x76 => some (.prnClear tag)
  | _ => none

/-- The requests with a one-byte payload, by code (Table 1-4). -/
def byteRequest (tag : Byte) : Nat → Option (Byte → Instr)
  | 0x10 => some (.setGet tag)
  | 0x20 => some (.scaleRead tag)
  | 0x21 => some (.scaleZero tag)
  | 0x28 => some (.calZero tag)
  | 0x30 => some (.bagSkip tag)
  | 0x43 => some (.txnVoidItem tag)
  | 0x44 => some (.txnTotal tag)
  | 0x4A => some (.txnItemGet tag)
  | 0x50 => some (.cardArm tag)
  | 0x51 => some (.cardSummary tag)
  | 0x52 => some (.cardRelease tag)
  | 0x53 => some (.cardDiscard tag)
  | 0x60 => some (.drawerKick tag)
  | 0x61 => some (.drawerNosale tag)
  | 0x63 => some (.drawerClear tag)
  | 0x70 => some (.jobOpen tag)
  | 0x72 => some (.jobClose tag)
  | 0x73 => some (.jobAbort tag)
  | 0x75 => some (.jobStatus tag)
  | 0x77 => some (.prnFeed tag)
  | _ => none

/-- The requests with several payload fields, by code (Table 1-4). -/
def fieldRequest (tag : Byte) : Nat → Option (List Byte → Except Status Instr)
  | 0x03 => some fun
    | [a, b] => .ok (.condFetch tag (get16 a b))
    | _ => .error .refusedLength
  | 0x11 => some fun
    | [n, a, b, c, d] => .ok (.setPut tag n (get32 a b c d))
    | _ => .error .refusedLength
  | 0x13 => some fun
    | [c, p] => .ok (.evtRoute tag c p)
    | _ => .error .refusedLength
  | 0x14 => some fun
    | [sl, m, t, act, a, b, c, d] => .ok (.evtBind tag sl m t act (get32 a b c d))
    | _ => .error .refusedLength
  | 0x23 => some fun
    | [a, b] => .ok (.scaleTarePreset tag (get16 a b))
    | _ => .error .refusedLength
  | 0x26 => some fun
    | [ch, a, b] => .ok (.scaleStream tag ch (get16 a b))
    | _ => .error .refusedLength
  | 0x29 => some fun
    | [ch, a, b] => .ok (.calSpan tag ch (get16 a b))
    | _ => .error .refusedLength
  | 0x40 => some fun
    | [i3, i2, i1, i0, d3, d2, d1, d0, t1, t0] =>
      .ok (.txnBegin tag (get32 i3 i2 i1 i0) (get32 d3 d2 d1 d0) (get16 t1 t0))
    | _ => .error .refusedLength
  | 0x41 => some fun
    | c3 :: c2 :: c1 :: c0 :: q1 :: q0 :: p3 :: p2 :: p1 :: p0 :: w1 :: w0 :: t1 :: t0 :: n :: d =>
      if d.length = n.toNat ∧ d.length ≤ 240 then
        .ok (.txnItem tag (get32 c3 c2 c1 c0) (get16 q1 q0) (get32 p3 p2 p1 p0) (get16 w1 w0)
          (get16 t1 t0) d)
      else .error .refusedLength
    | _ => .error .refusedLength
  | 0x42 => some fun
    | c3 :: c2 :: c1 :: c0 :: p3 :: p2 :: p1 :: p0 :: n :: d =>
      if d.length = n.toNat ∧ d.length ≤ 246 then
        .ok (.txnWeigh tag (get32 c3 c2 c1 c0) (get32 p3 p2 p1 p0) d)
      else .error .refusedLength
    | _ => .error .refusedLength
  | 0x46 => some fun
    | [k, a, b, c, d, sl] => .ok (.txnTender tag k (get32 a b c d) sl)
    | _ => .error .refusedLength
  | 0x71 => some fun
    | j :: e => if 1 ≤ e.length ∧ e.length ≤ 254 then .ok (.jobData tag j e) else .error .refusedLength
    | _ => .error .refusedLength
  | _ => none

/-- R10: a code that Table 1-4 does not list is refused with REFUSED_CODE, a listed code whose payload
length breaks the table's rule with REFUSED_LENGTH; otherwise the request with its payload fields. -/
def decodeRequest (tag code : Byte) (payload : List Byte) : Except Status Instr :=
  match bareRequest tag code.toNat with
  | some i => noPayload i payload
  | none =>
    match byteRequest tag code.toNat with
    | some f => onePayload f payload
    | none =>
      match fieldRequest tag code.toNat with
      | some f => f payload
      | none => .error .refusedCode

/-- The tag, code and payload a request command is framed with (Table 1-4 and the payload of its owning
chapter); none for an event. -/
def encodeRequest : Instr → Option (Byte × Byte × List Byte)
  | .ident t => some (t, 0x01#8, [])
  | .laneReset t => some (t, 0x02#8, [])
  | .condFetch t m => some (t, 0x03#8, be16 m.toNat)
  | .noteFetch t => some (t, 0x04#8, [])
  | .pwrStandby t => some (t, 0x05#8, [])
  | .pwrDormant t => some (t, 0x06#8, [])
  | .pwrWake t => some (t, 0x07#8, [])
  | .setGet t n => some (t, 0x10#8, [n])
  | .setPut t n v => some (t, 0x11#8, n :: be32 v.toNat)
  | .setSave t => some (t, 0x12#8, [])
  | .evtRoute t c p => some (t, 0x13#8, [c, p])
  | .evtBind t sl m tr a v => some (t, 0x14#8, sl :: m :: tr :: a :: be32 v.toNat)
  | .scaleRead t c => some (t, 0x20#8, [c])
  | .scaleZero t c => some (t, 0x21#8, [c])
  | .scaleTare t => some (t, 0x22#8, [])
  | .scaleTarePreset t g => some (t, 0x23#8, be16 g.toNat)
  | .scaleTareClear t => some (t, 0x24#8, [])
  | .scaleCancel t => some (t, 0x25#8, [])
  | .scaleStream t c p => some (t, 0x26#8, c :: be16 p.toNat)
  | .calZero t c => some (t, 0x28#8, [c])
  | .calSpan t c g => some (t, 0x29#8, c :: be16 g.toNat)
  | .bagSkip t sl => some (t, 0x30#8, [sl])
  | .bagClearHold t => some (t, 0x31#8, [])
  | .bagStatus t => some (t, 0x32#8, [])
  | .txnBegin t i d h => some (t, 0x40#8, be32 i.toNat ++ be32 d.toNat ++ be16 h.toNat)
  | .txnItem t c q p w tl d => some (t, 0x41#8,
      be32 c.toNat ++ be16 q.toNat ++ be32 p.toNat ++ be16 w.toNat ++ be16 tl.toNat ++ textField d)
  | .txnWeigh t c p d => some (t, 0x42#8, be32 c.toNat ++ be32 p.toNat ++ textField d)
  | .txnVoidItem t sl => some (t, 0x43#8, [sl])
  | .txnTotal t o => some (t, 0x44#8, [o])
  | .txnReopen t => some (t, 0x45#8, [])
  | .txnTender t k a sl => some (t, 0x46#8, k :: be32 a.toNat ++ [sl])
  | .txnVoid t => some (t, 0x47#8, [])
  | .txnClose t => some (t, 0x48#8, [])
  | .txnStatus t => some (t, 0x49#8, [])
  | .txnItemGet t sl => some (t, 0x4A#8, [sl])
  | .cardArm t v => some (t, 0x50#8, [v])
  | .cardSummary t sl => some (t, 0x51#8, [sl])
  | .cardRelease t sl => some (t, 0x52#8, [sl])
  | .cardDiscard t sl => some (t, 0x53#8, [sl])
  | .drawerKick t p => some (t, 0x60#8, [p])
  | .drawerNosale t p => some (t, 0x61#8, [p])
  | .drawerStatus t => some (t, 0x62#8, [])
  | .drawerClear t p => some (t, 0x63#8, [p])
  | .jobOpen t r => some (t, 0x70#8, [r])
  | .jobData t j e => some (t, 0x71#8, j :: e)
  | .jobClose t j => some (t, 0x72#8, [j])
  | .jobAbort t j => some (t, 0x73#8, [j])
  | .jobResume t => some (t, 0x74#8, [])
  | .jobStatus t j => some (t, 0x75#8, [j])
  | .prnClear t => some (t, 0x76#8, [])
  | .prnFeed t n => some (t, 0x77#8, [n])
  | .hardReset | .rxCharacter _ _ | .rxStallTimeout | .requestExecute | .frameSent => none
  | .settingsBlockWritten | .markerWriteDone | .calibrationWriteDone => none
  | .reading _ _ | .converterWarmupEnd | .initialZeroTimeout _ | .zeroTimeout _ | .tareTimeout => none
  | .captureTimeoutExpiry | .calTimeout _ | .calEnChange _ | .disturbanceGuardEnd => none
  | .streamPeriodEnd | .bagEntryOverdue _ | .swipeStart _ | .trackIdleEnd _ | .swipeTimeLimit => none
  | .decodeEnd | .cardHoldExpiry _ | .senseInputLevelChange _ _ | .senseDebouncedChange _ => none
  | .grantWaitTimeout _ | .pulseOnTimeEnd _ | .overcurrentTrip _ | .overcurrentBreakEnd _ _ => none
  | .openWaitTimeout _ | .retryWaitEnd _ | .leftOpenExpiry _ | .printSensorChange _ _ => none
  | .headTempReading _ | .lineBoundary _ | .cutterHomeMade | .cutJamTimeout | .stallLimitExpiry => none
  | .supplyLowStart _ | .supplyLowEnd _ | .idleTimerExpiry | .trackTransition _ _ => none
  | .cutterHomeSwitchOpens => none

end Sys2Proof
end

