-- ==== Sys2Proof/Machine/State.lean ====
section
/-! DEFINITION. The state of the CJ-640: one structure per block of the block diagram, plain data
throughout, the reasons a step can stop, and the state right after reset. Times are in milliseconds
unless a field says otherwise. -/

namespace Sys2Proof.Machine

/-- No command of this block faults: every refusal the manual describes is a reply status, and every
failure a notice. -/
inductive Fault where
  /-- Never raised; safe. -/
  | none
  deriving DecidableEq, Repr

/-- Why a step answers with no next state. -/
inductive Refusal where
  /-- Raised by `exec` for a command that has no meaning yet; safe. -/
  | notModelled (mnemonic : String)
  deriving DecidableEq, Repr

/-! ### LINK: the lane link (chapter 1) -/

/-- The receiver states of section 1.3. -/
inductive RxMode where
  | seek | gap | body | bodyEsc | closed
  deriving DecidableEq, Repr

/-- Receive discard causes (Table 1-2). -/
inductive RxCause where
  | short | overlong | badEscape | crc | kind | stall | overrun
  deriving DecidableEq, Repr

/-- The receiver: its state, the receive frame buffer, the time since the last character (R4, R5). -/
structure Rx where
  mode  : RxMode
  buf   : List Byte
  quiet : Nat
  deriving DecidableEq, Repr

/-- A request held by the link controller (section 1.4). -/
structure Request where
  tag     : Byte
  code    : Byte
  payload : List Byte
  deriving DecidableEq, Repr

/-- A reply of the reply list (R11). `baud` is the rate that takes effect at its closing FLAG, for the
reply to a SET_PUT of BAUD_RATE (R17). -/
structure Reply where
  tag    : Byte
  code   : Byte
  status : Status
  data   : List Byte
  baud   : Option Nat
  deriving DecidableEq, Repr

/-- The kinds of frame the device sends (R2). -/
inductive FrameKind where
  | reply | notice | snapshot
  deriving DecidableEq, Repr

/-- The frame on the line, and the characters it is sent as (R2). -/
structure TxFrame where
  kind    : FrameKind
  tag     : Byte
  code    : Byte
  payload : List Byte
  line    : List Byte
  baud    : Option Nat
  deriving DecidableEq, Repr

/-- LINK. -/
structure Link where
  rate      : Nat
  rx        : Rx
  queue     : List Request
  inExec    : Option Request
  replies   : List Reply
  tx        : Option TxFrame
  snapshot  : Option (List Byte)
  softReset : Bool
  deriving DecidableEq, Repr

/-! ### WGT: the weighing engine (chapters 2 and 3) -/

/-- The converters: off in DORMANT, warming up, or running (R21). -/
inductive Conv where
  | off | warming | running
  deriving DecidableEq, Repr

/-- The range flag of a channel (R29). -/
inductive RangeFlag where
  | inside | overRange | underRange
  deriving DecidableEq, Repr

/-- Results of the initial zero attempt (R38). -/
inductive InitResult where
  | established | outOfRange | noStable | calInvalid
  deriving DecidableEq, Repr

/-- The initial zero attempt: not begun, running since some milliseconds, or ended (R38). -/
inductive InitZero where
  | waiting
  | running (age : Nat)
  | ended (result : InitResult)
  deriving DecidableEq, Repr

/-- The operations of an operation slot (R39). -/
inductive OpKind where
  | zero
  | tare
  | capture (price code : Nat) (description : Text)
  | calZero
  | calSpan (grams : Nat)
  deriving DecidableEq, Repr

/-- The holder of an operation slot: its origin tag, the time since acceptance, its timeout, and whether a
calibration request has come to its calibration write (R195). -/
structure Op where
  kind    : OpKind
  tag     : Byte
  age     : Nat
  limit   : Nat
  writing : Bool
  deriving DecidableEq, Repr

/-- The flags that a channel without readings shows as they stood when readings stopped, although what they
tell of can change meanwhile (R62).
DEDUCED: log entry 13. -/
structure HeldFlags where
  disturbed : Bool
  filling   : Bool
  centre    : Bool
  tareHeld  : Bool
  deriving DecidableEq, Repr

/-- One weighing channel: calibration (R26), smoothing window (R24), the flags it shows while it produces no
readings (R62), stability window (R32), forced range state (R23), the figures of the latest reading (R27 to
R31), zero state (R37) and operation slot (R39). -/
structure Chan where
  calValid  : Bool
  c0        : Int
  k         : Nat
  calZeroed : Bool
  win       : List Int
  held      : HeldFlags
  stab      : List Int
  forced    : Nat
  range     : RangeFlag
  hasValue  : Bool
  f         : Int
  w         : Int
  g         : Int
  net       : Int
  d         : Option Int
  e         : Nat
  centre    : Bool
  stable    : Bool
  zeroValid : Bool
  zc        : Int
  zw        : Int
  track     : Nat
  suspended : Bool
  init      : InitZero
  op        : Option Op
  deriving DecidableEq, Repr

/-- Tare kinds (R47). -/
inductive TareKind where
  | none | captured | preset
  deriving DecidableEq, Repr

/-- The disturbing actions of Table 2-4. -/
inductive Action where
  | pulse (p : Port)
  | cut
  | feed
  | line
  deriving DecidableEq, Repr

/-- Streaming in progress (R64, R65): channel, period, time in the period, last readout placed. -/
structure Stream where
  ch     : Channel
  period : Nat
  age    : Nat
  last   : Option (List Byte)
  deriving DecidableEq, Repr

/-- WGT. `guard` is what remains of the latest-ending guard (R35). -/
structure Weigh where
  conv     : Conv
  warmAge  : Nat
  chanP    : Chan
  chanB    : Chan
  tare     : Nat
  tareKind : TareKind
  armed    : Bool
  recNo    : Nat
  actions  : List Action
  guard    : Option Nat
  stream   : Option Stream
  deriving DecidableEq, Repr

/-! ### BAG: the bagging monitor (chapter 4) -/

/-- Watch states (R66). -/
inductive Watch where
  | off | watch | hold
  deriving DecidableEq, Repr

/-- Verdicts (R66). -/
inductive Verdict where
  | none | matched | mismatch | unexpected | removal
  deriving DecidableEq, Repr

/-- An expectation entry (Table 4-1); `remove` is its sign. -/
structure Entry where
  slot    : Nat
  remove  : Bool
  weight  : Nat
  tol     : Nat
  age     : Nat
  overdue : Bool
  deriving DecidableEq, Repr

/-- The hold record (R66). -/
structure Hold where
  verdict : Verdict
  delta   : Int
  count   : Nat
  deriving DecidableEq, Repr

/-- BAG. -/
structure Bag where
  watch     : Watch
  rb        : Int
  entries   : List Entry
  hold      : Option Hold
  last      : Verdict
  lastDelta : Int
  deriving DecidableEq, Repr

/-! ### TXN: the transaction context (chapter 5) -/

/-- Transaction states (R85). VOIDED is passed through within TXN_VOID.
DESIGN CHOICE: log entry 37. -/
inductive TxnState where
  | idle | opened | tender | settled | voided
  deriving DecidableEq, Repr

/-- Bag statuses (R84). -/
inductive BagStatus where
  | none | pending | overdue | bagged | skipped | unchecked | removed
  deriving DecidableEq, Repr

/-- A weigh record (Table 3-2). -/
structure WeighRecord where
  number   : Nat
  net      : Nat
  tare     : Nat
  gross    : Nat
  division : Nat
  kind     : TareKind
  price    : Nat
  amount   : Nat
  slot     : Nat
  deriving DecidableEq, Repr

/-- An item record (Table 5-1). An item is WEIGHED exactly when it carries a weigh record. -/
structure Item where
  slot        : Nat
  code        : Nat
  description : Text
  quantity    : Nat
  price       : Nat
  amount      : Nat
  void        : Bool
  bag         : BagStatus
  matched     : Option (Nat × Nat)
  record      : Option WeighRecord
  deriving DecidableEq, Repr

/-- Tender kinds (Table 5-2). -/
inductive TenderKind where
  | cash | card | voucher
  deriving DecidableEq, Repr

/-- A tender record (Table 5-2); its index is its position. -/
structure Tender where
  kind   : TenderKind
  amount : Nat
  card   : Option CardSlot
  deriving DecidableEq, Repr

/-- Card details of a card tender in the snapshot (Table 5-3): tender index, masked account, expiry. -/
structure CardDetail where
  index  : Nat
  masked : Text
  expiry : Option Nat
  deriving DecidableEq, Repr

/-- The last-transaction snapshot (Table 5-3). -/
structure Snapshot where
  id      : Nat
  date    : Nat
  time    : Nat
  items   : List Item
  tenders : List Tender
  cards   : List CardDetail
  change  : Nat
  void    : Bool
  deriving DecidableEq, Repr

/-- TXN. The sums of R89 and R97 are computed from the lists. -/
structure Txn where
  state       : TxnState
  id          : Nat
  date        : Nat
  time        : Nat
  items       : List Item
  tenders     : List Tender
  change      : Nat
  entitlement : Option Port
  receiptDone : Bool
  snap        : Option Snapshot
  deriving DecidableEq, Repr

/-! ### CRD: the card reader (chapter 6) -/

/-- Reader states (R108). -/
inductive ReaderState where
  | disarmed | armed | reading | decoding
  deriving DecidableEq, Repr

/-- Track results (Table 6-2). -/
inductive TrackResult where
  | ok | noData | noStart | noEnd | parity | lrc | cellError | speed | overlong
  deriving DecidableEq, Repr

/-- The capture of one track (R111 to R115). `window` holds the intervals of the preamble search, `half` a
first short interval, `stop` the result a stopped decode ends with. Intervals are in µs. -/
structure TrackCap where
  transitions : Nat
  window      : List Nat
  pexp        : Option Nat
  bits        : List Bool
  half        : Option Nat
  stop        : Option TrackResult
  ended       : Bool
  atLimit     : Bool
  deriving DecidableEq, Repr

/-- A card record (Table 6-2). The account length is the length of the masked account; `track` is empty
once released; an absent name is empty. -/
structure CardRec where
  bound    : Bool
  reverse  : Bool
  numeric  : TrackResult
  alpha    : TrackResult
  masked   : Text
  expiry   : Option Nat
  service  : Option Nat
  name     : Text
  track    : Text
  expired  : Bool
  check    : Bool
  disagree : Bool
  format   : Bool
  released : Bool
  bindable : Bool
  age      : Nat
  deriving DecidableEq, Repr

/-- CRD. -/
structure Card where
  state    : ReaderState
  disarm   : Bool
  alpha    : TrackCap
  numeric  : TrackCap
  swipeAge : Nat
  one      : Option CardRec
  two      : Option CardRec
  deriving DecidableEq, Repr

/-! ### DRW: the drawer controller (chapter 7) -/

/-- Port states (R131). -/
inductive PortMode where
  | unknown | closed | grantWait | kicking | waitOpen | opened | openOverdue | fault
  deriving DecidableEq, Repr

/-- Permit kinds (R139). -/
inductive PermitKind where
  | none | entitlement | noSale
  deriving DecidableEq, Repr

/-- Failure reasons (R139, R140). -/
inductive FailReason where
  | noGrant | overcurrent | noOpen | absent
  deriving DecidableEq, Repr

/-- One drawer port. `level` is the sense input, `deb` the running debounce, `held` the level the input
last held for 25 ms; `present` is PRESENT as in force at the port and `leaving` says that it has been turned
off during an attempt (R140); `kick` is the permit of the kick in progress; `wait` is the time in the
current wait; `on` is the solenoid. -/
structure PortState where
  mode       : PortMode
  present    : Bool
  leaving    : Bool
  level      : Bool
  deb        : Option Nat
  held       : Option Bool
  attempt    : Nat
  retry      : Bool
  reason     : Option FailReason
  kick       : PermitKind
  tag        : Byte
  wait       : Nat
  on         : Bool
  onMs       : Nat
  onTime     : Nat
  trips      : Nat
  broken     : Bool
  remembered : Bool
  openMs     : Nat
  deriving DecidableEq, Repr

/-- DRW. -/
structure Drawers where
  d1     : PortState
  d2     : PortState
  noSale : Option Port
  deriving DecidableEq, Repr

/-! ### JOB: the job store (chapter 8) -/

/-- Alignments of a TEXT element (Table 1-6). -/
inductive Align where
  | left | centre | right
  deriving DecidableEq, Repr

/-- Job elements (Table 1-6). -/
inductive Element where
  | text (bold wide tall : Bool) (align : Align) (chars : Text)
  | feed (n : Nat)
  | rule
  | cut (part : Bool)
  | field (code argument : Nat)
  deriving DecidableEq, Repr

/-- Job roles (R148). -/
inductive Role where
  | receipt | reprint | free
  deriving DecidableEq, Repr

/-- Job bindings (Table 8-1). -/
inductive JobBinding where
  | none | sale | snapshot
  deriving DecidableEq, Repr

/-- Pause reasons (R164). -/
inductive Pause where
  | underrun | hot | paper | cover | drive | supply
  deriving DecidableEq, Repr

/-- Abort reasons (R162). -/
inductive AbortReason where
  | host | underrun | voided | cutter
  deriving DecidableEq, Repr

/-- Endings of an aborted job (R162). -/
inductive Ending where
  | marked | cutOnly | none | incomplete
  deriving DecidableEq, Repr

/-- Job states (R150). A job that is DONE has left the table. -/
inductive JobMode where
  | filling | queued | waitSettle | printing
  | paused (reason : Pause)
  | aborted (reason : AbortReason) (ending : Ending)
  deriving DecidableEq, Repr

/-- A job record (Table 8-1). `heading` is a REPRINT heading still to be printed (R148); `stall` is the
stall time (R158). -/
structure Job where
  number   : Nat
  role     : Role
  binding  : JobBinding
  tag      : Byte
  mode     : JobMode
  closed   : Bool
  elements : List Element
  heading  : Bool
  lines    : Nat
  truncated : Nat
  unavailable : Nat
  rendered : Nat
  stall    : Nat
  deriving DecidableEq, Repr

/-- JOB. -/
structure JobStore where
  table : List Job
  next  : Nat
  deriving DecidableEq, Repr

/-! ### PEN: the print engine (chapter 9) -/

/-- Engine states (R164). -/
inductive EngineMode where
  | idle | printing
  | paused (reason : Pause)
  | cutting | fault
  deriving DecidableEq, Repr

/-- What is still to be printed of the element in progress (R154, R160). A text line counts as a line
printed unless it stands for an unavailable field (R155, R161); `part` says that a cut is a partial one
(R154, R172). -/
inductive Seg where
  | text (chars : Text) (align : Align) (bold wide tall counted : Bool)
  | rule
  | mark
  | feed (n : Nat)
  | cut (part : Bool)
  deriving DecidableEq, Repr

/-- Whom the engine serves (R164). `begun` says that the abort sequence has fired its first line. -/
inductive Owner where
  | job (number : Nat)
  | abort (number : Nat) (begun : Bool)
  | feed
  deriving DecidableEq, Repr

/-- Which unit of content is in progress (R152). -/
inductive Current where
  | none | heading | element
  deriving DecidableEq, Repr

/-- The work of the engine: the segments left, and the dot lines done of the first one. -/
structure Work where
  owner   : Owner
  current : Current
  segs    : List Seg
  row     : Nat
  deriving DecidableEq, Repr

/-- The dot line in progress: its dot limit (R179), the dot totals of its phases (R169), its strobe time
and period in µs (R170, R171), and whether supply low has withheld its remaining phases. -/
structure DotLine where
  limit    : Nat
  phases   : List Nat
  tOn      : Nat
  period   : Nat
  withheld : Bool
  deriving DecidableEq, Repr

/-- PEN. `paperHold` and `coverHold` are pauses not yet resumed (R167); `home` is the cutter home switch
made; `cut` is the time since the cutter was driven. -/
structure Engine where
  mode      : EngineMode
  work      : Option Work
  line      : Option DotLine
  paperLow  : Bool
  paperOut  : Bool
  coverOpen : Bool
  home      : Bool
  paperHold : Bool
  coverHold : Bool
  theta     : Int
  hot       : Bool
  cut       : Option Nat
  deriving DecidableEq, Repr

/-! ### DSA: the drive supply arbiter (chapter 10) -/

/-- The four requesters of the wait queue (R177). -/
inductive Requester where
  | port (p : Port)
  | cutter
  | line
  deriving DecidableEq, Repr

/-- DSA. Currents in mA. `cap` is the capacity in force (R177); `mv` is the drive supply voltage in mV, as the
latest command with a reading of it brought it (R170, R180).
DESIGN CHOICE: log entry 15. -/
structure Supply where
  loads : List (Requester × Nat)
  queue : List Requester
  cap   : Nat
  low   : Bool
  mv    : Nat
  deriving DecidableEq, Repr

/-! ### LPM: the lane power manager (chapter 10) -/

/-- Lane power states (R181). -/
inductive PowerMode where
  | active | standby | dormant
  deriving DecidableEq, Repr

/-- Causes of a PWR_STATE notice (R181). -/
inductive PowerCause where
  | request | idleTimer | wakeRequest | swipe | weight | forcedDrawer | work | pwrWake | lost
  deriving DecidableEq, Repr

/-- Events of a PWR_STATE notice (R181). -/
inductive PowerEvent where
  | entered | woken | cancelled
  deriving DecidableEq, Repr

/-- The pending-entry record (R181); `cause` is what its PWR_STATE ENTERED will carry, that of the asker.
DESIGN CHOICE: log entry 67. -/
structure PendingEntry where
  target : PowerMode
  tag    : Byte
  cause  : PowerCause
  deriving DecidableEq, Repr

/-- LPM. `gEntry` is G at entry (R185). -/
structure Power where
  mode    : PowerMode
  entry   : Option PendingEntry
  idle    : Nat
  gEntry  : Option Int
  deriving DecidableEq, Repr

/-! ### RPT: the report unit (chapter 11) -/

/-- Reset kinds (section 7.8 of the scope chapter). -/
inductive ResetKind where
  | hard | soft
  deriving DecidableEq, Repr

/-- Outcomes of TXN_CLOSED (R103). -/
inductive CloseOutcome where
  | normal | forced | voided
  deriving DecidableEq, Repr

/-- Reasons of ZERO_FAILED (Table 11-4). -/
inductive ZeroFail where
  | outOfBand | timeout | cancelled | outOfRange | noStable | calInvalid
  deriving DecidableEq, Repr

/-- Reasons of TARE_FAILED (R49). -/
inductive TareFail where
  | range | timeout | cancelled
  deriving DecidableEq, Repr

/-- Results of CAL_DONE (R42). -/
inductive CalResult where
  | ok | range | permit | timeout | cancelled
  deriving DecidableEq, Repr

/-- Causes of CARD_WIPED (R123). -/
inductive WipeCause where
  | holdTimer | discard | close | void
  deriving DecidableEq, Repr

/-- The reason set of WEIGH_FAILED (Table 11-4). -/
structure Reasons where
  zeroInvalid : Bool := false
  motion      : Bool := false
  disturbed   : Bool := false
  overRange   : Bool := false
  underRange  : Bool := false
  belowMin    : Bool := false
  notRearmed  : Bool := false
  full        : Bool := false
  limit       : Bool := false
  cancelled   : Bool := false
  deriving DecidableEq, Repr

/-- The notices, with the fields of Table 11-4. -/
inductive Notice where
  | startup (kind : ResetKind) (defaulted calP calB : Bool) (zeroP zeroB : InitResult)
      (interrupted : Bool) (count : Nat) (d1 d2 : Option Bool)
  | linkFrameError (cause : RxCause)
  | noticeLost (code : Nat)
  | weighDone (tag : Byte) (slot number net tare price total : Nat) (bag : BagStatus)
  | weighFailed (tag : Byte) (reasons : Reasons)
  | zeroDone (tag : Byte) (ch : Channel) (zw : Int) (moved : Bool)
  | zeroFailed (tag : Byte) (ch : Channel) (reason : ZeroFail) (w : Int)
  | tareDone (tag : Byte) (grams : Nat) (kind : TareKind)
  | tareFailed (tag : Byte) (reason : TareFail) (d : Option Int)
  | calDone (tag : Byte) (ch : Channel) (span : Bool) (result : CalResult) (c0 : Int) (k count : Nat)
  | scaleStable (ch : Channel) (d : Option Int)
  | scaleMotion (ch : Channel) (d : Option Int)
  | scaleOver (ch : Channel) (under : Bool)
  | bagMatch (slot : Nat) (remove : Bool) (delta : Int) (weight : Nat) (overdue : Bool)
  | bagMismatch (delta d : Int) (against : Nat) (held : Bool)
  | bagUnexpected (delta d : Int) (against : Nat) (held : Bool)
  | bagRemoval (delta d : Int) (against : Nat) (held : Bool)
  | bagOverdue (slot : Nat) (remove : Bool) (weight : Nat)
  | txnClosed (tag : Byte) (outcome : CloseOutcome) (id total change items : Nat)
  | cardSwipe (slot : CardSlot) (flags : Byte) (expiry : Option Nat) (masked : Text)
  | cardSwipeBad (numeric alpha : TrackResult) (format : Bool)
  | cardStoreFull (numeric alpha : TrackResult)
  | cardWiped (slot : CardSlot) (cause : WipeCause)
  | drawerOpened (tag : Byte) (port : Port) (kind : PermitKind) (attempt : Nat)
  | drawerClosed (port : Port) (seconds : Nat)
  | drawerNoOpen (tag : Byte) (port : Port) (attempt : Nat) (reason : FailReason) (retry : Bool)
  | drawerFailed (tag : Byte) (port : Port) (kind : PermitKind) (reason : FailReason)
  | drawerForced (port : Port) (mode : PortMode)
  | drawerLeftOpen (port : Port) (seconds : Nat)
  | jobDone (tag : Byte) (number : Nat) (role : Role) (lines truncated unavailable : Nat)
  | jobAborted (tag : Byte) (number : Nat) (role : Role) (reason : AbortReason) (ending : Ending)
      (lines truncated unavailable : Nat)
  | paperLow
  | paperOut
  | coverOpen
  | headHot (celsius : Int)
  | cutterJam
  | pwrState (tag : Byte) (event : PowerEvent) (mode : PowerMode) (cause : PowerCause)
  | bindingFailed (slot : Nat) (trigger : Nat) (action : Byte) (status : Status)
  deriving DecidableEq, Repr

/-- A notice in the queue with its age, the order of its admission (R188). -/
structure Queued where
  notice : Notice
  seq    : Nat
  deriving DecidableEq, Repr

/-- Actions of a binding with their argument (R190). -/
inductive BindAction where
  | kick (p : Port)
  | capture (price : Nat)
  | startFeed (lines : Nat)
  | armReader
  deriving DecidableEq, Repr

/-- A binding (R190). -/
structure Binding where
  once    : Bool
  trigger : Nat
  action  : BindAction
  deriving DecidableEq, Repr

/-- The latched conditions with their details (Table 11-2); a condition whose detail names ports or
channels is set while at least one is recorded. -/
structure Latched where
  frameError   : Option RxCause
  noticeLost   : Option Nat
  forcedD1     : Bool
  forcedD2     : Bool
  overD1       : Bool
  overD2       : Bool
  headSensor   : Bool
  bandP        : Bool
  bandB        : Bool
  cutterJam    : Bool
  defaulted    : Bool
  calInvalidP  : Bool
  calInvalidB  : Bool
  deriving DecidableEq, Repr

/-- RPT. `routes` holds the priority of the 38 notice kinds, from code 0x80 on (R186).
DESIGN CHOICE: log entry 38. -/
structure Report where
  routes   : List Nat
  queue    : List Queued
  nextSeq  : Nat
  bind1    : Option Binding
  bind2    : Option Binding
  bind3    : Option Binding
  bind4    : Option Binding
  latched  : Latched
  deriving DecidableEq, Repr

/-! ### SST: the settings store (chapter 11) -/

/-- The settings of Table 11-3, each as the value sent. -/
structure Settings where
  baudRate            : Nat
  noticePush          : Nat
  filterDepthP        : Nat
  filterDepthB        : Nat
  stabilityWindowP    : Nat
  stabilityWindowB    : Nat
  zeroTrackP          : Nat
  zeroTrackB          : Nat
  captureTimeout      : Nat
  drawerGuard         : Nat
  printGuard          : Nat
  printMotionDisturbs : Nat
  tareAutoClear       : Nat
  bagThreshold        : Nat
  bagTimeout          : Nat
  cashPort            : Nat
  kickOnSettle        : Nat
  cardHold            : Nat
  presentD1           : Nat
  presentD2           : Nat
  sensePolarityD1     : Nat
  sensePolarityD2     : Nat
  pulseOn             : Nat
  autoResume          : Nat
  leftOpen            : Nat
  startPolicy         : Nat
  stallLimit          : Nat
  currencyDecimals    : Nat
  darkness            : Nat
  supplyCapacity      : Nat
  dotCurrent          : Nat
  idleStandby         : Nat
  deriving DecidableEq, Repr

/-- Defaults of Table 11-3. -/
def Settings.defaults : Settings where
  baudRate := 115200
  noticePush := 1
  filterDepthP := 16
  filterDepthB := 8
  stabilityWindowP := 30
  stabilityWindowB := 30
  zeroTrackP := 1
  zeroTrackB := 1
  captureTimeout := 3
  drawerGuard := 150
  printGuard := 80
  printMotionDisturbs := 0
  tareAutoClear := 1
  bagThreshold := 20
  bagTimeout := 10
  cashPort := 1
  kickOnSettle := 1
  cardHold := 60
  presentD1 := 1
  presentD2 := 0
  sensePolarityD1 := 0
  sensePolarityD2 := 0
  pulseOn := 120
  autoResume := 1
  leftOpen := 30
  startPolicy := 0
  stallLimit := 2000
  currencyDecimals := 2
  darkness := 3
  supplyCapacity := 40
  dotCurrent := 10
  idleStandby := 5

/-- A channel's calibration block: C0, K and the stored CRC-16 (R195). -/
structure CalBlock where
  c0  : Int
  k   : Nat
  crc : BitVec 16
  deriving DecidableEq, Repr

/-- Writes of the settings store, in the order asked for (R87, R194, R195). -/
inductive StoreWrite where
  | settings
  | marker (set : Bool)
  | calibration (ch : Channel) (count : Nat) (c0 : Int) (k : Nat)
  deriving DecidableEq, Repr

/-- SST. The nonvolatile records, each with its stored CRC-16, the writes asked for (the first is in
progress), and what start-up keeps: whether it has ended and what STARTUP will report (R196, R197).
`count` is the working calibration change count (R43). -/
structure Store where
  block       : Settings
  blockCrc    : BitVec 16
  calP        : CalBlock
  calB        : CalBlock
  storedCount : Nat
  countCrc    : BitVec 16
  marker      : Bool
  writes      : List StoreWrite
  count       : Nat
  started     : Bool
  kind        : ResetKind
  defaulted   : Bool
  interrupted : Bool
  deriving DecidableEq, Repr

/-- The state of the machine. `pending` holds the commands that wait, first in, first out; `calEn` is the
level of the CAL_EN input; `free` counts the free values taken (the model's own field). -/
structure State where
  pending : List Instr
  link    : Link
  wgt     : Weigh
  bag     : Bag
  txn     : Txn
  crd     : Card
  drw     : Drawers
  job     : JobStore
  pen     : Engine
  dsa     : Supply
  lpm     : Power
  rpt     : Report
  set     : Settings
  sst     : Store
  calEn   : Bool
  free    : Nat
  deriving DecidableEq, Repr

/-! ### After reset -/

/-- LINK after reset (R19), at the rate of the loaded settings. -/
def Link.reset (rate : Nat) : Link where
  rate := rate
  rx := { mode := .seek, buf := [], quiet := 0 }
  queue := []
  inExec := none
  replies := []
  tx := none
  snapshot := none
  softReset := false

/-- A channel after reset (R23, R24, R29, R33, R37), with the working calibration of R26.
DESIGN CHOICE: log entry 14. -/
def Chan.reset (valid : Bool) (c0 : Int) (k division : Nat) : Chan where
  calValid := valid
  c0 := c0
  k := k
  calZeroed := false
  win := []
  held := { disturbed := false, filling := true, centre := false, tareHeld := false }
  stab := []
  forced := 0
  range := .inside
  hasValue := false
  f := 0
  w := 0
  g := 0
  net := 0
  d := none
  e := division
  centre := false
  stable := false
  zeroValid := false
  zc := 0
  zw := 0
  track := 0
  suspended := false
  init := .waiting
  op := none

/-- WGT after reset: warming up, no tare, interlock armed, record counter 1 (R47, R54, R60). -/
def Weigh.reset (p b : Chan) : Weigh where
  conv := .warming
  warmAge := 0
  chanP := p
  chanB := b
  tare := 0
  tareKind := .none
  armed := true
  recNo := 1
  actions := []
  guard := none
  stream := none

/-- BAG after reset (R66). -/
def Bag.reset : Bag where
  watch := .off
  rb := 0
  entries := []
  hold := none
  last := .none
  lastDelta := 0

/-- TXN after reset (R85).
DESIGN CHOICE: log entry 14. -/
def Txn.reset : Txn where
  state := .idle
  id := 0
  date := 0
  time := 0
  items := []
  tenders := []
  change := 0
  entitlement := none
  receiptDone := false
  snap := none

/-- An empty track capture (R108). -/
def TrackCap.empty : TrackCap where
  transitions := 0
  window := []
  pexp := none
  bits := []
  half := none
  stop := none
  ended := false
  atLimit := false

/-- CRD after reset (R108). -/
def Card.reset : Card where
  state := .disarmed
  disarm := false
  alpha := TrackCap.empty
  numeric := TrackCap.empty
  swipeAge := 0
  one := none
  two := none

/-- A port after reset (R130, R131): UNKNOWN, the debounce of the input level begun afresh.
DESIGN CHOICE: log entry 14. -/
def PortState.reset (present level : Bool) : PortState where
  mode := .unknown
  present := present
  leaving := false
  level := level
  deb := some 0
  held := none
  attempt := 0
  retry := false
  reason := none
  kick := .none
  tag := 0#8
  wait := 0
  on := false
  onMs := 0
  onTime := 0
  trips := 0
  broken := false
  remembered := false
  openMs := 0

/-- JOB after reset (R145). -/
def JobStore.reset : JobStore where
  table := []
  next := 1

/-- PEN after reset (R164), with the sensors as their first sampling finds them (R165). -/
def Engine.reset (low out cover home : Bool) : Engine where
  mode := .idle
  work := none
  line := none
  paperLow := low
  paperOut := out
  coverOpen := cover
  home := home
  paperHold := false
  coverHold := false
  theta := 25
  hot := false
  cut := none

/-- DSA after reset (R177). -/
def Supply.reset (cap mv : Nat) : Supply where
  loads := []
  queue := []
  cap := cap
  low := false
  mv := mv

/-- LPM after reset (R181). -/
def Power.reset : Power where
  mode := .active
  entry := none
  idle := 0
  gEntry := none

/-- No latched condition (R192). -/
def Latched.clear : Latched where
  frameError := none
  noticeLost := none
  forcedD1 := false
  forcedD2 := false
  overD1 := false
  overD2 := false
  headSensor := false
  bandP := false
  bandB := false
  cutterJam := false
  defaulted := false
  calInvalidP := false
  calInvalidB := false

/-- Default priorities (Table 11-1), from code 0x80 on. -/
def Report.defaultRoutes : List Nat :=
  [7, 5, 6, 5, 5, 4, 4, 4, 4, 4,      -- STARTUP to CAL_DONE
   0, 0, 0, 3, 6, 6, 6, 4, 5,         -- SCALE_STABLE to TXN_CLOSED
   5, 4, 4, 3, 5, 3, 4, 6, 6, 4,      -- CARD_SWIPE to DRAWER_LEFT_OPEN
   5, 5, 2, 5, 5, 3, 6, 3, 4]         -- JOB_DONE to BINDING_FAILED

/-- RPT after reset (R186, R188, R190, R192). -/
def Report.reset : Report where
  routes := Report.defaultRoutes
  queue := []
  nextSeq := 0
  bind1 := none
  bind2 := none
  bind3 := none
  bind4 := none
  latched := Latched.clear

/-- The calibration block that the model takes the store to hold at the first reset: one milligram per
count, the figures R26 gives an uncalibrated channel (DESIGN CHOICE, log entry 2). -/
def CalBlock.first : CalBlock where
  c0 := 0
  k := 65536
  crc := 0x060E#16

/-- The settings store at the first reset: a good settings block holding the defaults, good calibration
blocks, change count 0, marker clear, start-up under way (DESIGN CHOICE, log entry 2). -/
def Store.first : Store where
  block := Settings.defaults
  blockCrc := 0x00C2#16
  calP := CalBlock.first
  calB := CalBlock.first
  storedCount := 0
  countCrc := 0x1D0F#16
  marker := false
  writes := []
  count := 0
  started := false
  kind := .hard
  defaulted := false
  interrupted := false

/-- The machine right after a hard reset, steps 1 to 4 of start-up done and the converters warming up
(R196). The inputs stand at the levels of log entry 3 (DESIGN CHOICE). -/
def State.reset : State where
  pending := []
  link := Link.reset 115200
  wgt := Weigh.reset (Chan.reset true 0 65536 2) (Chan.reset true 0 65536 10)
  bag := Bag.reset
  txn := Txn.reset
  crd := Card.reset
  drw := { d1 := PortState.reset true false, d2 := PortState.reset false false, noSale := none }
  job := JobStore.reset
  pen := Engine.reset false false false true
  dsa := Supply.reset 4000 24000
  lpm := Power.reset
  rpt := Report.reset
  set := Settings.defaults
  sst := Store.first
  calEn := false
  free := 0

end Sys2Proof.Machine
end

