-- ==== Sys2Proof/Machine/Ops.lean ====
section
/-! DEFINITION. The operations every block uses: rounding, the frame check and frame characters, the
codes and payloads of the notices, the notice queue, the transmit arbiter and the reply list, the writes
of the settings store, and reading and writing one channel, port or card slot of the state. -/

namespace Sys2Proof.Machine

/-! ### Rounding (section 7.6 of the scope chapter) -/

/-- Round `n / d` half up, for non-negative quantities. -/
def roundHalfUp (n d : Nat) : Nat := (2 * n + d) / (2 * d)

/-- Round `n / d` to the nearest integer, ties away from zero. -/
def roundHalfAway (n : Int) (d : Nat) : Int :=
  if 0 ≤ n then (roundHalfUp n.natAbs d : Int) else -(roundHalfUp n.natAbs d : Int)

/-- Clamp to an interval. -/
def clampNat (lo hi n : Nat) : Nat := if n < lo then lo else if hi < n then hi else n

/-- A count that saturates at 65,535 (R161). -/
def sat16 (n : Nat) : Nat := min n 65535

/-! ### The frame (R2, R3) -/

/-- One bit of the CRC register of R3, most significant bit first. -/
def crcShift (r : BitVec 16) : BitVec 16 :=
  if r.msb then (r <<< 1) ^^^ 0x1021#16 else r <<< 1

/-- One byte entering the CRC register of R3. -/
def crcByte (r : BitVec 16) (b : Byte) : BitVec 16 :=
  crcShift (crcShift (crcShift (crcShift (crcShift (crcShift (crcShift (crcShift
    (r ^^^ (b.zeroExtend 16 <<< 8)))))))))

/-- The CRC-16 of R3. -/
def crc16 (l : List Byte) : BitVec 16 := l.foldl crcByte 0xFFFF#16

/-- FLAG (section 1.2). -/
def flagByte : Byte := 0x7E#8

/-- ESC (section 1.2). -/
def escByte : Byte := 0x7D#8

/-- The characters one body byte is sent as (R2). -/
def escapeByte (b : Byte) : List Byte :=
  if b = flagByte ∨ b = escByte then [escByte, b ^^^ 0x20#8] else [b]

/-- The kind byte of a frame the device sends (R2). -/
def FrameKind.byte : FrameKind → Byte
  | .reply => 0x02#8
  | .notice => 0x03#8
  | .snapshot => 0x04#8

/-- The unescaped body before its CRC (Table 1-1). -/
def frameHead (kind : FrameKind) (tag code : Byte) (payload : List Byte) : List Byte :=
  kind.byte :: tag :: code :: payload

/-- The characters a frame is sent as: FLAG, escaped body with its CRC, FLAG (R2, R3). -/
def frameLine (kind : FrameKind) (tag code : Byte) (payload : List Byte) : List Byte :=
  let head := frameHead kind tag code payload
  flagByte :: (head ++ be16 (crc16 head).toNat).flatMap escapeByte ++ [flagByte]

/-- A frame on the line (R2). -/
def TxFrame.make (kind : FrameKind) (tag code : Byte) (payload : List Byte) (baud : Option Nat) :
    TxFrame where
  kind := kind
  tag := tag
  code := code
  payload := payload
  line := frameLine kind tag code payload
  baud := baud

/-! ### Codes (Tables 1-2, 6-3, 8-3 and 11-4) -/

/-- Table 1-2. -/
def RxCause.code : RxCause → Byte
  | .short => 1#8
  | .overlong => 2#8
  | .badEscape => 3#8
  | .crc => 4#8
  | .kind => 5#8
  | .stall => 6#8
  | .overrun => 7#8

/-- R88. -/
def BagStatus.code : BagStatus → Byte
  | .none => 0#8
  | .pending => 1#8
  | .overdue => 2#8
  | .bagged => 3#8
  | .skipped => 4#8
  | .unchecked => 5#8
  | .removed => 6#8

/-- Table 3-4. -/
def TareKind.code : TareKind → Byte
  | .none => 0#8
  | .captured => 1#8
  | .preset => 2#8

/-- R197. -/
def InitResult.code : InitResult → Byte
  | .established => 0#8
  | .outOfRange => 1#8
  | .noStable => 2#8
  | .calInvalid => 3#8

/-- Table 11-4. -/
def ZeroFail.code : ZeroFail → Byte
  | .outOfBand => 0#8
  | .timeout => 1#8
  | .cancelled => 2#8
  | .outOfRange => 3#8
  | .noStable => 4#8
  | .calInvalid => 5#8

/-- Table 11-4. -/
def TareFail.code : TareFail → Byte
  | .range => 0#8
  | .timeout => 1#8
  | .cancelled => 2#8

/-- Table 11-4. -/
def CalResult.code : CalResult → Byte
  | .ok => 0#8
  | .range => 1#8
  | .permit => 2#8
  | .timeout => 3#8
  | .cancelled => 4#8

/-- Table 4-3. -/
def Verdict.code : Verdict → Byte
  | .none => 0#8
  | .matched => 1#8
  | .mismatch => 2#8
  | .unexpected => 3#8
  | .removal => 4#8

/-- Table 6-3. -/
def TrackResult.code : TrackResult → Byte
  | .ok => 0#8
  | .noData => 1#8
  | .noStart => 2#8
  | .noEnd => 3#8
  | .parity => 4#8
  | .lrc => 5#8
  | .cellError => 6#8
  | .speed => 7#8
  | .overlong => 8#8

/-- R123. -/
def WipeCause.code : WipeCause → Byte
  | .holdTimer => 0#8
  | .discard => 1#8
  | .close => 2#8
  | .void => 3#8

/-- R143. -/
def PortMode.code : PortMode → Byte
  | .unknown => 0#8
  | .closed => 1#8
  | .grantWait => 2#8
  | .kicking => 3#8
  | .waitOpen => 4#8
  | .opened => 5#8
  | .openOverdue => 6#8
  | .fault => 7#8

/-- R139. -/
def PermitKind.code : PermitKind → Byte
  | .none => 0#8
  | .entitlement => 1#8
  | .noSale => 2#8

/-- R143. -/
def FailReason.code : FailReason → Byte
  | .noGrant => 0#8
  | .overcurrent => 1#8
  | .noOpen => 2#8
  | .absent => 3#8

/-- Table 8-3. -/
def Role.code : Role → Byte
  | .receipt => 0#8
  | .reprint => 1#8
  | .free => 2#8

/-- R162. -/
def AbortReason.code : AbortReason → Byte
  | .host => 0#8
  | .underrun => 1#8
  | .voided => 2#8
  | .cutter => 3#8

/-- R162. -/
def Ending.code : Ending → Byte
  | .marked => 0#8
  | .cutOnly => 1#8
  | .none => 2#8
  | .incomplete => 3#8

/-- Table 11-4. -/
def CloseOutcome.code : CloseOutcome → Byte
  | .normal => 0#8
  | .forced => 1#8
  | .voided => 2#8

/-- R181. -/
def PowerEvent.code : PowerEvent → Byte
  | .entered => 0#8
  | .woken => 1#8
  | .cancelled => 2#8

/-- Table 11-4. -/
def PowerMode.code : PowerMode → Byte
  | .active => 0#8
  | .standby => 1#8
  | .dormant => 2#8

/-- R181. -/
def PowerCause.code : PowerCause → Byte
  | .request => 0#8
  | .idleTimer => 1#8
  | .wakeRequest => 2#8
  | .swipe => 3#8
  | .weight => 4#8
  | .forcedDrawer => 5#8
  | .work => 6#8
  | .pwrWake => 7#8
  | .lost => 8#8

/-- R197. -/
def ResetKind.code : ResetKind → Byte
  | .hard => 0#8
  | .soft => 1#8

/-- A debounced sense: 0 CLOSED, 1 OPEN, 0xFF absent (R143, R197). -/
def senseByte : Option Bool → Byte
  | none => 0xFF#8
  | some o => flag8 o

/-- "D with presence" (R199). -/
def presenceD : Option Int → List Byte
  | none => 0#8 :: beInt32 0
  | some d => 1#8 :: beInt32 d

/-- An expiry or service code, 0xFFFF when absent (Table 6-3). -/
def orAbsent : Option Nat → List Byte
  | none => be16 65535
  | some n => be16 n

/-- The reason set of WEIGH_FAILED as bits (Table 11-4). -/
def Reasons.bits (r : Reasons) : Nat :=
  r.zeroInvalid.toNat + 2 * r.motion.toNat + 4 * r.disturbed.toNat + 8 * r.overRange.toNat +
    16 * r.underRange.toNat + 32 * r.belowMin.toNat + 64 * r.notRearmed.toNat + 128 * r.full.toNat +
    256 * r.limit.toNat + 512 * r.cancelled.toNat

/-- The code of a notice (Table 1-5). -/
def Notice.code : Notice → Nat
  | .startup .. => 0x80
  | .linkFrameError .. => 0x81
  | .noticeLost .. => 0x82
  | .weighDone .. => 0x83
  | .weighFailed .. => 0x84
  | .zeroDone .. => 0x85
  | .zeroFailed .. => 0x86
  | .tareDone .. => 0x87
  | .tareFailed .. => 0x88
  | .calDone .. => 0x89
  | .scaleStable .. => 0x8A
  | .scaleMotion .. => 0x8B
  | .scaleOver .. => 0x8C
  | .bagMatch .. => 0x8D
  | .bagMismatch .. => 0x8E
  | .bagUnexpected .. => 0x8F
  | .bagRemoval .. => 0x90
  | .bagOverdue .. => 0x91
  | .txnClosed .. => 0x92
  | .cardSwipe .. => 0x93
  | .cardSwipeBad .. => 0x94
  | .cardStoreFull .. => 0x95
  | .cardWiped .. => 0x96
  | .drawerOpened .. => 0x97
  | .drawerClosed .. => 0x98
  | .drawerNoOpen .. => 0x99
  | .drawerFailed .. => 0x9A
  | .drawerForced .. => 0x9B
  | .drawerLeftOpen .. => 0x9C
  | .jobDone .. => 0x9D
  | .jobAborted .. => 0x9E
  | .paperLow => 0x9F
  | .paperOut => 0xA0
  | .coverOpen => 0xA1
  | .headHot .. => 0xA2
  | .cutterJam => 0xA3
  | .pwrState .. => 0xA4
  | .bindingFailed .. => 0xA5

/-- The payload of a notice (Table 11-4). -/
def Notice.payload : Notice → List Byte
  | .startup kind defaulted cp cb zp zb intr count d1 d2 =>
    [kind.code, flag8 defaulted, flag8 cp, flag8 cb, zp.code, zb.code, flag8 intr] ++ be16 count ++
      [senseByte d1, senseByte d2]
  | .linkFrameError cause => [cause.code]
  | .noticeLost code => [u8 code]
  | .weighDone tag slot number net tare price total bag =>
    [tag, u8 slot] ++ be16 number ++ be16 net ++ be16 tare ++ be32 price ++ be32 total ++ [bag.code]
  | .weighFailed tag reasons => tag :: be16 reasons.bits
  | .zeroDone tag ch zw moved => [tag, ch.byte] ++ beInt32 zw ++ [flag8 moved]
  | .zeroFailed tag ch reason w => [tag, ch.byte, reason.code] ++ beInt32 w
  | .tareDone tag grams kind => tag :: be16 grams ++ [kind.code]
  | .tareFailed tag reason d => [tag, reason.code] ++ presenceD d
  | .calDone tag ch span result c0 k count =>
    [tag, ch.byte, flag8 span, result.code] ++ beInt32 c0 ++ be32 k ++ be16 count
  | .scaleStable ch d => ch.byte :: presenceD d
  | .scaleMotion ch d => ch.byte :: presenceD d
  | .scaleOver ch under => [ch.byte, flag8 under]
  | .bagMatch slot remove delta weight overdue =>
    [u8 slot, flag8 remove] ++ beInt32 delta ++ be16 weight ++ [flag8 overdue]
  | .bagMismatch delta d n held => beInt32 delta ++ beInt32 d ++ [u8 n, flag8 held]
  | .bagUnexpected delta d n held => beInt32 delta ++ beInt32 d ++ [u8 n, flag8 held]
  | .bagRemoval delta d n held => beInt32 delta ++ beInt32 d ++ [u8 n, flag8 held]
  | .bagOverdue slot remove weight => [u8 slot, flag8 remove] ++ be16 weight
  | .txnClosed tag outcome id total change items =>
    [tag, outcome.code] ++ be32 id ++ be32 total ++ be32 change ++ [u8 items]
  | .cardSwipe slot flags expiry masked =>
    [slot.byte, u8 masked.length, flags] ++ orAbsent expiry ++ textField masked
  | .cardSwipeBad numeric alpha format => [numeric.code, alpha.code, flag8 format]
  | .cardStoreFull numeric alpha => [numeric.code, alpha.code]
  | .cardWiped slot cause => [slot.byte, cause.code]
  | .drawerOpened tag port kind attempt => [tag, port.byte, kind.code, u8 attempt]
  | .drawerClosed port seconds => port.byte :: be16 seconds
  | .drawerNoOpen tag port attempt reason retry =>
    [tag, port.byte, u8 attempt, reason.code, flag8 retry]
  | .drawerFailed tag port kind reason => [tag, port.byte, kind.code, reason.code]
  | .drawerForced port mode => [port.byte, mode.code]
  | .drawerLeftOpen port seconds => port.byte :: be16 seconds
  | .jobDone tag number role lines truncated unavailable =>
    [tag, u8 number, role.code] ++ be16 lines ++ be16 truncated ++ be16 unavailable
  | .jobAborted tag number role reason ending lines truncated unavailable =>
    [tag, u8 number, role.code, reason.code, ending.code] ++ be16 lines ++ be16 truncated ++
      be16 unavailable
  | .paperLow => []
  | .paperOut => []
  | .coverOpen => []
  | .headHot celsius => [BitVec.ofInt 8 celsius]
  | .cutterJam => []
  | .pwrState tag event mode cause => [tag, event.code, mode.code, cause.code]
  | .bindingFailed slot trigger action status => [u8 slot, u8 trigger, action, status.code]

/-! ### The notice queue (R186, R188) -/

/-- The priority of a notice kind (R186); a code that names no kind has none. -/
def Report.prioOf (r : Report) (code : Nat) : Nat := r.routes.getD (code - 0x80) 0

/-- The priority a queued notice stands at: its kind's (R187). -/
def Report.prio (r : Report) (q : Queued) : Nat := r.prioOf q.notice.code

/-- Admit a notice behind every notice of its own or a higher priority (R188). -/
def Report.admitNotice (r : Report) (n : Notice) : Report :=
  { r with
    queue := r.queue.takeWhile (fun q => decide (r.prioOf n.code ≤ r.prio q)) ++
      { notice := n, seq := r.nextSeq } ::
        r.queue.dropWhile (fun q => decide (r.prioOf n.code ≤ r.prio q))
    nextSeq := r.nextSeq + 1 }

/-- Offer a notice at its kind's priority; the second component is the code of the notice that was
discarded from a full queue (R186, R188). -/
def Report.offerOnce (r : Report) (n : Notice) : Report × Option Nat :=
  if r.prioOf n.code = 0 then (r, none)
  else if r.queue.length < 16 then (r.admitNotice n, none)
  else
    match r.queue.getLast? with
    | none => (r, none)
    | some l =>
      if r.prio l < r.prioOf n.code ∨ n.code = 0x80 then
        ({ r with queue := r.queue.dropLast }.admitNotice n, some l.notice.code)
      else (r, some n.code)

/-- Offer a notice; a discard from a full queue sets NOTICE_LOST and offers its notice, once (R188). -/
def Report.offer (r : Report) (n : Notice) : Report :=
  match r.offerOnce n with
  | (r', none) => r'
  | (r', some lost) =>
    if r'.latched.noticeLost.isSome then r'
    else ({ r' with latched.noticeLost := some lost }.offerOnce (.noticeLost lost)).1

/-! ### The transmit arbiter (R14) and the reply list (R13) -/

/-- The reply as a frame (R2, R11). -/
def Reply.frame (p : Reply) : TxFrame :=
  TxFrame.make .reply p.tag p.code (p.status.code :: p.data) p.baud

/-- R14: when the transmitter is free, the oldest reply, else the snapshot slot, else the head notice with
NOTICE_PUSH on. While a soft reset waits, only replies are taken (R18). -/
def arbitrate (s : State) : State :=
  if s.link.tx.isSome then s
  else
    match s.link.replies with
    | p :: rest => { s with link.replies := rest, link.tx := some p.frame }
    | [] =>
      if s.link.softReset then s
      else
        match s.link.snapshot with
        | some body =>
          { s with
            link.snapshot := none
            link.tx := some (TxFrame.make .snapshot 0#8 0xF0#8 body none) }
        | none =>
          if s.set.noticePush = 0 then s
          else
            match s.rpt.queue with
            | [] => s
            | q :: rest =>
              { s with
                rpt.queue := rest
                link.tx := some (TxFrame.make .notice 0#8 (u8 q.notice.code) q.notice.payload none) }

/-- How a block raises a notice. Outside a bound action the bindings of its kind fire first (R186); inside
one they do not (R191), which is `raiseQuiet`. -/
abbrev Raise := Notice → State → State

/-- Raise a notice without firing bindings: offer it to the queue (R186, R191). -/
def raiseQuiet : Raise := fun n s => arbitrate { s with rpt := s.rpt.offer n }

/-- Place a reply at the tail of the reply list (R9, R13). -/
def placeReply (p : Reply) (s : State) : State :=
  arbitrate { s with link.replies := s.link.replies ++ [p] }

/-- Fill the snapshot slot (R15). -/
def fillSnapshot (body : List Byte) (s : State) : State :=
  arbitrate { s with link.snapshot := some body }

/-- Reply places in use (R13). -/
def Link.placesInUse (l : Link) : Nat :=
  l.queue.length + (if l.inExec.isSome then 1 else 0) + l.replies.length +
    (match l.tx with
     | some f => if f.kind = .reply then 1 else 0
     | none => 0)

/-- ATTN: active while the notice queue holds a notice (R16). -/
def State.attn (s : State) : Bool := !s.rpt.queue.isEmpty

/-! ### One channel, one port, one card slot -/

/-- A channel of the weighing engine. -/
def State.chan (s : State) : Channel → Chan
  | .p => s.wgt.chanP
  | .b => s.wgt.chanB

/-- Replace a channel. -/
def State.setChan (s : State) (ch : Channel) (c : Chan) : State :=
  match ch with
  | .p => { s with wgt.chanP := c }
  | .b => { s with wgt.chanB := c }

/-- A drawer port. -/
def State.port (s : State) : Port → PortState
  | .d1 => s.drw.d1
  | .d2 => s.drw.d2

/-- Replace a drawer port. -/
def State.setPort (s : State) (p : Port) (q : PortState) : State :=
  match p with
  | .d1 => { s with drw.d1 := q }
  | .d2 => { s with drw.d2 := q }

/-- A card slot. -/
def State.card (s : State) : CardSlot → Option CardRec
  | .one => s.crd.one
  | .two => s.crd.two

/-- Replace a card slot. -/
def State.setCard (s : State) (c : CardSlot) (r : Option CardRec) : State :=
  match c with
  | .one => { s with crd.one := r }
  | .two => { s with crd.two := r }

/-! ### Channel figures (Table 2-1) and settings by channel and port -/

end Sys2Proof.Machine

namespace Sys2Proof

/-- OVER when gross exceeds this, in mg. -/
def Channel.overLimit : Channel → Int
  | .p => 15045000
  | .b => 30090000

/-- UNDER when gross is below this, in mg. -/
def Channel.underLimit : Channel → Int
  | .p => -40000
  | .b => -200000

/-- Half-width of the zero band around Zc, in mg. -/
def Channel.zeroBand : Channel → Int
  | .p => 300000
  | .b => 600000

/-- Initial zero range, in mg. -/
def Channel.initRange : Channel → Int
  | .p => 1500000
  | .b => 3000000

/-- Zero tracking window, in mg. -/
def Channel.trackWindow : Channel → Int
  | .p => 1000
  | .b => 5000

/-- Centre-zero window, in mg. -/
def Channel.centreWindow : Channel → Int
  | .p => 500
  | .b => 2500

/-- Maximum capacity in grams. -/
def Channel.maxGrams : Channel → Nat
  | .p => 15000
  | .b => 30000

/-- The division in grams of the interval an unrounded net weight lies in (R20, R28). -/
def Channel.division (ch : Channel) (net : Int) : Nat :=
  match ch with
  | .p => if net ≤ 6000000 then 2 else 5
  | .b => 10

/-- Round an unrounded weight in mg to whole divisions, in grams (R28). -/
def Channel.toD (ch : Channel) (mg : Int) : Int :=
  (ch.division mg : Int) * Machine.roundHalfAway mg (1000 * ch.division mg)

end Sys2Proof

namespace Sys2Proof.Machine

/-- A weight in mg rounded half away to grams. -/
def mgToGrams (mg : Int) : Int := roundHalfAway mg 1000

/-- FILTER_DEPTH of a channel. -/
def Settings.filterDepth (t : Settings) : Channel → Nat
  | .p => t.filterDepthP
  | .b => t.filterDepthB

/-- STABILITY_WINDOW of a channel. -/
def Settings.stabilityWindow (t : Settings) : Channel → Nat
  | .p => t.stabilityWindowP
  | .b => t.stabilityWindowB

/-- ZERO_TRACK of a channel. -/
def Settings.zeroTrack (t : Settings) : Channel → Bool
  | .p => t.zeroTrackP != 0
  | .b => t.zeroTrackB != 0

/-- PRESENT of a port (R129). -/
def Settings.present (t : Settings) : Port → Bool
  | .d1 => t.presentD1 != 0
  | .d2 => t.presentD2 != 0

/-- Whether SENSE_POLARITY of a port is OPEN_LOW (R129). -/
def Settings.openLow (t : Settings) : Port → Bool
  | .d1 => t.sensePolarityD1 != 0
  | .d2 => t.sensePolarityD2 != 0

/-- CASH_PORT (R100). -/
def Settings.cash (t : Settings) : Port := if t.cashPort = 2 then .d2 else .d1

/-- The debounced sense of a port, OPEN or CLOSED by SENSE_POLARITY, absent until the input has held one
level (R130). -/
def State.sense (s : State) (p : Port) : Option Bool :=
  (s.port p).held.map fun high => if s.set.openLow p then !high else high

/-! ### The settings store's writes (R87, R194, R195) -/

/-- Ask for a write of the settings store, behind the writes asked for before it. -/
def askWrite (w : StoreWrite) (s : State) : State := { s with sst.writes := s.sst.writes ++ [w] }

/-- The four bytes of every setting, in setting-number order (R194). -/
def Settings.bytes (t : Settings) : List Byte :=
  [t.baudRate, t.noticePush, t.filterDepthP, t.filterDepthB, t.stabilityWindowP, t.stabilityWindowB,
   t.zeroTrackP, t.zeroTrackB, t.captureTimeout, t.drawerGuard, t.printGuard, t.printMotionDisturbs,
   t.tareAutoClear, t.bagThreshold, t.bagTimeout, t.cashPort, t.kickOnSettle, t.cardHold, t.presentD1,
   t.presentD2, t.sensePolarityD1, t.sensePolarityD2, t.pulseOn, t.autoResume, t.leftOpen,
   t.startPolicy, t.stallLimit, t.currencyDecimals, t.darkness, t.supplyCapacity, t.dotCurrent,
   t.idleStandby].flatMap be32

/-- The contents of a calibration block (R195). -/
def CalBlock.bytes (b : CalBlock) : List Byte := beInt32 b.c0 ++ be32 b.k

/-- A calibration block written whole (R195). -/
def CalBlock.seal (c0 : Int) (k : Nat) : CalBlock :=
  { c0 := c0, k := k, crc := crc16 (beInt32 c0 ++ be32 k) }

/-- Whether a calibration block loads good (R195). -/
def CalBlock.good (b : CalBlock) : Bool := decide (b.crc = crc16 b.bytes)

/-- Whether the settings block loads good (R194). -/
def Store.blockGood (t : Store) : Bool := decide (t.blockCrc = crc16 t.block.bytes)

/-- Whether the count record loads good (R195). -/
def Store.countGood (t : Store) : Bool := decide (t.countCrc = crc16 (be16 t.storedCount))

end Sys2Proof.Machine
end

