-- ==== Sys2Proof/Machine/Flags.lean ====
section
/-! DEFINITION. The flag words: the readout record of a channel (Table 3-4), the live and latched
condition sets (Table 11-2), the flags of a card record (Table 6-3). -/

namespace Sys2Proof.Machine

/-- Bits of a word, lowest first, as a number. -/
def bitsNat : List Bool → Nat
  | [] => 0
  | b :: rest => b.toNat + 2 * bitsNat rest

/-- Whether the channels are DISTURBED: an action or a guard is in force (R35). -/
def Weigh.disturbed (w : Weigh) : Bool := !w.actions.isEmpty || w.guard.isSome

/-- Whether a channel's smoothing window is FILLING (R24). -/
def State.filling (s : State) (ch : Channel) : Bool :=
  decide ((s.chan ch).win.length < s.set.filterDepth ch)

/-- The flags of R62 that a channel without readings keeps, as the readout shows them: those of its state
while it produces readings, those it holds while it produces none (R62).
DEDUCED: log entry 13. -/
def State.shown (s : State) (ch : Channel) : HeldFlags :=
  if s.wgt.conv = .running then
    { disturbed := s.wgt.disturbed
      filling := s.filling ch
      centre := (s.chan ch).centre
      tareHeld := decide (ch = .p) && decide (0 < s.wgt.tare) }
  else (s.chan ch).held

/-- The readout flags of R62, bit 0 first; NOT_READY is set while the channel is off or warming up.
DESIGN CHOICE: log entry 53. -/
def State.readoutFlags (s : State) (ch : Channel) : List Bool :=
  let c := s.chan ch
  let h := s.shown ch
  [c.d.isSome,
   c.stable,
   !c.stable,
   h.disturbed,
   h.filling,
   !c.zeroValid,
   h.centre,
   decide (c.range = .overRange),
   decide (c.range = .underRange),
   h.tareHeld,
   !c.calValid,
   decide (s.wgt.conv ≠ .running),
   decide (ch = .p) && s.wgt.armed]

/-- The readout record, 10 bytes (Table 3-4); the tare, its kind, TARE_HELD and CAPTURE_ARMED are those of the moment
at which it is formed (R62).
DESIGN CHOICE: log entry 71. -/
def State.readout (s : State) (ch : Channel) : List Byte :=
  let c := s.chan ch
  be16 (bitsNat (s.readoutFlags ch)) ++ beInt32 (c.d.getD 0) ++ [u8 c.e] ++
    (match ch with
     | .p => be16 (s.wgt.tare / 1000) ++ [s.wgt.tareKind.code]
     | .b => be16 0 ++ [0#8])

/-- The channel byte and the readout record, 11 bytes (R15, R63). -/
def State.readoutBody (s : State) (ch : Channel) : List Byte := ch.byte :: s.readout ch

/-- The live conditions, bit 0 first (Table 11-2). -/
def State.live (s : State) : List Bool :=
  [s.pen.paperLow, s.pen.paperOut, s.pen.coverOpen, s.dsa.low, s.pen.hot,
   !s.wgt.chanP.zeroValid, !s.wgt.chanB.zeroValid,
   decide (s.wgt.chanP.range = .overRange), decide (s.wgt.chanB.range = .overRange),
   decide (s.wgt.chanP.range = .underRange), decide (s.wgt.chanB.range = .underRange),
   decide (s.sense .d1 = some true), decide (s.sense .d2 = some true),
   (s.sense .d1).isSome, (s.sense .d2).isSome]

/-- The latched conditions, bit 0 first (Table 11-2). -/
def Latched.bits (l : Latched) : List Bool :=
  [l.frameError.isSome, l.noticeLost.isSome, l.forcedD1 || l.forcedD2, l.overD1 || l.overD2,
   l.headSensor, l.bandP || l.bandB, l.cutterJam, l.defaulted, l.calInvalidP || l.calInvalidB]

/-- The reply data of COND_FETCH: live set, latched set, details; the code of a clear condition is 0 (R192).
DESIGN CHOICE: log entry 70. -/
def State.conditions (s : State) : List Byte :=
  let l := s.rpt.latched
  be16 (bitsNat s.live) ++ be16 (bitsNat l.bits) ++
    [(l.frameError.map RxCause.code).getD 0#8, u8 (l.noticeLost.getD 0),
     u8 (bitsNat [l.forcedD1, l.forcedD2]), u8 (bitsNat [l.overD1, l.overD2]),
     u8 (bitsNat [l.bandP, l.bandB]), u8 (bitsNat [l.calInvalidP, l.calInvalidB])]

/-- Clear the latched conditions a mask names, with their details (R192). -/
def Latched.clearMask (l : Latched) (m : BitVec 16) : Latched where
  frameError := if m.getLsbD 0 then none else l.frameError
  noticeLost := if m.getLsbD 1 then none else l.noticeLost
  forcedD1 := !m.getLsbD 2 && l.forcedD1
  forcedD2 := !m.getLsbD 2 && l.forcedD2
  overD1 := !m.getLsbD 3 && l.overD1
  overD2 := !m.getLsbD 3 && l.overD2
  headSensor := !m.getLsbD 4 && l.headSensor
  bandP := !m.getLsbD 5 && l.bandP
  bandB := !m.getLsbD 5 && l.bandB
  cutterJam := !m.getLsbD 6 && l.cutterJam
  defaulted := !m.getLsbD 7 && l.defaulted
  calInvalidP := !m.getLsbD 8 && l.calInvalidP
  calInvalidB := !m.getLsbD 8 && l.calInvalidB

/-- The flags byte of a card record (Table 6-3). -/
def CardRec.flags (r : CardRec) : Byte :=
  u8 (bitsNat [r.expired, r.check, r.disagree, r.format, r.released, r.bindable])

end Sys2Proof.Machine
end

