-- ==== Sys2Proof/Machine/Scale.lean ====
section
/-! DEFINITION. The weighing engine's shared operations (chapters 2 and 3): the figures of a reading,
stable and motion events, disturbance, zero, tare, and the end of start-up. Operations that raise notices
take the way of raising them as their argument `r`. -/

namespace Sys2Proof.Machine

/-! ### Figures of a reading -/

/-- W (R26): (F − C0) × K ÷ 65,536, rounded half away. -/
def calibrated (f c0 : Int) (k : Nat) : Int := roundHalfAway ((f - c0) * (k : Int)) 65536

/-- F (R24): the rounded mean of the readings in the smoothing window. -/
def smoothed (win : List Int) : Int := (win.sum + (win.length / 2 : Nat)) / (win.length : Int)

/-- The decimated value of a block (R22). -/
def sampleValues (b : Samples) : List Int :=
  [b.s0.toInt, b.s1.toInt, b.s2.toInt, b.s3.toInt, b.s4.toInt, b.s5.toInt, b.s6.toInt, b.s7.toInt]

/-- floor(sum ÷ 8) (R22). -/
def decimate (l : List Int) : Int := l.sum / 8

/-- The overrange flag a block forces, if any of its samples is an extreme code (R21, R22). -/
def overrange (l : List Int) : Option RangeFlag :=
  if -8388608 ∈ l then some .underRange else if 8388607 ∈ l then some .overRange else none

/-- The most recent n entries of a list kept oldest first. -/
def lastN (n : Nat) (l : List Int) : List Int := l.drop (l.length - n)

/-- The range flag of a gross weight (R29). -/
def rangeOf (ch : Channel) (g : Int) : RangeFlag :=
  if ch.overLimit < g then .overRange else if g < ch.underLimit then .underRange else .inside

/-- The figures that follow from W, the zero offset and the tare: gross, net, range flag unless forced,
centre zero, division and D (R27 to R31). -/
def Chan.weighed (c : Chan) (ch : Channel) (tare : Nat) : Chan :=
  let g := c.w - c.zw
  let net := match ch with
    | .p => g - (tare : Int)
    | .b => g
  let range := if c.forced = 0 then rangeOf ch g else c.range
  { c with
    g := g
    net := net
    range := range
    centre := c.zeroValid && decide ((g.natAbs : Int) ≤ ch.centreWindow)
    e := ch.division net
    d := if c.calValid && c.zeroValid && decide (range = .inside) then some (ch.toD net) else none }

/-- The spread of a stability window: largest minus smallest (R33). -/
def spread : List Int → Int
  | [] => 0
  | x :: rest => rest.foldl max x - rest.foldl min x

/-! ### Stable and motion events (R34), windows (R24, R33) -/

/-- The channel leaves STABLE with a motion event, if it is STABLE (R34). -/
def leaveStable (r : Raise) (ch : Channel) (s : State) : State :=
  if (s.chan ch).stable then
    r (.scaleMotion ch (s.chan ch).d) (s.setChan ch { s.chan ch with stable := false })
  else s

/-- The stability window restarts (R33, R34). -/
def restartStability (r : Raise) (ch : Channel) (s : State) : State :=
  leaveStable r ch (s.setChan ch { s.chan ch with stab := [] })

/-- Both windows restart (R24, R25). -/
def restartWindows (r : Raise) (ch : Channel) (s : State) : State :=
  restartStability r ch (s.setChan ch { s.chan ch with win := [] })

/-! ### Disturbance (R35, R36) -/

/-- A disturbing action starts: both channels become DISTURBED (R35, R36). -/
def disturbStart (r : Raise) (a : Action) (s : State) : State :=
  leaveStable r .b (leaveStable r .p { s with wgt.actions := a :: s.wgt.actions })

/-- At the moment the last disturbed period ends, the stability windows restart (R36). -/
def judgeQuiet (r : Raise) (s : State) : State :=
  if s.wgt.disturbed then s else restartStability r .b (restartStability r .p s)

/-- A disturbing action ends; its period lasts for the guard that follows (R35, Table 2-4). -/
def disturbEnd (r : Raise) (a : Action) (guardMs : Nat) (s : State) : State :=
  if a ∈ s.wgt.actions then
    judgeQuiet r { s with
      wgt.actions := s.wgt.actions.erase a
      wgt.guard := if guardMs = 0 then s.wgt.guard else some (max guardMs (s.wgt.guard.getD 0)) }
  else s

/-- The latest-ending guard runs out (R35, R36). -/
def guardEnd (r : Raise) (s : State) : State :=
  if s.wgt.guard.isSome then judgeQuiet r { s with wgt.guard := none } else s

/-! ### Tare and zero -/

/-- The tare is cleared (R47). -/
def clearTare (s : State) : State := { s with wgt.tare := 0, wgt.tareKind := .none }

/-- A channel's zero becomes invalid: tracking suspension ends, the channel has no D and no centre-zero
flag, and on P the tare is cleared (R37, R47). -/
def invalidateZero (ch : Channel) (s : State) : State :=
  let s' := s.setChan ch
    { s.chan ch with zeroValid := false, suspended := false, track := 0, centre := false, d := none }
  match ch with
  | .p => clearTare s'
  | .b => s'

/-- Zero is established or moved: the offset, and the figures of the reading against it (R34, R37). On
channel B the reference bag weight becomes 0 (R70). -/
def setZero (ch : Channel) (zc zw : Int) (s : State) : State :=
  let s' := s.setChan ch
    ({ s.chan ch with zeroValid := true, zc := zc, zw := zw }.weighed ch s.wgt.tare)
  match ch with
  | .p => s'
  | .b => { s' with bag.rb := 0 }

/-- Free a channel's operation slot (R39). -/
def freeSlot (ch : Channel) (s : State) : State := s.setChan ch { s.chan ch with op := none }

/-- Take a channel's operation slot (R39).
DEDUCED: log entry 32. -/
def takeSlot (ch : Channel) (kind : OpKind) (tag : Byte) (limit : Nat) (s : State) : State :=
  s.setChan ch { s.chan ch with
    op := some { kind := kind, tag := tag, age := 0, limit := limit, writing := false } }

/-! ### Initial zero attempts and the end of start-up (R38, R196, R197) -/

/-- The result of an initial zero attempt that has ended. -/
def InitZero.result : InitZero → Option InitResult
  | .ended x => some x
  | _ => none

/-- Step 7 of start-up: once both attempts have ended, STARTUP is queued and the idle timer starts; it says
whether step 1 took the defaults (R196, R197).
DESIGN CHOICE: log entry 58. -/
def judgeStarted (r : Raise) (s : State) : State :=
  if s.sst.started then s
  else
    match s.wgt.chanP.init.result, s.wgt.chanB.init.result with
    | some p, some b =>
      r (.startup s.sst.kind s.sst.defaulted s.wgt.chanP.calValid s.wgt.chanB.calValid p b
          s.sst.interrupted s.sst.count (s.sense .d1) (s.sense .d2))
        { s with sst.started := true, lpm.idle := 0 }
    | _, _ => s

/-- The reason of ZERO_FAILED for an initial zero attempt (R38). -/
def InitResult.fail : InitResult → ZeroFail
  | .established | .outOfRange => .outOfRange
  | .noStable => .noStable
  | .calInvalid => .calInvalid

/-- An initial zero attempt ends with a result: at start-up it is kept for STARTUP, after a DORMANT exit
it is reported with origin tag 0 (R38). -/
def endAttempt (r : Raise) (ch : Channel) (res : InitResult) (s : State) : State :=
  let s := s.setChan ch { s.chan ch with init := .ended res }
  if s.sst.started then
    match res with
    | .established => r (.zeroDone 0#8 ch (mgToGrams (s.chan ch).zw) false) s
    | _ => r (.zeroFailed 0#8 ch res.fail 0) s
  else s

/-- The attempt begins at the end of a warm-up; none is made on a channel whose calibration is invalid
(R38). -/
def beginAttempt (r : Raise) (ch : Channel) (s : State) : State :=
  if (s.chan ch).calValid then s.setChan ch { s.chan ch with init := .running 0 }
  else endAttempt r ch .calInvalid s

/-- What an entry into DORMANT makes of an attempt: a running one ends with NO_STABLE, one not yet begun ends
the same way, or at start-up with CAL_INVALID (R38, R196). -/
def InitZero.stopped (started calValid : Bool) : InitZero → InitZero
  | .running _ => .ended .noStable
  | .waiting => .ended (if started || calValid then .noStable else .calInvalid)
  | .ended x => .ended x

/-- An entry into DORMANT ends the attempts of both channels (R38, R196). -/
def stopAttempts (s : State) : State :=
  { s with
    wgt.chanP.init := s.wgt.chanP.init.stopped s.sst.started s.wgt.chanP.calValid
    wgt.chanB.init := s.wgt.chanB.init.stopped s.sst.started s.wgt.chanB.calValid }

/-- Once start-up has ended, the end of an attempt that ran is reported (R38). -/
def reportStopped (r : Raise) (ch : Channel) (before : InitZero) (s : State) : State :=
  match before with
  | .running _ => r (.zeroFailed 0#8 ch .noStable 0) s
  | _ => s

/-! ### Calibration results -/

/-- Raise CAL_DONE with the C0 and K then in force and the change count (R42). -/
def raiseCalDone (r : Raise) (ch : Channel) (tag : Byte) (span : Bool) (res : CalResult) (s : State) :
    State :=
  r (.calDone tag ch span res (s.chan ch).c0 (s.chan ch).k s.sst.count) s

end Sys2Proof.Machine
end

