-- ==== Sys2Proof/Machine/Bag.lean ====
section
/-! DEFINITION. The bagging monitor's operations (chapter 4): the expectation list, settles and their
verdicts, HOLD, and the bag status of the items it keeps informed (R84). -/

namespace Sys2Proof.Machine

/-- Change the item in a slot of the current sale. -/
def modItem (slot : Nat) (f : Item → Item) (s : State) : State :=
  { s with txn.items := s.txn.items.map fun it => if it.slot = slot then f it else it }

/-- Set an item's bag status (R84). -/
def setBagStatus (slot : Nat) (b : BagStatus) (s : State) : State :=
  modItem slot (fun it => { it with bag := b }) s

/-- The item in a slot of a list. -/
def findItem (slot : Nat) (l : List Item) : Option Item := l.find? fun it => it.slot == slot

/-- The default tolerance of an expected weight (R72). -/
def defaultTolerance (w : Nat) : Nat := max 30 (w * 5 / 100)

/-- A new entry: PENDING, age 0, with the tolerance given or the default for 0 (R72). -/
def Entry.new (slot : Nat) (remove : Bool) (weight tol : Nat) : Entry where
  slot := slot
  remove := remove
  weight := weight
  tol := if tol = 0 then defaultTolerance weight else tol
  age := 0
  overdue := false

/-- Append an entry and make the item PENDING, or UNCHECKED where the list holds 8 (R73 to R76). -/
def appendEntry (e : Entry) (s : State) : State :=
  if s.bag.entries.length < 8 then
    setBagStatus e.slot .pending { s with bag.entries := s.bag.entries ++ [e] }
  else setBagStatus e.slot .unchecked s

/-- Remove the entry of a slot (R71). -/
def dropEntry (slot : Nat) (s : State) : State :=
  { s with bag.entries := s.bag.entries.filter fun e => e.slot != slot }

/-- The void of an item (R75). -/
def bagVoidItem (it : Item) (s : State) : State :=
  match it.bag with
  | .pending | .overdue => setBagStatus it.slot .none (dropEntry it.slot s)
  | .bagged =>
    match it.matched with
    | some (w, tol) => appendEntry (Entry.new it.slot true w tol) s
    | none => s
  | _ => s

/-- The monitor enters OFF: list emptied, hold record discarded, last verdict kept (R67). -/
def bagOff (s : State) : State :=
  { s with bag.watch := .off, bag.entries := [], bag.hold := none }

/-- TXN_BEGIN: WATCH, the reference latched, last verdict NONE (R67, R68). -/
def bagBegin (s : State) : State :=
  { s with
    bag.watch := .watch
    bag.rb := s.wgt.chanB.d.getD 0
    bag.last := .none
    bag.lastDelta := 0 }

/-- Whether an entry explains a settle (R78, R79). -/
def Entry.fits (e : Entry) (delta : Int) : Bool :=
  decide (((delta.natAbs : Int) - (e.weight : Int)).natAbs ≤ e.tol)

/-- A settle matches an entry: the entry leaves, the item becomes BAGGED or REMOVED, BAG_MATCH is raised
(R78, R79). -/
def bagMatched (r : Raise) (e : Entry) (delta : Int) (s : State) : State :=
  let s := dropEntry e.slot s
  let s := modItem e.slot (fun it =>
    if e.remove then { it with bag := .removed }
    else { it with bag := .bagged, matched := some (delta.natAbs, e.tol) }) s
  r (.bagMatch e.slot e.remove delta e.weight e.overdue)
    { s with bag.last := .matched, bag.lastDelta := delta }

/-- A bad verdict's notice (R80). -/
def badNotice (v : Verdict) (delta d : Int) (against : Nat) (held : Bool) : Notice :=
  match v with
  | .mismatch => .bagMismatch delta d against held
  | .unexpected => .bagUnexpected delta d against held
  | _ => .bagRemoval delta d against held

/-- A bad verdict: HOLD is entered, or its count rises, and its notice is raised (R80). -/
def bagBad (r : Raise) (v : Verdict) (delta d : Int) (against : Nat) (s : State) : State :=
  let held := decide (s.bag.watch = .hold)
  let hold := match s.bag.hold with
    | some h => { h with count := min (h.count + 1) 255 }
    | none => { verdict := v, delta := delta, count := 1 }
  r (badNotice v delta d against held)
    { s with bag.watch := .hold, bag.hold := some hold, bag.last := v, bag.lastDelta := delta }

/-- Judge a settle against the list, oldest entry of its sign first; the reference then becomes its D
(R70, R78, R79). -/
def judgeSettle (r : Raise) (delta d : Int) (s : State) : State :=
  let remove := decide (delta < 0)
  let signed := s.bag.entries.filter fun e => e.remove == remove
  let s := { s with bag.rb := d }
  match signed.find? fun e => e.fits delta with
  | some e => bagMatched r e delta s
  | none =>
    let v := if remove then .removal else if signed.isEmpty then .unexpected else .mismatch
    bagBad r v delta d signed.length s

/-- A stable event of channel B (R68, R69): in OFF the reference follows it, otherwise a change of at least
BAG_THRESHOLD is a settle. -/
def bagStable (r : Raise) (s : State) : State :=
  match s.wgt.chanB.d with
  | none => s
  | some d =>
    match s.bag.watch with
    | .off => { s with bag.rb := d }
    | _ =>
      let delta := d - s.bag.rb
      if s.set.bagThreshold ≤ delta.natAbs then judgeSettle r delta d s else s

/-- An entry becomes OVERDUE once (R77). -/
def entryOverdue (r : Raise) (slot : Nat) (s : State) : State :=
  match s.bag.entries.find? fun e => e.slot == slot && !e.overdue with
  | none => s
  | some e =>
    r (.bagOverdue e.slot e.remove e.weight)
      (setBagStatus slot .overdue
        { s with bag.entries := s.bag.entries.map fun x =>
            if x.slot = slot then
              { x with overdue := true, age := max x.age (1000 * s.set.bagTimeout) }
            else x })

/-- The PENDING entries that have reached BAG_TIMEOUT become OVERDUE, in the order of the list (R77).
DESIGN CHOICE: log entry 42. -/
def judgeOverdue (r : Raise) (s : State) : State :=
  (s.bag.entries.filter fun e => !e.overdue && decide (1000 * s.set.bagTimeout ≤ e.age)).foldl
    (fun s e => entryOverdue r e.slot s) s

end Sys2Proof.Machine
end

