-- ==== Sys2Proof/Machine/Cards.lean ====
section
/-! DEFINITION. The card reader's operations (chapter 6): the bit decoder of a track, framing, fields,
the flags of a record and the card store. -/

namespace Sys2Proof.Machine

/-! ### Recovering the bits (R113, R114) -/

/-- A bit joins a track's bit buffer, which holds 1,024 bits; P_exp moves, and its range of 50 to 5,000 µs
is judged (R114). The bit that would be the 1,025th moves nothing.
DESIGN CHOICE: log entry 43. -/
def TrackCap.addBit (t : TrackCap) (bit : Bool) (pexp : Nat) : TrackCap :=
  if 1024 ≤ t.bits.length then { t with stop := some .overlong, half := none }
  else
    { t with
      bits := t.bits ++ [bit]
      pexp := some pexp
      half := none
      stop := if pexp < 50 ∨ 5000 < pexp then some .speed else none }

/-- Whether 8 intervals are a preamble: every one within 25 % of their mean (R113). -/
def isPreamble (w : List Nat) : Bool :=
  let mean := w.sum / 8
  decide (w.length = 8) && w.all fun t => decide (3 * mean ≤ 4 * t) && decide (4 * t ≤ 5 * mean)

/-- An interval of a track whose preamble is not found yet (R113). -/
def TrackCap.search (t : TrackCap) (dt : Nat) : TrackCap :=
  let w := (t.window ++ [dt]).drop ((t.window ++ [dt]).length - 8)
  if isPreamble w then
    let mean := w.sum / 8
    { t with
      window := []
      pexp := some mean
      bits := List.replicate 8 false
      stop := if mean < 50 ∨ 5000 < mean then some .speed else none }
  else { t with window := w }

/-- An interval of a track after its preamble (R114). -/
def TrackCap.cell (t : TrackCap) (p dt : Nat) : TrackCap :=
  match t.half with
  | none =>
    if 3 * p ≤ 4 * dt then t.addBit false ((3 * p + dt) / 4) else { t with half := some dt }
  | some t1 =>
    if 3 * p ≤ 4 * dt then { t with half := none, stop := some .cellError }
    else t.addBit true ((3 * p + t1 + dt) / 4)

/-- An interval of a track (R113, R114); a stopped decode yields no more bits. -/
def TrackCap.interval (t : TrackCap) (dt : Nat) : TrackCap :=
  if t.stop.isSome then t
  else
    match t.pexp with
    | none => t.search dt
    | some p => t.cell p dt

/-- The idle time that ends a track, in µs (R112). -/
def TrackCap.idle (t : TrackCap) : Nat :=
  match t.pexp with
  | some p => 4 * p
  | none => 20000

/-- A transition on a track's head, `dt` µs after the one before (R111, R112): the first one starts the
first interval; one that comes after the idle time finds the track ended, and one that comes exactly at it counts.
DESIGN CHOICE: log entry 60. -/
def TrackCap.transition (t : TrackCap) (dt : Nat) : TrackCap :=
  if t.ended then t
  else if t.idle < dt then { t with ended := true }
  else if t.transitions = 0 then { t with transitions := 1 }
  else { t.interval dt with transitions := t.transitions + 1 }

/-- The result a track's end decides, or none where its bits go to framing (R115). -/
def TrackCap.decided (t : TrackCap) : Option TrackResult :=
  if t.atLimit then some .overlong
  else if t.transitions < 16 then some .noData
  else if t.pexp.isNone then some .noData
  else t.stop

/-! ### Framing (R116, R117) -/

/-- Bits of a character, least significant first, then odd parity. -/
def charBits (n code : Nat) : List Bool :=
  let data := (List.range n).map fun i => code.testBit i
  data ++ [decide ((data.filter id).length % 2 = 0)]

/-- The number of data bits of a track's characters (R117). -/
def dataBits : Track → Nat
  | .alpha => 6
  | .numeric => 4

/-- Start sentinel (Table 6-1). -/
def startCode : Track → Nat
  | .alpha => 0x05
  | .numeric => 0x0B

/-- Separator (Table 6-1). -/
def separatorCode : Track → Nat
  | .alpha => 0x3E
  | .numeric => 0x0D

/-- End sentinel (Table 6-1). -/
def endCode : Track → Nat
  | .alpha => 0x1F
  | .numeric => 0x0F

/-- The most characters a track carries, sentinels and LRC included (R117). -/
def maxChars : Track → Nat
  | .alpha => 79
  | .numeric => 40

/-- What is added to a data code for its printable form (R117). -/
def printOffset : Track → Nat
  | .alpha => 0x20
  | .numeric => 0x30

/-- The bits from the first match of a pattern on (R116). -/
def findBits (pat : List Bool) : List Bool → Option (List Bool)
  | [] => none
  | b :: rest =>
    if pat.isPrefixOf (b :: rest) then some (b :: rest) else findBits pat rest

/-- The data code of a group of bits. -/
def dataCode (l : List Bool) : Nat := bitsNat l

/-- Whether a group of bits has an odd number of ones (R117). -/
def oddOnes (l : List Bool) : Bool := decide ((l.filter id).length % 2 = 1)

/-- Read characters from the start sentinel on (R117). `codes` are the data codes read, `x` their
exclusive-or; the result carries the codes from start sentinel through end sentinel. A character beyond the
track's limit is OVERLONG whatever its parity.
DESIGN CHOICE: log entry 54. -/
def readChars (tr : Track) : Nat → List Bool → List Nat → Nat → TrackResult × List Nat
  | 0, _, _, _ => (.noEnd, [])
  | fuel + 1, bits, codes, x =>
    let n := dataBits tr
    if bits.length < n + 1 then (.noEnd, [])
    else if maxChars tr < codes.length + 1 then (.overlong, [])
    else if !oddOnes (bits.take (n + 1)) then (.parity, [])
    else
      let c := dataCode (bits.take n)
      let rest := bits.drop (n + 1)
      if c = endCode tr then
        if rest.length < n + 1 then (.lrc, [])
        else if maxChars tr < codes.length + 2 then (.overlong, [])
        else if !oddOnes (rest.take (n + 1)) then (.lrc, [])
        else if dataCode (rest.take n) = x ^^^ c then (.ok, codes ++ [c])
        else (.lrc, [])
      else readChars tr fuel rest (codes ++ [c]) (x ^^^ c)

/-- A framed track: its result, its data codes, and whether its direction is reverse (R116, R117). -/
structure Framed where
  result  : TrackResult
  codes   : List Nat
  reverse : Bool
  deriving DecidableEq, Repr

/-- Framing of a bit stream: a forward search for the start sentinel, then a reversed one (R116). -/
def frameBits (tr : Track) (bits : List Bool) : Framed :=
  let pat := charBits (dataBits tr) (startCode tr)
  match findBits pat bits with
  | some l =>
    let (res, codes) := readChars tr (maxChars tr + 1) l [] 0
    { result := res, codes := codes, reverse := false }
  | none =>
    match findBits pat bits.reverse with
    | some l =>
      let (res, codes) := readChars tr (maxChars tr + 1) l [] 0
      { result := res, codes := codes, reverse := true }
    | none => { result := .noStart, codes := [], reverse := false }

/-- The result of a track at the decode end (R115 to R117). -/
def frameTrack (tr : Track) (t : TrackCap) : Framed :=
  match t.decided with
  | some res => { result := res, codes := [], reverse := false }
  | none => frameBits tr t.bits

/-! ### Fields (R118 to R120) -/

/-- The characters between the sentinels. -/
def innerCodes (l : List Nat) : List Nat := (l.drop 1).dropLast

/-- The codes up to the first separator, and those after it; none where no separator stands. -/
def splitAtSep (sep : Nat) : List Nat → Option (List Nat × List Nat)
  | [] => none
  | c :: rest =>
    if c = sep then some ([], rest) else (splitAtSep sep rest).map fun (a, b) => (c :: a, b)

/-- The account of a numeric track, if well formed, and the characters after the first separator (R118). -/
def accountOf (codes : List Nat) : Option (List Nat × List Nat) :=
  match splitAtSep (separatorCode .numeric) (innerCodes codes) with
  | none => none
  | some (acc, rest) =>
    if 12 ≤ acc.length ∧ acc.length ≤ 19 ∧ acc.all (fun c => decide (c ≤ 9)) then some (acc, rest)
    else none

/-- The decimal value of digits. -/
def digitsValue (l : List Nat) : Nat := l.foldl (fun a d => a * 10 + d) 0

/-- Expiry and service code, from the characters after the separator (R118). -/
def expiryService (rest : List Nat) : Option (Nat × Nat) :=
  let seven := rest.take 7
  let expiry := digitsValue (seven.take 4)
  if seven.length = 7 ∧ seven.all (fun c => decide (c ≤ 9)) ∧ 1 ≤ expiry % 100 ∧ expiry % 100 ≤ 12 then
    some (expiry, digitsValue (seven.drop 4))
  else none

/-- Printable forms (R117). -/
def printable (tr : Track) (l : List Nat) : Text := l.map fun c => u8 (c + printOffset tr)

/-- The masked account (R120). -/
def maskAccount (acc : List Nat) : Text :=
  printable .numeric (acc.take 6) ++ List.replicate (acc.length - 10) 0x2A#8 ++
    printable .numeric (acc.drop (acc.length - 4))

/-- The sum of the check digit test, from the rightmost digit leftward; `dbl` says whether the next digit
is doubled (R120). -/
def checkSum : Bool → List Nat → Nat
  | _, [] => 0
  | dbl, d :: rest =>
    (if dbl then (if 9 < 2 * d then 2 * d - 9 else 2 * d) else d) + checkSum (!dbl) rest

/-- The check digit test (R120). -/
def accountValid (acc : List Nat) : Bool := decide (checkSum false acc.reverse % 10 = 0)

/-- The alpha track's account and name where it has a first separator (R119): the account's printable
forms, and the name or none. -/
def alphaFields (codes : List Nat) : Option (Text × Text) :=
  match splitAtSep (separatorCode .alpha) ((innerCodes codes).drop 1) with
  | none => none
  | some (acc, rest) =>
    let name := match splitAtSep (separatorCode .alpha) rest with
      | some (n, _) => if 2 ≤ n.length ∧ n.length ≤ 26 then printable .alpha n else []
      | none => []
    some (printable .alpha acc, name)

/-! ### Records -/

/-- EXPIRED, against the transaction as it stands (R121). -/
def expiredNow (x : Txn) (expiry : Option Nat) : Bool :=
  match expiry with
  | none => false
  | some e =>
    decide (x.state ≠ .idle) && decide (e < (x.date / 10000 % 100) * 100 + x.date / 100 % 100)

/-- Judge EXPIRED and BINDABLE of a record (R121). -/
def CardRec.judge (c : CardRec) (x : Txn) : CardRec :=
  let e := expiredNow x c.expiry
  { c with
    expired := e
    bindable := decide (c.numeric = .ok) && !c.format && !c.check && !c.disagree && !e }

/-- The record of a GOOD swipe (R118 to R121, Table 6-2). -/
def makeRecord (x : Txn) (num alp : Framed) (acc rest : List Nat) : CardRec :=
  let es := expiryService rest
  let af := if alp.result = .ok then alphaFields alp.codes else none
  CardRec.judge
    { bound := false
      reverse := num.reverse
      numeric := num.result
      alpha := alp.result
      masked := maskAccount acc
      expiry := es.map Prod.fst
      service := es.map Prod.snd
      name := (af.map Prod.snd).getD []
      track := printable .numeric num.codes
      expired := false
      check := !accountValid acc
      disagree := match af with
        | some (a, _) => decide (a ≠ printable .numeric acc)
        | none => false
      format := es.isNone
      released := false
      bindable := false
      age := 0 } x

/-- Re-judge EXPIRED of every record in the store (R121). -/
def rejudgeCards (s : State) : State :=
  { s with
    crd.one := s.crd.one.map fun c => c.judge s.txn
    crd.two := s.crd.two.map fun c => c.judge s.txn }

/-! ### The card store (R123) -/

/-- Wipe a record; its slot is FREE and CARD_WIPED is raised (R123). -/
def wipeCard (r : Raise) (slot : CardSlot) (cause : WipeCause) (s : State) : State :=
  match s.card slot with
  | none => s
  | some _ => r (.cardWiped slot cause) (s.setCard slot none)

/-- Wipe the record of a slot if it is bound, or if it is held (R128). -/
def wipeWhere (r : Raise) (bound : Bool) (cause : WipeCause) (slot : CardSlot) (s : State) : State :=
  match s.card slot with
  | some c => if c.bound = bound then wipeCard r slot cause s else s
  | none => s

/-- Wipe every bound, or every held, record, lowest slot first (R103, R105, R128). -/
def wipeAll (r : Raise) (bound : Bool) (cause : WipeCause) (s : State) : State :=
  wipeWhere r bound cause .two (wipeWhere r bound cause .one s)

/-- The hold timers that have reached CARD_HOLD wipe their records (R124). -/
def judgeHold (r : Raise) (slot : CardSlot) (s : State) : State :=
  match s.card slot with
  | some c =>
    if !c.bound && decide (1000 * s.set.cardHold ≤ c.age) then wipeCard r slot .holdTimer s else s
  | none => s

/-! ### The reader (R108 to R112, R122) -/

/-- Discard a swipe: the captures are emptied and the reader takes a state (R109, R110). -/
def readerTo (m : ReaderState) (s : State) : State :=
  { s with
    crd.state := m
    crd.disarm := false
    crd.alpha := TrackCap.empty
    crd.numeric := TrackCap.empty
    crd.swipeAge := 0 }

/-- CARD_ARM on (R109). -/
def armReader (s : State) : State :=
  match s.crd.state with
  | .disarmed => { s with crd.state := .armed }
  | .armed => s
  | .reading => s
  | .decoding => { s with crd.disarm := false }

/-- CARD_ARM off (R109). -/
def disarmReader (s : State) : State :=
  match s.crd.state with
  | .disarmed => s
  | .armed => { s with crd.state := .disarmed }
  | .reading => readerTo .disarmed s
  | .decoding => { s with crd.disarm := true }

/-- Reader state codes (R109). -/
def ReaderState.code : ReaderState → Byte
  | .disarmed => 0#8
  | .armed => 1#8
  | .reading => 2#8
  | .decoding => 3#8

/-- The capture of a track. -/
def Card.track (c : Card) : Track → TrackCap
  | .alpha => c.alpha
  | .numeric => c.numeric

/-- Replace the capture of a track. -/
def setTrack (tr : Track) (t : TrackCap) (s : State) : State :=
  match tr with
  | .alpha => { s with crd.alpha := t }
  | .numeric => { s with crd.numeric := t }

/-- The swipe ends when both tracks have ended: decoding begins (R112). -/
def judgeSwipeEnd (s : State) : State :=
  if s.crd.state = .reading ∧ s.crd.alpha.ended ∧ s.crd.numeric.ended then
    { s with crd.state := .decoding }
  else s

/-- The track a head reads (R111). -/
def Head.track : Head → Option Track
  | .alpha => some .alpha
  | .numeric => some .numeric
  | .third => none

/-- Store a GOOD swipe in the lowest FREE slot, or report the store full (R122). -/
def storeSwipe (r : Raise) (c : CardRec) (s : State) : State :=
  match s.crd.one, s.crd.two with
  | none, _ => r (.cardSwipe .one c.flags c.expiry c.masked) (s.setCard .one (some c))
  | some _, none => r (.cardSwipe .two c.flags c.expiry c.masked) (s.setCard .two (some c))
  | some _, some _ => r (.cardStoreFull c.numeric c.alpha) s

/-- The outcome of a swipe (R122). -/
def judgeSwipe (r : Raise) (num alp : Framed) (s : State) : State :=
  if num.result = .ok then
    match accountOf num.codes with
    | some (acc, rest) => storeSwipe r (makeRecord s.txn num alp acc rest) s
    | none => r (.cardSwipeBad num.result alp.result true) s
  else r (.cardSwipeBad num.result alp.result false) s

/-- The decode end: the outcome is judged, the buffers emptied, and the reader re-armed or disarmed
(R108, R122). -/
def decodeSwipe (r : Raise) (s : State) : State :=
  let num := frameTrack .numeric s.crd.numeric
  let alp := frameTrack .alpha s.crd.alpha
  judgeSwipe r num alp (readerTo (if s.crd.disarm then .disarmed else .armed) s)

end Sys2Proof.Machine
end

