-- ==== Sys2Proof/Machine/Sale.lean ====
section
/-! DEFINITION. The transaction context's shared operations (chapter 5): sums, adding an item, judging a
capture's candidate, the last-transaction snapshot and the close. -/

namespace Sys2Proof.Machine

/-! ### Sums (R89, R97) -/

/-- The subtotal: all items, void or not (R89). -/
def subtotal (l : List Item) : Nat := (l.map Item.amount).sum

/-- The voided amount (R89). -/
def voidedAmount (l : List Item) : Nat := ((l.filter Item.void).map Item.amount).sum

/-- The total: the non-void items (R89). -/
def total (l : List Item) : Nat := ((l.filter fun it => !it.void).map Item.amount).sum

/-- The tender sum (R97). -/
def tenderSum (l : List Tender) : Nat := (l.map Tender.amount).sum

/-- The remaining due: total less tender sum, 0 once covered (R89). -/
def Txn.due (x : Txn) : Nat := total x.items - tenderSum x.tenders

/-- Whether an amount keeps the total and the subtotal within their limits (R89). -/
def withinLimits (l : List Item) (amount : Nat) : Bool :=
  decide (total l + amount ≤ 99999999) && decide (subtotal l + amount ≤ 999999999)

/-! ### Items (R88) -/

/-- An item just accepted: not void, no bag status yet, nothing matched (R90, R92). -/
def Item.new (slot code quantity price amount : Nat) (description : Text)
    (record : Option WeighRecord) : Item where
  slot := slot
  code := code
  description := description.take 24
  quantity := quantity
  price := price
  amount := amount
  void := false
  bag := .none
  matched := none
  record := record

/-- Append an item (R88). -/
def addItem (it : Item) (s : State) : State := { s with txn.items := s.txn.items ++ [it] }

/-- The next slot (R88). -/
def State.nextSlot (s : State) : Nat := s.txn.items.length + 1

/-! ### The capture's candidate (R55, R61, R92) -/

/-- The price of a capture (R61). -/
def capturePrice (net unit : Nat) : Nat := roundHalfUp (net * unit) 1000

/-- The candidate record of a capture reading, with the number and slot it would take (R55, R60). -/
def candidate (s : State) (unit : Nat) (d : Int) : WeighRecord where
  number := s.wgt.recNo
  net := d.toNat
  tare := s.wgt.tare / 1000
  gross := d.toNat + s.wgt.tare / 1000
  division := s.wgt.chanP.e
  kind := s.wgt.tareKind
  price := unit
  amount := capturePrice d.toNat unit
  slot := s.nextSlot

/-- A capture ends without a record: WEIGH_FAILED with its reasons (R92). -/
def weighFailed (r : Raise) (tag : Byte) (reasons : Reasons) (s : State) : State :=
  r (.weighFailed tag reasons) s

/-- An accepted candidate: the item with its record, the expectation, interlock disarmed, tare cleared
with TARE_AUTO_CLEAR on, counter advanced, slot freed, WEIGH_DONE (R55, R60, R74, R92). -/
def acceptCandidate (r : Raise) (tag : Byte) (code : Nat) (desc : Text) (w : WeighRecord) (s : State) :
    State :=
  let s := addItem (Item.new w.slot code 1 w.price w.amount desc (some w)) s
  let s := appendEntry (Entry.new w.slot false w.gross 0) s
  let s := { s with
    wgt.armed := false
    wgt.recNo := if s.wgt.recNo = 65535 then 1 else s.wgt.recNo + 1 }
  let s := if s.set.tareAutoClear = 0 then s else clearTare s
  let bag := ((findItem w.slot s.txn.items).map Item.bag).getD .none
  r (.weighDone tag w.slot w.number w.net w.tare w.amount (total s.txn.items) bag) (freeSlot .p s)

/-- The transaction context judges a candidate: FULL, LIMIT or accepted (R92). -/
def judgeCandidate (r : Raise) (tag : Byte) (code : Nat) (desc : Text) (w : WeighRecord) (s : State) :
    State :=
  if 64 ≤ s.txn.items.length then weighFailed r tag { full := true } (freeSlot .p s)
  else if withinLimits s.txn.items w.amount then acceptCandidate r tag code desc w s
  else weighFailed r tag { limit := true } (freeSlot .p s)

/-! ### The snapshot and the close (R103, R106) -/

/-- The card details of the card tenders, from the records they bind (R103). -/
def cardDetails (s : State) : Nat → List Tender → List CardDetail
  | _, [] => []
  | i, t :: rest =>
    match t.card.bind s.card with
    | some c => { index := i, masked := c.masked, expiry := c.expiry } :: cardDetails s (i + 1) rest
    | none => cardDetails s (i + 1) rest

/-- The last-transaction snapshot of the sale (R106). -/
def makeSnapshot (void : Bool) (s : State) : Snapshot where
  id := s.txn.id
  date := s.txn.date
  time := s.txn.time
  items := s.txn.items
  tenders := s.txn.tenders
  cards := cardDetails s 1 s.txn.tenders
  change := if void then 0 else s.txn.change
  void := void

/-- The lists are emptied and the transaction becomes IDLE; the card reader re-judges expiry (R103, R105,
R121). -/
def emptySale (s : State) : State :=
  rejudgeCards (bagOff { s with
    txn.state := .idle
    txn.id := 0
    txn.date := 0
    txn.time := 0
    txn.items := []
    txn.tenders := []
    txn.change := 0
    txn.receiptDone := false })

/-- The effects of a close after its snapshot is made, in the order of R103.
DEDUCED: log entry 27. -/
def closeEffects (r : Raise) (tag : Byte) (outcome : CloseOutcome) (s : State) : State :=
  let x := s.txn
  let s := wipeAll r true .close s
  let s := clearTare s
  let s := askWrite (.marker false) s
  let s := emptySale s
  r (.txnClosed tag outcome x.id (total x.items) x.change x.items.length) s

/-- The snapshot of a sale that closes (R103, R106). -/
def takeSnapshot (void : Bool) (s : State) : State :=
  { s with txn.snap := some (makeSnapshot void s) }

/-- The effects of a close (R103). -/
def closeSale (r : Raise) (tag : Byte) (outcome : CloseOutcome) (s : State) : State :=
  closeEffects r tag outcome (takeSnapshot false s)

/-- Normal close: SETTLED, receipt done, no entitlement (R102). -/
def judgeClose (r : Raise) (s : State) : State :=
  if s.txn.state = .settled ∧ s.txn.receiptDone ∧ s.txn.entitlement = none then
    closeSale r 0#8 .normal s
  else s

/-- The receipt of the sale is DONE (R102, R152). -/
def receiptDone (r : Raise) (s : State) : State :=
  judgeClose r { s with txn.receiptDone := true }

/-- TXN_STATUS state codes (Table 5-4). -/
def TxnState.code : TxnState → Byte
  | .idle => 0#8
  | .opened => 1#8
  | .tender => 2#8
  | .settled => 3#8
  | .voided => 0#8

end Sys2Proof.Machine
end

