-- ==== Sys2Proof/Machine/Power.lean ====
section
/-! DEFINITION. The lane power manager's operations (chapter 10): the entry checks, entry, wake, pending
entries and the idle timer. -/

namespace Sys2Proof.Machine

/-! ### The checks of R182 -/

/-- Whether a port stands at rest for DORMANT: absent, or CLOSED with no retry pending (check 5). -/
def PortState.shut (q : PortState) : Bool := !q.present || (decide (q.mode = .closed) && !q.retry)

/-- Whether a kick of a port is in progress (check 8). -/
def PortState.kicking (q : PortState) : Bool :=
  match q.mode with
  | .grantWait | .kicking | .waitOpen => true
  | _ => q.retry

/-- Checks 4 to 7 (R182): the refusal drawn, or none. -/
def entryBlock (target : PowerMode) (s : State) : Option Status :=
  if s.txn.state ≠ .idle then some .refusedState
  else if target = .dormant ∧
      (s.crd.one.isSome || s.crd.two.isSome || !s.drw.d1.shut || !s.drw.d2.shut) then
    some .refusedState
  else if s.pen.mode = .fault then some .refusedState
  else if s.wgt.chanP.op.isSome || s.wgt.chanB.op.isSome || !s.sst.writes.isEmpty then
    some .refusedBusy
  else none

/-- Check 8 (R182): no job, engine IDLE, no kick in progress. -/
def workDone (s : State) : Bool :=
  s.job.table.isEmpty && decide (s.pen.mode = .idle) && !s.drw.d1.kicking && !s.drw.d2.kicking

/-! ### Entry and wake (R181, R185) -/

/-- At DORMANT entry a channel stops producing readings: it leaves STABLE without an event, has no D, and
its windows are as at a restart (R21, R31, R34, R41); the flags R62 keeps are held. -/
def stopChannel (ch : Channel) (s : State) : State :=
  s.setChan ch { s.chan ch with
    stable := false, d := none, track := 0, held := s.shown ch, win := [], stab := [] }

/-- A state is entered (R181, R182, R185). An entry into DORMANT ends the attempts first; at start-up step 7
follows at once, later the ends are reported (R38, R196); PWR_STATE is the last notice. A channel P that has had
no reading, or none with a value, leaves G at entry to its first stable event.
DESIGN CHOICE: log entry 69. DEDUCED: log entry 27. -/
def enterPower (r : Raise) (target : PowerMode) (tag : Byte) (cause : PowerCause) (s : State) : State :=
  match target with
  | .dormant =>
    let s := stopChannel .b (stopChannel .p s)
    let s := readerTo .disarmed { s with
      lpm.mode := .dormant
      lpm.entry := none
      lpm.gEntry := none
      wgt.conv := .off
      wgt.warmAge := 0
      wgt.stream := none }
    let t := stopAttempts s
    let t :=
      if s.sst.started then
        reportStopped r .b s.wgt.chanB.init (reportStopped r .p s.wgt.chanP.init t)
      else judgeStarted r t
    r (.pwrState tag .entered .dormant cause) t
  | m =>
    r (.pwrState tag .entered m cause) { s with
      lpm.mode := m
      lpm.entry := none
      lpm.gEntry := if s.wgt.chanP.hasValue then some s.wgt.chanP.g else none }

/-- A wake to ACTIVE; from DORMANT the converters warm up and every zero becomes invalid (R185). -/
def wake (r : Raise) (tag : Byte) (cause : PowerCause) (s : State) : State :=
  match s.lpm.mode with
  | .active => s
  | .standby =>
    r (.pwrState tag .woken .active cause)
      { s with lpm.mode := .active, lpm.idle := 0, lpm.gEntry := none }
  | .dormant =>
    let s := invalidateZero .b (invalidateZero .p s)
    r (.pwrState tag .woken .active cause) { s with
      lpm.mode := .active
      lpm.idle := 0
      lpm.gEntry := none
      wgt.conv := .warming
      wgt.warmAge := 0
      wgt.chanP.init := .waiting
      wgt.chanB.init := .waiting }

/-! ### Pending entries (R183) -/

/-- A pending entry is cancelled (R183). -/
def cancelEntry (r : Raise) (cause : PowerCause) (s : State) : State :=
  match s.lpm.entry with
  | none => s
  | some e => r (.pwrState e.tag .cancelled s.lpm.mode cause) { s with lpm.entry := none }

/-- A pending entry is taken at the first moment at which check 8 holds: entered if checks 4 to 7 hold,
otherwise cancelled with cause 8 (R183).
DESIGN CHOICE: log entry 67. -/
def judgeEntry (r : Raise) (s : State) : State :=
  match s.lpm.entry with
  | none => s
  | some e =>
    if workDone s then
      match entryBlock e.target s with
      | none => enterPower r e.target e.tag e.cause s
      | some _ => cancelEntry r .lost s
    else s

/-- Entry asked through the checks of R182, with the cause its PWR_STATE will carry. -/
def askEntry (r : Raise) (target : PowerMode) (tag : Byte) (cause : PowerCause) (s : State) :
    State × Status :=
  if s.lpm.mode = target then (s, .ok)
  else if target = .standby ∧ s.lpm.mode = .dormant then (s, .refusedState)
  else if s.lpm.entry.isSome then (s, .refusedBusy)
  else
    match entryBlock target s with
    | some st => (s, st)
    | none =>
      if workDone s then (enterPower r target tag cause s, .ok)
      else ({ s with lpm.entry := some { target := target, tag := tag, cause := cause } }, .pending)

/-- The idle timer reaches IDLE_STANDBY (R184). -/
def idleExpired (r : Raise) (s : State) : State :=
  { (askEntry r .standby 0#8 .idleTimer s).1 with lpm.idle := 0 }

/-! ### Requests and the power states (R183, R185) -/

/-- The status set, and PWR_STANDBY and PWR_DORMANT: requests that do not wake (R182, R185). -/
def wakesLane (code : Byte) : Bool :=
  !([0x01#8, 0x03#8, 0x04#8, 0x49#8, 0x62#8, 0x32#8, 0x20#8, 0x05#8, 0x06#8].contains code)

/-- Requests whose acceptance cancels a pending entry (R183). -/
def cancelsEntry (code : Byte) : Bool :=
  let c := code.toNat
  ((decide (0x20 ≤ c) && decide (c ≤ 0x29)) || (decide (0x30 ≤ c) && decide (c ≤ 0x32)) ||
    (decide (0x40 ≤ c) && decide (c ≤ 0x4A)) || (decide (0x50 ≤ c) && decide (c ≤ 0x53)) ||
    (decide (0x60 ≤ c) && decide (c ≤ 0x63)) || (decide (0x70 ≤ c) && decide (c ≤ 0x77)) ||
    decide (c = 0x11) || decide (c = 0x12)) &&
  !([0x20#8, 0x32#8, 0x49#8, 0x4A#8, 0x51#8, 0x62#8, 0x75#8].contains code)

end Sys2Proof.Machine
end

