-- ==== Sys2Proof/Machine/Render.lean ====
section
/-! DEFINITION. Rendering (section 8.4) and the figures of one dot line (section 9.5): printed forms,
field references, the dots of a row, strobe phases, strobe time and line period. -/

namespace Sys2Proof.Machine

/-! ### Printed forms (R155) -/

/-- The decimal digits of a number. -/
def digits (n : Nat) : Text := (Nat.toDigits 10 n).map fun c => u8 c.toNat

/-- Decimal digits with leading zeros up to a width. -/
def padDigits (w n : Nat) : Text := List.replicate (w - (digits n).length) 0x30#8 ++ digits n

/-- A money amount at CURRENCY_DECIMALS `d` (R155). -/
def money (d a : Nat) : Text :=
  if d = 0 then digits a else digits (a / 10 ^ d) ++ 0x2E#8 :: padDigits d (a % 10 ^ d)

/-- A weight in grams (R155). -/
def weightText (g : Nat) : Text := digits (g / 1000) ++ 0x2E#8 :: padDigits 3 (g % 1000) ++ ascii " kg"

/-- A unit price per kg (R155). -/
def perKg (d p : Nat) : Text := money d p ++ ascii "/kg"

/-- Pad with spaces on the right up to a width. -/
def padRight (w : Nat) (t : Text) : Text := t ++ List.replicate (w - t.length) 0x20#8

/-- A two-part line: the right text ends at column 48 (R155). -/
def twoPart (l r : Text) : Text := padRight (48 - r.length) l ++ r

/-! ### Field references (R155 to R157) -/

/-- A field line: normal width, left aligned, counted when printed (R155). -/
def fieldLine (t : Text) : Seg := .text t .left false false false true

/-- The one line without dots of an unavailable field; it is not counted as a line printed (R155). -/
def blankLine : Seg := .text [] .left false false false false

/-- What field references read: the sale or the last-transaction snapshot (R155). -/
structure Figures where
  id      : Nat
  date    : Nat
  time    : Nat
  items   : List Item
  tenders : List Tender
  cards   : List CardDetail
  change  : Nat
  deriving DecidableEq, Repr

/-- The figures of a binding, or none (R155). -/
def State.figures (s : State) : JobBinding → Option Figures
  | .none => none
  | .sale => some
    { id := s.txn.id, date := s.txn.date, time := s.txn.time, items := s.txn.items,
      tenders := s.txn.tenders, cards := cardDetails s 1 s.txn.tenders, change := s.txn.change }
  | .snapshot => s.txn.snap.map fun x =>
    { id := x.id, date := x.date, time := x.time, items := x.items, tenders := x.tenders,
      cards := x.cards, change := x.change }

/-- The bag mark of column 26 (R156). -/
def bagMark : BagStatus → Byte
  | .skipped => 0x53#8
  | .unchecked => 0x55#8
  | .pending | .overdue => 0x50#8
  | .none | .bagged | .removed => 0x20#8

/-- The lines of one item (R156). -/
def itemLines (d : Nat) (it : Item) : List Text :=
  twoPart (padRight 24 it.description ++ [0x20#8, bagMark it.bag])
      (if it.void then ascii "VOID" else money d it.amount) ::
    match it.record with
    | some w => [ascii "  " ++ weightText w.net ++ ascii " @ " ++ perKg d w.price]
    | none =>
      if 1 < it.quantity then [ascii "  " ++ digits it.quantity ++ ascii " x " ++ money d it.price]
      else []

/-- The left text of a tender line (R157). -/
def TenderKind.name : TenderKind → Text
  | .cash => ascii "CASH"
  | .card => ascii "CARD"
  | .voucher => ascii "VOUCHER"

/-- The lines of Table 8-2. -/
def weighDetail (d : Nat) (w : WeighRecord) : List Text :=
  [ascii "ITEM " ++ digits w.slot ++ ascii "  REC " ++ digits w.number,
   twoPart (ascii "NET") (weightText w.net)] ++
  (match w.kind with
   | .none => []
   | .captured => [twoPart (ascii "TARE T") (weightText w.tare)]
   | .preset => [twoPart (ascii "TARE PT") (weightText w.tare)]) ++
  [twoPart (ascii "GROSS") (weightText w.gross),
   twoPart (perKg d w.price ++ ascii "  e=" ++ digits w.division ++ ascii " g") (money d w.amount)]

/-- Month and year of an expiry YYMM as MM/YY (R157). -/
def expiryText (e : Nat) : Text := padDigits 2 (e % 100) ++ 0x2F#8 :: padDigits 2 (e / 100)

/-- The masked account of a tender's card and its expiry (R157). -/
def cardLine (f : Figures) (n : Nat) : Option Text :=
  (f.cards.find? fun c => c.index == n).map fun c =>
    twoPart c.masked (match c.expiry with
      | some e => ascii "EXP " ++ expiryText e
      | none => [])

/-- The lines of a field reference other than TOTAL; none where it is unavailable (R155 to R157). A year above
9999 prints with all its digits.
DESIGN CHOICE: log entry 55. -/
def fieldTexts (d count : Nat) (f : Figures) (code arg : Nat) : Option (List Text) :=
  match code with
  | 0x01 => some (f.items.flatMap (itemLines d))
  | 0x02 => some [twoPart (ascii "SUBTOTAL") (money d (subtotal f.items))]
  | 0x03 => some [twoPart (ascii "TOTAL") (money d (total f.items))]
  | 0x04 => some (f.tenders.map fun t => twoPart t.kind.name (money d t.amount))
  | 0x05 => some [twoPart (ascii "CHANGE") (money d f.change)]
  | 0x06 => (cardLine f arg).map fun t => [t]
  | 0x07 => ((findItem arg f.items).bind Item.record).map (weighDetail d)
  | 0x08 => some [ascii "TXN " ++ digits f.id]
  | 0x09 => some [padDigits 4 (f.date / 10000) ++ 0x2D#8 :: padDigits 2 (f.date / 100 % 100) ++
      0x2D#8 :: padDigits 2 (f.date % 100) ++ 0x20#8 :: padDigits 2 (f.time / 100) ++
      0x3A#8 :: padDigits 2 (f.time % 100)]
  | 0x0A => some [ascii "CAL COUNT " ++ digits count]
  | _ => none

/-- A field line; the TOTAL line is bold (R157). -/
def fieldSeg (code : Nat) (t : Text) : Seg := .text t .left (code == 0x03) false false true

/-- What an element prints, the characters it drops and whether it is an unavailable field (R154, R155). -/
structure Rendered where
  segs        : List Seg
  truncated   : Nat
  unavailable : Nat
  deriving DecidableEq, Repr

/-- Resolve a field reference against a job's binding (R155). -/
def State.renderField (s : State) (b : JobBinding) (code arg : Nat) : Rendered :=
  match (s.figures b).bind fun f => fieldTexts s.set.currencyDecimals s.sst.count f code arg with
  | some l => { segs := l.map (fieldSeg code), truncated := 0, unavailable := 0 }
  | none => { segs := [blankLine], truncated := 0, unavailable := 1 }

/-- The characters a text line holds (R154). -/
def lineChars (wide : Bool) : Nat := if wide then 24 else 48

/-- Render an element (R154). -/
def State.render (s : State) (b : JobBinding) : Element → Rendered
  | .text bold wide tall align chars =>
    { segs := [.text (chars.take (lineChars wide)) align bold wide tall true]
      truncated := chars.length - lineChars wide
      unavailable := 0 }
  | .feed n => { segs := [.feed n], truncated := 0, unavailable := 0 }
  | .rule => { segs := [.rule], truncated := 0, unavailable := 0 }
  | .cut part => { segs := [.cut part], truncated := 0, unavailable := 0 }
  | .field code arg => s.renderField b code arg

/-- The heading of a REPRINT job (R148). -/
def copyHeading : Seg := .text (ascii "COPY") .centre false true false true

/-- The abort sequence: the mark, 96 lines of feed and a full cut (R160).
DEDUCED: log entry 21. -/
def abortSegs : List Seg := [.mark, .cut false]

/-! ### Dot rows (R154) -/

/-- The dot lines a segment takes; a cut has the 96 lines of its feed (R154, R160). -/
def Seg.height : Seg → Nat
  | .text _ _ _ _ tall _ => if tall then 48 else 24
  | .rule => 2
  | .mark => 4
  | .feed n => n
  | .cut _ => 96

/-- Whether a segment is a run of more than 32 dot lines without dots (R171, R35). -/
def Seg.longFeed : Seg → Bool
  | .feed n => decide (32 < n)
  | .cut _ => true
  | _ => false

/-- The code a character is drawn as (R154). -/
def drawnCode (c : Byte) : Nat := if 0x20 ≤ c.toNat ∧ c.toNat ≤ 0x7E then c.toNat else 0x3F

/-- The width of a cell (R154). -/
def cellWidth (wide : Bool) : Nat := if wide then 24 else 12

/-- The height of a text line (R154). -/
def cellHeight (tall : Bool) : Nat := if tall then 48 else 24

/-- A dot of a character's cell: none for the space, some for every other character (R154).
DESIGN CHOICE: log entry 8. -/
def glyphDot (wide tall : Bool) (code row col : Nat) : Bool :=
  decide (code ≠ 0x20) &&
    (Config.fontDot wide tall code row col ||
      (decide (row = Config.fontSomeRow wide tall code % cellHeight tall) &&
        decide (col = Config.fontSomeCol wide tall code % cellWidth wide)))

/-- The first dot of a line of `w` dots (R154). -/
def startDot (w : Nat) : Align → Nat
  | .left => 0
  | .centre => (576 - w) / 2
  | .right => 576 - w

/-- A dot of a text line (R154). -/
def textDot (chars : Text) (align : Align) (wide tall : Bool) (row x : Nat) : Bool :=
  let w := chars.length * cellWidth wide
  let x0 := startDot w align
  if x0 ≤ x ∧ x < x0 + w then
    match chars[(x - x0) / cellWidth wide]? with
    | some c => glyphDot wide tall (drawnCode c) row ((x - x0) % cellWidth wide)
    | none => false
  else false

/-- A dot of a row of a segment. -/
def Seg.dot (row x : Nat) : Seg → Bool
  | .text chars align _ wide tall _ => textDot chars align wide tall row x
  | .rule => true
  | .mark => true
  | .feed _ => false
  | .cut _ => false

/-- The dots on in each of the 12 strobe blocks of 48 dots (R169). -/
def blockCounts (dot : Nat → Bool) : List Nat :=
  (List.range 12).map fun b => ((List.range 48).filter fun i => dot (48 * b + i)).length

/-- The block counts of a row of a segment; a row without dots has none on in any block. -/
def Seg.counts (row : Nat) : Seg → List Nat
  | .feed _ => List.replicate 12 0
  | .cut _ => List.replicate 12 0
  | .rule => List.replicate 12 48
  | .mark => List.replicate 12 48
  | .text [] _ _ _ _ _ => List.replicate 12 0
  | g => blockCounts fun x => g.dot row x

/-- Whether any dot of a row is on. -/
def anyDots (counts : List Nat) : Bool := counts.any fun n => decide (0 < n)

/-! ### Strobe phases, time and period (R169 to R171) -/

/-- Group blocks into phases of at most `limit` dots; `cur` is the current phase's dot total (R169). -/
def groupFrom (limit cur : Nat) : List Nat → List Nat
  | [] => if cur = 0 then [] else [cur]
  | n :: rest =>
    if n = 0 then groupFrom limit cur rest
    else if cur + n ≤ limit then groupFrom limit (cur + n) rest
    else if cur = 0 then groupFrom limit n rest
    else cur :: groupFrom limit n rest

/-- The dot totals of a line's phases (R169). -/
def groupPhases (limit : Nat) (counts : List Nat) : List Nat := groupFrom limit 0 counts

/-- T_base in µs (R170). -/
def tBase (darkness : Nat) : Nat := 200 + 50 * darkness

/-- Tf (R170). -/
def tf (theta : Int) : Nat :=
  let x : Int := 1024 + 16 * (25 - theta)
  clampNat 512 2048 x.toNat

/-- Vf (R170); at no voltage at all the quotient is a free value, and its clamp holds.
DESIGN CHOICE: log entry 11. -/
def vf (mv : Nat) : Nat :=
  clampNat 768 1536 (if mv = 0 then Config.noVoltage else 576000000 * 1024 / (mv * mv))

/-- t_on in µs (R170). -/
def strobeTime (darkness : Nat) (theta : Int) (mv : Nat) : Nat :=
  tBase darkness * tf theta * vf mv / 1048576

/-- The strobe time of a line, bold or not (R170). -/
def lineStrobe (bold : Bool) (t : Nat) : Nat := if bold then t * 5 / 4 else t

/-- Whether a segment's lines are bold (R154). -/
def Seg.bold : Seg → Bool
  | .text _ _ b _ _ _ => b
  | _ => false

/-- The summed phase time in µs (R171). -/
def phaseSum (phases tOn : Nat) : Nat := phases * tOn + 20 * (phases - 1)

/-- The line period in µs (R171). -/
def linePeriod (phases tOn : Nat) : Nat := max 1250 (phaseSum phases tOn)

/-- The dot line fired for a row of a segment with dot limit `limit`, with DARKNESS and the head temperature as
they stand when it begins (R168 to R171).
DESIGN CHOICE: log entries 15 and 66. -/
def State.dotLine (s : State) (limit row : Nat) (g : Seg) : DotLine :=
  let phases := groupPhases limit (g.counts row)
  let t := lineStrobe g.bold (strobeTime s.set.darkness s.pen.theta s.dsa.mv)
  { limit := limit, phases := phases, tOn := t, period := linePeriod phases.length t,
    withheld := false }

end Sys2Proof.Machine
end

