-- ==== Sys2Proof/Machine/Supply.lean ====
section
/-! DEFINITION. The drive supply arbiter (section 10.1): committed loads, the wait queue, scans and what
each requester does with its grant. -/

namespace Sys2Proof.Machine

/-! ### Jobs by number -/

/-- The job of a number (R147). -/
def State.job? (s : State) (n : Nat) : Option Job := s.job.table.find? fun j => j.number == n

/-- Change the job of a number. -/
def modJob (n : Nat) (f : Job → Job) (s : State) : State :=
  { s with job.table := s.job.table.map fun j => if j.number = n then f j else j }

/-- Whether a job is ABORTED. -/
def Job.isAborted (j : Job) : Bool :=
  match j.mode with
  | .aborted _ _ => true
  | _ => false

/-! ### The arbiter (R177, R178) -/

/-- The capacity C of the setting in force, in mA (Table 10-1). -/
def Settings.capacity (t : Settings) : Nat := 100 * t.supplyCapacity

/-- The committed sum in mA (R177). -/
def Supply.committed (d : Supply) : Nat := (d.loads.map Prod.snd).sum

/-- The segment and row of the next dot line, where the engine has one. -/
def Engine.next (e : Engine) : Option (Seg × Nat) :=
  match e.work with
  | some w => w.segs.head?.map fun g => (g, w.row)
  | none => none

/-- Whether the next dot line has at least one dot on (R167, R168). -/
def Engine.nextHasDots (e : Engine) : Bool :=
  match e.next with
  | some (g, row) => anyDots (g.counts row)
  | none => false

/-- The current a request needs to fit, in mA, with DOT_CURRENT as it stands at the scan (Table 10-1, R177,
R179).
DESIGN CHOICE: log entry 57. -/
def State.need (s : State) : Requester → Nat
  | .port _ => 1500
  | .cutter => 1200
  | .line => 600 + (if s.pen.nextHasDots then 48 * s.set.dotCurrent else 0)

/-- The dot limit L of a line granted now, with DOT_CURRENT as it stands (R177, R179).
DESIGN CHOICE: log entry 57. -/
def State.dotLimit (s : State) : Nat :=
  min 576 ((s.set.capacity - s.dsa.committed - 600) / s.set.dotCurrent)

/-- Commit a load (R177). -/
def commitLoad (q : Requester) (mA : Nat) (s : State) : State :=
  { s with dsa.loads := s.dsa.loads ++ [(q, mA)] }

/-- A changed capacity takes effect: one above that in force at once, one below it when the committed sum is at
most the new value, even if it raises a lowered one that waits (R177).
DESIGN CHOICE: log entry 68. -/
def settleCap (s : State) : State :=
  if s.dsa.cap ≤ s.set.capacity ∨ s.dsa.committed ≤ s.set.capacity then
    { s with dsa.cap := s.set.capacity }
  else s

/-- Release a load without a scan. -/
def releaseLoad (q : Requester) (s : State) : State :=
  settleCap { s with dsa.loads := s.dsa.loads.filter fun l => l.1 != q }

/-- A granted port enters KICKING and energises its solenoid for PULSE_ON (R136). -/
def grantPort (r : Raise) (p : Port) (s : State) : State :=
  disturbStart r (.pulse p) ((commitLoad (.port p) 1500 s).setPort p { s.port p with
    mode := .kicking
    wait := 0
    on := true
    onMs := 0
    onTime := s.set.pulseOn
    trips := 0
    broken := false
    remembered := false })

/-- The granted cutter is driven (R172). -/
def grantCutter (r : Raise) (s : State) : State :=
  disturbStart r .cut { commitLoad .cutter 1200 s with pen.cut := some 0 }

/-- The job an engine serves shares its state, unless it is aborted (R150, R167). -/
def shareMode (m : JobMode) (s : State) : State :=
  match s.pen.work with
  | some { owner := .job n, .. } =>
    modJob n (fun j => if j.isAborted then j else { j with mode := m }) s
  | _ => s

/-- The owner of a line that fires: an abort sequence has then begun (R159). -/
def Owner.fired : Owner → Owner
  | .abort n _ => .abort n true
  | o => o

/-- The disturbing action a line's step starts: one for a whole long run without dots, one per line for
other lines with PRINT_MOTION_DISTURBS on (R171, R35).
DEDUCED: log entry 22. -/
def stepStart (r : Raise) (g : Seg) (s : State) : State :=
  if g.longFeed then
    if Action.feed ∈ s.wgt.actions then s else disturbStart r .feed s
  else if s.set.printMotionDisturbs = 0 then s
  else disturbStart r .line s

/-- The granted line: the motor and L × DOT_CURRENT are committed, the engine is PRINTING and the line's
step and phases begin (R168 to R171, R179). -/
def grantLine (r : Raise) (s : State) : State :=
  match s.pen.work with
  | some { owner := o, current := c, segs := g :: rest, row := row } =>
    let limit := s.dotLimit
    let s' := commitLoad .line (600 + limit * s.set.dotCurrent) s
    stepStart r g (shareMode .printing { s' with
      pen.mode := .printing
      pen.line := some (s.dotLine limit row g)
      pen.work := some { owner := o.fired, current := c, segs := g :: rest, row := row } })
  | _ => s

/-- Tell a requester that its request is granted (R178). -/
def grant (r : Raise) : Requester → State → State
  | .port p => grantPort r p
  | .cutter => grantCutter r
  | .line => grantLine r

/-- A scan of the wait queue from its head; no grant is made while supply low lasts (R178, R180). -/
def scanFrom (r : Raise) : Nat → State → State
  | 0, s => s
  | fuel + 1, s =>
    match s.dsa.queue with
    | [] => s
    | q :: rest =>
      if !s.dsa.low && decide (s.dsa.committed + s.need q ≤ s.set.capacity) then
        scanFrom r fuel (grant r q { s with dsa.queue := rest })
      else s

/-- Scan, unless the print engine is inside a line period (R178). The queue holds at most four requests;
the bound leaves room for requests that join during the scan.
DESIGN CHOICE: log entry 35. -/
def scan (r : Raise) (s : State) : State :=
  if s.pen.line.isSome then s else scanFrom r 8 s

/-- Ask for a whole grant: join the tail of the queue and scan (R178). -/
def askGrant (r : Raise) (q : Requester) (s : State) : State :=
  scan r { s with dsa.queue := s.dsa.queue ++ [q] }

/-- Return a grant (R178). -/
def returnGrant (r : Raise) (q : Requester) (s : State) : State := scan r (releaseLoad q s)

/-- Withdraw a request; a scan follows if it stood at the head (R178). -/
def withdraw (r : Raise) (q : Requester) (s : State) : State :=
  if q ∈ s.dsa.queue then
    let s' := { s with dsa.queue := s.dsa.queue.erase q }
    if s.dsa.queue.head? = some q then scan r s' else s'
  else s

end Sys2Proof.Machine
end

