-- ==== Sys2Proof/Machine/Drawer.lean ====
section
/-! DEFINITION. The drawer controller's operations (chapter 7): permits, kicks and their attempts, sense
events, and the effects of the PRESENT and SENSE_POLARITY settings on a port. -/

namespace Sys2Proof.Machine

/-- Change a port. -/
def modPort (p : Port) (f : PortState → PortState) (s : State) : State := s.setPort p (f (s.port p))

/-! ### Permits (R132) -/

/-- The permit that names a port (R132, R143). -/
def State.permitOf (s : State) (p : Port) : PermitKind :=
  if s.txn.entitlement = some p then .entitlement
  else if s.drw.noSale = some p then .noSale
  else .none

/-- A permit ceases to exist (R132). -/
def endPermit : PermitKind → State → State
  | .none, s => s
  | .entitlement, s => { s with txn.entitlement := none }
  | .noSale, s => { s with drw.noSale := none }

/-- The end of an entitlement is reported to the transaction context, which judges normal close (R132,
R101). -/
def permitEnded (r : Raise) (k : PermitKind) (s : State) : State :=
  if k = .entitlement then judgeClose r s else s

/-- A port whose PRESENT was turned off during its attempt enters UNKNOWN when the attempt has ended
(R140). -/
def PortState.settle (q : PortState) : PortState :=
  if q.leaving then { q with mode := .unknown, present := false, leaving := false } else q

/-! ### Openings -/

/-- The port enters OPEN, its left-open time starts at 0 and its attempt count is 0 (R132, R141).
DESIGN CHOICE: log entry 47. -/
def PortState.opened (q : PortState) : PortState :=
  { q with mode := .opened, openMs := 0, attempt := 0, retry := false, wait := 0, kick := .none,
           on := false, broken := false, remembered := false }

/-- The drawer opens under a kick: the permit is consumed, if it still exists, and DRAWER_OPENED is raised
with the attempt number (R134, R135, R138 to R140).
DEDUCED: log entry 27. -/
def openUnderKick (r : Raise) (p : Port) (s : State) : State :=
  let q := s.port p
  let s := endPermit q.kick s
  let s := s.setPort p q.opened
  let s := r (.drawerOpened q.tag p q.kick q.attempt) s
  let s := permitEnded r q.kick s
  judgeEntry r (modPort p PortState.settle s)

/-- A kick of a port that already stands open: the permit is consumed at once, with no pulse (R134). -/
def kickOpen (r : Raise) (tag : Byte) (p : Port) (s : State) : State :=
  let k := s.permitOf p
  permitEnded r k (r (.drawerOpened tag p k 0) (endPermit k s))

/-- The drawer is shut: CLOSED, DRAWER_CLOSED with the time it stood open (R141). -/
def closePort (r : Raise) (p : Port) (s : State) : State :=
  let secs := sat16 ((s.port p).openMs / 1000)
  r (.drawerClosed p secs) (modPort p (fun q => { q with mode := .closed, openMs := 0 }) s)

/-- Record a port with DRAWER_FORCED (R141, R192). -/
def Latched.force (l : Latched) : Port → Latched
  | .d1 => { l with forcedD1 := true }
  | .d2 => { l with forcedD2 := true }

/-- Record a port with DRAWER_OVERCURRENT (R137, R192). -/
def Latched.overcurrent (l : Latched) : Port → Latched
  | .d1 => { l with overD1 := true }
  | .d2 => { l with overD2 := true }

/-- A forced opening (R141): OPEN, or still FAULT; the lane wakes. -/
def forcedOpen (r : Raise) (p : Port) (s : State) : State :=
  let s := modPort p (fun q => if q.mode = .fault then q else q.opened) s
  let s := { s with rpt.latched := s.rpt.latched.force p }
  wake r 0#8 .forcedDrawer (r (.drawerForced p (s.port p).mode) s)

/-- The left-open time reaches LEFT_OPEN: OPEN_OVERDUE, DRAWER_LEFT_OPEN once (R141). -/
def leftOpen (r : Raise) (p : Port) (s : State) : State :=
  if (s.port p).mode = .opened then
    r (.drawerLeftOpen p (sat16 ((s.port p).openMs / 1000)))
      (modPort p (fun q => { q with mode := .openOverdue }) s)
  else s

/-- An OPEN port whose time has reached LEFT_OPEN becomes OPEN_OVERDUE (R141); one that is OPEN_OVERDUE stays so
when LEFT_OPEN is raised.
DESIGN CHOICE: log entry 63. -/
def judgeLeftOpen (r : Raise) (p : Port) (s : State) : State :=
  if 1000 * s.set.leftOpen ≤ (s.port p).openMs then leftOpen r p s else s

/-! ### Attempts (R135 to R139) -/

/-- An attempt begins: the count rises, the port enters GRANT_WAIT and asks for its grant (R134, R135,
R139). -/
def startAttempt (r : Raise) (p : Port) (s : State) : State :=
  askGrant r (.port p) (modPort p (fun q =>
    { q with mode := .grantWait, attempt := q.attempt + 1, retry := false, wait := 0 }) s)

/-- An attempt fails (R139); after its permit has ended it leaves the port CLOSED with no retry (R140). -/
def failAttempt (r : Raise) (p : Port) (reason : FailReason) (s : State) : State :=
  let q := { s.port p with
    reason := some reason, wait := 0, on := false, broken := false, remembered := false }
  if q.kick = .none then
    let s := s.setPort p { q with mode := .closed, attempt := 0, retry := false }
    let s := r (.drawerNoOpen q.tag p q.attempt reason false) s
    judgeEntry r (modPort p PortState.settle s)
  else if q.attempt < 3 then
    r (.drawerNoOpen q.tag p q.attempt reason true)
      (s.setPort p { q with mode := .closed, retry := true })
  else
    let s := endPermit q.kick (s.setPort p { q with mode := .fault, retry := false, kick := .none })
    let s := r (.drawerNoOpen q.tag p q.attempt reason false) s
    let s := r (.drawerFailed q.tag p q.kick reason) s
    judgeEntry r (permitEnded r q.kick s)

/-- The attempt leaves KICKING: the solenoid is off, the grant returned, the pulse action ended (R137,
R138). -/
def leaveKicking (r : Raise) (p : Port) (s : State) : State :=
  disturbEnd r (.pulse p) s.set.drawerGuard
    (returnGrant r (.port p) (modPort p (fun q =>
      { q with mode := .waitOpen, wait := 0, on := false, broken := false }) s))

/-- A remembered OPEN takes the port to OPEN, and on to CLOSED where the sense has returned (R138); a port whose
PRESENT was turned off is UNKNOWN by then (R140). A pending power entry is judged at the opening, before the port
is CLOSED (R183).
DESIGN CHOICE: log entries 46 and 62. -/
def openRemembered (r : Raise) (p : Port) (s : State) : State :=
  let s := openUnderKick r p s
  if (s.port p).mode = .opened ∧ s.sense p = some false then closePort r p s else s

/-- The on-time is reached (R138). -/
def pulseEnd (r : Raise) (p : Port) (s : State) : State :=
  let s := leaveKicking r p s
  if (s.port p).remembered then openRemembered r p s else s

/-- The attempt fails by overcurrent (R137), unless an OPEN is remembered (R138). -/
def overcurrentFail (r : Raise) (p : Port) (s : State) : State :=
  let s := leaveKicking r p s
  if (s.port p).remembered then openRemembered r p s else failAttempt r p .overcurrent s

/-- A trip of the comparator while the solenoid is energised (R137). -/
def overcurrentTrip (r : Raise) (p : Port) (s : State) : State :=
  let first := decide ((s.port p).trips = 0)
  let s := modPort p (fun q =>
    { q with on := false, broken := true, wait := 0, trips := q.trips + 1 }) s
  let s := { s with rpt.latched := s.rpt.latched.overcurrent p }
  if first ∧ s.set.autoResume ≠ 0 then s else overcurrentFail r p s

/-- The 20 ms break ends (R137). -/
def overcurrentBreakEnd (r : Raise) (p : Port) (clear : Bool) (s : State) : State :=
  if clear then modPort p (fun q => { q with on := true, broken := false, wait := 0 }) s
  else overcurrentFail r p s

/-- The grant wait ends without a grant (R135). -/
def grantWaitEnd (r : Raise) (p : Port) (s : State) : State :=
  failAttempt r p .noGrant (withdraw r (.port p) s)

/-! ### Kicks (R133, R134) -/

/-- The checks of DRAWER_KICK after the port value (R134). -/
def kickRefusal (p : Port) (s : State) : Option Status :=
  if !s.set.present p then some .refusedState
  else if s.permitOf p = .none then some .refusedPermit
  else
    match (s.port p).mode with
    | .closed => if (s.port p).retry then some .refusedBusy else none
    | .opened | .openOverdue => none
    | .unknown | .grantWait | .kicking | .waitOpen | .fault => some .refusedBusy

/-- An accepted kick (R134). -/
def kickAccepted (r : Raise) (tag : Byte) (p : Port) (s : State) : State :=
  match (s.port p).mode with
  | .closed =>
    let k := s.permitOf p
    startAttempt r p (modPort p (fun q => { q with attempt := 0, tag := tag, kick := k }) s)
  | _ => kickOpen r tag p s

/-- A kick through its checks; the status it draws (R134). -/
def kick (r : Raise) (tag : Byte) (p : Port) (s : State) : State × Status :=
  match kickRefusal p s with
  | some st => (s, st)
  | none => (kickAccepted r tag p s, .ok)

/-- The checks of DRAWER_NOSALE after the port value (R133). -/
def noSaleRefusal (p : Port) (s : State) : Option Status :=
  if s.txn.state ≠ .idle ∨ s.txn.entitlement.isSome ∨ s.drw.noSale.isSome then some .refusedState
  else if !s.set.present p then some .refusedState
  else
    match (s.port p).mode with
    | .closed => if (s.port p).retry then some .refusedBusy else none
    | .opened | .openOverdue => none
    | .unknown | .grantWait | .kicking | .waitOpen | .fault => some .refusedBusy

/-! ### The end of a permit during its kick (R140) -/

/-- An attempt in GRANT_WAIT is given up: request withdrawn, CLOSED, DRAWER_NO_OPEN with retry 0; its reason is
the port's last failure reason (R140).
DESIGN CHOICE: log entry 45. -/
def abandonGrantWait (r : Raise) (p : Port) (s : State) : State :=
  let s := withdraw r (.port p) s
  let q := s.port p
  r (.drawerNoOpen q.tag p q.attempt .noGrant false) (s.setPort p { q with
    mode := .closed, attempt := 0, retry := false, wait := 0, kick := .none, reason := some .noGrant })

/-- TXN_CLOSE has cancelled the entitlement of a port's kick (R140). An attempt in KICKING or WAIT_OPEN keeps its
number until it has ended (R132).
DESIGN CHOICE: log entry 61. -/
def cancelKick (r : Raise) (p : Port) (s : State) : State :=
  if (s.port p).kick = .entitlement then
    match (s.port p).mode with
    | .grantWait => judgeEntry r (abandonGrantWait r p s)
    | .kicking | .waitOpen => modPort p (fun q => { q with kick := .none }) s
    | _ => judgeEntry r (modPort p (fun q =>
        { q with retry := false, attempt := 0, wait := 0, kick := .none }) s)
  else s

/-- The permit of a kick is removed by PRESENT off: DRAWER_FAILED with reason ABSENT (R140). -/
def removeAbsent (r : Raise) (tag : Byte) (p : Port) (k : PermitKind) (s : State) : State :=
  if k = .none then s
  else
    let s := modPort p (fun q => { q with kick := .none, reason := some .absent }) (endPermit k s)
    permitEnded r k (r (.drawerFailed tag p k .absent) s)

/-- The port enters UNKNOWN with PRESENT off (R129). -/
def PortState.absentNow (q : PortState) : PortState :=
  { q with mode := .unknown, present := false, leaving := false, openMs := 0 }

/-- PRESENT turned off for a port (R129, R140).
DESIGN CHOICE: log entry 61. DEDUCED: log entry 26. -/
def presentOff (r : Raise) (p : Port) (s : State) : State :=
  let q := s.port p
  match q.mode with
  | .grantWait =>
    let s := abandonGrantWait r p s
    judgeEntry r (modPort p PortState.absentNow (removeAbsent r q.tag p q.kick s))
  | .kicking | .waitOpen =>
    removeAbsent r q.tag p q.kick (modPort p (fun q => { q with leaving := true }) s)
  | .closed =>
    if q.retry then
      let s := modPort p (fun q => { q with retry := false, attempt := 0, wait := 0 }) s
      judgeEntry r (modPort p PortState.absentNow (removeAbsent r q.tag p q.kick s))
    else modPort p PortState.absentNow s
  | _ => modPort p PortState.absentNow s

/-! ### Sense events (R130, R131, R141) -/

/-- A present port in UNKNOWN takes its state from its sense, with no notice (R131). -/
def takeSense (p : Port) (s : State) : State :=
  match s.sense p with
  | some true => modPort p PortState.opened s
  | some false => modPort p (fun q => { q with mode := .closed }) s
  | none => s

/-- A sense event of a present port (R131, R135, R138, R139, R141). -/
def senseEvent (r : Raise) (p : Port) (isOpen : Bool) (s : State) : State :=
  match (s.port p).mode with
  | .unknown => takeSense p s
  | .closed =>
    if !isOpen then s
    else if (s.port p).retry then openUnderKick r p s
    else forcedOpen r p s
  | .grantWait => if isOpen then openUnderKick r p (withdraw r (.port p) s) else s
  | .kicking => if isOpen then modPort p (fun q => { q with remembered := true }) s else s
  | .waitOpen => if isOpen then openUnderKick r p s else s
  | .opened | .openOverdue => if isOpen then s else closePort r p s
  | .fault => if isOpen then forcedOpen r p s else s

/-- The sense input has held one level for 25 ms (R130): the debounced sense takes it, and a present port
acts on the change. A level held again after a glitch changes nothing, but lets a port in UNKNOWN take its
state (R131).
DEDUCED: log entry 25. -/
def senseDebounced (r : Raise) (p : Port) (s : State) : State :=
  let q := s.port p
  if q.deb.isNone then s
  else
    let s' := s.setPort p { q with held := some q.level, deb := none }
    match q.present, s'.sense p with
    | true, some o =>
      if q.held = some q.level then (if q.mode = .unknown then takeSense p s' else s')
      else senseEvent r p o s'
    | _, _ => s'

/-- PRESENT turned on for a port (R129, R131); while an attempt still runs after it was turned off, the port stays
present.
DESIGN CHOICE: log entry 44. -/
def presentOn (p : Port) (s : State) : State :=
  if (s.port p).leaving then modPort p (fun q => { q with leaving := false }) s
  else
    let s := modPort p (fun q => { q with present := true }) s
    if (s.port p).deb.isNone then takeSense p s else s

/-- A changed PRESENT takes effect in a port (R129). -/
def presentChanged (r : Raise) (p : Port) (s : State) : State :=
  if s.set.present p then presentOn p s else presentOff r p s

/-- A changed SENSE_POLARITY takes effect in a port (R129).
DEDUCED: log entry 25. -/
def polarityChanged (r : Raise) (p : Port) (s : State) : State :=
  let q := s.port p
  if !q.present then s
  else
    match q.mode, s.sense p with
    | .opened, _ | .openOverdue, _ => modPort p (fun q => { q with mode := .unknown, openMs := 0 }) s
    | .closed, o =>
      if q.retry then
        match o with
        | some o => senseEvent r p o s
        | none => s
      else modPort p (fun q => { q with mode := .unknown }) s
    | _, some o => senseEvent r p o s
    | _, none => s

end Sys2Proof.Machine
end

