-- ==== Sys2Proof/Machine/Operands.lean ====
section
/-! DEFINITION. The operand forms: settings by number with their ranges (Table 11-3), the elements of a
JOB_DATA payload (Tables 1-6 and 1-7), the argument of a binding (R190), dates and times (R86). -/

namespace Sys2Proof.Machine

/-! ### Settings by number (R193, Table 11-3) -/

/-- The values a setting takes. -/
inductive SettingValues where
  | range (lo hi step : Nat)
  | listed (values : List Nat)
  deriving DecidableEq, Repr

/-- Off or on. -/
def SettingValues.offOn : SettingValues := .listed [0, 1]

/-- The values of each setting (Table 11-3). -/
def settingValues : Nat → Option SettingValues
  | 1 => some (.listed [19200, 38400, 57600, 115200, 230400, 460800])
  | 2 => some .offOn
  | 3 => some (.listed [4, 8, 16, 32])
  | 4 => some (.listed [4, 8, 16, 32])
  | 5 => some (.range 6 120 1)
  | 6 => some (.range 6 120 1)
  | 7 => some .offOn
  | 8 => some .offOn
  | 9 => some (.range 1 10 1)
  | 10 => some (.range 0 500 10)
  | 11 => some (.range 0 500 10)
  | 12 => some .offOn
  | 13 => some .offOn
  | 14 => some (.range 10 200 1)
  | 15 => some (.range 3 60 1)
  | 16 => some (.listed [1, 2])
  | 17 => some .offOn
  | 18 => some (.range 10 300 1)
  | 19 => some .offOn
  | 20 => some .offOn
  | 21 => some .offOn
  | 22 => some .offOn
  | 23 => some (.range 50 250 10)
  | 24 => some .offOn
  | 25 => some (.range 5 300 1)
  | 26 => some .offOn
  | 27 => some (.range 500 10000 1)
  | 28 => some (.range 0 3 1)
  | 29 => some (.range 1 5 1)
  | 30 => some (.range 20 80 1)
  | 31 => some (.range 5 20 1)
  | 32 => some (.range 0 60 1)
  | _ => none

/-- The distance of two numbers. -/
def distNat (a b : Nat) : Nat := (a - b) + (b - a)

/-- The nearest of a rising list of values, a tie going to the higher (R193). -/
def nearestListed (v : Nat) : List Nat → Nat
  | [] => v
  | x :: rest => rest.foldl (fun best y => if distNat v y ≤ distNat v best then y else best) x

/-- The nearest step of a range, a tie going up (R193). -/
def nearestStep (lo step v : Nat) : Nat := lo + ((v - lo) + step / 2) / step * step

/-- The value taken for a value written (R193). -/
def SettingValues.take (v : Nat) : SettingValues → Nat
  | .range lo hi step => nearestStep lo step (clampNat lo hi v)
  | .listed l => nearestListed v l

/-- The working value of a setting (R193). -/
def Settings.get (t : Settings) : Nat → Nat
  | 1 => t.baudRate
  | 2 => t.noticePush
  | 3 => t.filterDepthP
  | 4 => t.filterDepthB
  | 5 => t.stabilityWindowP
  | 6 => t.stabilityWindowB
  | 7 => t.zeroTrackP
  | 8 => t.zeroTrackB
  | 9 => t.captureTimeout
  | 10 => t.drawerGuard
  | 11 => t.printGuard
  | 12 => t.printMotionDisturbs
  | 13 => t.tareAutoClear
  | 14 => t.bagThreshold
  | 15 => t.bagTimeout
  | 16 => t.cashPort
  | 17 => t.kickOnSettle
  | 18 => t.cardHold
  | 19 => t.presentD1
  | 20 => t.presentD2
  | 21 => t.sensePolarityD1
  | 22 => t.sensePolarityD2
  | 23 => t.pulseOn
  | 24 => t.autoResume
  | 25 => t.leftOpen
  | 26 => t.startPolicy
  | 27 => t.stallLimit
  | 28 => t.currencyDecimals
  | 29 => t.darkness
  | 30 => t.supplyCapacity
  | 31 => t.dotCurrent
  | 32 => t.idleStandby
  | _ => 0

/-- Write one setting. -/
def Settings.put (t : Settings) (v : Nat) : Nat → Settings
  | 1 => { t with baudRate := v }
  | 2 => { t with noticePush := v }
  | 3 => { t with filterDepthP := v }
  | 4 => { t with filterDepthB := v }
  | 5 => { t with stabilityWindowP := v }
  | 6 => { t with stabilityWindowB := v }
  | 7 => { t with zeroTrackP := v }
  | 8 => { t with zeroTrackB := v }
  | 9 => { t with captureTimeout := v }
  | 10 => { t with drawerGuard := v }
  | 11 => { t with printGuard := v }
  | 12 => { t with printMotionDisturbs := v }
  | 13 => { t with tareAutoClear := v }
  | 14 => { t with bagThreshold := v }
  | 15 => { t with bagTimeout := v }
  | 16 => { t with cashPort := v }
  | 17 => { t with kickOnSettle := v }
  | 18 => { t with cardHold := v }
  | 19 => { t with presentD1 := v }
  | 20 => { t with presentD2 := v }
  | 21 => { t with sensePolarityD1 := v }
  | 22 => { t with sensePolarityD2 := v }
  | 23 => { t with pulseOn := v }
  | 24 => { t with autoResume := v }
  | 25 => { t with leftOpen := v }
  | 26 => { t with startPolicy := v }
  | 27 => { t with stallLimit := v }
  | 28 => { t with currencyDecimals := v }
  | 29 => { t with darkness := v }
  | 30 => { t with supplyCapacity := v }
  | 31 => { t with dotCurrent := v }
  | 32 => { t with idleStandby := v }
  | _ => t

/-- The value a SET_PUT takes for a value written: the range, step or list of the setting (R193), and for
STABILITY_WINDOW not less than the channel's FILTER_DEPTH (R32); none for a number outside 1 to 32.
DEDUCED: log entry 33. -/
def Settings.taken (t : Settings) (n v : Nat) : Option Nat :=
  (settingValues n).map fun k =>
    if n = 5 then max t.filterDepthP (k.take v)
    else if n = 6 then max t.filterDepthB (k.take v)
    else k.take v

/-- R25, R32: STABILITY_WINDOW is raised to FILTER_DEPTH where it is below it. -/
def Settings.raiseWindows (t : Settings) : Settings :=
  { t with
    stabilityWindowP := max t.stabilityWindowP t.filterDepthP
    stabilityWindowB := max t.stabilityWindowB t.filterDepthB }

/-! ### Job elements (Table 1-6) -/

/-- The encoded length of an element, which is what it occupies in the element memory (Table 1-6, R146). -/
def Element.length : Element → Nat
  | .text _ _ _ _ chars => 4 + chars.length
  | .feed _ => 2
  | .rule => 1
  | .cut _ => 2
  | .field _ _ => 3

/-- Alignment codes (Table 1-6). -/
def Align.ofByte (b : Byte) : Option Align :=
  if b = 0#8 then some .left else if b = 1#8 then some .centre
  else if b = 2#8 then some .right else none

/-- Whether a reference code takes an argument (Table 1-7). -/
def fieldArgOk (code arg : Nat) : Bool :=
  if code = 0x06 then decide (1 ≤ arg) && decide (arg ≤ 8)
  else if code = 0x07 then decide (1 ≤ arg) && decide (arg ≤ 64)
  else decide (1 ≤ code) && decide (code ≤ 0x0A) && decide (arg = 0)

/-- Read one element from the front of a payload; none where it does not match Tables 1-6 and 1-7
(R149). -/
def readElement : List Byte → Option (Element × List Byte)
  | 0x01#8 :: style :: align :: n :: rest =>
    match Align.ofByte align with
    | some a =>
      if style.toNat < 8 ∧ n.toNat ≤ 48 ∧ n.toNat ≤ rest.length then
        some (.text (style.getLsbD 0) (style.getLsbD 1) (style.getLsbD 2) a (rest.take n.toNat),
          rest.drop n.toNat)
      else none
    | none => none
  | 0x02#8 :: n :: rest => some (.feed n.toNat, rest)
  | 0x03#8 :: rest => some (.rule, rest)
  | 0x04#8 :: k :: rest =>
    if k = 0#8 then some (.cut false, rest) else if k = 1#8 then some (.cut true, rest) else none
  | 0x05#8 :: code :: arg :: rest =>
    if fieldArgOk code.toNat arg.toNat then some (.field code.toNat arg.toNat, rest) else none
  | _ => none

/-- Read elements back to back until the bytes end; `fuel` bounds their number (R149). -/
def readElements : Nat → List Byte → Option (List Element)
  | _, [] => some []
  | 0, _ :: _ => none
  | fuel + 1, b :: bs =>
    match readElement (b :: bs) with
    | some (e, rest) => (readElements fuel rest).map (e :: ·)
    | none => none

/-! ### Bindings (R190) -/

/-- The action codes of a binding. -/
def BindAction.code : BindAction → Byte
  | .kick _ => 1#8
  | .capture _ => 2#8
  | .startFeed _ => 3#8
  | .armReader => 4#8

/-- The action and argument of an EVT_BIND, where the action is 1 to 4 and the argument in its range. -/
def BindAction.read (action : Byte) (arg : Nat) : Option BindAction :=
  if action = 1#8 then
    (if arg = 1 then some (.kick .d1) else if arg = 2 then some (.kick .d2) else none)
  else if action = 2#8 then
    (if 1 ≤ arg ∧ arg ≤ 999999 then some (.capture arg) else none)
  else if action = 3#8 then
    (if 1 ≤ arg ∧ arg ≤ 255 then some (.startFeed arg) else none)
  else if action = 4#8 then
    (if arg = 0 then some .armReader else none)
  else none

/-- Whether a code is a notice code of Table 1-5. -/
def isNoticeCode (c : Nat) : Bool := decide (0x80 ≤ c) && decide (c ≤ 0xA5)

/-! ### Dates and times (R86) -/

/-- A date YYYYMMDD with month 1 to 12 and day 1 to 31, and a time HHMM with hour 0 to 23 and minute 0 to
59. -/
def dateTimeOk (date time : Nat) : Bool :=
  decide (1 ≤ date / 100 % 100) && decide (date / 100 % 100 ≤ 12) &&
    decide (1 ≤ date % 100) && decide (date % 100 ≤ 31) &&
    decide (time / 100 ≤ 23) && decide (time % 100 ≤ 59)

end Sys2Proof.Machine
end

