-- ==== Sys2Proof/Machine/Print.lean ====
section
/-! DEFINITION. The job store and the print engine (chapters 8 and 9): the start and end of jobs, line
boundaries and pauses, cuts, and the abort sequence. -/

namespace Sys2Proof.Machine

/-! ### The job store (R145 to R147) -/

/-- The bytes a job's elements hold (R146). -/
def Job.bytes (j : Job) : Nat := (j.elements.map Element.length).sum

/-- The free element memory (R146). -/
def JobStore.free (t : JobStore) : Nat := 8192 - (t.table.map Job.bytes).sum

/-- The job number after one, from 255 back to 1 (R147). -/
def nextNumber (n : Nat) : Nat := if n = 255 then 1 else n + 1

/-- The next job number that no job in the table has; the table has at most 4 jobs (R147). -/
def JobStore.pickNumber (t : JobStore) : Nat → Nat → Nat
  | 0, n => n
  | fuel + 1, n => if t.table.any (fun j => j.number == n) then t.pickNumber fuel (nextNumber n) else n

/-- A job leaves the table (R145). -/
def dropJob (n : Nat) (s : State) : State :=
  { s with job.table := s.job.table.filter fun j => j.number != n }

/-- Whether a job reports to the sale (R148, R152). -/
def Job.ofSale (j : Job) : Bool := decide (j.role = .receipt) && decide (j.binding = .sale)

/-- A job ends DONE: it leaves the table, JOB_DONE is queued, and the receipt of the sale is reported
(R152, R162).
DEDUCED: log entry 20. -/
def jobDone (r : Raise) (n : Nat) (s : State) : State :=
  match s.job? n with
  | none => s
  | some j =>
    let s := r (.jobDone j.tag n j.role j.lines j.truncated j.unavailable) (dropJob n s)
    if j.ofSale then receiptDone r s else s

/-- An aborted job leaves the table with an ending (R160, R162). -/
def jobLeaves (r : Raise) (n : Nat) (reason : AbortReason) (ending : Ending) (s : State) : State :=
  match s.job? n with
  | none => s
  | some j =>
    r (.jobAborted j.tag n j.role reason ending j.lines j.truncated j.unavailable) (dropJob n s)

/-- The abort reason of a job (R162). -/
def Job.reason (j : Job) : AbortReason :=
  match j.mode with
  | .aborted reason _ => reason
  | _ => .host

/-- The ending of a job (R162). -/
def Job.ending (j : Job) : Ending :=
  match j.mode with
  | .aborted _ ending => ending
  | _ => .none

/-- A job enters ABORTED: its elements are freed (R146, R159). -/
def markAborted (n : Nat) (reason : AbortReason) (ending : Ending) (s : State) : State :=
  modJob n (fun j => { j with mode := .aborted reason ending, elements := [], heading := false }) s

/-! ### Readiness and start (R151, R152) -/

/-- Whether a job's content allows it to start under START_POLICY (R151). -/
def Job.ready (j : Job) (t : Settings) : Bool :=
  j.closed || (decide (t.startPolicy = 0) && !j.elements.isEmpty)

/-- The state of a job that has not started: FILLING or QUEUED as its input says (R151). -/
def Job.waiting (j : Job) : JobMode := if j.closed then .queued else .filling

/-- A job starts: it is PRINTING and the engine serves it (R152). -/
def startJob (n : Nat) (s : State) : State :=
  modJob n (fun j => { j with mode := .printing }) { s with
    pen.mode := .printing
    pen.work := some { owner := .job n, current := .none, segs := [], row := 0 } }

/-- Whether a job has not started. -/
def Job.unstarted (j : Job) : Bool :=
  match j.mode with
  | .filling | .queued | .waitSettle => true
  | _ => false

/-- Judge the readiness of the head job; the second component says whether it starts (R151).
DEDUCED: log entry 18. -/
def judgeHead (s : State) : State × Bool :=
  match s.job.table.head? with
  | none => (s, false)
  | some j =>
    if !j.unstarted then (s, false)
    else if !j.ready s.set then (modJob j.number (fun j => { j with mode := .filling }) s, false)
    else if j.ofSale ∧ s.txn.state ≠ .settled then
      (modJob j.number (fun j => { j with mode := .waitSettle }) s, false)
    else if s.pen.mode = .idle ∧ s.sst.started then (startJob j.number s, true)
    else (modJob j.number (fun j => { j with mode := j.waiting }) s, false)

/-! ### Pauses (R167) -/

/-- Pause causes 1 to 3: the sensors as they stand at the boundary, and the pauses taken (R165, R167, R172), and
supply low as it stands there (R171, R180).
DESIGN CHOICE: log entries 64 and 74. -/
def State.boundaryCause (s : State) : Option Pause :=
  if s.pen.paperOut || s.pen.paperHold then some .paper
  else if s.pen.coverOpen || s.pen.coverHold then some .cover
  else if s.dsa.low then some .supply
  else none

/-- Pause causes 1 to 4, with a next dot line (R167). -/
def State.lineCause (s : State) : Option Pause :=
  match s.boundaryCause with
  | some p => some p
  | none => if s.pen.hot && s.pen.nextHasDots then some .hot else none

/-- Work that a PAPER or COVER pause ends: a feed is abandoned, an abort sequence stops and its job leaves;
the engine is PAUSED, so no other job starts (R159, R160, R175).
DEDUCED: log entry 21. -/
def endPausedWork (r : Raise) (s : State) : State :=
  match s.pen.work with
  | some { owner := .feed, .. } => { s with pen.work := none }
  | some { owner := .abort n begun, .. } =>
    let reason := ((s.job? n).map Job.reason).getD .host
    (judgeHead (jobLeaves r n reason (if begun then .incomplete else .none)
      { s with pen.work := none })).1
  | _ => s

/-- End the action of a long feed, if one runs (R171). -/
def endFeedAction (r : Raise) (s : State) : State := disturbEnd r .feed s.set.printGuard s

/-- A pause is taken with a reason, or its reason becomes another (R167, R158). -/
def takePause (r : Raise) (p : Pause) (s : State) : State :=
  if s.pen.mode = .paused p then s
  else
    let s := shareMode (.paused p) { s with pen.mode := .paused p }
    let s := match p with
      | .paper => { s with pen.paperHold := true }
      | .cover => { s with pen.coverHold := true }
      | _ => s
    let s := match p, s.pen.work with
      | .underrun, some { owner := .job n, .. } => modJob n (fun j => { j with stall := 0 }) s
      | _, _ => s
    let s := endFeedAction r s
    let s := match p with
      | .drive => s
      | _ => withdraw r .line s
    let s := match p with
      | .paper | .cover => endPausedWork r s
      | _ => s
    scan r s

/-- The next line's allocation is asked; where it is not given the engine takes the DRIVE pause (R168,
R179). A request already waiting keeps its place.
DEDUCED: log entry 23. -/
def askLine (r : Raise) (s : State) : State :=
  if Requester.line ∈ s.dsa.queue then takePause r .drive s
  else
    let s := askGrant r .line s
    if s.pen.line.isSome then s else takePause r .drive s

/-! ### The line boundary (R152, R164, R167) -/

/-- An element, or the heading, is completed: its bytes are freed (R146, R152, R161). -/
def contentDone (n : Nat) (w : Work) (s : State) : State :=
  let s := { s with pen.work := some { w with current := .none, segs := [], row := 0 } }
  match w.current with
  | .none => s
  | .heading => modJob n (fun j => { j with heading := false }) s
  | .element => modJob n (fun j =>
      { j with elements := j.elements.tail, rendered := sat16 (j.rendered + 1) }) s

/-- The engine takes a job's heading (R148). -/
def takeHeading (w : Work) (s : State) : State :=
  { s with pen.work := some { w with current := .heading, segs := [copyHeading], row := 0 } }

/-- The engine takes an element, resolving a field reference; the characters it drops are counted here (R152,
R154, R155, R161).
DESIGN CHOICE: log entry 56. -/
def takeElement (n : Nat) (b : JobBinding) (w : Work) (e : Element) (s : State) : State :=
  let x := s.render b e
  modJob n (fun j =>
    { j with truncated := sat16 (j.truncated + x.truncated)
             unavailable := sat16 (j.unavailable + x.unavailable) })
    { s with pen.work := some { w with current := .element, segs := x.segs, row := 0 } }

/-- The work of an abort sequence not yet begun (R160). -/
def abortWork (n : Nat) : Work :=
  { owner := .abort n false, current := .none, segs := abortSegs, row := 0 }

/-- Whether the job of some work has been aborted in PRINTING, so that the engine turns to its abort
sequence (R159). -/
def State.turned (s : State) (w : Work) : Option Nat :=
  match w.owner with
  | .job n => if ((s.job? n).map Job.isAborted).getD false then some n else none
  | _ => none

/-- Whether a pause that the engine has taken for a cause of its own still holds (R167). Until it ends, a job
without content asks for none, and is not DONE (R152, R158).
DESIGN CHOICE: log entry 73. -/
def State.stillPaused (s : State) : Bool :=
  match s.pen.mode with
  | .paused .underrun => false
  | .paused _ => s.boundaryCause.isSome
  | _ => false

/-- What the engine does at a line boundary: it completes what is printed, and a job with nothing left is DONE;
else it judges PAPER, COVER and SUPPLY, then takes the next content, then judges HOT and asks for the next
line; or it returns to IDLE, where the head job may start and a pending power entry may be taken (R152, R158,
R164, R167, R183). An engine without work that has not resumed from its pause stays PAUSED while a cause holds
(R173).
DESIGN CHOICE: log entries 50 and 65. -/
def atBoundary (r : Raise) : Nat → State → State
  | 0, s => s
  | fuel + 1, s =>
    match s.pen.work with
    | none =>
      match (if s.pen.mode = .printing ∨ s.pen.mode = .idle then none else s.boundaryCause) with
      | some p => takePause r p s
      | none =>
        match judgeHead (scan r { s with pen.mode := .idle }) with
        | (s, true) => atBoundary r fuel s
        | (s, false) => judgeEntry r s
    | some w =>
      match s.turned w with
      | some n => atBoundary r fuel { s with pen.work := some (abortWork n) }
      | none =>
        match w.segs with
        | g :: rest =>
          if g.height ≤ w.row then
            atBoundary r fuel { s with pen.work := some { w with segs := rest, row := 0 } }
          else
            match s.lineCause with
            | some p => takePause r p s
            | none => askLine r s
        | [] =>
          match w.owner with
          | .feed => atBoundary r fuel { s with pen.work := none }
          | .abort _ _ => atBoundary r fuel { s with pen.work := none }
          | .job n =>
            match w.current, s.job? n with
            | _, none => atBoundary r fuel { s with pen.work := none }
            | .none, some j =>
              if !j.heading && j.elements.isEmpty && j.closed && !s.stillPaused then
                atBoundary r fuel (jobDone r n { s with pen.work := none })
              else
                match s.boundaryCause with
                | some p => takePause r p s
                | none =>
                  if j.heading then atBoundary r fuel (takeHeading w s)
                  else
                    match j.elements with
                    | e :: _ => atBoundary r fuel (takeElement n j.binding w e s)
                    | [] => takePause r .underrun s
            | _, some _ => atBoundary r fuel (contentDone n w s)

/-- A bound on what one boundary can go through: each element is taken, passed over and completed, each
job started and ended.
DESIGN CHOICE: log entry 35. -/
def State.boundaryFuel (s : State) : Nat :=
  8 + (s.job.table.map fun j => 8 + 4 * j.elements.length).sum

/-- The engine acts at a line boundary. -/
def boundary (r : Raise) (s : State) : State := atBoundary r s.boundaryFuel s

/-- A PAUSED engine judges its causes again (R167). -/
def rejudgePause (r : Raise) (s : State) : State :=
  match s.pen.mode with
  | .paused _ => boundary r s
  | _ => s

/-- Judge the head job's readiness and start it where it may (R151). -/
def judgeStart (r : Raise) (s : State) : State :=
  match judgeHead s with
  | (s, true) => boundary r s
  | (s, false) => s

/-! ### The end of a dot line (R161, R171, R179) and the cut (R172) -/

/-- A text line whose last dot line is printed counts (R161). -/
def countLine (w : Work) (g : Seg) (s : State) : State :=
  match w.owner, g with
  | .job n, .text _ _ _ _ _ true => modJob n (fun j => { j with lines := sat16 (j.lines + 1) }) s
  | _, _ => s

/-- The engine enters CUTTING and asks for the cutter's grant (R172). -/
def enterCutting (r : Raise) (s : State) : State :=
  askGrant r .cutter { s with pen.mode := .cutting }

/-- The kind of cut that stands next in some work, if one does: whether it is a partial one (R154, R172). -/
def Seg.cutKind : Seg → Option Bool
  | .cut part => some part
  | _ => none

/-- The supply is read; the dot line in progress, if there is one, ends: its allocation and its step's action
end, and the engine is at its next line boundary (R167, R170, R171, R179). A text line counts where its last
dot line ends before an abort of its job.
DESIGN CHOICE: log entry 15. DEDUCED: log entries 22 and 51. -/
def lineEnd (r : Raise) (mv : Nat) (s : State) : State :=
  let s := { s with dsa.mv := mv }
  match s.pen.line, s.pen.work with
  | some _, some w =>
    let s := releaseLoad .line { s with pen.line := none }
    let s := disturbEnd r .line s.set.printGuard s
    let aborted := (s.turned w).isSome
    match w.segs with
    | [] => boundary r s
    | g :: rest =>
      let done := decide (g.height ≤ w.row + 1)
      let s := if done || aborted then endFeedAction r s else s
      let s := if done && !aborted then countLine w g s else s
      if done && !aborted then
        if g.cutKind.isSome then
          enterCutting r { s with pen.work := some { w with row := w.row + 1 } }
        else boundary r { s with pen.work := some { w with segs := rest, row := 0 } }
      else boundary r { s with pen.work := some { w with row := w.row + 1 } }
  | _, _ => s

/-- The cutter stops: de-energised, its grant returned, its action ended (R172). -/
def cutterStops (r : Raise) (s : State) : State :=
  disturbEnd r .cut s.set.printGuard (returnGrant r .cutter { s with pen.cut := none })

/-- The home switch makes while the cutter is driven: the cut is complete (R160, R172). -/
def cutDone (r : Raise) (s : State) : State :=
  let s := cutterStops r s
  match s.pen.work with
  | some w =>
    match w.owner with
    | .abort n _ =>
      let j := s.job? n
      let s := jobLeaves r n ((j.map Job.reason).getD .host) ((j.map Job.ending).getD .marked)
        { s with pen.work := none }
      boundary r { s with pen.mode := .printing }
    | _ => boundary r { s with
        pen.mode := .printing
        pen.work := some { w with segs := w.segs.tail, row := 0 } }
  | none => s

/-- 500 ms pass without the home switch: CUTTER_JAM, FAULT, and the job's end (R160, R172). -/
def cutJam (r : Raise) (s : State) : State :=
  let s := cutterStops r s
  let s := r .cutterJam { s with rpt.latched.cutterJam := true }
  let w := s.pen.work
  let s := { s with pen.mode := .fault, pen.work := none }
  let s := match w with
    | some { owner := .job n, .. } => jobLeaves r n .cutter .none s
    | some { owner := .abort n _, .. } =>
      jobLeaves r n (((s.job? n).map Job.reason).getD .host) .incomplete s
    | _ => s
  judgeEntry r (judgeStart r s)

/-! ### Aborts (R159) -/

/-- Whether the engine is in a job's CUT or the feed before it. -/
def State.inCut (s : State) (n : Nat) : Bool :=
  match s.pen.work with
  | some { owner := .job m, segs := .cut _ :: _, .. } => m == n
  | _ => false

/-- A job aborted before it has started, or in a PAPER or COVER pause, leaves at once (R159). -/
def abortAtOnce (r : Raise) (n : Nat) (reason : AbortReason) (s : State) : State :=
  judgeEntry r (judgeStart r (jobLeaves r n reason .none s))

/-- Abort a job according to its state (R159). -/
def abortJob (r : Raise) (n : Nat) (reason : AbortReason) (s : State) : State :=
  match (s.job? n).map Job.mode with
  | some .filling | some .queued | some .waitSettle => abortAtOnce r n reason s
  | some .printing =>
    if s.inCut n then
      let s := markAborted n reason .cutOnly s
      match s.pen.work with
      | some w => { s with pen.work := some { w with owner := .abort n true, current := .none } }
      | none => s
    else markAborted n reason .marked s
  | some (.paused .paper) | some (.paused .cover) =>
    abortAtOnce r n reason { s with pen.work := none }
  | some (.paused _) =>
    boundary r { markAborted n reason .marked s with pen.work := some (abortWork n) }
  | some (.aborted _ _) | none => s

/-- The stall time of the job paused for UNDERRUN reaches STALL_LIMIT (R158). -/
def stallExpired (r : Raise) (s : State) : State :=
  match s.job.table.find? fun j => decide (j.mode = .paused .underrun) with
  | some j => abortJob r j.number .underrun s
  | none => s

/-- The job paused for UNDERRUN is aborted once its stall time has reached STALL_LIMIT (R158). -/
def judgeStall (r : Raise) (s : State) : State :=
  match s.job.table.find? fun j => decide (j.mode = .paused .underrun) with
  | some j => if s.set.stallLimit ≤ j.stall then abortJob r j.number .underrun s else s
  | none => s

/-- Elements have reached a job paused for UNDERRUN: the pause ends (R158). -/
def endUnderrun (r : Raise) (s : State) : State :=
  if s.pen.mode = .paused .underrun then
    boundary r (shareMode .printing { s with pen.mode := .printing })
  else s

/-! ### Requests to the engine (R173 to R175) -/

/-- A PRN_FEED of n lines, n at least 1, begins (R175). -/
def startFeed (r : Raise) (n : Nat) (s : State) : State :=
  boundary r { s with
    pen.mode := .printing
    pen.work := some { owner := .feed, current := .none, segs := [.feed n], row := 0 } }

/-- PRN_FEED through its checks; the status it draws (R175). -/
def prnFeed (r : Raise) (n : Nat) (s : State) : State × Status :=
  match s.pen.mode with
  | .fault => (s, .refusedState)
  | .printing | .paused _ | .cutting => (s, .refusedBusy)
  | .idle =>
    if !s.sst.started then (s, .refusedBusy)
    else if s.pen.paperOut || s.pen.coverOpen then (s, .refusedState)
    else if n = 0 then (s, .ok)
    else (startFeed r n s, .ok)

/-- Engine state codes (R173). -/
def EngineMode.code : EngineMode → Byte
  | .idle => 0#8
  | .printing => 1#8
  | .paused _ => 2#8
  | .cutting => 3#8
  | .fault => 4#8

end Sys2Proof.Machine
end

