-- ==== Sys2Proof/Machine/Reading.lean ====
section
/-! DEFINITION. The events of the weighing engine (chapters 2 and 3): what a reading does, stage by stage,
the ends of operations, and the timers of the channels. -/

namespace Sys2Proof.Machine

/-- The end of start-up, once both initial zero attempts have ended: STARTUP, and the head job may start
(R151, R196, R197). -/
def startupStep (r : Raise) (s : State) : State := judgeStart r (judgeStarted r s)

/-! ### Ends of operations (R39, R42, R48, R57) -/

/-- SCALE_ZERO ends without success (R40). -/
def zeroFails (r : Raise) (ch : Channel) (tag : Byte) (reason : ZeroFail) (w : Int) (s : State) : State :=
  r (.zeroFailed tag ch reason w) (freeSlot ch s)

/-- SCALE_TARE ends without success (R48, R49). -/
def tareFails (r : Raise) (ch : Channel) (tag : Byte) (reason : TareFail) (d : Option Int)
    (s : State) : State :=
  r (.tareFailed tag reason d) (freeSlot ch s)

/-- A capture ends without a record (R56, R57). -/
def captureFails (r : Raise) (ch : Channel) (tag : Byte) (reasons : Reasons) (s : State) : State :=
  weighFailed r tag reasons (freeSlot ch s)

/-- A calibration request ends (R42). -/
def calEnds (r : Raise) (ch : Channel) (tag : Byte) (span : Bool) (res : CalResult) (s : State) : State :=
  raiseCalDone r ch tag span res (freeSlot ch s)

/-- Whether an operation is a calibration request. -/
def OpKind.isCal : OpKind → Bool
  | .calZero | .calSpan _ => true
  | _ => false

/-- Whether an operation is CAL_SPAN. -/
def OpKind.isSpan : OpKind → Bool
  | .calSpan _ => true
  | _ => false

/-- End an operation CANCELLED (R57). -/
def cancelHolder (r : Raise) (ch : Channel) (o : Op) (s : State) : State :=
  match o.kind with
  | .zero => zeroFails r ch o.tag .cancelled 0 s
  | .tare => tareFails r ch o.tag .cancelled none s
  | .capture _ _ _ => captureFails r ch o.tag { cancelled := true } s
  | .calZero => calEnds r ch o.tag false .cancelled s
  | .calSpan _ => calEnds r ch o.tag true .cancelled s

/-- End the operation in flight on a channel, unless its calibration write has begun; the second component
counts it (R57, R195). -/
def cancelOp (r : Raise) (ch : Channel) (s : State) : State × Nat :=
  match (s.chan ch).op with
  | some o => if o.writing then (s, 0) else (cancelHolder r ch o s, 1)
  | none => (s, 0)

/-- The void ends a capture in flight and a waiting SCALE_TARE (R58). -/
def cancelForVoid (r : Raise) (s : State) : State :=
  match s.wgt.chanP.op with
  | some o =>
    match o.kind with
    | .capture _ _ _ | .tare => cancelHolder r .p o s
    | _ => s
  | none => s

/-- The reason set of a capture at expiry: the conditions of R53 that fail in the state of channel P as it then
stands (R56).
DESIGN CHOICE: log entry 52. -/
def State.captureReasons (s : State) : Reasons :=
  let c := s.wgt.chanP
  { zeroInvalid := !c.zeroValid
    motion := !c.stable && !s.wgt.disturbed
    disturbed := s.wgt.disturbed
    overRange := decide (c.range = .overRange) || (match c.d with
      | some d => decide (15000 < d)
      | none => false)
    underRange := decide (c.range = .underRange)
    belowMin := match c.d with
      | some d => decide (d < 40)
      | none => false
    notRearmed := !s.wgt.armed }

/-- The timeout of the operation in flight on a channel (R40, R42, R48, R56). -/
def expireOp (r : Raise) (ch : Channel) (s : State) : State :=
  match (s.chan ch).op with
  | none => s
  | some o =>
    if o.writing then s
    else
      match o.kind with
      | .zero => zeroFails r ch o.tag .timeout 0 s
      | .tare => tareFails r ch o.tag .timeout none s
      | .capture _ _ _ => captureFails r ch o.tag s.captureReasons s
      | .calZero => calEnds r ch o.tag false .timeout s
      | .calSpan _ => calEnds r ch o.tag true .timeout s

/-- CAL_EN has become inactive: a waiting calibration request ends with PERMIT (R42). -/
def permitLost (r : Raise) (ch : Channel) (s : State) : State :=
  match (s.chan ch).op with
  | none => s
  | some o =>
    if o.kind.isCal && !o.writing then calEnds r ch o.tag o.kind.isSpan .permit s else s

/-! ### Initial zero and SCALE_ZERO at a stable reading (R38, R40) -/

/-- An initial zero attempt takes the channel's first stable event (R38). -/
def judgeAttempt (r : Raise) (ch : Channel) (s : State) : State :=
  match (s.chan ch).init with
  | .running _ =>
    let w := (s.chan ch).w
    if (w.natAbs : Int) ≤ ch.initRange then endAttempt r ch .established (setZero ch w w s)
    else endAttempt r ch .outOfRange s
  | _ => s

/-- A successful SCALE_ZERO ends the channel's suspension and clears ZERO_BAND_LIMIT if the other channel is
not suspended (R41). -/
def endSuspension (ch : Channel) (s : State) : State :=
  let s := s.setChan ch { s.chan ch with suspended := false, track := 0 }
  let other := match ch with
    | .p => s.wgt.chanB.suspended
    | .b => s.wgt.chanP.suspended
  if other then s else { s with rpt.latched.bandP := false, rpt.latched.bandB := false }

/-- SCALE_ZERO at its judging reading (R40). As at the end of every operation, the slot is free when the
completion notice is raised (R39).
DESIGN CHOICE: log entry 59. -/
def judgeZero (r : Raise) (ch : Channel) (tag : Byte) (s : State) : State :=
  let c := s.chan ch
  let moved := c.zeroValid
  let w := c.w
  let inBand :=
    if moved then decide (((w - c.zc).natAbs : Int) ≤ ch.zeroBand)
    else decide ((w.natAbs : Int) ≤ ch.initRange)
  if inBand then
    r (.zeroDone tag ch (mgToGrams w) moved)
      (freeSlot ch (endSuspension ch (setZero ch (if moved then c.zc else w) w s)))
  else zeroFails r ch tag .outOfBand (mgToGrams w) s

/-! ### Zero tracking (R41) -/

/-- Whether a reading meets the tracking conditions (R41). -/
def State.trackMet (s : State) (ch : Channel) : Bool :=
  let c := s.chan ch
  c.zeroValid && (decide (ch = .b) || decide (s.wgt.tare = 0)) && c.stable && !s.wgt.disturbed &&
    decide ((c.g.natAbs : Int) ≤ ch.trackWindow)

/-- Record a channel with ZERO_BAND_LIMIT (R41, R192). -/
def Latched.band (l : Latched) : Channel → Latched
  | .p => { l with bandP := true }
  | .b => { l with bandB := true }

/-- Zero tracking at a reading with a value (R41). An adjustment moves the offset; the figures of its own
reading stand.
DESIGN CHOICE: log entry 40. -/
def trackZero (ch : Channel) (s : State) : State :=
  let c := s.chan ch
  if !s.set.zeroTrack ch || c.suspended || !s.trackMet ch then
    s.setChan ch { c with track := 0 }
  else if c.track + 1 < 60 then s.setChan ch { c with track := c.track + 1 }
  else if ((c.w - c.zc).natAbs : Int) ≤ ch.zeroBand then
    s.setChan ch { c with zw := c.w, track := 0 }
  else
    let s := s.setChan ch { c with suspended := true, track := 0 }
    { s with rpt.latched := s.rpt.latched.band ch }

/-! ### Calibration at its judging reading (R43 to R46, R195) -/

/-- A successful calibration write: the working values and the count, the zero made invalid, the pair of
writes asked for; the slot is kept until they are written (R43, R46, R195). -/
def calWrite (ch : Channel) (c0 : Int) (k : Nat) (s : State) : State :=
  let count := min (s.sst.count + 1) 65535
  let s := invalidateZero ch { s with sst.count := count }
  askWrite (.calibration ch count c0 k) (s.setChan ch { s.chan ch with
    c0 := c0
    k := k
    calValid := true
    calZeroed := false
    op := (s.chan ch).op.map fun o => { o with writing := true } })

/-- K of a CAL_SPAN (R45). -/
def spanFactor (grams : Nat) (diff : Int) : Nat := roundHalfUp (1000 * grams * 65536) diff.toNat

/-- A calibration request at its judging reading; the second component says whether a calibration write has
begun, whose restart of the stability window follows (R44 to R46). -/
def judgeCal (r : Raise) (ch : Channel) (o : Op) (s : State) : State × Bool :=
  let c := s.chan ch
  match o.kind with
  | .calZero =>
    if c.calValid then (calWrite ch c.f c.k s, true)
    else
      (calEnds r ch o.tag false .ok (s.setChan ch { c with c0 := c.f, calZeroed := true }), false)
  | .calSpan grams =>
    let diff := c.f - c.c0
    let k := spanFactor grams diff
    if diff < 400000 ∨ k < 16384 ∨ 1048576 < k then (calEnds r ch o.tag true .range s, false)
    else (calWrite ch c.c0 k s, true)
  | _ => (s, false)

/-- The zero operation that waits on a channel acts on a STABLE reading: SCALE_ZERO or a calibration request
(R40, R42). -/
def judgeZeroOps (r : Raise) (ch : Channel) (waiting : Option Op) (s : State) : State × Bool :=
  match waiting with
  | none => (s, false)
  | some o =>
    if o.writing then (s, false)
    else
      match o.kind with
      | .zero => (judgeZero r ch o.tag s, false)
      | .calZero | .calSpan _ => judgeCal r ch o s
      | .tare | .capture _ _ _ => (s, false)

/-! ### Tare and capture at a reading of P (R49, R53 to R55) -/

/-- SCALE_TARE at its judging reading (R49). -/
def judgeTare (r : Raise) (tag : Byte) (s : State) : State :=
  let c := s.wgt.chanP
  if c.range ≠ .inside then tareFails r .p tag .range none s
  else
    let d := Channel.p.toD c.g
    if 1 ≤ d ∧ d ≤ 3000 then
      r (.tareDone tag d.toNat .captured)
        (freeSlot .p { s with wgt.tare := 1000 * d.toNat, wgt.tareKind := .captured })
    else tareFails r .p tag .range (some d) s

/-- The net D of a STABLE reading at which all other capture conditions hold, or none (R53). A STABLE channel is
not DISTURBED (R36). -/
def State.captureD (s : State) : Option Int :=
  let c := s.wgt.chanP
  match c.d with
  | some d =>
    if c.zeroValid && decide (c.range = .inside) && decide (40 ≤ d) && decide (d ≤ 15000) &&
        s.wgt.armed then some d
    else none
  | none => none

/-- The tare or the capture that waits on P acts on a STABLE reading (R48, R53). -/
def judgePOps (r : Raise) (waiting : Option Op) (s : State) : State :=
  match waiting with
  | none => s
  | some o =>
    match o.kind with
    | .tare => judgeTare r o.tag s
    | .capture price code desc =>
      match s.captureD with
      | some d => judgeCandidate r o.tag code desc (candidate s price d) s
      | none => s
    | _ => s

/-- The interlock is re-armed at a reading with a gross below 40,000 mg (R54). -/
def rearm (s : State) : State :=
  if s.wgt.chanP.g < 40000 then { s with wgt.armed := true } else s

/-- A stable event of P in STANDBY: a weight change of 40,000 mg from G at entry wakes the lane (R185). -/
def powerStable (r : Raise) (s : State) : State :=
  if s.lpm.mode = .standby then
    match s.lpm.gEntry with
    | none => { s with lpm.gEntry := some s.wgt.chanP.g }
    | some g0 => if 40000 ≤ (s.wgt.chanP.g - g0).natAbs then wake r 0#8 .weight s else s
  else s

/-! ### A reading (R22 to R34) -/

/-- Enter a range flag: SCALE_OVER when OVER or UNDER is entered (R29). -/
def noticeRange (r : Raise) (ch : Channel) (before : RangeFlag) (s : State) : State :=
  let now := (s.chan ch).range
  if now = before ∨ now = .inside then s else r (.scaleOver ch (decide (now = .underRange))) s

/-- An overrange reading (R23, Table 2-2). -/
def overrangeReading (r : Raise) (ch : Channel) (flag : RangeFlag) (s : State) : State :=
  let c := s.chan ch
  restartWindows r ch (noticeRange r ch c.range (s.setChan ch { c with
    range := flag, forced := 8, hasValue := false, d := none, centre := false, track := 0 }))

/-- Smoothing and calibration of a reading with a value, and the figures that follow (R24, R26 to R31). -/
def weighReading (r : Raise) (ch : Channel) (v : Int) (s : State) : State :=
  let c := s.chan ch
  let win := lastN (s.set.filterDepth ch) (c.win ++ [v])
  let f := smoothed win
  let w := calibrated f c.c0 c.k
  noticeRange r ch c.range (s.setChan ch
    ({ c with win := win, f := f, w := w, forced := c.forced - 1, hasValue := true }.weighed ch
      s.wgt.tare))

/-- Whether a channel is STABLE at a reading that has joined its window (R33). -/
def State.judgeStable (s : State) (ch : Channel) : Bool :=
  let c := s.chan ch
  !s.filling ch && !s.wgt.disturbed && decide (c.stab.length = s.set.stabilityWindow ch) &&
    decide (spread c.stab ≤ 1000 * (c.e : Int))

/-- The reading joins the stability window and STABLE is judged; a motion event is raised at once (R33,
R34). The second component says whether the reading is a stable event. -/
def stabilityReading (r : Raise) (ch : Channel) (s : State) : State × Bool :=
  let c := s.chan ch
  let s := s.setChan ch { c with
    stab := lastN (s.set.stabilityWindow ch) (c.stab ++ [c.w]) }
  if s.judgeStable ch then (s.setChan ch { s.chan ch with stable := true }, !c.stable)
  else (leaveStable r ch s, false)

/-- What the receivers of a reading do after the channel's own zero operations (R34): the interlock, the tare or
capture that waits on P, the bagging monitor, the lane power manager.
DESIGN CHOICE: log entry 41. -/
def receivers (r : Raise) (ch : Channel) (waiting : Option Op) (stable event : Bool) (s : State) :
    State :=
  match ch with
  | .p =>
    let s := rearm s
    let s := if stable then judgePOps r waiting s else s
    if event then powerStable r s else s
  | .b => if event then bagStable r s else s

/-- A reading with a value, in the order of its stages (R22, R34). The operation judged is the one that waited
when the reading came (R40, R42, R53), and STABLE is that of the reading, whatever a notice of one stage makes
the device do; start-up ends, where the reading ends it, after all of them.
DEDUCED: log entry 28. -/
def valueReading (r : Raise) (ch : Channel) (v : Int) (s : State) : State :=
  let waiting := (s.chan ch).op
  let (s, event) := stabilityReading r ch (weighReading r ch v s)
  let stable := (s.chan ch).stable
  let s := trackZero ch s
  let s := if event then judgeAttempt r ch s else s
  let (s, wrote) := if stable then judgeZeroOps r ch waiting s else (s, false)
  let s := receivers r ch waiting stable event s
  let s := if event then r (.scaleStable ch (s.chan ch).d) s else s
  let s := if wrote then restartStability r ch s else s
  if event && !s.sst.started then startupStep r s else s

/-- One block of 8 raw samples of a running channel (R21, R22). -/
def readBlock (r : Raise) (ch : Channel) (b : Samples) (s : State) : State :=
  if s.wgt.conv = .running then
    match overrange (sampleValues b) with
    | some flag => overrangeReading r ch flag s
    | none => valueReading r ch (decimate (sampleValues b)) s
  else s

/-! ### The channels' timers -/

/-- The warm-up ends: readings begin, the windows restart, the initial zero attempts begin (R21, R24, R33,
R38). -/
def warmupEnd (r : Raise) (s : State) : State :=
  if s.wgt.conv = .warming then
    let s := { s with wgt.conv := .running, wgt.warmAge := 0 }
    let s := restartWindows r .b (restartWindows r .p s)
    startupStep r (beginAttempt r .b (beginAttempt r .p s))
  else s

/-- 5 s pass without a stable event (R38). -/
def initialZeroEnd (r : Raise) (ch : Channel) (s : State) : State :=
  match (s.chan ch).init with
  | .running _ => startupStep r (endAttempt r ch .noStable s)
  | _ => s

/-- The end of a streaming period (R65). -/
def streamPeriodEnd (s : State) : State :=
  match s.wgt.stream with
  | none => s
  | some x =>
    let body := s.readoutBody x.ch
    if x.last = some body then { s with wgt.stream := some { x with age := 0 } }
    else fillSnapshot body { s with wgt.stream := some { x with age := 0, last := some body } }

end Sys2Proof.Machine
end

