-- ==== Sys2Proof/Machine/Answers.lean ====
section
/-! DEFINITION. What the immediate action of a request gives back to the link controller (R9, R11). -/

namespace Sys2Proof.Machine

/-- The answer of an immediate action: a reply with its status and data, and for a BAUD_RATE SET_PUT the rate
that takes effect at its closing FLAG (R17), or a hold: the request stays in execution until a settings store
write is done (R9, R86, R194). -/
inductive Answer where
  | reply (status : Status) (data : List Byte) (baud : Option Nat)
  | hold
  deriving DecidableEq, Repr

/-- The immediate action of a request. -/
abbrev Act := Raise → State → State × Answer

/-- A refusal: no reply data and nothing changed (R11). -/
def refuse (st : Status) (s : State) : State × Answer := (s, .reply st [] none)

/-- A reply with data. -/
def answer (st : Status) (data : List Byte) (s : State) : State × Answer := (s, .reply st data none)

/-- Whether an answer accepts its request (R183). -/
def Answer.accepted : Answer → Bool
  | .reply st _ _ => st.accepted
  | .hold => true

/-- The status an answer draws. -/
def Answer.status : Answer → Status
  | .reply st _ _ => st
  | .hold => .ok

end Sys2Proof.Machine
end

