-- ==== Sys2Proof/Machine/LaneRequests.lean ====
section
/-! DEFINITION. The requests of chapters 7, 8 and 9: drawers, jobs and the print engine. -/

namespace Sys2Proof.Machine

/-! ### Chapter 7 -/

/-- The reply data of DRAWER_KICK: the port and its state (R134). -/
def kickReply (p : Port) (st : Status) (s : State) : State × Answer :=
  if st.accepted then answer st [p.byte, (s.port p).mode.code] s else refuse st s

/-- DRAWER_KICK (R134). -/
def actKick (tag port : Byte) : Act := fun r s =>
  match Port.ofByte port with
  | none => refuse .refusedRange s
  | some p =>
    let (s, st) := kick r tag p s
    kickReply p st s

/-- DRAWER_NOSALE (R133). -/
def actNoSale (tag port : Byte) : Act := fun r s =>
  match Port.ofByte port with
  | none => refuse .refusedRange s
  | some p =>
    match noSaleRefusal p s with
    | some st => refuse st s
    | none => kickReply p .ok (kickAccepted r tag p { s with drw.noSale := some p })

/-- One port in the reply data of DRAWER_STATUS (R143); its open time saturates.
DESIGN CHOICE: log entry 48. -/
def State.portStatus (s : State) (p : Port) : List Byte :=
  let q := s.port p
  [flag8 (s.set.present p), q.mode.code, senseByte (s.sense p), (s.permitOf p).code, u8 q.attempt,
   flag8 q.retry, (q.reason.map FailReason.code).getD 0xFF#8] ++
    be16 (match q.mode with
      | .opened | .openOverdue => sat16 (q.openMs / 1000)
      | _ => 0)

/-- DRAWER_STATUS (R143). -/
def actDrawerStatus : Act := fun _ s => answer .ok (s.portStatus .d1 ++ s.portStatus .d2) s

/-- A port in FAULT is cleared (R142). -/
def clearFault (p : Port) (s : State) : State :=
  let s := modPort p (fun q =>
    { q with mode := .closed, attempt := 0, retry := false, kick := .none }) s
  if s.sense p = some true then modPort p PortState.opened s else s

/-- DRAWER_CLEAR (R142). -/
def actDrawerClear (port : Byte) : Act := fun _ s =>
  match Port.ofByte port with
  | none => refuse .refusedRange s
  | some p =>
    if (s.port p).mode = .fault then
      let s := clearFault p s
      answer .ok [p.byte, (s.port p).mode.code] s
    else refuse .refusedState s

/-! ### Chapter 8 -/

/-- The checks of JOB_OPEN (R148). -/
def openRefusal (role : Role) (s : State) : Option Status :=
  match role with
  | .receipt =>
    if s.txn.state ≠ .opened ∧ s.txn.state ≠ .tender ∧ s.txn.state ≠ .settled then some .refusedState
    else if s.job.table.any (fun j => j.ofSale && !j.isAborted) || s.txn.receiptDone then
      some .refusedState
    else if 4 ≤ s.job.table.length then some .refusedFull
    else none
  | .reprint =>
    if s.txn.snap.isNone then some .refusedNotFound
    else if 4 ≤ s.job.table.length then some .refusedFull
    else none
  | .free => if 4 ≤ s.job.table.length then some .refusedFull else none

/-- A role's code (R148). -/
def Role.ofByte (b : Byte) : Option Role :=
  if b = 0#8 then some .receipt else if b = 1#8 then some .reprint
  else if b = 2#8 then some .free else none

/-- The binding a role opens with (Table 8-1). -/
def Role.binding : Role → JobBinding
  | .receipt => .sale
  | .reprint => .snapshot
  | .free => .none

/-- A job just opened (R148). -/
def Job.new (number : Nat) (role : Role) (tag : Byte) : Job where
  number := number
  role := role
  binding := role.binding
  tag := tag
  mode := .filling
  closed := false
  elements := []
  heading := decide (role = .reprint)
  lines := 0
  truncated := 0
  unavailable := 0
  rendered := 0
  stall := 0

/-- JOB_OPEN (R147, R148). -/
def actJobOpen (tag role : Byte) : Act := fun _ s =>
  match Role.ofByte role with
  | none => refuse .refusedRange s
  | some x =>
    match openRefusal x s with
    | some st => refuse st s
    | none =>
      let n := s.job.pickNumber 4 s.job.next
      answer .ok [u8 n] { s with
        job.table := s.job.table ++ [Job.new n x tag]
        job.next := nextNumber n }

/-- The job a request names, or the refusal its number draws (R149, R150, R159). -/
def State.named (s : State) (job : Byte) : Except Status Job :=
  if job = 0#8 then .error .refusedRange
  else
    match s.job? job.toNat with
    | none => .error .refusedNotFound
    | some j => .ok j

/-- JOB_DATA (R149); elements that reach a job paused for UNDERRUN end the pause (R158). -/
def actJobData (job : Byte) (bytes : List Byte) : Act := fun r s =>
  match s.named job with
  | .error st => refuse st s
  | .ok j =>
    if j.closed || j.isAborted then refuse .refusedState s
    else
      match readElements bytes.length bytes with
      | none => refuse .refusedRange s
      | some l =>
        if s.job.free < bytes.length then refuse .refusedNoRoom s
        else
          let s := modJob j.number (fun j => { j with elements := j.elements ++ l }) s
          let data := [job] ++ be16 bytes.length ++ be16 s.job.free
          answer .ok data (judgeStart r
            (if j.mode = .paused .underrun then endUnderrun r s else s))

/-- JOB_CLOSE (R150); a job paused for UNDERRUN with no element left ends DONE (R152). The bytes answered are
those the elements held when the input closed.
DESIGN CHOICE: log entry 49. -/
def actJobClose (job : Byte) : Act := fun r s =>
  match s.named job with
  | .error st => refuse st s
  | .ok j =>
    if j.closed || j.isAborted then refuse .refusedState s
    else
      let s := modJob j.number (fun j =>
        { j with closed := true, mode := if j.mode = .filling then .queued else j.mode }) s
      let s := if j.mode = .paused .underrun then rejudgePause r s else judgeStart r s
      answer .ok ([job] ++ be16 j.bytes) s

/-- JOB_ABORT (R159). -/
def actJobAbort (job : Byte) : Act := fun r s =>
  match s.named job with
  | .error st => refuse st s
  | .ok j =>
    if j.isAborted then refuse .refusedState s
    else answer .ok [job] (abortJob r j.number .host s)

/-- Job state codes (Table 8-3). -/
def JobMode.code : JobMode → Byte
  | .filling => 0#8
  | .queued => 1#8
  | .waitSettle => 2#8
  | .printing => 3#8
  | .paused _ => 4#8
  | .aborted _ _ => 5#8

/-- Pause reason codes (Table 8-3). -/
def Pause.code : Pause → Byte
  | .underrun => 1#8
  | .hot => 2#8
  | .paper => 3#8
  | .cover => 4#8
  | .drive => 5#8
  | .supply => 6#8

/-- The pause reason byte of a job state (Table 8-3). -/
def JobMode.pauseCode : JobMode → Byte
  | .paused p => p.code
  | _ => 0#8

/-- Binding codes (Table 8-3). -/
def JobBinding.code : JobBinding → Byte
  | .none => 0#8
  | .sale => 1#8
  | .snapshot => 2#8

/-- A job's entry (Table 8-3). -/
def Job.entry (j : Job) : List Byte :=
  [u8 j.number, j.role.code, j.binding.code, j.mode.code, j.mode.pauseCode, flag8 j.closed] ++
    be16 j.bytes ++ be16 j.rendered ++ be16 j.lines ++ be16 j.truncated ++ be16 j.unavailable

/-- JOB_STATUS (R163). -/
def actJobStatus (job : Byte) : Act := fun _ s =>
  if job = 0#8 then
    answer .ok (be16 s.job.free ++ [u8 s.job.table.length] ++ s.job.table.flatMap Job.entry) s
  else
    match s.job? job.toNat with
    | none => refuse .refusedNotFound s
    | some j => answer .ok j.entry s

/-! ### Chapter 9 -/

/-- JOB_RESUME (R173).
DEDUCED: log entry 24. -/
def actJobResume : Act := fun r s =>
  if s.pen.mode ≠ .paused .paper ∧ s.pen.mode ≠ .paused .cover then refuse .refusedState s
  else if s.pen.paperOut || s.pen.coverOpen then refuse .refusedState s
  else
    let s := boundary r { s with pen.paperHold := false, pen.coverHold := false }
    answer .ok [s.pen.mode.code] s

/-- PRN_CLEAR (R174); from IDLE the ready head job starts at once, and the reply shows the engine state
after the request (DEDUCED: log entry 19). -/
def actPrnClear : Act := fun r s =>
  if s.pen.mode ≠ .fault ∨ !s.pen.home then refuse .refusedState s
  else
    let s := boundary r { s with pen.mode := .idle }
    answer .ok [s.pen.mode.code] s

/-- PRN_FEED (R175). -/
def actPrnFeed (lines : Byte) : Act := fun r s =>
  let (s, st) := prnFeed r lines.toNat s
  answer st [] s

end Sys2Proof.Machine
end

