-- ==== Sys2Proof/Machine/LinkRequests.lean ====
section
/-! DEFINITION. The requests of chapters 1, 10 and 11: identity, conditions, notices, routes, bindings,
settings, power and reset. -/

namespace Sys2Proof.Machine

/-! ### Chapter 1 -/

/-- LANE_RESET (R18). -/
def actLaneReset : Act := fun _ s =>
  answer .ok [] { s with
    link.rx := { mode := .closed, buf := [], quiet := 0 }
    link.softReset := true }

/-! ### Chapter 10 -/

/-- A power request's reply: the power state after it, with OK and PENDING (R182). -/
def powerReply (x : State × Status) : State × Answer :=
  if x.2.accepted then answer x.2 [x.1.lpm.mode.code] x.1 else refuse x.2 x.1

/-- PWR_STANDBY (R182). -/
def actStandby (tag : Byte) : Act := fun r s => powerReply (askEntry r .standby tag .request s)

/-- PWR_DORMANT (R182). -/
def actDormant (tag : Byte) : Act := fun r s => powerReply (askEntry r .dormant tag .request s)

/-- PWR_WAKE: the wake itself precedes dispatch (R185); a pending entry is cancelled with cause 7 (R183). -/
def actWake : Act := fun r s =>
  let s := cancelEntry r .pwrWake s
  answer .ok [s.lpm.mode.code] s

/-! ### Chapter 11: identity, conditions and notices -/

/-- The silicon revision as a letter (R198).
DESIGN CHOICE: log entry 9. -/
def revisionLetter : Byte := u8 (0x41 + Config.revision % 26)

/-- The reply data of IDENT (R198). -/
def identData (count : Nat) : List Byte :=
  textField (ascii "CJ-640") ++ [revisionLetter] ++ be16 count ++
    be16 15000 ++ [2#8, 5#8] ++ be16 6000 ++ be16 40 ++
    be16 30000 ++ [10#8, 10#8] ++ be16 30000 ++ be16 0

/-- IDENT (R198). -/
def actIdent : Act := fun _ s => answer .ok (identData s.sst.count) s

/-- COND_FETCH (R192). -/
def actCondFetch (mask : BitVec 16) : Act := fun _ s =>
  if 512 ≤ mask.toNat then refuse .refusedRange s
  else answer .ok s.conditions { s with rpt.latched := s.rpt.latched.clearMask mask }

/-- NOTE_FETCH (R189). -/
def actNoteFetch : Act := fun _ s =>
  match s.rpt.queue with
  | [] => answer .ok [0#8] s
  | q :: rest =>
    answer .ok (u8 rest.length :: u8 q.notice.code :: q.notice.payload) { s with rpt.queue := rest }

/-- Whether a queued notice stands before another: priority, then age (R188). -/
def Report.before (t : Report) (a b : Queued) : Bool :=
  decide (t.prio b < t.prio a) || (decide (t.prio a = t.prio b) && decide (a.seq ≤ b.seq))

/-- Place a queued notice in the order of R188. -/
def Report.place (t : Report) (a : Queued) : List Queued → List Queued
  | [] => [a]
  | b :: rest => if t.before a b then a :: b :: rest else b :: t.place a rest

/-- Set a kind's priority: its queued notices are placed again, or removed at priority 0 (R187). -/
def Report.route (t : Report) (code prio : Nat) : Report :=
  let t := { t with routes := t.routes.set (code - 0x80) prio }
  let kept := t.queue.filter fun q => q.notice.code != code
  let moved := t.queue.filter fun q => q.notice.code == code
  { t with queue := if prio = 0 then kept else moved.foldr t.place kept }

/-- EVT_ROUTE (R187); a priority above 7 is REFUSED_RANGE for the code of STARTUP too.
DESIGN CHOICE: log entry 72. -/
def actRoute (code priority : Byte) : Act := fun _ s =>
  if !isNoticeCode code.toNat || decide (7 < priority.toNat) then refuse .refusedRange s
  else if code = 0x80#8 then refuse .refusedState s
  else
    answer .ok [code, u8 (s.rpt.prioOf code.toNat)]
      { s with rpt := s.rpt.route code.toNat priority.toNat }

/-- A slot of the binding table. -/
def Report.binding (t : Report) : Nat → Option Binding
  | 1 => t.bind1
  | 2 => t.bind2
  | 3 => t.bind3
  | 4 => t.bind4
  | _ => none

/-- Replace a slot of the binding table. -/
def Report.setBinding (t : Report) (b : Option Binding) : Nat → Report
  | 1 => { t with bind1 := b }
  | 2 => { t with bind2 := b }
  | 3 => { t with bind3 := b }
  | 4 => { t with bind4 := b }
  | _ => t

/-- Whether a code may be the trigger of a binding (R190). -/
def isTrigger (c : Nat) : Bool := isNoticeCode c && c != 0x80 && c != 0x82 && c != 0xA5

/-- EVT_BIND (R190). -/
def actBind (slot mode trigger action : Byte) (argument : BitVec 32) : Act := fun _ s =>
  if slot.toNat < 1 ∨ 4 < slot.toNat ∨ 2 < mode.toNat then refuse .refusedRange s
  else if mode = 0#8 then answer .ok [slot] { s with rpt := s.rpt.setBinding none slot.toNat }
  else
    match BindAction.read action argument.toNat with
    | some a =>
      if isTrigger trigger.toNat then
        answer .ok [slot] { s with
          rpt := s.rpt.setBinding
            (some { once := decide (mode = 1#8), trigger := trigger.toNat, action := a }) slot.toNat }
      else refuse .refusedRange s
    | none => refuse .refusedRange s

/-! ### Chapter 11: settings -/

/-- SET_GET (R193). -/
def actSetGet (number : Byte) : Act := fun _ s =>
  match settingValues number.toNat with
  | none => refuse .refusedRange s
  | some _ => answer .ok (number :: be32 (s.set.get number.toNat)) s

/-- Turning ZERO_TRACK off sets the consecutive count to 0 (R41). -/
def trackOff (ch : Channel) (s : State) : State :=
  if s.set.zeroTrack ch then s else s.setChan ch { s.chan ch with track := 0 }

/-- A changed SUPPLY_CAPACITY: in force as R177 states; a scan follows a change that takes effect, be it the
return to the capacity still in force (R178). -/
def capacityChanged (r : Raise) (s : State) : State :=
  let s := settleCap s
  if s.dsa.cap = s.set.capacity then scan r s else s

/-- What a changed setting does at the SET_PUT's execution, where its owning rule gives it an effect at once
(R25, R32, R41, R77, R124, R129, R141, R151, R158, R177). -/
def settingChanged (r : Raise) (number : Nat) (s : State) : State :=
  match number with
  | 3 => restartWindows r .p { s with set := s.set.raiseWindows }
  | 4 => restartWindows r .b { s with set := s.set.raiseWindows }
  | 5 => restartStability r .p s
  | 6 => restartStability r .b s
  | 7 => trackOff .p s
  | 8 => trackOff .b s
  | 15 => judgeOverdue r s
  | 18 => judgeHold r .two (judgeHold r .one s)
  | 19 => presentChanged r .d1 s
  | 20 => presentChanged r .d2 s
  | 21 => polarityChanged r .d1 s
  | 22 => polarityChanged r .d2 s
  | 25 => judgeLeftOpen r .d2 (judgeLeftOpen r .d1 s)
  | 26 => judgeStart r s
  | 27 => judgeStall r s
  | 30 => capacityChanged r s
  | _ => s

/-- SET_PUT (R193); a BAUD_RATE takes effect on the line at the reply's closing FLAG (R17).
DEDUCED: log entry 17. -/
def actSetPut (number : Byte) (value : BitVec 32) : Act := fun r s =>
  match s.set.taken number.toNat value.toNat with
  | none => refuse .refusedRange s
  | some v =>
    let put := { s with set := s.set.put v number.toNat }
    let s' := if s.set.get number.toNat = v then put else settingChanged r number.toNat put
    (s', .reply (if v = value.toNat then .ok else .okClamped) (number :: be32 v)
      (if number = 1#8 then some v else none))

/-- SET_SAVE: the write is asked for and the request stays in execution (R194). -/
def actSetSave : Act := fun _ s => (askWrite .settings s, .hold)

end Sys2Proof.Machine
end

