-- ==== Sys2Proof/Machine/ScaleRequests.lean ====
section
/-! DEFINITION. The requests of chapters 2, 3 and 4: zero, calibration, tare, cancel, readout, streaming,
and the bagging monitor's. -/

namespace Sys2Proof.Machine

/-- CAPTURE_TIMEOUT in ms (R40). -/
def Settings.captureMs (t : Settings) : Nat := 1000 * t.captureTimeout

/-- SCALE_READ (R63). -/
def actRead (channel : Byte) : Act := fun _ s =>
  match Channel.ofByte channel with
  | none => refuse .refusedRange s
  | some ch => answer .ok (s.readoutBody ch) s

/-- SCALE_ZERO (R40). -/
def actZero (tag channel : Byte) : Act := fun _ s =>
  match Channel.ofByte channel with
  | none => refuse .refusedRange s
  | some ch =>
    if (s.chan ch).op.isSome then refuse .refusedBusy s
    else if !(s.chan ch).calValid then refuse .refusedState s
    else if ch = .p ∧ 0 < s.wgt.tare then refuse .refusedState s
    else answer .pending [] (takeSlot ch .zero tag s.set.captureMs s)

/-- SCALE_TARE (R48). -/
def actTare (tag : Byte) : Act := fun _ s =>
  let c := s.wgt.chanP
  if c.op.isSome then refuse .refusedBusy s
  else if !c.calValid || !c.zeroValid then refuse .refusedState s
  else answer .pending [] (takeSlot .p .tare tag s.set.captureMs s)

/-- The tare a preset takes: the nearest multiple of 2 g, a tie going up (R50). -/
def presetGrams (g : Nat) : Nat := (g + 1) / 2 * 2

/-- SCALE_TARE_PRESET (R50). -/
def actTarePreset (grams : BitVec 16) : Act := fun _ s =>
  let c := s.wgt.chanP
  let g := presetGrams grams.toNat
  if grams.toNat < 2 ∨ 3000 < grams.toNat then refuse .refusedRange s
  else if c.op.isSome then refuse .refusedBusy s
  else if !c.calValid || !c.zeroValid then refuse .refusedState s
  else
    answer (if g = grams.toNat then .ok else .okClamped) (be16 g)
      { s with wgt.tare := 1000 * g, wgt.tareKind := .preset }

/-- SCALE_TARE_CLEAR (R51). -/
def actTareClear : Act := fun _ s =>
  if s.wgt.chanP.op.isSome then refuse .refusedBusy s
  else answer .ok (be16 (s.wgt.tare / 1000) ++ [s.wgt.tareKind.code]) (clearTare s)

/-- SCALE_CANCEL (R57). -/
def actCancel : Act := fun r s =>
  let (s, p) := cancelOp r .p s
  let (s, b) := cancelOp r .b s
  answer .ok [u8 (p + b)] s

/-- The streaming period taken, in ms (R64). -/
def streamPeriod (p : Nat) : Nat := if p = 0 then 200 else clampNat 100 1000 ((p + 50) / 100 * 100)

/-- SCALE_STREAM (R64). The period taken by a request that turns streaming off is a free value.
DESIGN CHOICE: log entry 10. -/
def actStream (channel : Byte) (period : BitVec 16) : Act := fun _ s =>
  if channel = 0xFF#8 then
    answer .ok (channel :: be16 (Config.streamOffPeriod s.free).toNat)
      { s with wgt.stream := none, free := s.free + 1 }
  else
    match Channel.ofByte channel with
    | none => refuse .refusedRange s
    | some ch =>
      let p := streamPeriod period.toNat
      answer (if period = 0#16 ∨ p = period.toNat then .ok else .okClamped) (channel :: be16 p)
        { s with wgt.stream := some { ch := ch, period := p, age := 0, last := none } }

/-- CAL_ZERO (R42). -/
def actCalZero (tag channel : Byte) : Act := fun _ s =>
  match Channel.ofByte channel with
  | none => refuse .refusedRange s
  | some ch =>
    if !s.calEn then refuse .refusedPermit s
    else if (s.chan ch).op.isSome then refuse .refusedBusy s
    else answer .pending [] (takeSlot ch .calZero tag 10000 s)

/-- CAL_SPAN (R42). -/
def actCalSpan (tag channel : Byte) (grams : BitVec 16) : Act := fun _ s =>
  match Channel.ofByte channel with
  | none => refuse .refusedRange s
  | some ch =>
    let c := s.chan ch
    if !s.calEn then refuse .refusedPermit s
    else if grams.toNat < 100 ∨ ch.maxGrams < grams.toNat then refuse .refusedRange s
    else if c.op.isSome then refuse .refusedBusy s
    else if !c.calValid && !c.calZeroed then refuse .refusedState s
    else answer .pending [] (takeSlot ch (.calSpan grams.toNat) tag 10000 s)

/-! ### Chapter 4 -/

/-- BAG_SKIP (R82). -/
def actSkip (slot : Byte) : Act := fun _ s =>
  if slot.toNat < 1 ∨ 64 < slot.toNat then refuse .refusedRange s
  else
    match s.bag.entries.find? fun e => e.slot == slot.toNat with
    | none => refuse .refusedNotFound s
    | some e =>
      answer .ok [slot, flag8 e.remove] (setBagStatus e.slot .skipped (dropEntry e.slot s))

/-- BAG_CLEAR_HOLD (R81). -/
def actClearHold : Act := fun _ s =>
  if s.bag.watch = .hold then
    let rb := s.wgt.chanB.d.getD s.bag.rb
    answer .ok (beInt32 rb) { s with bag.watch := .watch, bag.hold := none, bag.rb := rb }
  else refuse .refusedState s

/-- Watch state codes (Table 4-3). -/
def Watch.code : Watch → Byte
  | .off => 0#8
  | .watch => 1#8
  | .hold => 2#8

/-- An entry in the reply data of BAG_STATUS (Table 4-3). -/
def Entry.bytes (e : Entry) : List Byte :=
  [u8 e.slot, flag8 e.remove] ++ be16 e.weight ++ be16 e.tol ++ [flag8 e.overdue] ++
    be16 (sat16 (e.age / 100))

/-- The reply data of BAG_STATUS (Table 4-3). -/
def Bag.report (b : Bag) : List Byte :=
  [b.watch.code] ++ beInt32 b.rb ++ [b.last.code] ++ beInt32 b.lastDelta ++
    (match b.hold with
     | some h => [h.verdict.code] ++ beInt32 h.delta ++ [u8 h.count]
     | none => [0#8] ++ beInt32 0 ++ [0#8]) ++
    [u8 b.entries.length] ++ b.entries.flatMap Entry.bytes

/-- BAG_STATUS (R83). -/
def actBagStatus : Act := fun _ s => answer .ok s.bag.report s

end Sys2Proof.Machine
end

