-- ==== Sys2Proof/Machine/SaleRequests.lean ====
section
/-! DEFINITION. The requests of chapters 5 and 6: the transaction, its items and tenders, and the card
reader. -/

namespace Sys2Proof.Machine

/-! ### Begin (R86) -/

/-- Whether a job bound to the last-transaction snapshot holds back TXN_BEGIN (R86). -/
def State.snapshotJob (s : State) : Bool :=
  s.job.table.any fun j => decide (j.binding = .snapshot) && !j.isAborted

/-- The effects of an accepted TXN_BEGIN (R86, R67, R121). -/
def beginSale (id date time : Nat) (s : State) : State :=
  askWrite (.marker true) (rejudgeCards (bagBegin { s with
    txn.snap := none
    txn.id := id
    txn.date := date
    txn.time := time
    txn.items := []
    txn.tenders := []
    txn.change := 0
    txn.receiptDone := false
    txn.state := .opened }))

/-- TXN_BEGIN: it stays in execution until the marker is written (R86). -/
def actBegin (id date : BitVec 32) (time : BitVec 16) : Act := fun _ s =>
  if s.txn.state ≠ .idle then refuse .refusedState s
  else if s.drw.noSale.isSome then refuse .refusedBusy s
  else if s.snapshotJob then refuse .refusedBusy s
  else if !dateTimeOk date.toNat time.toNat then refuse .refusedRange s
  else (beginSale id.toNat date.toNat time.toNat s, .hold)

/-! ### Items (R90, R91, R93, R94) -/

/-- The bag status of the item in a slot. -/
def State.bagOf (s : State) (slot : Nat) : BagStatus :=
  ((findItem slot s.txn.items).map Item.bag).getD .none

/-- The bag status of the item just added, the last of the list. -/
def State.newBag (s : State) : BagStatus := (s.txn.items.getLast?.map Item.bag).getD .none

/-- An accepted TXN_ITEM (R90, R73). -/
def takeItem (code quantity price weight tol : Nat) (desc : Text) (s : State) : State :=
  let slot := s.nextSlot
  let s := addItem (Item.new slot code quantity price (quantity * price) desc none) s
  if weight = 0 then s else appendEntry (Entry.new slot false weight tol) s

/-- The reply data of TXN_ITEM (R90). -/
def itemReply (slot amount kept : Nat) (s : State) : List Byte :=
  [u8 slot] ++ be32 amount ++ be32 (total s.txn.items) ++ [s.newBag.code, u8 kept]

/-- TXN_ITEM (R90). -/
def actItem (code : BitVec 32) (quantity : BitVec 16) (price : BitVec 32) (weight tol : BitVec 16)
    (desc : Text) : Act := fun _ s =>
  let amount := quantity.toNat * price.toNat
  if s.txn.state ≠ .opened then refuse .refusedState s
  else if s.bag.watch = .hold then refuse .refusedHold s
  else if quantity.toNat < 1 ∨ 999 < quantity.toNat then refuse .refusedRange s
  else if 9999999 < price.toNat then refuse .refusedRange s
  else if 64 ≤ s.txn.items.length then refuse .refusedFull s
  else if 99999999 < amount ∨ !withinLimits s.txn.items amount then refuse .refusedLimit s
  else
    let slot := s.nextSlot
    let s := takeItem code.toNat quantity.toNat price.toNat weight.toNat tol.toNat desc s
    answer (if s.newBag = .unchecked then .okUnchecked
        else if 24 < desc.length then .okClamped else .ok)
      (itemReply slot amount (min 24 desc.length) s) s

/-- The checks of TXN_WEIGH and the start of the capture (R52, R91). -/
def startCapture (tag : Byte) (code price : Nat) (desc : Text) (s : State) : State × Status :=
  if s.txn.state ≠ .opened then (s, .refusedState)
  else if s.bag.watch = .hold then (s, .refusedHold)
  else if price = 0 ∨ 999999 < price then (s, .refusedRange)
  else if !s.wgt.chanP.calValid then (s, .refusedState)
  else if s.wgt.chanP.op.isSome then (s, .refusedBusy)
  else (takeSlot .p (.capture price code (desc.take 24)) tag s.set.captureMs s, .pending)

/-- TXN_WEIGH (R91). -/
def actWeigh (tag : Byte) (code price : BitVec 32) (desc : Text) : Act := fun _ s =>
  let (s, st) := startCapture tag code.toNat price.toNat desc s
  answer st [] s

/-- TXN_VOID_ITEM (R93). -/
def actVoidItem (slot : Byte) : Act := fun _ s =>
  if s.txn.state ≠ .opened then refuse .refusedState s
  else if slot.toNat < 1 ∨ 64 < slot.toNat then refuse .refusedRange s
  else
    match findItem slot.toNat s.txn.items with
    | none => refuse .refusedNotFound s
    | some it =>
      if it.void then refuse .refusedState s
      else
        let s := bagVoidItem it (modItem it.slot (fun it => { it with void := true }) s)
        let failed := decide (it.bag = .bagged) && decide (s.bagOf it.slot = .unchecked)
        answer (if failed then .okUnchecked else .ok)
          ([slot] ++ be32 (total s.txn.items) ++ [(s.bagOf it.slot).code]) s

/-- A weigh record in the reply data of TXN_ITEM_GET (R94, Table 3-2). -/
def WeighRecord.bytes (w : WeighRecord) : List Byte :=
  be16 w.number ++ be16 w.net ++ be16 w.tare ++ be16 w.gross ++ [u8 w.division, w.kind.code] ++
    be32 w.price ++ be32 w.amount ++ [u8 w.slot]

/-- The reply data of TXN_ITEM_GET (R94). -/
def itemBytes (source : Byte) (it : Item) : List Byte :=
  [source, u8 it.slot, flag8 it.record.isSome] ++ be32 it.code ++ be16 it.quantity ++ be32 it.price ++
    be32 it.amount ++ [flag8 it.void, it.bag.code] ++ be16 ((it.matched.map Prod.fst).getD 0) ++
    be16 ((it.matched.map Prod.snd).getD 0) ++ textField it.description ++
    (match it.record with
     | some w => 1#8 :: w.bytes
     | none => [0#8])

/-- TXN_ITEM_GET (R94). -/
def actItemGet (slot : Byte) : Act := fun _ s =>
  let idle := decide (s.txn.state = .idle)
  let items := if idle then (s.txn.snap.map Snapshot.items).getD [] else s.txn.items
  if slot.toNat < 1 ∨ 64 < slot.toNat then refuse .refusedRange s
  else
    match findItem slot.toNat items with
    | none => refuse .refusedNotFound s
    | some it => answer .ok (itemBytes (flag8 idle) it) s

/-! ### Total, reopen and tenders (R95 to R100) -/

/-- TXN_TOTAL (R95). -/
def actTotal (override : Byte) : Act := fun _ s =>
  let x := s.txn
  if x.state ≠ .opened then refuse .refusedState s
  else if 1 < override.toNat then refuse .refusedRange s
  else if x.items.all Item.void then refuse .refusedState s
  else if s.wgt.chanP.op.isSome then refuse .refusedBusy s
  else if s.bag.watch = .hold then refuse .refusedHold s
  else if override = 0#8 ∧ !s.bag.entries.isEmpty then refuse .refusedBagPending s
  else
    answer .ok (be32 (subtotal x.items) ++ be32 (voidedAmount x.items) ++ be32 (total x.items) ++
      [u8 s.bag.entries.length]) { s with txn.state := .tender }

/-- TXN_REOPEN (R96). -/
def actReopen : Act := fun _ s =>
  if s.txn.state ≠ .tender ∨ !s.txn.tenders.isEmpty then refuse .refusedState s
  else answer .ok [] { s with txn.state := .opened }

/-- A tender kind (Table 5-2). -/
def TenderKind.ofByte (b : Byte) : Option TenderKind :=
  if b = 0#8 then some .cash else if b = 1#8 then some .card else if b = 2#8 then some .voucher else none

/-- Bind the HELD record of a slot: its hold timer stops (R123, R128). -/
def bindCard (slot : CardSlot) (s : State) : State :=
  s.setCard slot ((s.card slot).map fun c => { c with bound := true, age := 0 })

/-- Whether a slot's record is HELD and BINDABLE (R98). -/
def State.bindable (s : State) (slot : CardSlot) : Bool :=
  match s.card slot with
  | some c => !c.bound && c.bindable
  | none => false

/-- Checks 5 to 8 of TXN_TENDER: the card slot bound, or the refusal drawn (R98). -/
def tenderCard (k : TenderKind) (amount : Nat) (slot : Byte) (s : State) :
    Except Status (Option CardSlot) :=
  let due := s.txn.due
  let room := decide (s.txn.tenders.length < 7) || decide (due ≤ amount)
  match k with
  | .cash => if room then .ok none else .error .refusedFull
  | .voucher =>
    if due < amount then .error .refusedRange
    else if room then .ok none else .error .refusedFull
  | .card =>
    if due < amount then .error .refusedRange
    else
      match CardSlot.ofByte slot with
      | none => .error .refusedRange
      | some c =>
        if !s.bindable c then .error .refusedState
        else if room then .ok (some c) else .error .refusedFull

/-- Entry into SETTLED, in the order of R100; the second component is the kick status of R99. -/
def settleSale (r : Raise) (s : State) : State × Byte :=
  let s := bagOff { s with
    txn.state := .settled
    txn.change := tenderSum s.txn.tenders - total s.txn.items }
  let p := s.set.cash
  let earned := s.txn.tenders.any (fun t => decide (t.kind = .cash)) && s.set.present p
  let s := if earned then { s with txn.entitlement := some p } else s
  let (s, status) :=
    if earned && decide (s.set.kickOnSettle ≠ 0) then
      let (s, st) := kick r 0#8 p s
      (s, st.code)
    else (s, 0xFF#8)
  (judgeStart r s, status)

/-- The tender is appended and its card bound (R99). -/
def takeTender (k : TenderKind) (amount : Nat) (card : Option CardSlot) (s : State) : State :=
  let s := { s with
    txn.tenders := s.txn.tenders ++ [{ kind := k, amount := amount, card := card }] }
  match card with
  | some c => bindCard c s
  | none => s

/-- The reply data of TXN_TENDER (R99). -/
def tenderReply (index : Nat) (x : Txn) (kickStatus : Byte) : List Byte :=
  [u8 index] ++ be32 (tenderSum x.tenders) ++ be32 x.due ++ [x.state.code] ++ be32 x.change ++
    [kickStatus]

/-- An accepted TXN_TENDER (R99). The reply's figures are those of the tender's acceptance, whatever a bound
action then does to the sale. -/
def acceptTender (r : Raise) (k : TenderKind) (amount : Nat) (card : Option CardSlot) (s : State) :
    State × Answer :=
  let s := takeTender k amount card s
  let x := s.txn
  let index := x.tenders.length
  if total x.items ≤ tenderSum x.tenders then
    let settled := { x with state := .settled, change := tenderSum x.tenders - total x.items }
    let (s, kickStatus) := settleSale r s
    answer .ok (tenderReply index settled kickStatus) s
  else answer .ok (tenderReply index x 0xFF#8) s

/-- TXN_TENDER (R98).
DEDUCED: log entry 30. -/
def actTender (kind : Byte) (amount : BitVec 32) (slot : Byte) : Act := fun r s =>
  if s.txn.state ≠ .tender then refuse .refusedState s
  else if s.bag.watch = .hold then refuse .refusedHold s
  else
    match TenderKind.ofByte kind with
    | none => refuse .refusedRange s
    | some k =>
      if amount.toNat < 1 ∨ 99999999 < amount.toNat then refuse .refusedRange s
      else
        match tenderCard k amount.toNat slot s with
        | .error st => refuse st s
        | .ok card => acceptTender r k amount.toNat card s

/-! ### Void and close (R104, R105) -/

/-- Abort the RECEIPT job of the sale with reason VOIDED (R105, R153). -/
def abortReceipt (r : Raise) (s : State) : State :=
  match s.job.table.find? fun j => j.ofSale && !j.isAborted with
  | some j => abortJob r j.number .voided s
  | none => s

/-- The effects of a void, in the order of R105. -/
def voidSale (r : Raise) (tag : Byte) (s : State) : State :=
  let s := { s with txn.state := .voided }
  let s := cancelForVoid r s
  let s := clearTare (bagOff s)
  let s := wipeAll r false .void s
  let s := abortReceipt r s
  let s := askWrite (.marker false) (takeSnapshot true s)
  let x := s.txn
  r (.txnClosed tag .voided x.id (total x.items) 0 x.items.length) (emptySale s)

/-- TXN_VOID (R105). -/
def actVoid (tag : Byte) : Act := fun r s =>
  match s.txn.state with
  | .opened => answer .ok [] (voidSale r tag s)
  | .tender =>
    if s.txn.tenders.isEmpty then answer .ok [] (voidSale r tag s) else refuse .refusedState s
  | _ => refuse .refusedState s

/-- Whether a job is a RECEIPT job of the sale that has started (R104). -/
def Job.receiptRunning (j : Job) : Bool :=
  j.ofSale && (match j.mode with
    | .printing | .paused _ => true
    | _ => false)

/-- Whether a job is a RECEIPT job of the sale in FILLING or QUEUED (R104). -/
def Job.receiptWaiting (j : Job) : Bool :=
  j.ofSale && (match j.mode with
    | .filling | .queued => true
    | _ => false)

/-- Rebind a waiting RECEIPT job of the sale to the snapshot (R104, R153). -/
def rebindReceipt (s : State) : State :=
  { s with job.table := s.job.table.map fun j =>
      if j.receiptWaiting then { j with binding := .snapshot } else j }

/-- TXN_CLOSE cancels the entitlement (R101, R104). -/
def cancelEntitlement (r : Raise) (s : State) : State :=
  match s.txn.entitlement with
  | none => s
  | some p => cancelKick r p { s with txn.entitlement := none }

/-- TXN_CLOSE (R104). -/
def actClose (tag : Byte) : Act := fun r s =>
  if s.txn.state ≠ .settled then refuse .refusedState s
  else if s.job.table.any Job.receiptRunning then refuse .refusedBusy s
  else
    let rebound := s.job.table.any Job.receiptWaiting
    let s := rebindReceipt (takeSnapshot false (cancelEntitlement r s))
    answer .ok [flag8 rebound] (closeEffects r tag .forced s)

/-! ### Status (R107) -/

/-- The entitlement byte (Table 5-4). -/
def entitlementByte : Option Port → Byte
  | none => 0#8
  | some p => p.byte

/-- The snapshot byte (Table 5-4). -/
def snapshotByte : Option Snapshot → Byte
  | none => 0#8
  | some x => if x.void then 2#8 else 1#8

/-- The reply data of TXN_STATUS (Table 5-4). -/
def State.txnStatus (s : State) : List Byte :=
  let x := s.txn
  [x.state.code] ++ be32 x.id ++
    [u8 x.items.length, u8 (x.items.filter fun it => !it.void).length] ++ be32 (subtotal x.items) ++
    be32 (total x.items) ++ [u8 x.tenders.length] ++ be32 (tenderSum x.tenders) ++ be32 x.due ++
    be32 x.change ++
    [entitlementByte x.entitlement, flag8 x.receiptDone, flag8 (decide (s.bag.watch = .hold)),
     u8 s.bag.entries.length, snapshotByte x.snap]

/-- TXN_STATUS (R107). -/
def actTxnStatus : Act := fun _ s => answer .ok s.txnStatus s

/-! ### Chapter 6 -/

/-- CARD_ARM (R109). -/
def actArm (value : Byte) : Act := fun _ s =>
  if value = 0#8 then
    let s := disarmReader s
    answer .ok [s.crd.state.code] s
  else if value = 1#8 then
    let s := armReader s
    answer .ok [s.crd.state.code] s
  else refuse .refusedRange s

/-- The reply data of CARD_SUMMARY (Table 6-3). -/
def CardRec.summary (c : CardRec) (slot : CardSlot) : List Byte :=
  [slot.byte, if c.bound then 2#8 else 1#8, flag8 c.reverse, c.numeric.code, c.alpha.code, c.flags,
   u8 c.masked.length] ++ textField c.masked ++ orAbsent c.expiry ++ orAbsent c.service ++
    textField c.name ++ be16 (if c.bound then 0 else c.age / 1000) ++ [flag8 (!c.released)]

/-- CARD_SUMMARY (R125). -/
def actSummary (slot : Byte) : Act := fun _ s =>
  match CardSlot.ofByte slot with
  | none => refuse .refusedRange s
  | some c =>
    match s.card c with
    | none => refuse .refusedNotFound s
    | some x => answer .ok (x.summary c) s

/-- CARD_RELEASE (R126). -/
def actRelease (slot : Byte) : Act := fun _ s =>
  match CardSlot.ofByte slot with
  | none => refuse .refusedRange s
  | some c =>
    match s.card c with
    | none => refuse .refusedNotFound s
    | some x =>
      if x.released then refuse .refusedState s
      else
        answer .ok (slot :: textField x.track)
          (s.setCard c (some { x with track := [], released := true }))

/-- CARD_DISCARD (R127). -/
def actDiscard (slot : Byte) : Act := fun r s =>
  match CardSlot.ofByte slot with
  | none => refuse .refusedRange s
  | some c =>
    match s.card c with
    | none => refuse .refusedNotFound s
    | some x =>
      if x.bound then refuse .refusedState s
      else answer .ok [] (wipeCard r c .discard s)

end Sys2Proof.Machine
end

