-- ==== Sys2Proof/Machine/Bindings.lean ====
section
/-! DEFINITION. Bound actions (R191): what a raised notice makes the device do before it is offered to the
notice queue. -/

namespace Sys2Proof.Machine

/-- A bound action through the checks of its request, with origin tag 0; the notices it raises fire no
binding (R191). -/
def boundAction : BindAction → State → State × Status
  | .kick p, s => kick raiseQuiet 0#8 p s
  | .capture price, s => startCapture 0#8 0 price [] s
  | .startFeed n, s => prnFeed raiseQuiet n s
  | .armReader, s => (armReader s, .ok)

/-- A bound action cancels a pending power entry as its request would, if it is accepted (R183, R191). -/
def boundCancel (a : BindAction) (s : State) : State :=
  if s.lpm.entry.isSome && (boundAction a { s with lpm.entry := none }).2.accepted then
    cancelEntry raiseQuiet .work s
  else s

/-- Fire one binding: a once slot is emptied, the lane woken, the action executed; a refusal raises
BINDING_FAILED (R191).
DEDUCED: log entry 34. -/
def fireOne (slot : Nat) (b : Binding) (s : State) : State :=
  let s := if b.once then { s with rpt := s.rpt.setBinding none slot } else s
  let s := boundCancel b.action (wake raiseQuiet 0#8 .wakeRequest s)
  match boundAction b.action s with
  | (s, st) =>
    if st.accepted then s else raiseQuiet (.bindingFailed slot b.trigger b.action.code st) s

/-- Fire a slot if it holds a binding of a notice kind (R191). -/
def fireSlot (code slot : Nat) (s : State) : State :=
  match s.rpt.binding slot with
  | some b => if b.trigger = code then fireOne slot b s else s
  | none => s

/-- Fire the bindings of a notice kind in slot order (R191). -/
def fireBindings (code : Nat) (s : State) : State :=
  fireSlot code 4 (fireSlot code 3 (fireSlot code 2 (fireSlot code 1 s)))

/-- Raise a notice outside a bound action: its bindings fire first, then it is offered to the queue
(R186). -/
def raiseLoud : Raise := fun n s => raiseQuiet n (fireBindings n.code s)

end Sys2Proof.Machine
end

