-- ==== Sys2Proof/Machine/Reset.lean ====
section
/-! DEFINITION. Reset and the first steps of start-up (R18, R19, R194 to R196): what the settings store
keeps, what it loads, and the state right after either kind of reset. -/

namespace Sys2Proof.Machine

/-- A record of the store whose checksum fails (R194, R195). -/
def badCrc (l : List Byte) : BitVec 16 := ~~~crc16 l

/-- The store's records as a reset finds them: the write in progress is cut (R87, R194, R195). Where a reset
falls in the pair of writes of a calibration write is a free value: before the first, inside it, between the
two, or inside the second.
DESIGN CHOICE: log entry 12. -/
def Store.cut (t : Store) (free : Nat) : Store :=
  match t.writes with
  | [] => t
  | .settings :: _ => { t with blockCrc := badCrc t.block.bytes }
  | .marker _ :: _ => { t with marker := true }
  | .calibration ch count _ _ :: _ =>
    let raised := { t with storedCount := count, countCrc := crc16 (be16 count) }
    match Config.calWriteCut free % 4 with
    | 0 => t
    | 1 => { t with countCrc := badCrc (be16 t.storedCount) }
    | 2 => raised
    | _ =>
      match ch with
      | .p => { raised with calP := { t.calP with crc := badCrc t.calP.bytes } }
      | .b => { raised with calB := { t.calB with crc := badCrc t.calB.bytes } }

/-- The settings loaded at start-up (R196, R32). -/
def Store.loaded (t : Store) : Settings :=
  if t.blockGood then t.block.raiseWindows else Settings.defaults

/-- A channel with the calibration its block loads with (R26, R196). -/
def loadedChan (b : CalBlock) (division : Nat) : Chan :=
  if b.good then Chan.reset true b.c0 b.k division else Chan.reset false 0 65536 division

/-- The store after steps 1 to 4 of start-up (R87, R195, R196). -/
def Store.startup (t : Store) (kind : ResetKind) : Store :=
  { t with
    writes := if t.marker then [.marker false] else []
    count := if t.countGood then t.storedCount else 65535
    started := false
    kind := kind
    defaulted := !t.blockGood
    interrupted := t.marker }

/-- The latched conditions that start-up sets (R192, R196). -/
def Store.latches (t : Store) : Latched :=
  { Latched.clear with
    defaulted := !t.blockGood
    calInvalidP := !t.calP.good
    calInvalidB := !t.calB.good }

/-- The state right after a reset: every block as its chapter gives it, steps 1 to 4 of start-up done. The
inputs keep their levels, and commands that wait keep waiting.
DESIGN CHOICE: log entry 3. -/
def resetNow (kind : ResetKind) (s : State) : State :=
  let t := s.sst.cut s.free
  let set := t.loaded
  { pending := s.pending
    link := Link.reset set.baudRate
    wgt := Weigh.reset (loadedChan t.calP 2) (loadedChan t.calB 10)
    bag := Bag.reset
    txn := Txn.reset
    crd := Card.reset
    drw :=
      { d1 := PortState.reset (set.present .d1) s.drw.d1.level
        d2 := PortState.reset (set.present .d2) s.drw.d2.level
        noSale := none }
    job := JobStore.reset
    pen := Engine.reset s.pen.paperLow s.pen.paperOut s.pen.coverOpen s.pen.home
    dsa := Supply.reset set.capacity s.dsa.mv
    lpm := Power.reset
    rpt := { Report.reset with latched := t.latches }
    set := set
    sst := t.startup kind
    calEn := s.calEn
    free := s.free + 1 }

/-- A soft reset takes effect once every reply has been sent (R18). -/
def judgeReset (s : State) : State :=
  if s.link.softReset && s.link.queue.isEmpty && s.link.inExec.isNone && s.link.replies.isEmpty &&
      s.link.tx.isNone then
    resetNow .soft s
  else s

end Sys2Proof.Machine
end

