-- ==== Sys2Proof/WellFormed.lean ====
section
/-! DEFINITION. Which commands keep the payload lengths of Table 1-4: the description and element lists must
fit them. -/

namespace Sys2Proof.Instr

/-- The payload lengths of Table 1-4 that the operands of a command could break: TXN_ITEM's description
count is at most 240, TXN_WEIGH's at most 246, and JOB_DATA's payload is 2 to 255 bytes. -/
def wf : Instr → Bool
  | .txnItem _ _ _ _ _ _ d => decide (d.length ≤ 240)
  | .txnWeigh _ _ _ d => decide (d.length ≤ 246)
  | .jobData _ _ e => decide (1 ≤ e.length) && decide (e.length ≤ 254)
  | _ => true

end Sys2Proof.Instr
end

