-- ==== Sys2Proof/Machine/Link.lean ====
section
/-! DEFINITION. The link controller (chapter 1): the receiver, admission, execution and transmission. -/

namespace Sys2Proof.Machine

/-! ### The receiver (R4 to R8) -/

/-- A discard by the receiver (R7). -/
def discard (r : Raise) (cause : RxCause) (s : State) : State :=
  if s.rpt.latched.frameError.isSome then s
  else r (.linkFrameError cause) { s with rpt.latched.frameError := some cause }

/-- Set the receiver. -/
def setRx (m : RxMode) (buf : List Byte) (s : State) : State :=
  { s with link.rx := { mode := m, buf := buf, quiet := 0 } }

/-- A reply of a request, with its code and tag (R11). -/
def Request.reply (q : Request) (st : Status) (data : List Byte) (baud : Option Nat) : Reply where
  tag := q.tag
  code := q.code
  status := st
  data := data
  baud := baud

/-- Admit a request received intact (R8). -/
def admitRequest (q : Request) (s : State) : State :=
  if s.link.queue.length < 4 then { s with link.queue := s.link.queue ++ [q] }
  else placeReply (q.reply .refusedFull [] none) s

/-- The request an unescaped body carries, or the cause of its discard (R6). -/
def readBody (places : Nat) (body : List Byte) : Except RxCause Request :=
  let head := body.take (body.length - 2)
  if body.length < 5 then .error .short
  else if body.drop (body.length - 2) ≠ be16 (crc16 head).toNat then .error .crc
  else
    match head with
    | kind :: tag :: code :: payload =>
      if kind ≠ 0x01#8 then .error .kind
      else if 8 ≤ places then .error .overrun
      else .ok { tag := tag, code := code, payload := payload }
    | _ => .error .short

/-- A closing FLAG ends a body (R6). -/
def closeBody (r : Raise) (body : List Byte) (s : State) : State :=
  let s := setRx .gap [] s
  match readBody s.link.placesInUse body with
  | .error cause => discard r cause s
  | .ok q => admitRequest q s

/-- A byte joins the body (R4). -/
def appendBody (r : Raise) (b : Byte) (s : State) : State :=
  if 260 ≤ s.link.rx.buf.length then discard r .overlong (setRx .seek [] s)
  else setRx .body (s.link.rx.buf ++ [b]) s

/-- A character arrives (R4); a missing stop bit changes nothing in its handling (R1). -/
def rxCharacter (r : Raise) (c : Byte) (s : State) : State :=
  match s.link.rx.mode with
  | .closed => s
  | .seek => if c = flagByte then setRx .gap [] s else s
  | .gap =>
    if c = flagByte then s
    else if c = escByte then setRx .bodyEsc [] s
    else setRx .body [c] s
  | .body =>
    if c = flagByte then closeBody r s.link.rx.buf s
    else if c = escByte then setRx .bodyEsc s.link.rx.buf s
    else appendBody r c s
  | .bodyEsc =>
    if c = flagByte then discard r .badEscape (setRx .gap [] s)
    else appendBody r (c ^^^ 0x20#8) s

/-- Whether the receiver is inside a body. -/
def RxMode.inBody : RxMode → Bool
  | .body | .bodyEsc => true
  | _ => false

/-- 50 ms without a character inside a body (R5). -/
def rxStall (r : Raise) (s : State) : State :=
  if s.link.rx.mode.inBody then discard r .stall (setRx .seek [] s) else s

/-! ### Execution (R9, R183 to R185) -/

/-- The cause of a wake by a request (R185). -/
def wakeCause (code : Byte) : PowerCause := if code = 0x07#8 then .pwrWake else .wakeRequest

/-- A request that passes the checks of R10 sets the idle timer to 0 and wakes the lane, unless it is in the
status set or asks for a power state (R184, R185). -/
def wakeFor (r : Raise) (q : Request) (s : State) : State :=
  let s := { s with lpm.idle := 0 }
  if wakesLane q.code then wake r q.tag (wakeCause q.code) s else s

/-- A pending power entry is cancelled by a request of R183 that will be accepted, before its effects.
DEDUCED: log entry 31. -/
def cancelFor (r : Raise) (q : Request) (act : Act) (s : State) : State :=
  if s.lpm.entry.isSome && cancelsEntry q.code &&
      (act r { s with lpm.entry := none }).2.accepted then
    cancelEntry r .work s
  else s

/-- The request in execution is answered: its reply joins the reply list (R9). -/
def finish (q : Request) (st : Status) (data : List Byte) (baud : Option Nat) (s : State) : State :=
  judgeReset (placeReply (q.reply st data baud) { s with link.inExec := none })

/-- The end of an immediate action: its reply, or the request stays in execution (R9). -/
def conclude (q : Request) (x : State × Answer) : State :=
  match x.2 with
  | .reply st data baud => finish q st data baud x.1
  | .hold => x.1

/-- Execute a request that has passed the checks of R10 (R9). -/
def execute (r : Raise) (q : Request) (act : Act) (s : State) : State :=
  conclude q (act r (cancelFor r q act (wakeFor r q { s with link.inExec := some q })))

/-- The immediate action of each request. -/
def requestAction : Instr → Act
  | .ident _ => actIdent
  | .laneReset _ => actLaneReset
  | .condFetch _ mask => actCondFetch mask
  | .noteFetch _ => actNoteFetch
  | .pwrStandby tag => actStandby tag
  | .pwrDormant tag => actDormant tag
  | .pwrWake _ => actWake
  | .setGet _ n => actSetGet n
  | .setPut _ n v => actSetPut n v
  | .setSave _ => actSetSave
  | .evtRoute _ c p => actRoute c p
  | .evtBind _ sl m t a x => actBind sl m t a x
  | .scaleRead _ ch => actRead ch
  | .scaleZero tag ch => actZero tag ch
  | .scaleTare tag => actTare tag
  | .scaleTarePreset _ g => actTarePreset g
  | .scaleTareClear _ => actTareClear
  | .scaleCancel _ => actCancel
  | .scaleStream _ ch p => actStream ch p
  | .calZero tag ch => actCalZero tag ch
  | .calSpan tag ch g => actCalSpan tag ch g
  | .bagSkip _ sl => actSkip sl
  | .bagClearHold _ => actClearHold
  | .bagStatus _ => actBagStatus
  | .txnBegin _ id date time => actBegin id date time
  | .txnItem _ c q p w t d => actItem c q p w t d
  | .txnWeigh tag c p d => actWeigh tag c p d
  | .txnVoidItem _ sl => actVoidItem sl
  | .txnTotal _ o => actTotal o
  | .txnReopen _ => actReopen
  | .txnTender _ k a sl => actTender k a sl
  | .txnVoid tag => actVoid tag
  | .txnClose tag => actClose tag
  | .txnStatus _ => actTxnStatus
  | .txnItemGet _ sl => actItemGet sl
  | .cardArm _ v => actArm v
  | .cardSummary _ sl => actSummary sl
  | .cardRelease _ sl => actRelease sl
  | .cardDiscard _ sl => actDiscard sl
  | .drawerKick tag p => actKick tag p
  | .drawerNosale tag p => actNoSale tag p
  | .drawerStatus _ => actDrawerStatus
  | .drawerClear _ p => actDrawerClear p
  | .jobOpen tag role => actJobOpen tag role
  | .jobData _ j e => actJobData j e
  | .jobClose _ j => actJobClose j
  | .jobAbort _ j => actJobAbort j
  | .jobResume _ => actJobResume
  | .jobStatus _ j => actJobStatus j
  | .prnClear _ => actPrnClear
  | .prnFeed _ n => actPrnFeed n
  | .hardReset | .rxCharacter _ _ | .rxStallTimeout | .requestExecute | .frameSent
  | .settingsBlockWritten | .markerWriteDone | .calibrationWriteDone
  | .reading _ _ | .converterWarmupEnd | .initialZeroTimeout _ | .zeroTimeout _ | .tareTimeout
  | .captureTimeoutExpiry | .calTimeout _ | .calEnChange _ | .disturbanceGuardEnd
  | .streamPeriodEnd | .bagEntryOverdue _ | .swipeStart _ | .trackIdleEnd _ | .swipeTimeLimit
  | .decodeEnd | .cardHoldExpiry _ | .senseInputLevelChange _ _ | .senseDebouncedChange _
  | .grantWaitTimeout _ | .pulseOnTimeEnd _ | .overcurrentTrip _ | .overcurrentBreakEnd _ _
  | .openWaitTimeout _ | .retryWaitEnd _ | .leftOpenExpiry _ | .printSensorChange _ _
  | .headTempReading _ | .lineBoundary _ | .cutterHomeMade | .cutJamTimeout | .stallLimitExpiry
  | .supplyLowStart _ | .supplyLowEnd _ | .idleTimerExpiry | .trackTransition _ _
  | .cutterHomeSwitchOpens => fun _ s => refuse .refusedCode s

/-- The head of the request queue is executed when no request is in execution (R9, R10, R18). -/
def requestExecute (r : Raise) (s : State) : State :=
  match s.link.inExec, s.link.queue with
  | none, q :: rest =>
    let s := { s with link.queue := rest }
    if s.link.softReset then judgeReset (placeReply (q.reply .refusedState [] none) s)
    else
      match decodeRequest q.tag q.code q.payload with
      | .error st => placeReply (q.reply st [] none) s
      | .ok i => execute r q (requestAction i) s
  | _, _ => s

/-- A request command: its frame is received. A payload above 255 bytes makes a body of more than 260, which
is discarded at its 261st byte (R4); any other request is received intact, and executed at once where no other
is in execution or waiting; a payload length that Table 1-4 does not give is then refused (R6, R8 to R10;
DESIGN CHOICE: log entry 5). -/
def arrive (r : Raise) (i : Instr) (act : Act) (s : State) : State :=
  match encodeRequest i with
  | none => s
  | some (tag, code, payload) =>
    let q : Request := { tag := tag, code := code, payload := payload }
    if s.link.rx.mode = .closed then s
    else if 255 < payload.length then discard r .overlong s
    else if 8 ≤ s.link.placesInUse then discard r .overrun s
    else if s.link.inExec.isNone && s.link.queue.isEmpty then
      if i.wf then execute r q act s else placeReply (q.reply .refusedLength [] none) s
    else admitRequest q s

/-! ### Transmission (R13, R14, R17, R18) -/

/-- The rate changes at the closing FLAG of the reply that carries it (R17).
DEDUCED: log entry 17. -/
def switchRate (baud : Option Nat) (s : State) : State :=
  match baud with
  | none => s
  | some v =>
    if v = s.link.rate then s
    else
      let s := { s with link.rate := v }
      if s.link.rx.mode.inBody then setRx .seek [] s else s

/-- The closing FLAG of the frame on the line has been sent (R13, R14, R17, R18). -/
def frameSent (s : State) : State :=
  match s.link.tx with
  | none => s
  | some f => judgeReset (arbitrate (switchRate f.baud { s with link.tx := none }))

/-! ### Held requests (R86, R194, R195) -/

/-- The reply of a request held for a settings store write. -/
def finishHeld (code : Byte) (s : State) : State :=
  match s.link.inExec with
  | some q => if q.code = code then finish q .ok [] none s else s
  | none => s

/-- The settings block is written (R194). -/
def settingsWritten (s : State) : State :=
  match s.sst.writes with
  | .settings :: rest =>
    finishHeld 0x12#8 { s with
      sst.writes := rest
      sst.block := s.set
      sst.blockCrc := crc16 s.set.bytes }
  | _ => s

/-- A marker write is done (R86, R87). -/
def markerWritten (s : State) : State :=
  match s.sst.writes with
  | .marker set :: rest =>
    let s := { s with sst.writes := rest, sst.marker := set }
    if set then finishHeld 0x40#8 s else s
  | _ => s

/-- The pair of writes of a calibration write is done: CAL_DONE, and the slot is freed (R195). -/
def calibrationWritten (r : Raise) (s : State) : State :=
  match s.sst.writes with
  | .calibration ch count c0 k :: rest =>
    let t := { s.sst with
      writes := rest
      storedCount := count
      countCrc := crc16 (be16 count) }
    let t := match ch with
      | .p => { t with calP := CalBlock.seal c0 k }
      | .b => { t with calB := CalBlock.seal c0 k }
    let s := { s with sst := t }
    match (s.chan ch).op with
    | some o => calEnds r ch o.tag o.kind.isSpan .ok s
    | none => s
  | _ => s

end Sys2Proof.Machine
end

