-- ==== Sys2Proof/Machine/Events.lean ====
section
/-! DEFINITION. The events that reach the block from outside or from a timer running out: card transitions,
sense inputs, print sensors, the head thermistor, the drive supply, CAL_EN. An event that finds nothing it
could happen to leaves the state unchanged. -/

namespace Sys2Proof.Machine

/-! ### Operations in flight (chapters 2 and 3) -/

/-- The operation in flight on a channel times out, if it is of a kind (R40, R42, R48, R56).
DESIGN CHOICE: log entry 6. -/
def timeoutOf (r : Raise) (ch : Channel) (kind : OpKind → Bool) (s : State) : State :=
  match (s.chan ch).op with
  | some o => if kind o.kind then expireOp r ch s else s
  | none => s

/-- Whether an operation is SCALE_ZERO. -/
def OpKind.isZero : OpKind → Bool
  | .zero => true
  | _ => false

/-- Whether an operation is SCALE_TARE. -/
def OpKind.isTare : OpKind → Bool
  | .tare => true
  | _ => false

/-- Whether an operation is a capture. -/
def OpKind.isCapture : OpKind → Bool
  | .capture _ _ _ => true
  | _ => false

/-- CAL_EN takes a level; becoming inactive ends waiting calibration requests (R42). -/
def calEnChange (r : Raise) (active : Bool) (s : State) : State :=
  let s := { s with calEn := active }
  if active then s else permitLost r .b (permitLost r .p s)

/-! ### The card reader (R108 to R112) -/

/-- The first transition on one of the two heads read, in ARMED: a swipe starts, and a lane in STANDBY wakes
(R110, R111, R185). -/
def swipeStart (r : Raise) (h : Head) (s : State) : State :=
  match s.crd.state, Head.track h with
  | .armed, some tr =>
    let s := setTrack tr { TrackCap.empty with transitions := 1 } (readerTo .reading s)
    wake r 0#8 .swipe s
  | _, _ => s

/-- A transition on a head in READING, `dt` µs after the one before on that head, or after the swipe's first
transition where the head has had none (R111, R112). -/
def trackTransition (h : Head) (dt : Nat) (s : State) : State :=
  match s.crd.state, Head.track h with
  | .reading, some tr => judgeSwipeEnd (setTrack tr (TrackCap.transition (Card.track s.crd tr) dt) s)
  | _, _ => s

/-- The idle time of a track passes without a transition: the track ends (R112). -/
def trackIdleEnd (tr : Track) (s : State) : State :=
  if s.crd.state = .reading then
    judgeSwipeEnd (setTrack tr { Card.track s.crd tr with ended := true } s)
  else s

/-- A track still running at the 2,000 ms limit is OVERLONG (R112, R115). -/
def TrackCap.cutOff (t : TrackCap) : TrackCap :=
  if t.ended then t else { t with ended := true, atLimit := true }

/-- The swipe reaches its 2,000 ms limit (R112). -/
def swipeTimeLimit (s : State) : State :=
  if s.crd.state = .reading then
    { s with
      crd.alpha := s.crd.alpha.cutOff
      crd.numeric := s.crd.numeric.cutOff
      crd.state := .decoding }
  else s

/-- Decoding completes (R108, R122). -/
def decodeEnd (r : Raise) (s : State) : State :=
  if s.crd.state = .decoding then decodeSwipe r s else s

/-- A HELD record's hold timer runs out (R124). -/
def cardHoldExpiry (r : Raise) (slot : CardSlot) (s : State) : State :=
  match s.card slot with
  | some c => if c.bound then s else wipeCard r slot .holdTimer s
  | none => s

/-! ### The drawers (chapter 7) -/

/-- The sense input takes a new level: its 25 ms start again (R130). -/
def senseLevel (p : Port) (high : Bool) (s : State) : State :=
  if (s.port p).level = high then s
  else modPort p (fun q => { q with level := high, deb := some 0 }) s

/-- The grant wait of a port in GRANT_WAIT ends (R135). -/
def grantWaitTimeout (r : Raise) (p : Port) (s : State) : State :=
  if (s.port p).mode = .grantWait then grantWaitEnd r p s else s

/-- The on-time of an energised port is reached (R138). -/
def pulseOnTimeEnd (r : Raise) (p : Port) (s : State) : State :=
  if (s.port p).mode = .kicking ∧ (s.port p).on then pulseEnd r p s else s

/-- The comparator of an energised port trips (R137). -/
def comparatorTrip (r : Raise) (p : Port) (s : State) : State :=
  if (s.port p).mode = .kicking ∧ (s.port p).on then overcurrentTrip r p s else s

/-- The 20 ms break of a port ends (R137). -/
def breakEnd (r : Raise) (p : Port) (clear : Bool) (s : State) : State :=
  if (s.port p).mode = .kicking ∧ (s.port p).broken then overcurrentBreakEnd r p clear s else s

/-- 500 ms pass in WAIT_OPEN (R138). -/
def openWaitTimeout (r : Raise) (p : Port) (s : State) : State :=
  if (s.port p).mode = .waitOpen then failAttempt r p .noOpen s else s

/-- The retry wait of a port ends (R139). -/
def retryWaitEnd (r : Raise) (p : Port) (s : State) : State :=
  if (s.port p).mode = .closed ∧ (s.port p).retry then startAttempt r p s else s

/-- The left-open time of a port in OPEN reaches LEFT_OPEN (R141). -/
def leftOpenExpiry (r : Raise) (p : Port) (s : State) : State :=
  if (s.port p).mode = .opened then
    leftOpen r p (modPort p (fun q => { q with openMs := max q.openMs (1000 * s.set.leftOpen) }) s)
  else s

/-! ### The print engine's sensors (R165, R166, R172) -/

/-- The paper low sensor takes a level (R165). -/
def paperLowChange (r : Raise) (active : Bool) (s : State) : State :=
  if s.pen.paperLow = active then s
  else
    let s := { s with pen.paperLow := active }
    if active then r .paperLow s else s

/-- The paper out sensor takes a level (R165, R167). -/
def paperOutChange (r : Raise) (active : Bool) (s : State) : State :=
  if s.pen.paperOut = active then s
  else
    let s := { s with pen.paperOut := active }
    rejudgePause r (if active then r .paperOut s else s)

/-- The cover sensor takes a level (R165, R167). -/
def coverChange (r : Raise) (active : Bool) (s : State) : State :=
  if s.pen.coverOpen = active then s
  else
    let s := { s with pen.coverOpen := active }
    rejudgePause r (if active then r .coverOpen s else s)

/-- A sensor of the receipt mechanism takes a level (R165). -/
def sensorChange (r : Raise) : PrintSensor → Bool → State → State
  | .paperLow => paperLowChange r
  | .paperOut => paperOutChange r
  | .cover => coverChange r

/-- The hot condition after a head temperature (R166). -/
def hotAfter (hot : Bool) (theta : Int) : Bool :=
  if 65 ≤ theta then true else if theta ≤ 55 then false else hot

/-- A head temperature reading is taken as θ, or as 25 °C with HEAD_SENSOR where it is out of range (R166). -/
def takeTheta (celsius : Int) (s : State) : State :=
  if -20 ≤ celsius ∧ celsius ≤ 100 then { s with pen.theta := celsius }
  else { s with pen.theta := 25, rpt.latched.headSensor := true }

/-- A reading of the head thermistor, made while the head is powered: in ACTIVE, once start-up has ended
(R164, R166, R176). -/
def headReading (r : Raise) (celsius : Int) (s : State) : State :=
  if s.lpm.mode = .active ∧ s.sst.started then
    let s := takeTheta celsius s
    let hot := hotAfter s.pen.hot s.pen.theta
    if hot = s.pen.hot then s
    else
      let s := { s with pen.hot := hot }
      rejudgePause r (if hot then r (.headHot s.pen.theta) s else s)
  else s

/-- The cutter home switch makes; a cut in progress is complete (R172).
DEDUCED: log entry 29. -/
def homeMade (r : Raise) (s : State) : State :=
  let s := { s with pen.home := true }
  if s.pen.cut.isSome then cutDone r s else s

/-- 500 ms pass from the cutter's drive without the home switch (R172). -/
def jamTimeout (r : Raise) (s : State) : State :=
  if s.pen.cut.isSome then cutJam r s else s

/-! ### The drive supply (R180) -/

/-- A supply sample below 19,000 mV begins supply low: the phases not begun are withheld (R171, R180).
DEDUCED: log entry 36. -/
def supplyLowStart (r : Raise) (mv : Nat) (s : State) : State :=
  if s.dsa.low ∨ 19000 ≤ mv then s
  else
    rejudgePause r { s with
      dsa.low := true
      dsa.mv := mv
      pen.line := s.pen.line.map fun l => { l with withheld := true } }

/-- A supply sample of 20,000 mV or more ends supply low: the arbiter scans at once (R180).
DESIGN CHOICE: log entry 74. -/
def supplyLowEnd (r : Raise) (mv : Nat) (s : State) : State :=
  if s.dsa.low ∧ 20000 ≤ mv then
    rejudgePause r (scan r { s with dsa.low := false, dsa.mv := mv })
  else s

/-! ### The idle timer (R184) -/

/-- Whether the idle timer measures: ACTIVE, no sale, start-up ended, and IDLE_STANDBY not 0 (R184, R196). -/
def State.idleRuns (s : State) : Bool :=
  decide (s.lpm.mode = .active) && decide (s.txn.state = .idle) && s.sst.started &&
    decide (s.set.idleStandby ≠ 0)

/-- The idle timer reaches IDLE_STANDBY (R184). -/
def idleTimerExpiry (r : Raise) (s : State) : State :=
  if s.idleRuns then idleExpired r s else s

end Sys2Proof.Machine
end

