-- ==== Sys2Proof/Machine/Tick.lean ====
section
/-! DEFINITION. The passing of one millisecond, which is what a step does when no command waits (DESIGN
CHOICE, log entry 1): every timer advances, and those that have run out expire in the order of this file. A
request that waits and can be executed is executed first, and no time passes. -/

namespace Sys2Proof.Machine

/-! ### Advancing the timers -/

/-- The time since the last character, inside a body (R5). -/
def Rx.tick (x : Rx) : Rx := if x.mode.inBody then { x with quiet := x.quiet + 1 } else x

/-- The initial zero attempt and the operation in flight of a channel (R38 to R40). -/
def Chan.tick (c : Chan) : Chan :=
  { c with
    init := match c.init with
      | .running age => .running (age + 1)
      | x => x
    op := c.op.map fun o => { o with age := o.age + 1 } }

/-- The weighing engine's timers (R21, R35, R65). -/
def Weigh.tick (w : Weigh) : Weigh :=
  { w with
    warmAge := if w.conv = .warming then w.warmAge + 1 else w.warmAge
    chanP := w.chanP.tick
    chanB := w.chanB.tick
    guard := w.guard.map fun g => g - 1
    stream := w.stream.map fun x => { x with age := x.age + 1 } }

/-- The ages of the expectations, in WATCH and HOLD (R77). -/
def Bag.tick (b : Bag) : Bag :=
  if b.watch = .off then b
  else { b with entries := b.entries.map fun e => { e with age := e.age + 1 } }

/-- The age of a HELD record (R124). -/
def CardRec.tick (c : CardRec) : CardRec := if c.bound then c else { c with age := c.age + 1 }

/-- The reader's timers (R112, R124). -/
def Card.tick (c : Card) : Card :=
  { c with
    swipeAge := if c.state = .reading then c.swipeAge + 1 else c.swipeAge
    one := c.one.map CardRec.tick
    two := c.two.map CardRec.tick }

/-- The timers of a port: its debounce, its wait, its energised time, its open time (R130, R135 to R141). -/
def PortState.tick (q : PortState) : PortState :=
  let q := { q with deb := q.deb.map fun d => d + 1 }
  match q.mode with
  | .grantWait | .waitOpen => { q with wait := q.wait + 1 }
  | .closed => if q.retry then { q with wait := q.wait + 1 } else q
  | .kicking =>
    if q.on then { q with onMs := q.onMs + 1 }
    else if q.broken then { q with wait := q.wait + 1 }
    else q
  | .opened | .openOverdue => { q with openMs := q.openMs + 1 }
  | .unknown | .fault => q

/-- The stall time of a job paused for UNDERRUN (R158). -/
def Job.tick (j : Job) : Job :=
  if j.mode = .paused .underrun then { j with stall := j.stall + 1 } else j

/-- The idle timer, at 0 while a sale stands (R184). -/
def State.idleTick (s : State) : Nat :=
  if s.txn.state ≠ .idle then 0
  else if s.lpm.mode = .active ∧ s.sst.started then s.lpm.idle + 1
  else s.lpm.idle

/-- Every timer of the block advances by one millisecond.
DESIGN CHOICE: log entry 16. -/
def advance (s : State) : State :=
  { s with
    link.rx := s.link.rx.tick
    wgt := s.wgt.tick
    bag := s.bag.tick
    crd := s.crd.tick
    drw.d1 := s.drw.d1.tick
    drw.d2 := s.drw.d2.tick
    job.table := s.job.table.map Job.tick
    pen.cut := s.pen.cut.map fun c => c + 1
    lpm.idle := s.idleTick }

/-! ### Expiries -/

/-- The initial zero attempt of a channel after 5 s (R38). -/
def expireInit (r : Raise) (ch : Channel) (s : State) : State :=
  match (s.chan ch).init with
  | .running age => if 5000 ≤ age then initialZeroEnd r ch s else s
  | _ => s

/-- The operation in flight of a channel at its timeout (R40, R42, R48, R56). -/
def expireSlot (r : Raise) (ch : Channel) (s : State) : State :=
  match (s.chan ch).op with
  | some o => if o.limit ≤ o.age then expireOp r ch s else s
  | none => s

/-- The weighing engine's expiries. -/
def expireScale (r : Raise) (s : State) : State :=
  let s := if s.wgt.conv = .warming ∧ 1500 ≤ s.wgt.warmAge then warmupEnd r s else s
  let s := expireInit r .b (expireInit r .p s)
  let s := expireSlot r .b (expireSlot r .p s)
  let s := if s.wgt.guard = some 0 then guardEnd r s else s
  match s.wgt.stream with
  | some x => if x.period ≤ x.age then streamPeriodEnd s else s
  | none => s

/-- The wait of a port at its end (R135, R138, R139). -/
def expireWait (r : Raise) (p : Port) (s : State) : State :=
  let q := s.port p
  match q.mode with
  | .grantWait => if 2000 ≤ q.wait then grantWaitEnd r p s else s
  | .waitOpen => if 500 ≤ q.wait then failAttempt r p .noOpen s else s
  | .closed => if q.retry && decide (1000 ≤ q.wait) then startAttempt r p s else s
  | .kicking => if q.on && decide (q.onTime ≤ q.onMs) then pulseEnd r p s else s
  | .opened => judgeLeftOpen r p s
  | .unknown | .openOverdue | .fault => s

/-- The expiries of a port: its debounce first, then its wait (R130, R135 to R141). -/
def expirePort (r : Raise) (p : Port) (s : State) : State :=
  let s := if 25 ≤ ((s.port p).deb).getD 0 then senseDebounced r p s else s
  expireWait r p s

/-- The cut, the stall and the idle timer (R158, R172, R184). -/
def expireLane (r : Raise) (s : State) : State :=
  let s := if 500 ≤ s.pen.cut.getD 0 then jamTimeout r s else s
  let s := judgeStall r s
  if s.idleRuns && decide (60000 * s.set.idleStandby ≤ s.lpm.idle) then idleExpired r s else s

/-- Everything that has run out expires, in this order.
DESIGN CHOICE: log entry 7. -/
def expire (r : Raise) (s : State) : State :=
  let s := if 50 ≤ s.link.rx.quiet then rxStall r s else s
  let s := judgeOverdue r (expireScale r s)
  let s := if s.crd.state = .reading ∧ 2000 ≤ s.crd.swipeAge then swipeTimeLimit s else s
  let s := judgeHold r .two (judgeHold r .one s)
  expireLane r (expirePort r .d2 (expirePort r .d1 s))

/-- What a step does when no command waits: a request that can be executed is executed; otherwise one
millisecond passes. -/
def tick (r : Raise) (s : State) : State :=
  if s.link.inExec.isNone && !s.link.queue.isEmpty then requestExecute r s else expire r (advance s)

end Sys2Proof.Machine
end

