-- ==== Sys2Proof/Machine/Commands.lean ====
section
/-! DEFINITION. What the meaning of a command answers, and how a request command reaches the link
controller. -/

namespace Sys2Proof.Machine

/-- What a command answers: always a next state. -/
abbrev Result := Host.Outcome State Fault Refusal

/-- A request command: its frame is received (DESIGN CHOICE: log entry 5). -/
def accept (i : Instr) (act : Act) (s : State) : Result := .next (arrive raiseLoud i act s)

end Sys2Proof.Machine
end

