-- ==== Sys2Proof/Machine/LaneCommands.lean ====
section
/-! DEFINITION. The meanings of commands, one for each row of the table: the requests of chapters 7,
8 and 9. -/

namespace Sys2Proof.Machine

/-- DRAWER_KICK, a request (R134). -/
def execDrawerKick (tag : Byte) (port : Byte) (s : State) : Result :=
  accept (.drawerKick tag port) (actKick tag port) s

/-- DRAWER_NOSALE, a request (R133). -/
def execDrawerNosale (tag : Byte) (port : Byte) (s : State) : Result :=
  accept (.drawerNosale tag port) (actNoSale tag port) s

/-- DRAWER_STATUS, a request (R143). -/
def execDrawerStatus (tag : Byte) (s : State) : Result :=
  accept (.drawerStatus tag) actDrawerStatus s

/-- DRAWER_CLEAR, a request (R142). -/
def execDrawerClear (tag : Byte) (port : Byte) (s : State) : Result :=
  accept (.drawerClear tag port) (actDrawerClear port) s

/-- JOB_OPEN, a request (R148). -/
def execJobOpen (tag : Byte) (role : Byte) (s : State) : Result :=
  accept (.jobOpen tag role) (actJobOpen tag role) s

/-- JOB_DATA, a request (R149). -/
def execJobData (tag : Byte) (job : Byte) (elements : List Byte) (s : State) : Result :=
  accept (.jobData tag job elements) (actJobData job elements) s

/-- JOB_CLOSE, a request (R150). -/
def execJobClose (tag : Byte) (job : Byte) (s : State) : Result :=
  accept (.jobClose tag job) (actJobClose job) s

/-- JOB_ABORT, a request (R159). -/
def execJobAbort (tag : Byte) (job : Byte) (s : State) : Result :=
  accept (.jobAbort tag job) (actJobAbort job) s

/-- JOB_RESUME, a request (R173). -/
def execJobResume (tag : Byte) (s : State) : Result := accept (.jobResume tag) actJobResume s

/-- JOB_STATUS, a request (R163). -/
def execJobStatus (tag : Byte) (job : Byte) (s : State) : Result :=
  accept (.jobStatus tag job) (actJobStatus job) s

/-- PRN_CLEAR, a request (R174). -/
def execPrnClear (tag : Byte) (s : State) : Result := accept (.prnClear tag) actPrnClear s

/-- PRN_FEED, a request (R175). -/
def execPrnFeed (tag : Byte) (lines : Byte) (s : State) : Result :=
  accept (.prnFeed tag lines) (actPrnFeed lines) s

end Sys2Proof.Machine
end

