-- ==== Sys2Proof/Machine/LaneEvents.lean ====
section
/-! DEFINITION. The meanings of commands, one for each row of the table: the events of the card
reader, the drawers, the print engine, the drive supply and the idle timer. -/

namespace Sys2Proof.Machine

/-- SWIPE_START: the first transition of a swipe (R111). -/
def execSwipeStart (head : Head) (s : State) : Result := .next (swipeStart raiseLoud head s)

/-- TRACK_IDLE_END: a track ends by its idle time (R112). -/
def execTrackIdleEnd (track : Track) (s : State) : Result := .next (trackIdleEnd track s)

/-- SWIPE_TIME_LIMIT: the swipe reaches 2,000 ms (R112). -/
def execSwipeTimeLimit (s : State) : Result := .next (swipeTimeLimit s)

/-- DECODE_END: decoding completes (R122). -/
def execDecodeEnd (s : State) : Result := .next (decodeEnd raiseLoud s)

/-- CARD_HOLD_EXPIRY: a hold timer runs out (R124). -/
def execCardHoldExpiry (slot : CardSlot) (s : State) : Result :=
  .next (cardHoldExpiry raiseLoud slot s)

/-- SENSE_INPUT_LEVEL_CHANGE: a sense input takes a level (R130). -/
def execSenseInputLevelChange (port : Port) (high : Bool) (s : State) : Result :=
  .next (senseLevel port high s)

/-- SENSE_DEBOUNCED_CHANGE: a sense input has held its level for 25 ms (R130). -/
def execSenseDebouncedChange (port : Port) (s : State) : Result :=
  .next (senseDebounced raiseLoud port s)

/-- GRANT_WAIT_TIMEOUT: a grant wait ends (R135). -/
def execGrantWaitTimeout (port : Port) (s : State) : Result :=
  .next (grantWaitTimeout raiseLoud port s)

/-- PULSE_ON_TIME_END: the on-time is reached (R138). -/
def execPulseOnTimeEnd (port : Port) (s : State) : Result := .next (pulseOnTimeEnd raiseLoud port s)

/-- OVERCURRENT_TRIP: an overcurrent comparator trips (R137). -/
def execOvercurrentTrip (port : Port) (s : State) : Result :=
  .next (comparatorTrip raiseLoud port s)

/-- OVERCURRENT_BREAK_END: an overcurrent break ends (R137). -/
def execOvercurrentBreakEnd (port : Port) (comparatorClear : Bool) (s : State) : Result :=
  .next (breakEnd raiseLoud port comparatorClear s)

/-- OPEN_WAIT_TIMEOUT: 500 ms pass in WAIT_OPEN (R138). -/
def execOpenWaitTimeout (port : Port) (s : State) : Result :=
  .next (openWaitTimeout raiseLoud port s)

/-- RETRY_WAIT_END: a retry wait ends (R139). -/
def execRetryWaitEnd (port : Port) (s : State) : Result := .next (retryWaitEnd raiseLoud port s)

/-- LEFT_OPEN_EXPIRY: an open drawer reaches LEFT_OPEN (R141). -/
def execLeftOpenExpiry (port : Port) (s : State) : Result := .next (leftOpenExpiry raiseLoud port s)

/-- PRINT_SENSOR_CHANGE: a sensor of the receipt mechanism changes (R165). -/
def execPrintSensorChange (sensor : PrintSensor) (active : Bool) (s : State) : Result :=
  .next (sensorChange raiseLoud sensor active s)

/-- HEAD_TEMP_READING: a head thermistor reading (R166). -/
def execHeadTempReading (celsius : Int) (s : State) : Result :=
  .next (headReading raiseLoud celsius s)

/-- LINE_BOUNDARY: the period of the dot line ends, with the supply read then (R167). -/
def execLineBoundary (millivolts : BitVec 16) (s : State) : Result :=
  .next (lineEnd raiseLoud millivolts.toNat s)

/-- CUTTER_HOME_MADE: the cutter home switch makes (R172). -/
def execCutterHomeMade (s : State) : Result := .next (homeMade raiseLoud s)

/-- CUT_JAM_TIMEOUT: 500 ms pass without the home switch (R172). -/
def execCutJamTimeout (s : State) : Result := .next (jamTimeout raiseLoud s)

/-- STALL_LIMIT_EXPIRY: the stall time reaches STALL_LIMIT (R158). -/
def execStallLimitExpiry (s : State) : Result := .next (stallExpired raiseLoud s)

/-- SUPPLY_LOW_START: a supply sample below 19,000 mV (R180). -/
def execSupplyLowStart (millivolts : BitVec 16) (s : State) : Result :=
  .next (supplyLowStart raiseLoud millivolts.toNat s)

/-- SUPPLY_LOW_END: a supply sample of 20,000 mV or more (R180). -/
def execSupplyLowEnd (millivolts : BitVec 16) (s : State) : Result :=
  .next (supplyLowEnd raiseLoud millivolts.toNat s)

/-- IDLE_TIMER_EXPIRY: the idle timer reaches IDLE_STANDBY (R184). -/
def execIdleTimerExpiry (s : State) : Result := .next (idleTimerExpiry raiseLoud s)

/-- TRACK_TRANSITION: a flux transition, its interval in µs (R111). -/
def execTrackTransition (head : Head) (interval : BitVec 32) (s : State) : Result :=
  .next (trackTransition head interval.toNat s)

/-- CUTTER_HOME_SWITCH_OPENS: the cutter home switch opens (R172). -/
def execCutterHomeSwitchOpens (s : State) : Result := .next ({ s with pen.home := false })

end Sys2Proof.Machine
end

