-- ==== Sys2Proof/Machine/LinkCommands.lean ====
section
/-! DEFINITION. The meanings of commands, one for each row of the table: the requests of chapters 1,
10 and 11, the receiver, execution, transmission and the settings store. -/

namespace Sys2Proof.Machine

/-- HARD_RESET: the effects of a hard reset (R19). -/
def execHardReset (s : State) : Result := .next (resetNow .hard s)

/-- RX_CHARACTER: a character arrives; a missing stop bit changes nothing (R4). -/
def execRxCharacter (c : Byte) (_stopBit : Bool) (s : State) : Result :=
  .next (rxCharacter raiseLoud c s)

/-- RX_STALL_TIMEOUT: 50 ms without a character inside a body (R5). -/
def execRxStallTimeout (s : State) : Result := .next (rxStall raiseLoud s)

/-- REQUEST_EXECUTE: the request at the head of the queue is executed (R9). -/
def execRequestExecute (s : State) : Result := .next (requestExecute raiseLoud s)

/-- FRAME_SENT: the closing FLAG of the frame on the line has been sent (R13). -/
def execFrameSent (s : State) : Result := .next (frameSent s)

/-- IDENT, a request (R198). -/
def execIdent (tag : Byte) (s : State) : Result := accept (.ident tag) actIdent s

/-- LANE_RESET, a request (R18). -/
def execLaneReset (tag : Byte) (s : State) : Result := accept (.laneReset tag) actLaneReset s

/-- COND_FETCH, a request (R192). -/
def execCondFetch (tag : Byte) (mask : BitVec 16) (s : State) : Result :=
  accept (.condFetch tag mask) (actCondFetch mask) s

/-- NOTE_FETCH, a request (R189). -/
def execNoteFetch (tag : Byte) (s : State) : Result := accept (.noteFetch tag) actNoteFetch s

/-- PWR_STANDBY, a request (R182). -/
def execPwrStandby (tag : Byte) (s : State) : Result := accept (.pwrStandby tag) (actStandby tag) s

/-- PWR_DORMANT, a request (R182). -/
def execPwrDormant (tag : Byte) (s : State) : Result := accept (.pwrDormant tag) (actDormant tag) s

/-- PWR_WAKE, a request (R185). -/
def execPwrWake (tag : Byte) (s : State) : Result := accept (.pwrWake tag) actWake s

/-- SET_GET, a request (R193). -/
def execSetGet (tag : Byte) (number : Byte) (s : State) : Result :=
  accept (.setGet tag number) (actSetGet number) s

/-- SET_PUT, a request (R193). -/
def execSetPut (tag : Byte) (number : Byte) (value : BitVec 32) (s : State) : Result :=
  accept (.setPut tag number value) (actSetPut number value) s

/-- SET_SAVE, a request (R194). -/
def execSetSave (tag : Byte) (s : State) : Result := accept (.setSave tag) actSetSave s

/-- SETTINGS_BLOCK_WRITTEN: the settings block is written (R194). -/
def execSettingsBlockWritten (s : State) : Result := .next (settingsWritten s)

/-- MARKER_WRITE_DONE: a marker write completes (R87). -/
def execMarkerWriteDone (s : State) : Result := .next (markerWritten s)

/-- CALIBRATION_WRITE_DONE: the pair of writes of a calibration completes (R195). -/
def execCalibrationWriteDone (s : State) : Result := .next (calibrationWritten raiseLoud s)

/-- EVT_ROUTE, a request (R187). -/
def execEvtRoute (tag : Byte) (code : Byte) (priority : Byte) (s : State) : Result :=
  accept (.evtRoute tag code priority) (actRoute code priority) s

/-- EVT_BIND, a request (R190). -/
def execEvtBind (tag : Byte) (slot : Byte) (mode : Byte) (trigger : Byte) (action : Byte)
    (argument : BitVec 32) (s : State) : Result :=
  accept (.evtBind tag slot mode trigger action argument)
    (actBind slot mode trigger action argument) s

end Sys2Proof.Machine
end

