-- ==== Sys2Proof/Machine/SaleCommands.lean ====
section
/-! DEFINITION. The meanings of commands, one for each row of the table: the requests of chapters 5
and 6. -/

namespace Sys2Proof.Machine

/-- TXN_BEGIN, a request (R86). -/
def execTxnBegin (tag : Byte) (id : BitVec 32) (date : BitVec 32) (time : BitVec 16)
    (s : State) : Result :=
  accept (.txnBegin tag id date time) (actBegin id date time) s

/-- TXN_ITEM, a request (R90). -/
def execTxnItem (tag : Byte) (code : BitVec 32) (quantity : BitVec 16) (price : BitVec 32)
    (weight : BitVec 16) (tolerance : BitVec 16) (description : List Byte) (s : State) : Result :=
  accept (.txnItem tag code quantity price weight tolerance description)
    (actItem code quantity price weight tolerance description) s

/-- TXN_WEIGH, a request (R91). -/
def execTxnWeigh (tag : Byte) (code : BitVec 32) (price : BitVec 32) (description : List Byte)
    (s : State) : Result :=
  accept (.txnWeigh tag code price description) (actWeigh tag code price description) s

/-- TXN_VOID_ITEM, a request (R93). -/
def execTxnVoidItem (tag : Byte) (slot : Byte) (s : State) : Result :=
  accept (.txnVoidItem tag slot) (actVoidItem slot) s

/-- TXN_TOTAL, a request (R95). -/
def execTxnTotal (tag : Byte) (override : Byte) (s : State) : Result :=
  accept (.txnTotal tag override) (actTotal override) s

/-- TXN_REOPEN, a request (R96). -/
def execTxnReopen (tag : Byte) (s : State) : Result := accept (.txnReopen tag) actReopen s

/-- TXN_TENDER, a request (R98). -/
def execTxnTender (tag : Byte) (kind : Byte) (amount : BitVec 32) (slot : Byte)
    (s : State) : Result :=
  accept (.txnTender tag kind amount slot) (actTender kind amount slot) s

/-- TXN_VOID, a request (R105). -/
def execTxnVoid (tag : Byte) (s : State) : Result := accept (.txnVoid tag) (actVoid tag) s

/-- TXN_CLOSE, a request (R104). -/
def execTxnClose (tag : Byte) (s : State) : Result := accept (.txnClose tag) (actClose tag) s

/-- TXN_STATUS, a request (R107). -/
def execTxnStatus (tag : Byte) (s : State) : Result := accept (.txnStatus tag) actTxnStatus s

/-- TXN_ITEM_GET, a request (R94). -/
def execTxnItemGet (tag : Byte) (slot : Byte) (s : State) : Result :=
  accept (.txnItemGet tag slot) (actItemGet slot) s

/-- CARD_ARM, a request (R109). -/
def execCardArm (tag : Byte) (value : Byte) (s : State) : Result :=
  accept (.cardArm tag value) (actArm value) s

/-- CARD_SUMMARY, a request (R125). -/
def execCardSummary (tag : Byte) (slot : Byte) (s : State) : Result :=
  accept (.cardSummary tag slot) (actSummary slot) s

/-- CARD_RELEASE, a request (R126). -/
def execCardRelease (tag : Byte) (slot : Byte) (s : State) : Result :=
  accept (.cardRelease tag slot) (actRelease slot) s

/-- CARD_DISCARD, a request (R127). -/
def execCardDiscard (tag : Byte) (slot : Byte) (s : State) : Result :=
  accept (.cardDiscard tag slot) (actDiscard slot) s

end Sys2Proof.Machine
end

