-- ==== Sys2Proof/Machine/ScaleCommands.lean ====
section
/-! DEFINITION. The meanings of commands, one for each row of the table: the requests of chapters 2,
3 and 4. -/

namespace Sys2Proof.Machine

/-- SCALE_READ, a request (R63). -/
def execScaleRead (tag : Byte) (channel : Byte) (s : State) : Result :=
  accept (.scaleRead tag channel) (actRead channel) s

/-- SCALE_ZERO, a request (R40). -/
def execScaleZero (tag : Byte) (channel : Byte) (s : State) : Result :=
  accept (.scaleZero tag channel) (actZero tag channel) s

/-- SCALE_TARE, a request (R48). -/
def execScaleTare (tag : Byte) (s : State) : Result := accept (.scaleTare tag) (actTare tag) s

/-- SCALE_TARE_PRESET, a request (R50). -/
def execScaleTarePreset (tag : Byte) (grams : BitVec 16) (s : State) : Result :=
  accept (.scaleTarePreset tag grams) (actTarePreset grams) s

/-- SCALE_TARE_CLEAR, a request (R51). -/
def execScaleTareClear (tag : Byte) (s : State) : Result :=
  accept (.scaleTareClear tag) actTareClear s

/-- SCALE_CANCEL, a request (R57). -/
def execScaleCancel (tag : Byte) (s : State) : Result := accept (.scaleCancel tag) actCancel s

/-- SCALE_STREAM, a request (R64). -/
def execScaleStream (tag : Byte) (channel : Byte) (period : BitVec 16) (s : State) : Result :=
  accept (.scaleStream tag channel period) (actStream channel period) s

/-- CAL_ZERO, a request (R42). -/
def execCalZero (tag : Byte) (channel : Byte) (s : State) : Result :=
  accept (.calZero tag channel) (actCalZero tag channel) s

/-- CAL_SPAN, a request (R42). -/
def execCalSpan (tag : Byte) (channel : Byte) (grams : BitVec 16) (s : State) : Result :=
  accept (.calSpan tag channel grams) (actCalSpan tag channel grams) s

/-- BAG_SKIP, a request (R82). -/
def execBagSkip (tag : Byte) (slot : Byte) (s : State) : Result :=
  accept (.bagSkip tag slot) (actSkip slot) s

/-- BAG_CLEAR_HOLD, a request (R81). -/
def execBagClearHold (tag : Byte) (s : State) : Result := accept (.bagClearHold tag) actClearHold s

/-- BAG_STATUS, a request (R83). -/
def execBagStatus (tag : Byte) (s : State) : Result := accept (.bagStatus tag) actBagStatus s

end Sys2Proof.Machine
end

