-- ==== Sys2Proof/Machine/ScaleEvents.lean ====
section
/-! DEFINITION. The meanings of commands, one for each row of the table: the events of the weighing
engine and the bagging monitor. -/

namespace Sys2Proof.Machine

/-- READING: one block of 8 raw samples (R22). -/
def execReading (ch : Channel) (block : Samples) (s : State) : Result :=
  .next (readBlock raiseLoud ch block s)

/-- CONVERTER_WARMUP_END: the converter warm-up ends (R21). -/
def execConverterWarmupEnd (s : State) : Result := .next (warmupEnd raiseLoud s)

/-- INITIAL_ZERO_TIMEOUT: 5 s pass without a stable event (R38). -/
def execInitialZeroTimeout (ch : Channel) (s : State) : Result :=
  .next (initialZeroEnd raiseLoud ch s)

/-- ZERO_TIMEOUT: a SCALE_ZERO times out (R40). -/
def execZeroTimeout (ch : Channel) (s : State) : Result :=
  .next (timeoutOf raiseLoud ch OpKind.isZero s)

/-- TARE_TIMEOUT: a SCALE_TARE times out (R48). -/
def execTareTimeout (s : State) : Result := .next (timeoutOf raiseLoud .p OpKind.isTare s)

/-- CAPTURE_TIMEOUT_EXPIRY: a capture times out (R56). -/
def execCaptureTimeoutExpiry (s : State) : Result :=
  .next (timeoutOf raiseLoud .p OpKind.isCapture s)

/-- CAL_TIMEOUT: a calibration request times out (R42). -/
def execCalTimeout (ch : Channel) (s : State) : Result :=
  .next (timeoutOf raiseLoud ch OpKind.isCal s)

/-- CAL_EN_CHANGE: CAL_EN takes a level (R42). -/
def execCalEnChange (active : Bool) (s : State) : Result := .next (calEnChange raiseLoud active s)

/-- DISTURBANCE_GUARD_END: the last guard runs out (R36). -/
def execDisturbanceGuardEnd (s : State) : Result := .next (guardEnd raiseLoud s)

/-- STREAM_PERIOD_END: a streaming period ends (R65). -/
def execStreamPeriodEnd (s : State) : Result := .next (streamPeriodEnd s)

/-- BAG_ENTRY_OVERDUE: an expectation reaches BAG_TIMEOUT (R77). -/
def execBagEntryOverdue (slot : Byte) (s : State) : Result :=
  .next (entryOverdue raiseLoud slot.toNat s)

end Sys2Proof.Machine
end

