-- ==== Sys2Proof/Machine/Dispatch.lean ====
section
/-! DEFINITION. The meaning of every command: one arm per row of the table of operations and events. -/

namespace Sys2Proof.Machine

/-- The effect of a command on everything but the queue of commands. -/
def exec (i : Instr) (s : State) : Host.Outcome State Fault Refusal :=
  match i with
  | .hardReset => Sys2Proof.Machine.execHardReset s
  | .rxCharacter c stopBit => Sys2Proof.Machine.execRxCharacter c stopBit s
  | .rxStallTimeout => Sys2Proof.Machine.execRxStallTimeout s
  | .requestExecute => Sys2Proof.Machine.execRequestExecute s
  | .frameSent => Sys2Proof.Machine.execFrameSent s
  | .ident tag => Sys2Proof.Machine.execIdent tag s
  | .laneReset tag => Sys2Proof.Machine.execLaneReset tag s
  | .condFetch tag mask => Sys2Proof.Machine.execCondFetch tag mask s
  | .noteFetch tag => Sys2Proof.Machine.execNoteFetch tag s
  | .pwrStandby tag => Sys2Proof.Machine.execPwrStandby tag s
  | .pwrDormant tag => Sys2Proof.Machine.execPwrDormant tag s
  | .pwrWake tag => Sys2Proof.Machine.execPwrWake tag s
  | .setGet tag number => Sys2Proof.Machine.execSetGet tag number s
  | .setPut tag number value => Sys2Proof.Machine.execSetPut tag number value s
  | .setSave tag => Sys2Proof.Machine.execSetSave tag s
  | .settingsBlockWritten => Sys2Proof.Machine.execSettingsBlockWritten s
  | .markerWriteDone => Sys2Proof.Machine.execMarkerWriteDone s
  | .calibrationWriteDone => Sys2Proof.Machine.execCalibrationWriteDone s
  | .evtRoute tag code priority => Sys2Proof.Machine.execEvtRoute tag code priority s
  | .evtBind tag slot mode trigger action argument => Sys2Proof.Machine.execEvtBind tag slot mode trigger action argument s
  | .scaleRead tag channel => Sys2Proof.Machine.execScaleRead tag channel s
  | .scaleZero tag channel => Sys2Proof.Machine.execScaleZero tag channel s
  | .scaleTare tag => Sys2Proof.Machine.execScaleTare tag s
  | .scaleTarePreset tag grams => Sys2Proof.Machine.execScaleTarePreset tag grams s
  | .scaleTareClear tag => Sys2Proof.Machine.execScaleTareClear tag s
  | .scaleCancel tag => Sys2Proof.Machine.execScaleCancel tag s
  | .scaleStream tag channel period => Sys2Proof.Machine.execScaleStream tag channel period s
  | .calZero tag channel => Sys2Proof.Machine.execCalZero tag channel s
  | .calSpan tag channel grams => Sys2Proof.Machine.execCalSpan tag channel grams s
  | .bagSkip tag slot => Sys2Proof.Machine.execBagSkip tag slot s
  | .bagClearHold tag => Sys2Proof.Machine.execBagClearHold tag s
  | .bagStatus tag => Sys2Proof.Machine.execBagStatus tag s
  | .txnBegin tag id date time => Sys2Proof.Machine.execTxnBegin tag id date time s
  | .txnItem tag code quantity price weight tolerance description => Sys2Proof.Machine.execTxnItem tag code quantity price weight tolerance description s
  | .txnWeigh tag code price description => Sys2Proof.Machine.execTxnWeigh tag code price description s
  | .txnVoidItem tag slot => Sys2Proof.Machine.execTxnVoidItem tag slot s
  | .txnTotal tag override => Sys2Proof.Machine.execTxnTotal tag override s
  | .txnReopen tag => Sys2Proof.Machine.execTxnReopen tag s
  | .txnTender tag kind amount slot => Sys2Proof.Machine.execTxnTender tag kind amount slot s
  | .txnVoid tag => Sys2Proof.Machine.execTxnVoid tag s
  | .txnClose tag => Sys2Proof.Machine.execTxnClose tag s
  | .txnStatus tag => Sys2Proof.Machine.execTxnStatus tag s
  | .txnItemGet tag slot => Sys2Proof.Machine.execTxnItemGet tag slot s
  | .cardArm tag value => Sys2Proof.Machine.execCardArm tag value s
  | .cardSummary tag slot => Sys2Proof.Machine.execCardSummary tag slot s
  | .cardRelease tag slot => Sys2Proof.Machine.execCardRelease tag slot s
  | .cardDiscard tag slot => Sys2Proof.Machine.execCardDiscard tag slot s
  | .drawerKick tag port => Sys2Proof.Machine.execDrawerKick tag port s
  | .drawerNosale tag port => Sys2Proof.Machine.execDrawerNosale tag port s
  | .drawerStatus tag => Sys2Proof.Machine.execDrawerStatus tag s
  | .drawerClear tag port => Sys2Proof.Machine.execDrawerClear tag port s
  | .jobOpen tag role => Sys2Proof.Machine.execJobOpen tag role s
  | .jobData tag job elements => Sys2Proof.Machine.execJobData tag job elements s
  | .jobClose tag job => Sys2Proof.Machine.execJobClose tag job s
  | .jobAbort tag job => Sys2Proof.Machine.execJobAbort tag job s
  | .jobResume tag => Sys2Proof.Machine.execJobResume tag s
  | .jobStatus tag job => Sys2Proof.Machine.execJobStatus tag job s
  | .prnClear tag => Sys2Proof.Machine.execPrnClear tag s
  | .prnFeed tag lines => Sys2Proof.Machine.execPrnFeed tag lines s
  | .reading ch block => Sys2Proof.Machine.execReading ch block s
  | .converterWarmupEnd => Sys2Proof.Machine.execConverterWarmupEnd s
  | .initialZeroTimeout ch => Sys2Proof.Machine.execInitialZeroTimeout ch s
  | .zeroTimeout ch => Sys2Proof.Machine.execZeroTimeout ch s
  | .tareTimeout => Sys2Proof.Machine.execTareTimeout s
  | .captureTimeoutExpiry => Sys2Proof.Machine.execCaptureTimeoutExpiry s
  | .calTimeout ch => Sys2Proof.Machine.execCalTimeout ch s
  | .calEnChange active => Sys2Proof.Machine.execCalEnChange active s
  | .disturbanceGuardEnd => Sys2Proof.Machine.execDisturbanceGuardEnd s
  | .streamPeriodEnd => Sys2Proof.Machine.execStreamPeriodEnd s
  | .bagEntryOverdue slot => Sys2Proof.Machine.execBagEntryOverdue slot s
  | .swipeStart head => Sys2Proof.Machine.execSwipeStart head s
  | .trackIdleEnd track => Sys2Proof.Machine.execTrackIdleEnd track s
  | .swipeTimeLimit => Sys2Proof.Machine.execSwipeTimeLimit s
  | .decodeEnd => Sys2Proof.Machine.execDecodeEnd s
  | .cardHoldExpiry slot => Sys2Proof.Machine.execCardHoldExpiry slot s
  | .senseInputLevelChange port high => Sys2Proof.Machine.execSenseInputLevelChange port high s
  | .senseDebouncedChange port => Sys2Proof.Machine.execSenseDebouncedChange port s
  | .grantWaitTimeout port => Sys2Proof.Machine.execGrantWaitTimeout port s
  | .pulseOnTimeEnd port => Sys2Proof.Machine.execPulseOnTimeEnd port s
  | .overcurrentTrip port => Sys2Proof.Machine.execOvercurrentTrip port s
  | .overcurrentBreakEnd port comparatorClear => Sys2Proof.Machine.execOvercurrentBreakEnd port comparatorClear s
  | .openWaitTimeout port => Sys2Proof.Machine.execOpenWaitTimeout port s
  | .retryWaitEnd port => Sys2Proof.Machine.execRetryWaitEnd port s
  | .leftOpenExpiry port => Sys2Proof.Machine.execLeftOpenExpiry port s
  | .printSensorChange sensor active => Sys2Proof.Machine.execPrintSensorChange sensor active s
  | .headTempReading celsius => Sys2Proof.Machine.execHeadTempReading celsius s
  | .lineBoundary millivolts => Sys2Proof.Machine.execLineBoundary millivolts s
  | .cutterHomeMade => Sys2Proof.Machine.execCutterHomeMade s
  | .cutJamTimeout => Sys2Proof.Machine.execCutJamTimeout s
  | .stallLimitExpiry => Sys2Proof.Machine.execStallLimitExpiry s
  | .supplyLowStart millivolts => Sys2Proof.Machine.execSupplyLowStart millivolts s
  | .supplyLowEnd millivolts => Sys2Proof.Machine.execSupplyLowEnd millivolts s
  | .idleTimerExpiry => Sys2Proof.Machine.execIdleTimerExpiry s
  | .trackTransition head interval => Sys2Proof.Machine.execTrackTransition head interval s
  | .cutterHomeSwitchOpens => Sys2Proof.Machine.execCutterHomeSwitchOpens s

end Sys2Proof.Machine
end

