-- ==== Sys2Proof/Safety.lean ====
section
/-! DEFINITION. The terms that claims about the block use: when the link takes a request at once, what a
state looks like once a request is answered, a frame as the lane processor sends it, and the invariants of a
safe run. -/

namespace Sys2Proof.Machine

/-! ### When a request is executed at once -/

/-- The link takes a request and executes it at once: the receiver is open, nothing is in execution or
waiting, and a reply place is free (R6, R8, R9). -/
abbrev State.linkFree (s : State) : Prop :=
  s.link.rx.mode ≠ .closed ∧ s.link.inExec = none ∧ s.link.queue = [] ∧ s.link.placesInUse < 8 ∧
    s.link.softReset = false

/-- The link is free and the lane is ACTIVE with no entry pending (R181, R183, R185). -/
abbrev State.ready (s : State) : Prop :=
  s.linkFree ∧ s.lpm.mode = .active ∧ s.lpm.entry = none

/-- No binding is set, so a raised notice executes no action (R190). -/
abbrev State.unbound (s : State) : Prop :=
  s.rpt.bind1 = none ∧ s.rpt.bind2 = none ∧ s.rpt.bind3 = none ∧ s.rpt.bind4 = none

/-- The state once a request that passed the checks of R10 is answered: its reply stands at the tail of the
reply list, or goes out on a free transmitter, and the idle timer is 0 (R9, R14, R184). -/
def State.answered (s : State) (tag code : Byte) (st : Status) (data : List Byte) : State :=
  placeReply { tag := tag, code := code, status := st, data := data, baud := none }
    { s with lpm.idle := 0 }

/-- A request is refused: the command's one effect is the reply of that status, with no data (R11). -/
abbrev Refuses (i : Instr) (tag code : Byte) (st : Status) (s : State) : Prop :=
  exec i s = .next (s.answered tag code st [])

/-- The settings whose change touches nothing but the working copy when it is made (R193). -/
def plainSettings : List Nat := [1, 2, 9, 10, 11, 12, 13, 14, 16, 17, 23, 24, 28, 29, 31, 32]

/-- The print engine meets no pause cause and its next line, with dots or without, gets its allocation at
once: no request waits, no line is in progress, and the motor with one strobe block fits (R167, R168, R179); its
steps disturb nothing (R171). -/
abbrev State.canPrint (s : State) : Prop :=
  s.pen.paperOut = false ∧ s.pen.coverOpen = false ∧ s.pen.paperHold = false ∧
    s.pen.coverHold = false ∧ s.pen.hot = false ∧ s.dsa.low = false ∧ s.dsa.queue = [] ∧
    s.pen.line = none ∧ s.dsa.committed + 600 + 48 * s.set.dotCurrent ≤ s.set.capacity ∧
    s.set.printMotionDisturbs = 0

/-- The load of a dot line granted now: the motor and the head's share (R177, R179). -/
def State.lineLoad (s : State) : Requester × Nat := (.line, 600 + s.dotLimit * s.set.dotCurrent)

/-! ### What a block of samples comes to (R24, R26 to R31, R33) -/

/-- The smoothing window once the block has joined it (R24). -/
def State.nextWin (s : State) (ch : Channel) (block : Samples) : List Int :=
  lastN (s.set.filterDepth ch) ((s.chan ch).win ++ [decimate (sampleValues block)])

/-- The smoothed count F of the reading (R24). -/
def State.nextF (s : State) (ch : Channel) (block : Samples) : Int := smoothed (s.nextWin ch block)

/-- The calibrated weight W of the reading (R26). -/
def State.nextW (s : State) (ch : Channel) (block : Samples) : Int :=
  calibrated (s.nextF ch block) (s.chan ch).c0 (s.chan ch).k

/-- The gross weight of the reading against the zero offset before it (R27). -/
def State.nextG (s : State) (ch : Channel) (block : Samples) : Int :=
  s.nextW ch block - (s.chan ch).zw

/-- The net weight of the reading (R27). -/
def State.nextNet (s : State) (ch : Channel) (block : Samples) : Int :=
  match ch with
  | .p => s.nextG .p block - (s.wgt.tare : Int)
  | .b => s.nextG .b block

/-- The range flag of the reading (R29). -/
def State.nextRange (s : State) (ch : Channel) (block : Samples) : RangeFlag :=
  if (s.chan ch).forced ≤ 1 then rangeOf ch (s.nextG ch block) else (s.chan ch).range

/-- The D of the reading, or none (R28, R31). -/
def State.nextD (s : State) (ch : Channel) (block : Samples) : Option Int :=
  if (s.chan ch).calValid && (s.chan ch).zeroValid && decide (s.nextRange ch block = .inside) then
    some (ch.toD (s.nextNet ch block))
  else none

/-- The stability window once the reading has joined it (R33). -/
def State.nextStab (s : State) (ch : Channel) (block : Samples) : List Int :=
  lastN (s.set.stabilityWindow ch) ((s.chan ch).stab ++ [s.nextW ch block])

/-- A block whose reading has a value: the converter runs and no sample is an extreme code (R21, R23). -/
abbrev State.readable (s : State) (block : Samples) : Prop :=
  s.wgt.conv = .running ∧ overrange (sampleValues block) = none

/-- A block at whose reading the channel is STABLE: the four conditions of R33. -/
abbrev State.steady (s : State) (ch : Channel) (block : Samples) : Prop :=
  s.readable block ∧ s.set.filterDepth ch ≤ (s.nextWin ch block).length ∧
    s.wgt.disturbed = false ∧ (s.nextStab ch block).length = s.set.stabilityWindow ch ∧
    spread (s.nextStab ch block) ≤ 1000 * ch.division (s.nextNet ch block)

/-- No initial zero attempt runs on a channel (R38). -/
abbrev State.attemptOver (s : State) (ch : Channel) : Prop := ∀ age, (s.chan ch).init ≠ .running age

/-! ### The frame of a request (R2, R3) -/

/-- The unescaped body of a request frame before its CRC (Table 1-1). -/
def requestHead (tag code : Byte) (payload : List Byte) : List Byte := 0x01#8 :: tag :: code :: payload

/-- The characters of a request frame: FLAG, escaped body with its CRC, FLAG (R2, R3). -/
def requestLine (tag code : Byte) (payload : List Byte) : List Byte :=
  flagByte :: (requestHead tag code payload ++
    be16 (crc16 (requestHead tag code payload)).toNat).flatMap escapeByte ++ [flagByte]

/-- Characters arriving one after another. -/
def receive : List Byte → State → Result
  | [], s => .next s
  | c :: rest, s =>
    match exec (.rxCharacter c true) s with
    | .next s' => receive rest s'
    | o => o

/-! ### Replies and notices -/

/-- The state once a SET_PUT is answered with the value taken (R193). -/
def State.setAnswered (s : State) (tag number : Byte) (written taken : Nat) : State :=
  s.answered tag 0x11#8 (if taken = written then .ok else .okClamped) (number :: be32 taken)

/-- The notice by which an operation in flight ends CANCELLED (R57). -/
def State.cancelNotice (s : State) (ch : Channel) (o : Op) : Notice :=
  match o.kind with
  | .zero => .zeroFailed o.tag ch .cancelled 0
  | .tare => .tareFailed o.tag .cancelled none
  | .capture _ _ _ => .weighFailed o.tag { cancelled := true }
  | .calZero => .calDone o.tag ch false .cancelled (s.chan ch).c0 (s.chan ch).k s.sst.count
  | .calSpan _ => .calDone o.tag ch true .cancelled (s.chan ch).c0 (s.chan ch).k s.sst.count

/-! ### Safe states -/

/-- The bounds that every step keeps: at most 4 requests wait (R8), at most 8 reply places are in use (R13),
at most 16 notices stand in the queue (R188). -/
abbrev State.bounded (s : State) : Prop :=
  s.link.queue.length ≤ 4 ∧ s.link.placesInUse ≤ 8 ∧ s.rpt.queue.length ≤ 16

/-- The committed currents never exceed the capacity in force, which is never below the setting (R177). -/
abbrev State.supplied (s : State) : Prop :=
  s.dsa.committed ≤ s.dsa.cap ∧ s.set.capacity ≤ s.dsa.cap

/-- The notice queue stands in order: priority first, then age (R188). -/
abbrev Report.ordered (t : Report) : Prop :=
  t.queue.Pairwise fun a b => t.before a b = true

/-- Every queued notice is older than the next one to be admitted, and each has an age of its own. -/
abbrev Report.aged (t : Report) : Prop :=
  (∀ q ∈ t.queue, q.seq < t.nextSeq) ∧ t.queue.Pairwise fun a b => a.seq ≠ b.seq

/-- The slots of the sale's items are numbered consecutively from 1 (R88). -/
abbrev Txn.numbered (x : Txn) : Prop := x.items.map Item.slot = List.range' 1 x.items.length

/-- The item list holds at most 64 items numbered consecutively from 1, with a total of at most 99,999,999
(R88). -/
abbrev State.saleBounded (s : State) : Prop :=
  s.txn.items.length ≤ 64 ∧ s.txn.numbered ∧ total s.txn.items ≤ 99999999

/-- A capture waits only in OPEN (R91, R95). -/
abbrev State.captureOpen (s : State) : Prop :=
  ∀ o, s.wgt.chanP.op = some o → o.kind.isCapture = true → s.txn.state = .opened

/-- The expectation list holds at most 8 entries, each naming a distinct item of the sale that is PENDING or
OVERDUE, and is empty in IDLE and in SETTLED (R71). -/
abbrev State.expecting (s : State) : Prop :=
  s.bag.entries.length ≤ 8 ∧ (s.bag.entries.map Entry.slot).Nodup ∧ s.txn.numbered ∧ s.captureOpen ∧
    (∀ e ∈ s.bag.entries, ∃ it ∈ s.txn.items, it.slot = e.slot ∧ (it.bag = .pending ∨ it.bag = .overdue)) ∧
    (s.txn.state = .idle ∨ s.txn.state = .settled → s.bag.entries = [])

/-- A record is BOUND only while the sale is in TENDER or SETTLED, by a tender that names its slot; so none is
BOUND in IDLE (R123, R128). -/
abbrev State.cardsBound (s : State) : Prop :=
  ∀ c r, s.card c = some r → r.bound = true →
    (s.txn.state = .tender ∨ s.txn.state = .settled) ∧ ∃ x ∈ s.txn.tenders, x.card = some c

/-- At most one permit exists: an entitlement only in SETTLED, a no-sale permit only in IDLE (R132, R133,
R136). -/
abbrev State.onePermit (s : State) : Prop :=
  (s.txn.entitlement ≠ none → s.txn.state = .settled) ∧ (s.drw.noSale ≠ none → s.txn.state = .idle)

/-- A port's solenoid is on only in KICKING, and a port in KICKING holds its grant and has been energised for
at most its on-time; a port waits in the queue at most once, and only in GRANT_WAIT; an absent port is
UNKNOWN (R129, R135, R136, R177). -/
abbrev State.portSafe (s : State) (p : Port) : Prop :=
  ((s.port p).on = true → (s.port p).mode = .kicking) ∧
    ((s.port p).mode = .kicking →
      (.port p, 1500) ∈ s.dsa.loads ∧ (s.port p).onMs ≤ (s.port p).onTime) ∧
    (.port p ∈ s.dsa.queue → (s.port p).mode = .grantWait) ∧ s.dsa.queue.count (.port p) ≤ 1 ∧
    (s.port p).present = (s.set.present p || (s.port p).leaving) ∧
    ((s.port p).leaving = true → s.set.present p = false) ∧
    ((s.port p).present = false → (s.port p).mode = .unknown)

/-- The PRESENT settings of both ports hold values of Table 11-3 (R129, R193). -/
abbrev Settings.presenceLegal (t : Settings) : Prop := t.presentD1 ≤ 1 ∧ t.presentD2 ≤ 1

/-- At most one permit, and both ports safe (R136), with legal PRESENT settings in the working copy and in the
settings block, from which a reset loads them (R193, R196). -/
abbrev State.drawersSafe (s : State) : Prop :=
  s.onePermit ∧ (∀ p, s.portSafe p) ∧ s.set.presenceLegal ∧ s.sst.block.presenceLegal

end Sys2Proof.Machine
end

