-- ==== Sys2Proof/Certificates/Slice0/Obligations.lean ====
section
/-! DEFINITION. The statements about the block, chapter by chapter. -/

open Sys2Proof Sys2Proof.Machine

/-! ### The queue of commands, and the lane link (chapter 1) -/

/-- A step takes the command at the front of the queue `pending` and answers what `exec` answers for it with the
queue's rest. That the block holds a queue of commands is the model's choice: log entry 4. -/
def Obligations.StepRunsFrontCommand : Prop :=
  ∀ (c : Instr) (rest : List Instr) (s : State),
    step { s with pending := c :: rest } = exec c { s with pending := rest }

/-- What a step does on an empty queue of commands, which is the model's choice: log entry 1. A request that waits,
with none in execution, is executed and no time passes. Otherwise one millisecond passes, stated for a lane
without bindings whose ports, reader, jobs, cutter and streaming are at rest: the operations, the guard, the open
times and the idle timer advance by 1 ms, and where none runs out nothing else happens. A guard, an operation of
channel P or the idle timer that runs out in that millisecond acts as its own command does; the warm-up, the
initial zero attempts, streaming, the stall time and the waits of the ports are left out. That an operation runs out
at the limit fixed when it was accepted is log entry 32; that ages are counts from 0 without a width is log entries
14 and 38; which events a millisecond never brings is log entry 16. -/
def Obligations.MillisecondPasses : Prop :=
  ∀ s : State, s.pending = [] →
    (s.link.inExec = none → s.link.queue ≠ [] → step s = exec .requestExecute s) ∧
    ((s.link.inExec ≠ none ∨ s.link.queue = []) → s.unbound → s.link.rx.mode.inBody = false →
      s.wgt.conv = .running → s.wgt.stream = none → s.bag.entries = [] →
      s.crd.state ≠ .reading → s.crd.one = none → s.crd.two = none →
      (∀ p, (s.port p).deb = none ∧ ((s.port p).mode = .unknown ∨ (s.port p).mode = .fault ∨
        (s.port p).mode = .openOverdue ∨ ((s.port p).mode = .closed ∧ (s.port p).retry = false))) →
      s.job.table = [] → s.pen.cut = none →
      ∀ a : State, a = { s with
        wgt.chanP.op := s.wgt.chanP.op.map fun o => { o with age := o.age + 1 }
        wgt.chanB.op := s.wgt.chanB.op.map fun o => { o with age := o.age + 1 }
        wgt.guard := s.wgt.guard.map fun g => g - 1
        drw.d1.openMs := if s.drw.d1.mode = .openOverdue then s.drw.d1.openMs + 1 else s.drw.d1.openMs
        drw.d2.openMs := if s.drw.d2.mode = .openOverdue then s.drw.d2.openMs + 1 else s.drw.d2.openMs
        lpm.idle := if s.txn.state ≠ .idle then 0
          else if s.lpm.mode = .active ∧ s.sst.started = true then s.lpm.idle + 1 else s.lpm.idle } →
      ((∀ ch, s.attemptOver ch) →
        (∀ ch o, (s.chan ch).op = some o → o.age + 1 < o.limit) →
        ((∀ g, s.wgt.guard = some g → 1 < g) →
          ((a.idleRuns = true → a.lpm.idle < 60000 * s.set.idleStandby) → step s = .next a) ∧
          (a.idleRuns = true → 60000 * s.set.idleStandby ≤ a.lpm.idle →
            step s = exec .idleTimerExpiry a)) ∧
        (s.wgt.guard = some 1 → (a.idleRuns = true → a.lpm.idle < 60000 * s.set.idleStandby) →
          step s = exec .disturbanceGuardEnd a)) ∧
      (∀ o, (∀ ch, s.attemptOver ch) → s.wgt.guard = none → a.idleRuns = false →
        s.wgt.chanB.op = none → s.wgt.chanP.op = some o → o.limit ≤ o.age + 1 →
        (o.kind = .zero → step s = exec (.zeroTimeout .p) a) ∧
        (o.kind = .tare → step s = exec .tareTimeout a) ∧
        (o.kind.isCapture = true → step s = exec .captureTimeoutExpiry a) ∧
        (o.kind.isCal = true → step s = exec (.calTimeout .p) a)))

/-- R10, Table 1-4: the link reads a code and payload as a command exactly where they are the framing of that
command, with every operand at every value a frame can carry; such a payload fits a frame. -/
def Obligations.DecodingInvertsEncoding : Prop :=
  ∀ (i : Instr) (tag code : Byte) (payload : List Byte),
    (decodeRequest tag code payload = .ok i ↔
      i.wf = true ∧ encodeRequest i = some (tag, code, payload)) ∧
    (i.wf = true → encodeRequest i = some (tag, code, payload) → payload.length ≤ 255)

/-- R2 to R6, R8: the characters of a request frame, received one after another by an open receiver outside a
body, leave the receiver in GAP with exactly that request admitted. -/
def Obligations.FramedRequestReceived : Prop :=
  ∀ (tag code : Byte) (payload : List Byte) (s : State), payload.length ≤ 255 →
    (s.link.rx.mode = .seek ∨ s.link.rx.mode = .gap) → s.link.placesInUse < 8 →
      receive (requestLine tag code payload) s = .next
        (admitRequest { tag := tag, code := code, payload := payload }
          { s with link.rx := { mode := .gap, buf := [], quiet := 0 } })

/-- R1, R4 to R8: what a character does in each receiver state, and that the stop bit changes nothing. A closing
FLAG admits the request of a body that passes the receive checks, in their order, and discards any other with
the cause of the first that fails. The discards (SHORT, CRC, KIND, OVERRUN, a 261st byte, an ESC before a closing
FLAG, 50 ms without a character inside a body) are stated for a block with no binding set; a discard raises
its notice only where none is recorded yet. An event that finds nothing it could happen to leaves the state
unchanged: log entry 6. -/
def Obligations.ReceiverHandlesCharacter : Prop :=
  (∀ (c : Byte) (stop : Bool) (s : State), ∃ t, exec (.rxCharacter c stop) s = .next t ∧
      (s.link.rx.mode = .closed → t = s) ∧
      (s.link.rx.mode = .seek → c ≠ 0x7E#8 → t = s) ∧
      (s.link.rx.mode = .seek → c = 0x7E#8 →
        t = { s with link.rx := { mode := .gap, buf := [], quiet := 0 } }) ∧
      (s.link.rx.mode = .gap → c = 0x7E#8 → t = s) ∧
      (s.link.rx.mode = .gap → c = 0x7D#8 →
        t = { s with link.rx := { mode := .bodyEsc, buf := [], quiet := 0 } }) ∧
      (s.link.rx.mode = .gap → c ≠ 0x7E#8 → c ≠ 0x7D#8 →
        t = { s with link.rx := { mode := .body, buf := [c], quiet := 0 } }) ∧
      (s.link.rx.mode = .body → c = 0x7D#8 →
        t = { s with link.rx := { mode := .bodyEsc, buf := s.link.rx.buf, quiet := 0 } }) ∧
      (s.link.rx.mode = .body → c ≠ 0x7E#8 → c ≠ 0x7D#8 → s.link.rx.buf.length < 260 →
        t = { s with link.rx := { mode := .body, buf := s.link.rx.buf ++ [c], quiet := 0 } }) ∧
      (s.link.rx.mode = .bodyEsc → c ≠ 0x7E#8 → s.link.rx.buf.length < 260 →
        t = { s with link.rx :=
          { mode := .body, buf := s.link.rx.buf ++ [c ^^^ 0x20#8], quiet := 0 } }) ∧
      (s.unbound → s.link.rx.mode = .body → c ≠ 0x7E#8 → c ≠ 0x7D#8 → 260 ≤ s.link.rx.buf.length →
        t.link.rx = { mode := .seek, buf := [], quiet := 0 } ∧ t.link.queue = s.link.queue ∧
          t.rpt.latched.frameError = some (s.rpt.latched.frameError.getD .overlong)) ∧
      (s.unbound → s.link.rx.mode = .bodyEsc → c ≠ 0x7E#8 → 260 ≤ s.link.rx.buf.length →
        t.link.rx = { mode := .seek, buf := [], quiet := 0 } ∧ t.link.queue = s.link.queue ∧
          t.rpt.latched.frameError = some (s.rpt.latched.frameError.getD .overlong)) ∧
      (s.unbound → s.link.rx.mode = .bodyEsc → c = 0x7E#8 →
        t.link.rx = { mode := .gap, buf := [], quiet := 0 } ∧ t.link.queue = s.link.queue ∧
          t.rpt.latched.frameError = some (s.rpt.latched.frameError.getD .badEscape))) ∧
  (∀ (stop : Bool) (body : List Byte) (s : State), s.unbound →
      s.link.rx.mode = .body → s.link.rx.buf = body →
      (∀ cause, (cause = .short ∧ body.length < 5 ∨
          5 ≤ body.length ∧
            (cause = .crc ∧ body.drop (body.length - 2) ≠
                be16 (crc16 (body.take (body.length - 2))).toNat ∨
              body.drop (body.length - 2) = be16 (crc16 (body.take (body.length - 2))).toNat ∧
                (cause = .kind ∧ body.head? ≠ some 0x01#8 ∨
                  cause = .overrun ∧ body.head? = some 0x01#8 ∧ 8 ≤ s.link.placesInUse))) →
        ∃ t, exec (.rxCharacter 0x7E#8 stop) s = .next t ∧
          t.link.rx = { mode := .gap, buf := [], quiet := 0 } ∧ t.link.queue = s.link.queue ∧
          t.rpt.latched.frameError = some (s.rpt.latched.frameError.getD cause) ∧
          t.rpt.queue = (if s.rpt.latched.frameError = none then
            (raiseQuiet (.linkFrameError cause) s).rpt.queue else s.rpt.queue)) ∧
      (∀ tag code payload, body = requestHead tag code payload ++
          be16 (crc16 (requestHead tag code payload)).toNat → s.link.placesInUse < 8 →
        exec (.rxCharacter 0x7E#8 stop) s = .next
          (admitRequest { tag := tag, code := code, payload := payload }
            { s with link.rx := { mode := .gap, buf := [], quiet := 0 } }))) ∧
  (∀ s : State, s.unbound →
      (s.link.rx.mode.inBody = true → s.rpt.latched.frameError = none →
        exec .rxStallTimeout s = .next (raiseQuiet (.linkFrameError .stall)
          { s with
            link.rx := { mode := .seek, buf := [], quiet := 0 }
            rpt.latched.frameError := some .stall })) ∧
      (s.link.rx.mode.inBody = true → s.rpt.latched.frameError ≠ none →
        exec .rxStallTimeout s =
          .next { s with link.rx := { mode := .seek, buf := [], quiet := 0 } }) ∧
      (s.link.rx.mode.inBody = false → exec .rxStallTimeout s = .next s))

/-- R4, R6, R8, R10, R13: a request received while another is in execution or waiting joins the queue, or is
answered REFUSED_FULL at once where 4 wait; with every reply place in use it is discarded with cause OVERRUN,
and a closed receiver takes nothing. A payload that no frame can carry is discarded with cause OVERLONG, and a
JOB_DATA without elements is answered REFUSED_LENGTH. Every command answers a next state. A request command is a
request received intact: log entry 5. -/
def Obligations.RequestAdmission : Prop :=
  (∀ (i : Instr) (tag code : Byte) (payload : List Byte) (s : State),
    encodeRequest i = some (tag, code, payload) →
    (s.link.rx.mode ≠ .closed → s.link.placesInUse < 8 → payload.length ≤ 255 →
      (s.link.inExec ≠ none ∨ s.link.queue ≠ []) → s.link.queue.length < 4 →
      exec i s = .next { s with
        link.queue := s.link.queue ++ [{ tag := tag, code := code, payload := payload }] }) ∧
    (s.link.rx.mode ≠ .closed → s.link.placesInUse < 8 → payload.length ≤ 255 →
      4 ≤ s.link.queue.length →
      exec i s = .next (placeReply
        { tag := tag, code := code, status := .refusedFull, data := [], baud := none } s)) ∧
    (s.link.rx.mode ≠ .closed → 8 ≤ s.link.placesInUse → payload.length ≤ 255 → s.unbound →
      exec i s = .next (if s.rpt.latched.frameError = none then
        raiseQuiet (.linkFrameError .overrun) { s with rpt.latched.frameError := some .overrun }
        else s)) ∧
    (s.link.rx.mode ≠ .closed → 255 < payload.length → s.unbound →
      exec i s = .next (if s.rpt.latched.frameError = none then
        raiseQuiet (.linkFrameError .overlong) { s with rpt.latched.frameError := some .overlong }
        else s)) ∧
    (s.link.rx.mode = .closed → exec i s = .next s)) ∧
  (∀ (tag job : Byte) (s : State), s.linkFree →
    exec (.jobData tag job []) s = .next (placeReply
      { tag := tag, code := 0x71#8, status := .refusedLength, data := [], baud := none } s)) ∧
  (∀ (i : Instr) (s : State), ∃ t, exec i s = .next t)

/-- R9, R10, R18: the request at the head of the queue is taken when none is in execution. A wrong code or
length is refused without dispatch, every request is refused while a soft reset waits, and any other, with
none waiting behind it and the receiver open, has the effect of its command arriving on the free link. With a
request in execution, or none waiting, nothing is taken. A request command is a request received intact: log
entry 5. -/
def Obligations.QueuedRequestExecuted : Prop :=
  (∀ (q : Request) (rest : List Request) (s : State),
      s.link.inExec = none → s.link.queue = q :: rest →
      (s.link.softReset = true →
        exec .requestExecute s = .next (placeReply
          { tag := q.tag, code := q.code, status := .refusedState, data := [], baud := none }
          { s with link.queue := rest })) ∧
      (∀ st, s.link.softReset = false → decodeRequest q.tag q.code q.payload = .error st →
        exec .requestExecute s = .next (placeReply
          { tag := q.tag, code := q.code, status := st, data := [], baud := none }
          { s with link.queue := rest })) ∧
      (∀ i, s.link.softReset = false → decodeRequest q.tag q.code q.payload = .ok i → rest = [] →
        s.link.rx.mode ≠ .closed → s.link.placesInUse ≤ 8 →
        exec .requestExecute s = exec i { s with link.queue := [] })) ∧
  (∀ s : State, (s.link.inExec ≠ none ∨ s.link.queue = []) → exec .requestExecute s = .next s)

/-- R14, R17: at the closing FLAG of a frame, with no soft reset waiting, the transmitter takes the oldest
reply, else the snapshot slot, else the head notice with NOTICE_PUSH on; the rate a reply carries takes
effect. With no frame on the line nothing happens. An event that finds nothing it could happen to leaves the
state unchanged: log entry 6. -/
def Obligations.NextFrameChosen : Prop :=
  ∀ s : State, s.link.softReset = false →
    (s.link.tx = none → exec .frameSent s = .next s) ∧
    (∀ f, s.link.tx = some f → f.baud = none →
      (∀ p rest, s.link.replies = p :: rest →
        exec .frameSent s = .next { s with link.replies := rest, link.tx := some p.frame }) ∧
      (∀ body, s.link.replies = [] → s.link.snapshot = some body →
        exec .frameSent s = .next { s with
          link.snapshot := none
          link.tx := some (TxFrame.make .snapshot 0x00#8 0xF0#8 body none) }) ∧
      (∀ q rest, s.link.replies = [] → s.link.snapshot = none → s.set.noticePush ≠ 0 →
        s.rpt.queue = q :: rest →
        exec .frameSent s = .next { s with
          rpt.queue := rest
          link.tx := some (TxFrame.make .notice 0x00#8 (u8 q.notice.code) q.notice.payload none) }) ∧
      (s.link.replies = [] → s.link.snapshot = none → (s.set.noticePush = 0 ∨ s.rpt.queue = []) →
        exec .frameSent s = .next { s with link.tx := none })) ∧
    (∀ f v, s.link.tx = some f → f.baud = some v →
      ∃ t, exec .frameSent s = .next t ∧ t.link.rate = v)

/-- R18: LANE_RESET places its reply, closes the receiver and lets a soft reset wait, which takes effect at
the closing FLAG of the last reply, with the effects of a hard reset. -/
def Obligations.SoftResetFollowsLastReply : Prop :=
  (∀ (tag : Byte) (s : State), s.ready →
      exec (.laneReset tag) s = .next (placeReply
        { tag := tag, code := 0x02#8, status := .ok, data := [], baud := none }
        { s with
          link.rx := { mode := .closed, buf := [], quiet := 0 }
          link.softReset := true
          lpm.idle := 0 })) ∧
  (∀ (f : TxFrame) (s : State), s.link.softReset = true → s.link.queue = [] → s.link.inExec = none →
      s.link.replies = [] → s.link.tx = some f → f.baud = none →
        exec .frameSent s = .next (resetNow .soft { s with link.tx := none }))

/-- R19, R37, R47, R54, R66, R85, R108, R131, R145, R164, R177, R181, R190, R192: what a hard reset leaves. R26,
R32, R87, R195, R196: what start-up loads. A good settings block becomes the working copy, with each
STABILITY_WINDOW no less than its FILTER_DEPTH; a bad one, or one whose write the reset cuts, gives the defaults
with SETTINGS_DEFAULTED. A bad calibration block makes its channel invalid with CAL_INVALID, a lost count is 65,535,
and a marker that is set, or whose write is cut, is TXN_INTERRUPTED, with its clearing asked. The cut of a
calibration write is left out. The commands that wait keep waiting. That inputs and waiting commands are kept is the
model's choice: log entries 3 and 4. So are the 0 of the sale's identifier, date, time and change, of the swipe's
time and of the link's time since a character: log entry 14. -/
def Obligations.HardResetState : Prop :=
  ∀ s : State, ∃ t, exec .hardReset s = .next t ∧ t.pending = s.pending ∧
    t.link = Link.reset t.set.baudRate ∧ t.link.placesInUse = 0 ∧
    t.wgt.conv = .warming ∧ t.wgt.tare = 0 ∧ t.wgt.armed = true ∧ t.wgt.recNo = 1 ∧
    t.wgt.actions = [] ∧ t.wgt.guard = none ∧ t.wgt.stream = none ∧
    (∀ ch, (t.chan ch).zeroValid = false ∧ (t.chan ch).op = none ∧ (t.chan ch).d = none ∧
      (t.chan ch).stable = false) ∧
    t.bag = Bag.reset ∧ t.txn = Txn.reset ∧ t.crd = Card.reset ∧ t.drw.noSale = none ∧
    (∀ p, (t.port p).mode = .unknown ∧ (t.port p).on = false ∧ (t.port p).attempt = 0 ∧
      t.sense p = none) ∧
    t.job = JobStore.reset ∧ t.pen.mode = .idle ∧ t.pen.work = none ∧ t.pen.line = none ∧
    t.dsa.loads = [] ∧ t.dsa.queue = [] ∧ t.lpm.mode = .active ∧ t.lpm.entry = none ∧
    t.rpt.queue = [] ∧ t.unbound ∧ t.rpt.latched.frameError = none ∧ t.sst.started = false ∧
    t.sst.kind = .hard ∧
    (s.sst.writes = [] →
      (s.sst.blockGood = true → ∀ ch,
        t.set.stabilityWindow ch = max (s.sst.block.stabilityWindow ch) (s.sst.block.filterDepth ch)) ∧
      (s.sst.blockGood = true → ∀ n, n ≠ 5 → n ≠ 6 → t.set.get n = s.sst.block.get n) ∧
      (s.sst.blockGood = false → t.set = Settings.defaults) ∧
      t.sst.defaulted = !s.sst.blockGood ∧
      t.rpt.latched = { Latched.clear with
        defaulted := !s.sst.blockGood
        calInvalidP := !s.sst.calP.good
        calInvalidB := !s.sst.calB.good } ∧
      t.wgt.chanP.calValid = s.sst.calP.good ∧ t.wgt.chanB.calValid = s.sst.calB.good ∧
      (s.sst.calP.good = true → t.wgt.chanP.c0 = s.sst.calP.c0 ∧ t.wgt.chanP.k = s.sst.calP.k) ∧
      (s.sst.calB.good = true → t.wgt.chanB.c0 = s.sst.calB.c0 ∧ t.wgt.chanB.k = s.sst.calB.k) ∧
      t.sst.count = (if s.sst.countGood then s.sst.storedCount else 65535) ∧
      t.sst.interrupted = s.sst.marker ∧
      t.sst.writes = (if s.sst.marker then [.marker false] else [])) ∧
    (∀ rest, s.sst.writes = .settings :: rest →
      t.set = Settings.defaults ∧ t.rpt.latched.defaulted = true ∧ t.sst.defaulted = true) ∧
    (∀ v rest, s.sst.writes = .marker v :: rest →
      t.sst.interrupted = true ∧ t.sst.writes = [.marker false])

/-- Every step keeps the bounds of the link and of the notice queue: 4 requests waiting (R8), 8 reply places
(R13), 16 notices (R188). -/
def Obligations.StepKeepsBounds : Prop :=
  ∀ s t : State, s.bounded → step s = .next t → t.bounded

/-- The state after reset is within those bounds, and meets the invariants of the sale, the expectation list, the
card store, the drawers and the supply that every step keeps. That of the drawers and of the supply rest on the first
contents of the settings store, which are the model's choice: log entry 2. -/
def Obligations.ResetIsBounded : Prop :=
  State.reset.bounded ∧ State.reset.saleBounded ∧ State.reset.expecting ∧ State.reset.cardsBound ∧
    State.reset.drawersSafe ∧ State.reset.supplied

/-! ### Notices, conditions, settings and power (chapters 10 and 11) -/

/-- R192: COND_FETCH answers the condition sets as they stand and clears the latched conditions the mask
names; a mask with any of bits 9 to 15 set is refused and clears nothing. R189: NOTE_FETCH removes the notice at
the head of the queue and answers how many are left, its code and its payload; with the queue empty it
answers the byte 0. The 0 sent for the cause or the code of a condition that is clear is log entry 70. -/
def Obligations.ConditionsAndNoticesFetched : Prop :=
  (∀ (tag : Byte) (mask : BitVec 16) (s : State), s.linkFree →
    (mask.toNat < 512 →
      exec (.condFetch tag mask) s = .next
        ({ s with rpt.latched := s.rpt.latched.clearMask mask }.answered tag 0x03#8 .ok s.conditions)) ∧
    (512 ≤ mask.toNat → Refuses (.condFetch tag mask) tag 0x03#8 .refusedRange s)) ∧
  (∀ (tag : Byte) (s : State), s.linkFree →
    (s.rpt.queue = [] → exec (.noteFetch tag) s = .next (s.answered tag 0x04#8 .ok [0#8])) ∧
    (∀ q rest, s.rpt.queue = q :: rest →
      exec (.noteFetch tag) s = .next
        ({ s with rpt.queue := rest }.answered tag 0x04#8 .ok
          (u8 rest.length :: u8 q.notice.code :: q.notice.payload))))

/-- R187, R188: offering a notice keeps the queue in order of priority and then age, its ages distinct and
below the next age, and its length at most 16. A new priority places the kind's notices again in that order,
or removes them at priority 0, and leaves every other notice in it. -/
def Obligations.NoticeQueueKeepsOrder : Prop :=
  (∀ (n : Notice) (t : Report), t.ordered → t.aged → t.queue.length ≤ 16 →
      (t.offer n).ordered ∧ (t.offer n).aged ∧ (t.offer n).queue.length ≤ 16) ∧
  (∀ (code prio : Nat) (t : Report), isNoticeCode code = true → t.ordered → t.aged →
      t.routes.length = 38 →
        (t.route code prio).ordered ∧
        (t.route code prio).queue.filter (fun q => q.notice.code != code) =
          t.queue.filter (fun q => q.notice.code != code) ∧
        (prio = 0 → (t.route code prio).queue.all (fun q => q.notice.code != code) = true) ∧
        (prio ≠ 0 → (t.route code prio).queue.Perm t.queue))

/-- R187: EVT_ROUTE sets the priority of one kind and answers the code and the previous priority. A code of no
notice, or a priority above 7, is REFUSED_RANGE; the code of STARTUP is REFUSED_STATE. That the code of STARTUP with
a priority above 7 is REFUSED_RANGE is log entry 72. -/
def Obligations.RouteSet : Prop :=
  ∀ (tag code priority : Byte) (s : State), s.ready →
    (isNoticeCode code.toNat = true → code ≠ 0x80#8 → priority.toNat ≤ 7 →
      exec (.evtRoute tag code priority) s = .next
        ({ s with rpt := s.rpt.route code.toNat priority.toNat }.answered tag 0x13#8 .ok
          [code, u8 (s.rpt.prioOf code.toNat)])) ∧
    ((isNoticeCode code.toNat = false ∨ 7 < priority.toNat) →
      Refuses (.evtRoute tag code priority) tag 0x13#8 .refusedRange s) ∧
    (code = 0x80#8 → priority.toNat ≤ 7 →
      Refuses (.evtRoute tag code priority) tag 0x13#8 .refusedState s)

/-- R190, R191: EVT_BIND clears a slot in mode 0, sets it in modes 1 (once) and 2, and refuses a slot, mode, action,
argument or trigger outside its range. A raised notice of the bound kind then executes the action with origin tag 0
before it is queued; a once slot is emptied as it fires. ARM_READER arms the reader. A KICK of a closed port with
the supply free energises it, a CAPTURE takes the slot of P with code 0 and no description, and a START_FEED begins
its first line. A kick of an absent port, without a permit or of a busy port, a capture outside an OPEN sale, in
HOLD, without a calibration or with the slot held, and a feed in FAULT, in PRINTING or without paper or with the
cover open raise BINDING_FAILED with what the request would draw, and change nothing else. Stated for an ACTIVE lane
with no entry pending, with the channels not STABLE before a kick or a feed. That the capture's limit is fixed as it
is accepted is log entry 32, and the strobe figure of the feed's line is log entry 15. -/
def Obligations.BindingSetAndFired : Prop :=
  (∀ (tag slot mode trigger action : Byte) (argument : BitVec 32) (s : State), s.ready →
      1 ≤ slot.toNat → slot.toNat ≤ 4 →
      (mode = 0#8 →
        exec (.evtBind tag slot mode trigger action argument) s = .next
          ({ s with rpt := s.rpt.setBinding none slot.toNat }.answered tag 0x14#8 .ok [slot])) ∧
      (∀ a, (mode = 1#8 ∨ mode = 2#8) → BindAction.read action argument.toNat = some a →
        isTrigger trigger.toNat = true →
        exec (.evtBind tag slot mode trigger action argument) s = .next
          ({ s with
            rpt := s.rpt.setBinding
              (some { once := decide (mode = 1#8), trigger := trigger.toNat, action := a })
              slot.toNat }.answered tag 0x14#8 .ok [slot])) ∧
      ((2 < mode.toNat ∨ (mode ≠ 0#8 ∧
          (BindAction.read action argument.toNat = none ∨ isTrigger trigger.toNat = false))) →
        Refuses (.evtBind tag slot mode trigger action argument) tag 0x14#8 .refusedRange s)) ∧
  (∀ (tag slot mode trigger action : Byte) (argument : BitVec 32) (s : State), s.ready →
      (slot.toNat < 1 ∨ 4 < slot.toNat) →
        Refuses (.evtBind tag slot mode trigger action argument) tag 0x14#8 .refusedRange s) ∧
  (∀ (n : Notice) (once : Bool) (s : State), s.lpm.mode = .active → s.lpm.entry = none →
      s.rpt.bind1 = some { once := once, trigger := n.code, action := .armReader } →
      s.rpt.bind2 = none → s.rpt.bind3 = none → s.rpt.bind4 = none →
        raiseLoud n s = raiseQuiet n (armReader
          (if once then { s with rpt.bind1 := none } else s))) ∧
  (∀ (n : Notice) (once : Bool) (a : BindAction) (s u : State), s.lpm.mode = .active →
      s.lpm.entry = none → s.rpt.bind1 = some { once := once, trigger := n.code, action := a } →
      s.rpt.bind2 = none → s.rpt.bind3 = none → s.rpt.bind4 = none →
      u = (if once then { s with rpt.bind1 := none } else s) →
      (∀ p, a = .kick p →
        (s.set.present p = true → s.permitOf p ≠ .none → (s.port p).mode = .closed →
          (s.port p).retry = false → s.wgt.chanP.stable = false → s.wgt.chanB.stable = false →
          s.dsa.queue = [] → s.pen.line = none → s.dsa.low = false →
          s.dsa.committed + 1500 ≤ s.set.capacity →
          raiseLoud n s = raiseQuiet n ({ u with
            dsa.loads := s.dsa.loads ++ [(Requester.port p, 1500)]
            wgt.actions := .pulse p :: s.wgt.actions }.setPort p { s.port p with
              mode := .kicking, tag := 0#8, kick := s.permitOf p, attempt := 1, retry := false, wait := 0
              on := true, onMs := 0, onTime := s.set.pulseOn, trips := 0, broken := false
              remembered := false })) ∧
        (s.set.present p = false →
          raiseLoud n s = raiseQuiet n (raiseQuiet (.bindingFailed 1 n.code 1#8 .refusedState) u)) ∧
        (s.set.present p = true → s.permitOf p = .none →
          raiseLoud n s = raiseQuiet n (raiseQuiet (.bindingFailed 1 n.code 1#8 .refusedPermit) u)) ∧
        (s.set.present p = true → s.permitOf p ≠ .none →
          ((s.port p).mode = .unknown ∨ (s.port p).mode = .kicking ∨ (s.port p).mode = .fault) →
          raiseLoud n s = raiseQuiet n (raiseQuiet (.bindingFailed 1 n.code 1#8 .refusedBusy) u))) ∧
      (∀ price, a = .capture price →
        (s.txn.state = .opened → s.bag.watch ≠ .hold → price ≠ 0 → price ≤ 999999 →
          s.wgt.chanP.calValid = true → s.wgt.chanP.op = none →
          raiseLoud n s = raiseQuiet n (takeSlot .p (.capture price 0 []) 0#8
            (1000 * s.set.captureTimeout) u)) ∧
        (s.txn.state ≠ .opened →
          raiseLoud n s = raiseQuiet n (raiseQuiet (.bindingFailed 1 n.code 2#8 .refusedState) u)) ∧
        (s.txn.state = .opened → s.bag.watch = .hold →
          raiseLoud n s = raiseQuiet n (raiseQuiet (.bindingFailed 1 n.code 2#8 .refusedHold) u)) ∧
        (s.txn.state = .opened → s.bag.watch ≠ .hold → price ≠ 0 → price ≤ 999999 →
          (s.wgt.chanP.calValid = false →
            raiseLoud n s = raiseQuiet n (raiseQuiet (.bindingFailed 1 n.code 2#8 .refusedState) u)) ∧
          (s.wgt.chanP.calValid = true → s.wgt.chanP.op ≠ none →
            raiseLoud n s = raiseQuiet n (raiseQuiet (.bindingFailed 1 n.code 2#8 .refusedBusy) u)))) ∧
      (∀ lines, a = .startFeed lines →
        (s.pen.mode = .idle → s.sst.started = true → s.canPrint → 1 ≤ lines →
          s.wgt.chanP.stable = false → s.wgt.chanB.stable = false → Action.feed ∉ s.wgt.actions →
          raiseLoud n s = raiseQuiet n { u with
            pen.mode := .printing
            pen.work := some { owner := .feed, current := .none, segs := [.feed lines], row := 0 }
            pen.line := some (s.dotLine s.dotLimit 0 (.feed lines))
            dsa.loads := s.dsa.loads ++ [s.lineLoad]
            wgt.actions := if 32 < lines then .feed :: s.wgt.actions else s.wgt.actions }) ∧
        (s.pen.mode = .fault →
          raiseLoud n s = raiseQuiet n (raiseQuiet (.bindingFailed 1 n.code 3#8 .refusedState) u)) ∧
        (s.pen.mode = .printing →
          raiseLoud n s = raiseQuiet n (raiseQuiet (.bindingFailed 1 n.code 3#8 .refusedBusy) u)) ∧
        (s.pen.mode = .idle → s.sst.started = true →
          (s.pen.paperOut = true ∨ s.pen.coverOpen = true) →
          raiseLoud n s = raiseQuiet n (raiseQuiet (.bindingFailed 1 n.code 3#8 .refusedState) u))))

/-- R193: SET_GET answers the working value of a setting of Table 11-3, and refuses another number. R193, R17:
SET_PUT takes a legal value of the setting and answers it with OK, or OK_CLAMPED where it is another than the
one written; a BAUD_RATE travels with the reply. A number outside 1 to 32 is refused. The value taken for a
range lies within it, on its step, and no legal value is nearer, a tie going up; for a list it is a listed value
and none is nearer, a tie going to the higher; for STABILITY_WINDOW it is the same, raised to the channel's
FILTER_DEPTH. A legal value is taken as it is. Every BAUD_RATE written travels with its reply, and a value is
read as unsigned: log entries 17 and 33. -/
def Obligations.SettingReadAndWritten : Prop :=
  (∀ (tag number : Byte) (s : State), s.ready →
    (1 ≤ number.toNat → number.toNat ≤ 32 →
      exec (.setGet tag number) s = .next
        (s.answered tag 0x10#8 .ok (number :: be32 (s.set.get number.toNat)))) ∧
    ((number = 0#8 ∨ 32 < number.toNat) →
      Refuses (.setGet tag number) tag 0x10#8 .refusedRange s)) ∧
  (∀ (tag number : Byte) (value : BitVec 32) (s : State), s.ready →
    (∀ v, number.toNat ∈ plainSettings →
      s.set.taken number.toNat value.toNat = some v →
      exec (.setPut tag number value) s = .next (placeReply
        { tag := tag, code := 0x11#8, status := if v = value.toNat then .ok else .okClamped,
          data := number :: be32 v, baud := if number = 1#8 then some v else none }
        { s with set := s.set.put v number.toNat, lpm.idle := 0 }) ∧
      (s.set.put v number.toNat).get number.toNat = v) ∧
    ((number = 0#8 ∨ 32 < number.toNat) →
      Refuses (.setPut tag number value) tag 0x11#8 .refusedRange s)) ∧
  (∀ (n v k : Nat) (t : Settings), t.taken n v = some k →
    t.taken n k = some k ∧
    (n ≠ 5 → n ≠ 6 → ∀ lo hi step, settingValues n = some (.range lo hi step) →
      lo ≤ k ∧ k ≤ hi ∧ (k - lo) % step = 0 ∧
        ∀ x, lo ≤ x → x ≤ hi → (x - lo) % step = 0 →
          distNat v k ≤ distNat v x ∧ (distNat v k = distNat v x → x ≤ k)) ∧
    (∀ l, settingValues n = some (.listed l) →
      k ∈ l ∧ ∀ x ∈ l, distNat v k ≤ distNat v x ∧ (distNat v k = distNat v x → x ≤ k)) ∧
    (n = 5 → k = max t.filterDepthP (min 120 (max 6 v))) ∧
    (n = 6 → k = max t.filterDepthB (min 120 (max 6 v))))

/-- The settings whose change acts at once, beside the working copy. R24, R25, R32, R33: a FILTER_DEPTH that
changes empties its channel's windows, and STABILITY_WINDOW is then no less than it; a STABILITY_WINDOW that
changes empties its own; the channel is not STABLE before, so no motion event comes of it. R41: ZERO_TRACK off
sets the count to 0. R77, R124, R141: a BAG_TIMEOUT, CARD_HOLD or LEFT_OPEN not above an age acts as if it were
reached. R129, R131: PRESENT on makes an UNKNOWN port take its debounced sense; PRESENT off, or another
SENSE_POLARITY, takes a port at rest to UNKNOWN. R151: START_POLICY is judged for a job that waits. R158: a
STALL_LIMIT not above the stall time aborts the job. R177, R178: a raised SUPPLY_CAPACITY is in force at once, a
lowered one once the committed currents allow it, and a return to the one in force lets a waiting port be
granted. A setting written with the value it has changes nothing. Some clauses are the model's reading: that a
job of a sale waits for it whatever the engine does is log entry 18, that PRESENT off takes a FAULT port to
UNKNOWN with its attempt count and reason kept is log entry 26, what restarts a port's 25 ms is log entry 25, that a
value is read as unsigned is log entry 33, that a port that is OPEN_OVERDUE stays so is log entry 63, the abort
sequence and its ending are log entry 21, and that a capacity raised to less than the committed sum waits is log entry
68. The strobe figure of a line that starts here is log entry 15. -/
def Obligations.SettingsActAtOnce : Prop :=
  ∀ (tag number : Byte) (value : BitVec 32) (v : Nat) (s : State), s.ready → s.unbound →
    number ≠ 1#8 → s.set.taken number.toNat value.toNat = some v →
    (v = s.set.get number.toNat →
      exec (.setPut tag number value) s = .next (s.setAnswered tag number value.toNat v)) ∧
    (∀ u : State, u = { s with set := s.set.put v number.toNat } → v ≠ s.set.get number.toNat →
      (∀ ch, number = (if ch = .p then 3#8 else 4#8) → (s.chan ch).stable = false →
        ∃ t, exec (.setPut tag number value) s = .next t ∧ t.set.filterDepth ch = v ∧
          v ≤ t.set.stabilityWindow ch ∧
          (v ≤ s.set.stabilityWindow ch → t.set.stabilityWindow ch = s.set.stabilityWindow ch) ∧
          t.chan ch = { s.chan ch with win := [], stab := [] } ∧
          (∀ o, o ≠ ch → t.chan o = s.chan o) ∧ t.txn = s.txn ∧ t.bag = s.bag ∧ t.sst = s.sst) ∧
      (∀ ch, number = (if ch = .p then 5#8 else 6#8) → (s.chan ch).stable = false →
        exec (.setPut tag number value) s = .next
          ((u.setChan ch { s.chan ch with stab := [] }).setAnswered tag number value.toNat v)) ∧
      (∀ ch, number = (if ch = .p then 7#8 else 8#8) →
        exec (.setPut tag number value) s = .next
          ((if v = 0 then u.setChan ch { s.chan ch with track := 0 } else u).setAnswered tag number
            value.toNat v)) ∧
      (∀ pre e post, number = 15#8 → s.bag.entries = pre ++ e :: post → e.overdue = false →
        (∀ x ∈ pre ++ post, x.slot ≠ e.slot ∧ (x.overdue = true ∨ x.age < 1000 * v)) →
        1000 * v ≤ e.age →
        exec (.setPut tag number value) s = .next
          ((raiseQuiet (.bagOverdue e.slot e.remove e.weight) { u with
            bag.entries := pre ++ { e with overdue := true } :: post
            txn.items := s.txn.items.map fun (it : Item) =>
              if it.slot = e.slot then { it with bag := .overdue } else it }).setAnswered tag number
            value.toNat v)) ∧
      (∀ c r, number = 18#8 → s.card c = some r → r.bound = false →
        (∀ o x, o ≠ c → s.card o = some x → x.bound = true ∨ x.age < 1000 * v) →
        exec (.setPut tag number value) s = .next
          ((if 1000 * v ≤ r.age then raiseQuiet (.cardWiped c .holdTimer) (u.setCard c none)
            else u).setAnswered tag number value.toNat v)) ∧
      (∀ p, number = (if p = .d1 then 19#8 else 20#8) →
        (v = 0 → (s.port p).retry = false → (s.port p).mode ≠ .grantWait →
          (s.port p).mode ≠ .kicking → (s.port p).mode ≠ .waitOpen →
          exec (.setPut tag number value) s = .next
            ((u.setPort p { s.port p with
              mode := .unknown, present := false, leaving := false, openMs := 0 }).setAnswered tag
              number value.toNat v)) ∧
        (v = 1 → (s.port p).leaving = false → ∃ t : State,
          exec (.setPut tag number value) s = .next (t.setAnswered tag number value.toNat v) ∧
          (t.port p).present = true ∧ t.rpt = s.rpt ∧ t.drw.noSale = s.drw.noSale ∧
          (t.port p).mode = (match (s.port p).deb, s.sense p with
            | none, some true => .opened
            | none, some false => .closed
            | _, _ => (s.port p).mode))) ∧
      (∀ p, number = (if p = .d1 then 21#8 else 22#8) → (s.port p).present = true →
        (((s.port p).mode = .closed ∧ (s.port p).retry = false) →
          exec (.setPut tag number value) s = .next
            ((u.setPort p { s.port p with mode := .unknown }).setAnswered tag number value.toNat v)) ∧
        (((s.port p).mode = .opened ∨ (s.port p).mode = .openOverdue) →
          exec (.setPut tag number value) s = .next
            ((u.setPort p { s.port p with mode := .unknown, openMs := 0 }).setAnswered tag number
              value.toNat v))) ∧
      (∀ p o, number = 25#8 → p ≠ o → (s.port p).mode = .opened → (s.port o).mode ≠ .opened →
        exec (.setPut tag number value) s = .next
          ((if 1000 * v ≤ (s.port p).openMs then
            raiseQuiet (.drawerLeftOpen p (min ((s.port p).openMs / 1000) 65535))
              (u.setPort p { s.port p with mode := .openOverdue })
            else u).setAnswered tag number value.toNat v)) ∧
      (∀ j, number = 26#8 → s.job.table = [j] →
        (v = 1 → j.closed = false → (j.mode = .filling ∨ j.mode = .waitSettle) →
          exec (.setPut tag number value) s = .next
            ({ u with job.table := [{ j with mode := .filling }] }.setAnswered tag number value.toNat
              v)) ∧
        (v = 0 → j.mode = .filling → j.closed = false → j.elements ≠ [] → j.ofSale = true →
          s.txn.state ≠ .settled →
          exec (.setPut tag number value) s = .next
            ({ u with job.table := [{ j with mode := .waitSettle }] }.setAnswered tag number
              value.toNat v))) ∧
      (∀ j, number = 27#8 → s.job.table = [j] → j.mode = .paused .underrun →
        s.pen.mode = .paused .underrun →
        s.pen.work = some { owner := .job j.number, current := .none, segs := [], row := 0 } →
        s.canPrint →
        (j.stall < v →
          exec (.setPut tag number value) s = .next (u.setAnswered tag number value.toNat v)) ∧
        (v ≤ j.stall →
          exec (.setPut tag number value) s = .next ({ u with
            job.table := [{ j with
              mode := .aborted .underrun .marked, elements := [], heading := false }]
            pen.mode := .printing
            pen.work := some
              { owner := .abort j.number true, current := .none, segs := [.mark, .cut false]
                row := 0 }
            pen.line := some (s.dotLine s.dotLimit 0 .mark)
            dsa.loads := s.dsa.loads ++ [s.lineLoad] }.setAnswered tag number value.toNat v))) ∧
      (number = 30#8 →
        (s.dsa.queue = [] →
          exec (.setPut tag number value) s = .next
            ((if s.dsa.cap ≤ 100 * v ∨ s.dsa.committed ≤ 100 * v then { u with dsa.cap := 100 * v }
              else u).setAnswered tag number value.toNat v)) ∧
        (∀ p, s.dsa.queue = [.port p] → s.dsa.low = false → s.pen.line = none →
          s.dsa.cap ≤ 100 * v → s.dsa.committed + 1500 ≤ 100 * v → s.wgt.chanP.stable = false →
          s.wgt.chanB.stable = false → ∃ t : State,
            exec (.setPut tag number value) s = .next (t.setAnswered tag number value.toNat v) ∧
            t.dsa.cap = 100 * v ∧ t.dsa.queue = [] ∧
            t.dsa.loads = s.dsa.loads ++ [(.port p, 1500)] ∧ (t.port p).mode = .kicking ∧
            (t.port p).on = true)))

/-- R194: SET_SAVE asks for the write of the settings block and stays in execution. When the block is written
it holds the working copy with its checksum, so it loads good, and the request is answered OK. R86, R87: when
the marker is written set, the TXN_BEGIN in execution is answered OK; when it is written clear, nothing is
answered. R195: when the pair of writes of a calibration write of channel P is done, the count record and the
channel's block load good with the values written, CAL_DONE has been raised and the operation slot is free; the
other channel's block is untouched. An event that finds nothing it could happen to (a completion with no such
write under way) leaves the state unchanged: log entry 6. -/
def Obligations.StoreWritesCompleted : Prop :=
  (∀ (tag : Byte) (s : State), s.ready →
      exec (.setSave tag) s = .next { s with
        link.inExec := some { tag := tag, code := 0x12#8, payload := [] }
        sst.writes := s.sst.writes ++ [.settings]
        lpm.idle := 0 }) ∧
  (∀ (s : State), s.link.softReset = false →
      (∀ q rest, s.sst.writes = .settings :: rest → s.link.inExec = some q → q.code = 0x12#8 →
        ∃ t, exec .settingsBlockWritten s = .next t ∧
          t = placeReply { tag := q.tag, code := 0x12#8, status := .ok, data := [], baud := none }
            { s with
              link.inExec := none
              sst.writes := rest
              sst.block := s.set
              sst.blockCrc := crc16 s.set.bytes } ∧
          t.sst.blockGood = true) ∧
      (s.sst.writes.head? ≠ some .settings → exec .settingsBlockWritten s = .next s) ∧
      (∀ q rest, s.sst.writes = .marker true :: rest → s.link.inExec = some q → q.code = 0x40#8 →
        exec .markerWriteDone s = .next (placeReply
          { tag := q.tag, code := 0x40#8, status := .ok, data := [], baud := none }
          { s with link.inExec := none, sst.writes := rest, sst.marker := true })) ∧
      (∀ rest, s.sst.writes = .marker false :: rest →
        exec .markerWriteDone s = .next { s with sst.writes := rest, sst.marker := false }) ∧
      (s.sst.writes.head? ≠ some (.marker true) → s.sst.writes.head? ≠ some (.marker false) →
        exec .markerWriteDone s = .next s)) ∧
  (∀ (o : Op) (count : Nat) (c0 : Int) (k : Nat) (rest : List StoreWrite) (s : State), s.unbound →
    s.sst.writes = .calibration .p count c0 k :: rest → s.wgt.chanP.op = some o →
      ∃ t, exec .calibrationWriteDone s = .next t ∧
        t = raiseQuiet (.calDone o.tag .p o.kind.isSpan .ok s.wgt.chanP.c0 s.wgt.chanP.k s.sst.count)
          { s with
            sst.writes := rest
            sst.storedCount := count
            sst.countCrc := crc16 (be16 count)
            sst.calP := CalBlock.seal c0 k
            wgt.chanP.op := none } ∧
        t.sst.countGood = true ∧ t.sst.calP.good = true ∧ t.sst.calP.c0 = c0 ∧ t.sst.calP.k = k)

/-- R181, R182: PWR_STANDBY enters STANDBY at once where every check holds, with PWR_STATE raised; where only work
still under way stands against it, the entry is recorded and answered PENDING; any other check that fails refuses
it. What checks 4 to 7 draw, in their order, for either state asked for: a sale; for DORMANT a card record, or a
present port that is not CLOSED or has a retry pending; the engine in FAULT; an operation slot held or a settings
store write in progress. Check 8 is that no work is under way. Checks 1 to 3, for either request: the state already
held is answered OK with nothing done; STANDBY asked in DORMANT is refused, and so is an entry asked while another
is pending. R183: a pending entry is taken where the last work ends, here a feed at its last boundary or a kick at
its opening, or is cancelled with cause 8 where a check fails then. A request of its list that is accepted cancels
it with cause 6 before it has its effect, as PWR_WAKE does with cause 7 (stated elsewhere), and a refused one leaves
it. That the pending record keeps the cause of its asker is log entry 67, that a channel P without any reading
leaves G at entry open is log entry 69, the order of cancelling and effect is log entry 31, and that a feed ends at
its last line's boundary is log entry 22. That an entry into OPEN sets the attempt count to 0 is log entry 47. -/
def Obligations.StandbyAsked : Prop :=
  (∀ (tag : Byte) (s : State), s.ready → s.unbound →
    (entryBlock .standby s = none → workDone s = true →
      exec (.pwrStandby tag) s = .next
        ((raiseQuiet (.pwrState tag .entered .standby .request)
          { s with
            lpm.mode := .standby
            lpm.gEntry := if s.wgt.chanP.hasValue then some s.wgt.chanP.g else none }).answered
          tag 0x05#8 .ok [1#8])) ∧
    (entryBlock .standby s = none → workDone s = false →
      exec (.pwrStandby tag) s = .next
        ({ s with lpm.entry := some { target := .standby, tag := tag, cause := .request } }.answered
          tag 0x05#8 .pending [0#8])) ∧
    (∀ st, entryBlock .standby s = some st → Refuses (.pwrStandby tag) tag 0x05#8 st s)) ∧
  (∀ (tag : Byte) (s : State), s.linkFree →
    (s.lpm.mode = .standby → exec (.pwrStandby tag) s = .next (s.answered tag 0x05#8 .ok [1#8])) ∧
    (s.lpm.mode = .dormant → exec (.pwrDormant tag) s = .next (s.answered tag 0x06#8 .ok [2#8])) ∧
    (s.lpm.mode = .dormant → Refuses (.pwrStandby tag) tag 0x05#8 .refusedState s) ∧
    (∀ e, s.lpm.mode = .active → s.lpm.entry = some e →
      Refuses (.pwrStandby tag) tag 0x05#8 .refusedBusy s) ∧
    (∀ e, s.lpm.mode ≠ .dormant → s.lpm.entry = some e →
      Refuses (.pwrDormant tag) tag 0x06#8 .refusedBusy s)) ∧
  (∀ (m : PowerMode) (s : State),
    (s.txn.state ≠ .idle → entryBlock m s = some .refusedState) ∧
    (m = .dormant → (s.crd.one ≠ none ∨ s.crd.two ≠ none ∨ ∃ p, (s.port p).present = true ∧
        ((s.port p).mode ≠ .closed ∨ (s.port p).retry = true)) →
      entryBlock m s = some .refusedState) ∧
    (s.pen.mode = .fault → entryBlock m s = some .refusedState) ∧
    (s.txn.state = .idle →
      (m = .dormant → s.crd.one = none ∧ s.crd.two = none ∧ ∀ p, (s.port p).present = true →
        (s.port p).mode = .closed ∧ (s.port p).retry = false) →
      s.pen.mode ≠ .fault →
      ((∃ ch, (s.chan ch).op ≠ none) ∨ s.sst.writes ≠ [] → entryBlock m s = some .refusedBusy) ∧
      ((∀ ch, (s.chan ch).op = none) → s.sst.writes = [] → entryBlock m s = none)) ∧
    (workDone s = true ↔ s.job.table = [] ∧ s.pen.mode = .idle ∧ ∀ p, (s.port p).retry = false ∧
      (s.port p).mode ≠ .grantWait ∧ (s.port p).mode ≠ .kicking ∧ (s.port p).mode ≠ .waitOpen)) ∧
  (∀ (e : PendingEntry) (mv : BitVec 16) (l : DotLine) (n : Nat) (s u : State), s.unbound →
    s.lpm.entry = some e → s.wgt.chanP.stable = false → s.wgt.chanB.stable = false →
    s.pen.line = some l → 1 ≤ n →
    s.pen.work = some { owner := .feed, current := .none, segs := [.feed n], row := n - 1 } →
    s.dsa.loads = [(.line, 600 + l.limit * s.set.dotCurrent)] → s.dsa.queue = [] →
    s.dsa.cap = s.set.capacity → s.wgt.actions = [] → s.job.table = [] → s.pen.mode = .printing →
    u = { s with
      pen.mode := .idle, pen.work := none, pen.line := none, dsa.loads := [], dsa.mv := mv.toNat } →
    (workDone u = false → exec (.lineBoundary mv) s = .next u) ∧
    (workDone u = true →
      (∀ st, entryBlock e.target u = some st → exec (.lineBoundary mv) s = .next
        (raiseQuiet (.pwrState e.tag .cancelled s.lpm.mode .lost) { u with lpm.entry := none })) ∧
      (entryBlock e.target u = none → e.target = .standby → exec (.lineBoundary mv) s = .next
        (raiseQuiet (.pwrState e.tag .entered .standby e.cause) { u with
          lpm.mode := .standby
          lpm.entry := none
          lpm.gEntry := if s.wgt.chanP.hasValue then some s.wgt.chanP.g else none })) ∧
      (entryBlock e.target u = none → e.target = .dormant → s.sst.started = true →
        (∀ ch, s.attemptOver ch) → ∃ t, exec (.lineBoundary mv) s = .next t ∧
          t.lpm.mode = .dormant ∧ t.lpm.entry = none ∧ t.wgt.conv = .off ∧ t.crd.state = .disarmed ∧
          t.rpt = (raiseQuiet (.pwrState e.tag .entered .dormant e.cause) s).rpt))) ∧
  (∀ (e : PendingEntry) (p : Port) (s u : State), s.unbound → s.lpm.entry = some e →
    (s.port p).mode = .waitOpen → (s.port p).kick = .noSale → (s.port p).deb ≠ none →
    (s.port p).present = true → (s.port p).leaving = false →
    (s.port p).held = some (!(s.port p).level) →
    (s.port p).level = (if s.set.openLow p then false else true) →
    u = raiseQuiet (.drawerOpened (s.port p).tag p .noSale (s.port p).attempt)
      ({ s with drw.noSale := none }.setPort p { s.port p with
        held := some (s.port p).level, deb := none, mode := .opened, openMs := 0, attempt := 0
        retry := false, wait := 0, kick := .none, on := false, broken := false
        remembered := false }) →
    workDone u = true →
    (e.target = .dormant → exec (.senseDebouncedChange p) s = .next
      (raiseQuiet (.pwrState e.tag .cancelled s.lpm.mode .lost) { u with lpm.entry := none })) ∧
    (e.target = .standby → entryBlock .standby u = none → exec (.senseDebouncedChange p) s = .next
      (raiseQuiet (.pwrState e.tag .entered .standby e.cause) { u with
        lpm.mode := .standby
        lpm.entry := none
        lpm.gEntry := if s.wgt.chanP.hasValue then some s.wgt.chanP.g else none }))) ∧
  (∀ (i : Instr) (tag code : Byte) (payload : List Byte) (e : PendingEntry) (s : State), i.wf = true →
    encodeRequest i = some (tag, code, payload) → cancelsEntry code = true → s.linkFree → s.unbound →
    s.lpm.mode = .active → s.lpm.entry = some e →
    (requestAction i raiseLoud { s with
      link.inExec := some { tag := tag, code := code, payload := payload }
      lpm.entry := none, lpm.idle := 0 }).2.accepted = true →
      exec i s = exec i (raiseQuiet (.pwrState e.tag .cancelled .active .work)
        { s with lpm.entry := none })) ∧
  (∀ (tag v : Byte) (value : BitVec 32) (e : PendingEntry) (s : State), s.linkFree →
    s.lpm.mode = .active → s.lpm.entry = some e →
      Refuses (.setPut tag 0#8 value) tag 0x11#8 .refusedRange s ∧
      (1 < v.toNat → Refuses (.cardArm tag v) tag 0x50#8 .refusedRange s))

/-- R21, R41, R64, R110, R181, R182: PWR_DORMANT, where every check holds, switches the converters and the
streaming off, empties the windows, takes the D of both channels away and disarms the reader. -/
def Obligations.DormantEntered : Prop :=
  ∀ (tag : Byte) (s : State), s.ready → s.unbound → s.sst.started = true →
    entryBlock .dormant s = none → workDone s = true →
      ∃ t, exec (.pwrDormant tag) s = .next t ∧ t.lpm.mode = .dormant ∧ t.lpm.entry = none ∧
        t.wgt.conv = .off ∧ t.wgt.stream = none ∧ t.crd.state = .disarmed ∧ t.crd.disarm = false ∧
        (∀ ch, (t.chan ch).d = none ∧ (t.chan ch).stable = false ∧ (t.chan ch).win = [] ∧
          (t.chan ch).stab = [] ∧ (t.chan ch).zw = (s.chan ch).zw ∧ (t.chan ch).k = (s.chan ch).k) ∧
        t.wgt.tare = s.wgt.tare ∧ t.txn = s.txn ∧ t.drw = s.drw ∧ t.job = s.job ∧ t.pen = s.pen ∧
        t.bag = s.bag ∧ t.set = s.set

/-- R183, R185: PWR_WAKE in STANDBY wakes the lane to ACTIVE with cause 7; in ACTIVE it changes nothing, or
cancels a pending entry. R21, R37, R47, R185: in DORMANT it starts the warm-up, with both zeros invalid and the
tare cleared. Any other request but those of the status set, PWR_STANDBY and PWR_DORMANT wakes the lane
from STANDBY or DORMANT with cause 2, and then has its effect. The other wakes: the start of a swipe in STANDBY,
with cause 3, a stable reading of P in STANDBY 40,000 mg away from the gross at the entry, and a forced opening
of a drawer in STANDBY or DORMANT, with cause 5. That its DRAWER_FORCED comes first is log entry 27. -/
def Obligations.WakeAsked : Prop :=
  (∀ (tag : Byte) (s : State), s.linkFree → s.unbound →
    (s.lpm.mode = .standby → s.lpm.entry = none →
      exec (.pwrWake tag) s = .next
        ((raiseQuiet (.pwrState tag .woken .active .pwrWake)
          { s with lpm.mode := .active, lpm.gEntry := none, lpm.idle := 0 }).answered
          tag 0x07#8 .ok [0#8])) ∧
    (s.lpm.mode = .active → s.lpm.entry = none →
      exec (.pwrWake tag) s = .next (s.answered tag 0x07#8 .ok [0#8])) ∧
    (∀ e, s.lpm.mode = .active → s.lpm.entry = some e →
      exec (.pwrWake tag) s = .next
        ((raiseQuiet (.pwrState e.tag .cancelled .active .pwrWake)
          { s with lpm.entry := none }).answered tag 0x07#8 .ok [0#8])) ∧
    (s.lpm.mode = .dormant → s.lpm.entry = none → ∃ t : State,
      exec (.pwrWake tag) s = .next (t.answered tag 0x07#8 .ok [0#8]) ∧ t.lpm.mode = .active ∧
        t.wgt.conv = .warming ∧ t.wgt.warmAge = 0 ∧ t.wgt.tare = 0 ∧ t.wgt.tareKind = .none ∧
        (∀ ch, (t.chan ch).zeroValid = false ∧ (t.chan ch).suspended = false ∧
          (t.chan ch).d = none ∧ (t.chan ch).init = .waiting ∧ (t.chan ch).k = (s.chan ch).k ∧
          (t.chan ch).op = (s.chan ch).op) ∧
        t.rpt = (raiseQuiet (.pwrState tag .woken .active .pwrWake) s).rpt ∧ t.txn = s.txn ∧
        t.bag = s.bag ∧ t.crd = s.crd ∧ t.drw = s.drw ∧ t.pen = s.pen ∧ t.set = s.set)) ∧
  (∀ (i : Instr) (tag code : Byte) (payload : List Byte) (s : State), i.wf = true →
    encodeRequest i = some (tag, code, payload) → wakesLane code = true → code ≠ 0x07#8 →
    s.linkFree → s.unbound → s.lpm.entry = none → s.lpm.mode = .standby →
      exec i s = exec i (raiseQuiet (.pwrState tag .woken .active .wakeRequest)
        { s with lpm.mode := .active, lpm.gEntry := none, lpm.idle := 0 })) ∧
  (∀ (i : Instr) (tag code : Byte) (payload : List Byte) (s u : State), i.wf = true →
    encodeRequest i = some (tag, code, payload) → wakesLane code = true → code ≠ 0x07#8 →
    s.linkFree → s.unbound → s.lpm.entry = none → s.lpm.mode = .dormant →
    u = raiseQuiet (.pwrState tag .woken .active .wakeRequest) s → ∃ t : State,
      exec i s = exec i t ∧ t.link = u.link ∧ t.rpt = u.rpt ∧ t.lpm.mode = .active ∧
      t.wgt.conv = .warming ∧ t.wgt.warmAge = 0 ∧ t.wgt.tare = 0 ∧ t.wgt.tareKind = .none ∧
      (∀ ch, (t.chan ch).zeroValid = false ∧ (t.chan ch).suspended = false ∧ (t.chan ch).d = none ∧
        (t.chan ch).init = .waiting ∧ (t.chan ch).k = (s.chan ch).k ∧ (t.chan ch).op = (s.chan ch).op) ∧
      t.txn = s.txn ∧ t.bag = s.bag ∧ t.crd = s.crd ∧ t.drw = s.drw ∧ t.job = s.job ∧ t.pen = s.pen ∧
      t.set = s.set) ∧
  (∀ (head : Head) (s : State), s.unbound → s.lpm.mode = .standby → s.crd.state = .armed →
    Head.track head ≠ none → ∃ t, exec (.swipeStart head) s = .next t ∧ t.lpm.mode = .active ∧
      t.lpm.idle = 0 ∧ t.crd.state = .reading ∧
      t.rpt = (raiseQuiet (.pwrState 0#8 .woken .active .swipe) s).rpt) ∧
  (∀ (block : Samples) (g0 : Int) (s : State), s.unbound → s.steady .p block →
    s.wgt.chanP.stable = false → s.wgt.chanP.op = none → s.attemptOver .p → s.wgt.chanP.track < 59 →
    s.sst.started = true → s.lpm.mode = .standby → s.lpm.gEntry = some g0 →
      ∃ t, exec (.reading .p block) s = .next t ∧ t.lpm.mode =
        (if 40000 ≤ (s.nextG .p block - g0).natAbs then .active else .standby)) ∧
  (∀ (p : Port) (s u : State), s.unbound → s.lpm.mode ≠ .active → (s.port p).deb ≠ none →
    (s.port p).present = true → (s.port p).mode = .closed → (s.port p).retry = false →
    (s.port p).held = some (!(s.port p).level) →
    (s.port p).level = (if s.set.openLow p then false else true) →
    u = raiseQuiet (.pwrState 0#8 .woken .active .forcedDrawer)
      (raiseQuiet (.drawerForced p .opened) { s with rpt.latched := s.rpt.latched.force p }) →
      ∃ t, exec (.senseDebouncedChange p) s = .next t ∧ t.lpm.mode = .active ∧
        (t.port p).mode = .opened ∧ t.rpt = u.rpt ∧
        (s.lpm.mode = .dormant → t.wgt.conv = .warming ∧ t.wgt.tare = 0 ∧
          ∀ ch, (t.chan ch).zeroValid = false ∧ (t.chan ch).init = .waiting))

/-- R182, R184: when the idle timer runs out, an entry into STANDBY is asked with origin tag 0 and cause 1; a
refusal raises nothing, a deferral is recorded, and the timer returns to 0 in every case. Where the timer does
not measure, nothing happens. An event that finds nothing it could happen to leaves the state unchanged: log
entry 6. That the deferred record keeps the cause is log entry 67, and that a channel P without any reading leaves G at
entry open is log entry 69. -/
def Obligations.IdleTimerExpires : Prop :=
  ∀ s : State, s.unbound → s.lpm.entry = none →
    (s.idleRuns = true → entryBlock .standby s = none → workDone s = true →
      exec .idleTimerExpiry s = .next
        { raiseQuiet (.pwrState 0#8 .entered .standby .idleTimer)
            { s with
              lpm.mode := .standby
              lpm.gEntry := if s.wgt.chanP.hasValue then some s.wgt.chanP.g else none } with
          lpm.idle := 0 }) ∧
    (s.idleRuns = true → entryBlock .standby s = none → workDone s = false →
      exec .idleTimerExpiry s = .next { s with
        lpm.entry := some { target := .standby, tag := 0#8, cause := .idleTimer }
        lpm.idle := 0 }) ∧
    (∀ st, s.idleRuns = true → entryBlock .standby s = some st →
      exec .idleTimerExpiry s = .next { s with lpm.idle := 0 }) ∧
    (s.idleRuns = false → exec .idleTimerExpiry s = .next s)

/-! ### The weighing channels, tare and capture (chapters 2 and 3) -/

/-- R28, R61: D is a whole number of divisions, none nearer to the net weight, a tie going away from zero;
channel P divides by 2 g up to a net of 6,000,000 mg and by 5 g above it, channel B by 10 g. The price of a
capture is the exact product over 1,000, rounded half up. -/
def Obligations.WeightsAndPricesRounded : Prop :=
  (∀ (ch : Channel) (net : Int), ∃ m : Int, ch.toD net = (ch.division net : Int) * m ∧
    2 * (1000 * ch.toD net - net).natAbs ≤ 1000 * ch.division net ∧
    (2 * (1000 * ch.toD net - net).natAbs = 1000 * ch.division net →
      net.natAbs < (1000 * ch.toD net).natAbs)) ∧
  (∀ net : Int, (Channel.division .p net = if net ≤ 6000000 then 2 else 5) ∧
    Channel.division .b net = 10) ∧
  (∀ net unit : Nat, 2000 * capturePrice net unit ≤ 2 * (net * unit) + 1000 ∧
    2 * (net * unit) + 1000 < 2000 * capturePrice net unit + 2000)

/-- R22 to R29, R36, R37, R54: a block without an extreme code, read while the window is still FILLING or the
channels are DISTURBED. The reading joins the window, the figures of the channel follow from it, the channel
is not STABLE, a gross below 40,000 mg re-arms the interlock, and no operation is judged. R23, R24, R33, Table
2-2: a block with an extreme code forces the range flag for 8 clean readings and empties both windows; the
channel has no D. In both the channel is not STABLE before, so no motion event comes of it, and the other
channel, the tare, the sale and the bagging monitor are untouched. A channel whose converter does not run
takes no reading. R33, R34, R41: a channel that meets the four conditions at a reading becomes STABLE with a
SCALE_STABLE notice, or stays so with none; one whose spread has grown leaves STABLE with a SCALE_MOTION notice;
the readings that meet the tracking conditions are counted, and the 60th moves the offset to its weight, or
suspends tracking where that leaves the zero band. An event that finds nothing it could happen to leaves the
state unchanged: log entry 6. The figures of a reading that moves the offset are log entry 40. -/
def Obligations.ReadingTaken : Prop :=
  (∀ (ch : Channel) (block : Samples) (s : State), s.unbound → s.wgt.conv = .running →
    overrange (sampleValues block) = none → (s.chan ch).stable = false →
    ((s.chan ch).win.length + 1 < s.set.filterDepth ch ∨ s.wgt.disturbed = true) →
      ∃ t, exec (.reading ch block) s = .next t ∧
        (t.chan ch).win =
          lastN (s.set.filterDepth ch) ((s.chan ch).win ++ [decimate (sampleValues block)]) ∧
        (t.chan ch).f = smoothed (t.chan ch).win ∧
        (t.chan ch).w = calibrated (t.chan ch).f (s.chan ch).c0 (s.chan ch).k ∧
        (t.chan ch).g = (t.chan ch).w - (s.chan ch).zw ∧
        (t.chan ch).net = (if ch = .p then (t.chan ch).g - (s.wgt.tare : Int) else (t.chan ch).g) ∧
        (t.chan ch).e = ch.division (t.chan ch).net ∧
        (t.chan ch).range =
          (if (s.chan ch).forced ≤ 1 then rangeOf ch (t.chan ch).g else (s.chan ch).range) ∧
        (t.chan ch).d = (if (s.chan ch).calValid && (s.chan ch).zeroValid &&
          decide ((t.chan ch).range = .inside) then some (ch.toD (t.chan ch).net) else none) ∧
        (t.chan ch).stable = false ∧ (t.chan ch).track = 0 ∧ (t.chan ch).op = (s.chan ch).op ∧
        (t.chan ch).zw = (s.chan ch).zw ∧ (t.chan ch).zeroValid = (s.chan ch).zeroValid ∧
        (∀ o, o ≠ ch → t.chan o = s.chan o) ∧
        t.wgt.armed = (s.wgt.armed || (decide (ch = .p) && decide ((t.chan ch).g < 40000))) ∧
        t.wgt.tare = s.wgt.tare ∧ t.txn = s.txn ∧ t.bag = s.bag ∧ t.set = s.set) ∧
  (∀ (ch : Channel) (block : Samples) (s : State),
    (s.wgt.conv ≠ .running → exec (.reading ch block) s = .next s) ∧
    (∀ flag, s.unbound → s.wgt.conv = .running → (s.chan ch).stable = false →
      overrange (sampleValues block) = some flag →
        ∃ t, exec (.reading ch block) s = .next t ∧
          t.chan ch = { s.chan ch with
            range := flag, forced := 8, hasValue := false, d := none, centre := false, track := 0,
            win := [], stab := [] } ∧
          (flag = .underRange ↔ -8388608 ∈ sampleValues block) ∧
          (∀ o, o ≠ ch → t.chan o = s.chan o) ∧ t.wgt.tare = s.wgt.tare ∧
          t.wgt.armed = s.wgt.armed ∧ t.txn = s.txn ∧ t.bag = s.bag ∧
          (flag = (s.chan ch).range → t.rpt = s.rpt))) ∧
  (∀ (ch : Channel) (block : Samples) (s : State), s.unbound → s.steady ch block →
    (s.chan ch).op = none → s.attemptOver ch → s.nextRange ch block = (s.chan ch).range →
    ((s.chan ch).stable = false → (s.chan ch).track < 59 → s.sst.started = true →
      s.lpm.mode ≠ .standby → s.bag.watch = .off →
      ∃ t, exec (.reading ch block) s = .next t ∧ (t.chan ch).stable = true ∧
        (t.chan ch).stab = s.nextStab ch block ∧ (t.chan ch).w = s.nextW ch block ∧
        (t.chan ch).d = s.nextD ch block ∧
        t.rpt = (raiseQuiet (.scaleStable ch (s.nextD ch block)) s).rpt ∧
        t.bag = (match ch, s.nextD ch block with
          | .b, some d => { s.bag with rb := d }
          | _, _ => s.bag) ∧ t.txn = s.txn ∧ t.wgt.tare = s.wgt.tare) ∧
    ((s.chan ch).stable = true →
      ∃ t, exec (.reading ch block) s = .next t ∧ (t.chan ch).stable = true ∧
        (t.chan ch).stab = s.nextStab ch block ∧ (t.chan ch).w = s.nextW ch block ∧
        (t.chan ch).d = s.nextD ch block ∧ t.rpt.queue = s.rpt.queue ∧ t.bag = s.bag ∧
        t.txn = s.txn ∧ t.wgt.tare = s.wgt.tare ∧
        (∀ met, met = (s.set.zeroTrack ch && !(s.chan ch).suspended && (s.chan ch).zeroValid &&
            (decide (ch = .b) || decide (s.wgt.tare = 0)) &&
            decide (((s.nextG ch block).natAbs : Int) ≤ ch.trackWindow)) →
          ((met = false ∨ (s.chan ch).track < 59) → t.rpt = s.rpt ∧
            (t.chan ch).zw = (s.chan ch).zw ∧ (t.chan ch).suspended = (s.chan ch).suspended ∧
            (t.chan ch).track = if met then (s.chan ch).track + 1 else 0) ∧
          (met = true → (s.chan ch).track = 59 →
            ((s.nextW ch block - (s.chan ch).zc).natAbs : Int) ≤ ch.zeroBand →
            t.rpt = s.rpt ∧ (t.chan ch).zw = s.nextW ch block ∧ (t.chan ch).track = 0 ∧
              (t.chan ch).suspended = false) ∧
          (met = true → (s.chan ch).track = 59 →
            ch.zeroBand < ((s.nextW ch block - (s.chan ch).zc).natAbs : Int) →
            t.rpt = { s.rpt with latched := s.rpt.latched.band ch } ∧
              (t.chan ch).zw = (s.chan ch).zw ∧ (t.chan ch).track = 0 ∧
              (t.chan ch).suspended = true)))) ∧
  (∀ (ch : Channel) (block : Samples) (s : State), s.unbound → s.readable block →
    s.nextRange ch block = (s.chan ch).range → (s.chan ch).stable = true →
    1000 * (ch.division (s.nextNet ch block) : Int) < spread (s.nextStab ch block) →
      ∃ t, exec (.reading ch block) s = .next t ∧ (t.chan ch).stable = false ∧
        (t.chan ch).stab = s.nextStab ch block ∧ (t.chan ch).track = 0 ∧
        (t.chan ch).op = (s.chan ch).op ∧ (t.chan ch).zw = (s.chan ch).zw ∧
        t.rpt = (raiseQuiet (.scaleMotion ch (s.nextD ch block)) s).rpt ∧ t.bag = s.bag ∧
        t.txn = s.txn)

/-- R38, R40, R42 to R46, R195: the operations that a STABLE reading judges on its own channel. SCALE_ZERO moves the
zero offset to the reading's weight within the zero band, or establishes zero within the initial range where it
was invalid, and fails OUT_OF_BAND elsewhere. CAL_ZERO takes the smoothed count as C0, CAL_SPAN the nearest span
factor K or ends with RANGE; a write makes the zero invalid and waits for the store. K is the quotient rounded
half up. An initial zero attempt ends at its first stable event, and the last of the two ends start-up. -/
def Obligations.ZeroOperationsJudged : Prop :=
  (∀ (ch : Channel) (block : Samples) (o : Op) (s : State), s.unbound → s.sst.started = true →
    s.steady ch block → s.attemptOver ch → (s.chan ch).track < 59 → (s.chan ch).op = some o →
    o.writing = false →
    (∀ inBand, o.kind = .zero → inBand = (if (s.chan ch).zeroValid then
        decide (((s.nextW ch block - (s.chan ch).zc).natAbs : Int) ≤ ch.zeroBand)
        else decide (((s.nextW ch block).natAbs : Int) ≤ ch.initRange)) →
      ∃ t, exec (.reading ch block) s = .next t ∧ (t.chan ch).op = none ∧
        (t.chan ch).stable = true ∧
        (inBand = true → (t.chan ch).zeroValid = true ∧ (t.chan ch).zw = s.nextW ch block ∧
          (t.chan ch).zc = (if (s.chan ch).zeroValid then (s.chan ch).zc else s.nextW ch block) ∧
          (t.chan ch).g = 0 ∧ (t.chan ch).suspended = false ∧ (t.chan ch).track = 0 ∧
          ((s.chan ch).stable = true → s.nextRange ch block = (s.chan ch).range →
            t.rpt.queue = (raiseQuiet (.zeroDone o.tag ch (mgToGrams (s.nextW ch block))
              (s.chan ch).zeroValid) s).rpt.queue ∧
            t.bag = (if ch = .b then { s.bag with rb := 0 } else s.bag))) ∧
        (inBand = false → (t.chan ch).zeroValid = (s.chan ch).zeroValid ∧
          (t.chan ch).zw = (s.chan ch).zw ∧ (t.chan ch).zc = (s.chan ch).zc ∧
          ((s.chan ch).stable = true → s.nextRange ch block = (s.chan ch).range →
            t.rpt = (raiseQuiet (.zeroFailed o.tag ch .outOfBand
              (mgToGrams (s.nextW ch block))) s).rpt ∧ t.bag = s.bag))) ∧
    (o.kind = .calZero → ∃ t, exec (.reading ch block) s = .next t ∧
      (t.chan ch).c0 = s.nextF ch block ∧ (t.chan ch).k = (s.chan ch).k ∧
      (t.chan ch).calValid = (s.chan ch).calValid ∧
      ((s.chan ch).calValid = true → (t.chan ch).zeroValid = false ∧ (t.chan ch).d = none ∧
        (t.chan ch).calZeroed = false ∧ (t.chan ch).stable = false ∧ (t.chan ch).stab = [] ∧
        (t.chan ch).op = some { o with writing := true } ∧
        (ch = .p → t.wgt.tare = 0) ∧ t.sst.count = min (s.sst.count + 1) 65535 ∧
        t.sst.writes = s.sst.writes ++
          [.calibration ch t.sst.count (s.nextF ch block) (s.chan ch).k]) ∧
      ((s.chan ch).calValid = false → (t.chan ch).calZeroed = true ∧ (t.chan ch).op = none ∧
        t.sst = s.sst)) ∧
    (∀ grams k, o.kind = .calSpan grams →
      k = spanFactor grams (s.nextF ch block - (s.chan ch).c0) →
      ∃ t, exec (.reading ch block) s = .next t ∧ (t.chan ch).c0 = (s.chan ch).c0 ∧
        ((s.nextF ch block - (s.chan ch).c0 < 400000 ∨ k < 16384 ∨ 1048576 < k) →
          (t.chan ch).k = (s.chan ch).k ∧ (t.chan ch).op = none ∧ t.sst = s.sst ∧
          ((s.chan ch).stable = true → s.nextRange ch block = (s.chan ch).range →
            t.rpt = (raiseQuiet (.calDone o.tag ch true .range (s.chan ch).c0 (s.chan ch).k
              s.sst.count) s).rpt)) ∧
        (400000 ≤ s.nextF ch block - (s.chan ch).c0 → 16384 ≤ k → k ≤ 1048576 →
          (t.chan ch).k = k ∧ (t.chan ch).calValid = true ∧ (t.chan ch).zeroValid = false ∧
          (t.chan ch).d = none ∧ (t.chan ch).stable = false ∧ (t.chan ch).stab = [] ∧
          (t.chan ch).op = some { o with writing := true } ∧
          (ch = .p → t.wgt.tare = 0) ∧ t.sst.count = min (s.sst.count + 1) 65535 ∧
          t.sst.writes = s.sst.writes ++
            [.calibration ch t.sst.count (s.chan ch).c0 k]))) ∧
  (∀ (grams : Nat) (diff : Int), 0 < diff →
    2 * diff * (spanFactor grams diff : Int) ≤ 2 * (1000 * grams * 65536) + diff ∧
      2 * (1000 * (grams : Int) * 65536) + diff < 2 * diff * (spanFactor grams diff + 1)) ∧
  (∀ (ch : Channel) (block : Samples) (age : Nat) (s : State), s.unbound → s.steady ch block →
    (s.chan ch).init = .running age → (s.chan ch).stable = false → (s.chan ch).op = none →
    (s.chan ch).track < 59 → s.job.table = [] →
      ∃ t, exec (.reading ch block) s = .next t ∧ (t.chan ch).stable = true ∧
        (((s.nextW ch block).natAbs : Int) ≤ ch.initRange →
          (t.chan ch).init = .ended .established ∧ (t.chan ch).zeroValid = true ∧
          (t.chan ch).zc = s.nextW ch block ∧ (t.chan ch).zw = s.nextW ch block ∧
          (t.chan ch).g = 0) ∧
        (ch.initRange < ((s.nextW ch block).natAbs : Int) →
          (t.chan ch).init = .ended .outOfRange ∧
          (t.chan ch).zeroValid = (s.chan ch).zeroValid ∧ (t.chan ch).zw = (s.chan ch).zw) ∧
        (s.sst.started = false → (∀ o, o ≠ ch → ∃ x, (s.chan o).init = .ended x) →
          t.sst.started = true))

/-- R20, R39, R40, R42, R48: an operation that passes its checks takes the channel's slot and is answered
PENDING with no data, and nothing else changes. What refuses it: a channel byte above 1, CAL_EN inactive, a
test weight out of range, a held slot, an invalid calibration or zero, a held tare. That the limit of a zero or a tare
is CAPTURE_TIMEOUT as it stands then is log entry 32. -/
def Obligations.OperationChecked : Prop :=
  (∀ (tag channel : Byte) (grams : BitVec 16) (ch : Channel) (s : State), s.ready →
      Channel.ofByte channel = some ch → (s.chan ch).op = none →
      ((s.chan ch).calValid = true → (ch = .p → s.wgt.tare = 0) →
        exec (.scaleZero tag channel) s = .next
          ((takeSlot ch .zero tag (1000 * s.set.captureTimeout) s).answered tag 0x21#8 .pending [])) ∧
      (ch = .p → (s.chan ch).calValid = true → (s.chan ch).zeroValid = true →
        exec (.scaleTare tag) s = .next
          ((takeSlot .p .tare tag (1000 * s.set.captureTimeout) s).answered tag 0x22#8 .pending [])) ∧
      (s.calEn = true →
        exec (.calZero tag channel) s = .next
          ((takeSlot ch .calZero tag 10000 s).answered tag 0x28#8 .pending [])) ∧
      (s.calEn = true → 100 ≤ grams.toNat → grams.toNat ≤ ch.maxGrams →
        ((s.chan ch).calValid = true ∨ (s.chan ch).calZeroed = true) →
        exec (.calSpan tag channel grams) s = .next
          ((takeSlot ch (.calSpan grams.toNat) tag 10000 s).answered tag 0x29#8 .pending []))) ∧
  (∀ (tag channel : Byte) (grams : BitVec 16) (s : State), s.ready →
      (1 < channel.toNat → Refuses (.scaleZero tag channel) tag 0x21#8 .refusedRange s ∧
        Refuses (.calZero tag channel) tag 0x28#8 .refusedRange s ∧
        Refuses (.calSpan tag channel grams) tag 0x29#8 .refusedRange s) ∧
      (∀ ch, Channel.ofByte channel = some ch →
        (s.calEn = false → Refuses (.calZero tag channel) tag 0x28#8 .refusedPermit s ∧
          Refuses (.calSpan tag channel grams) tag 0x29#8 .refusedPermit s) ∧
        (s.calEn = true → (grams.toNat < 100 ∨ ch.maxGrams < grams.toNat) →
          Refuses (.calSpan tag channel grams) tag 0x29#8 .refusedRange s) ∧
        ((s.chan ch).op.isSome = true → Refuses (.scaleZero tag channel) tag 0x21#8 .refusedBusy s) ∧
        ((s.chan ch).op.isSome = true → s.calEn = true →
          Refuses (.calZero tag channel) tag 0x28#8 .refusedBusy s) ∧
        ((s.chan ch).op = none → ((s.chan ch).calValid = false ∨ (ch = .p ∧ 0 < s.wgt.tare)) →
          Refuses (.scaleZero tag channel) tag 0x21#8 .refusedState s) ∧
        ((s.chan ch).op = none → s.calEn = true → 100 ≤ grams.toNat → grams.toNat ≤ ch.maxGrams →
          (s.chan ch).calValid = false → (s.chan ch).calZeroed = false →
          Refuses (.calSpan tag channel grams) tag 0x29#8 .refusedState s)) ∧
      (s.wgt.chanP.op.isSome = true → Refuses (.scaleTare tag) tag 0x22#8 .refusedBusy s) ∧
      (s.wgt.chanP.op = none → (s.wgt.chanP.calValid = false ∨ s.wgt.chanP.zeroValid = false) →
        Refuses (.scaleTare tag) tag 0x22#8 .refusedState s))

/-- R50, R51: SCALE_TARE_PRESET and SCALE_TARE_CLEAR, on a lane that takes them at once. The tare taken is the
given value where it is even and the next higher value where it is odd. The reply of a clear carries the tare
and kind that were cleared. -/
def Obligations.TareSetAndCleared : Prop :=
  (∀ (tag : Byte) (grams : BitVec 16) (s : State), s.ready →
    ((grams.toNat < 2 ∨ 3000 < grams.toNat) →
      Refuses (.scaleTarePreset tag grams) tag 0x23#8 .refusedRange s) ∧
    (2 ≤ grams.toNat → grams.toNat ≤ 3000 → s.wgt.chanP.op.isSome = true →
      Refuses (.scaleTarePreset tag grams) tag 0x23#8 .refusedBusy s) ∧
    (2 ≤ grams.toNat → grams.toNat ≤ 3000 → s.wgt.chanP.op = none →
      (s.wgt.chanP.calValid = false ∨ s.wgt.chanP.zeroValid = false) →
      Refuses (.scaleTarePreset tag grams) tag 0x23#8 .refusedState s) ∧
    (2 ≤ grams.toNat → grams.toNat ≤ 3000 → s.wgt.chanP.op = none →
      s.wgt.chanP.calValid = true → s.wgt.chanP.zeroValid = true →
      (grams.toNat % 2 = 0 → exec (.scaleTarePreset tag grams) s = .next
        ({ s with wgt.tare := 1000 * grams.toNat, wgt.tareKind := .preset }.answered
          tag 0x23#8 .ok (be16 grams.toNat))) ∧
      (grams.toNat % 2 = 1 → exec (.scaleTarePreset tag grams) s = .next
        ({ s with wgt.tare := 1000 * (grams.toNat + 1), wgt.tareKind := .preset }.answered
          tag 0x23#8 .okClamped (be16 (grams.toNat + 1)))))) ∧
  (∀ (tag : Byte) (s : State), s.ready →
    (s.wgt.chanP.op.isSome = true → Refuses (.scaleTareClear tag) tag 0x24#8 .refusedBusy s) ∧
    (s.wgt.chanP.op = none → exec (.scaleTareClear tag) s = .next
      ({ s with wgt.tare := 0, wgt.tareKind := .none }.answered tag 0x24#8 .ok
        (be16 (s.wgt.tare / 1000) ++ [s.wgt.tareKind.code]))) ∧
    (s.wgt.chanP.op = none → s.wgt.tare = 0 → s.wgt.tareKind = .none →
      exec (.scaleTareClear tag) s = .next (s.answered tag 0x24#8 .ok [0#8, 0#8, 0#8])))

/-- R57, R195: SCALE_CANCEL frees the slot of every operation whose calibration write has not begun, raises its
completion notice with reason CANCELLED, channel P's first, answers how many it ended, and changes nothing else.
R40, R42, R48, R56: an operation that times out, or a calibration request that loses its permit, frees its slot
and raises its completion notice; nothing else changes. An event that finds nothing it could happen to leaves
the state unchanged: log entry 6. That P's notice comes first is log entry 7, and that a capture's reasons are
judged as the channel stands at the expiry is log entry 52. -/
def Obligations.OperationsEnded : Prop :=
  (∀ (tag : Byte) (s : State), s.ready → s.unbound →
    ∀ ended : Channel → List Notice,
      (∀ ch, ended ch = match (s.chan ch).op with
        | some o => if o.writing then [] else [s.cancelNotice ch o]
        | none => []) →
      exec (.scaleCancel tag) s = .next
        ({ (ended .p ++ ended .b).foldl (fun t n => raiseQuiet n t) s with
          wgt := { s.wgt with
            chanP.op := s.wgt.chanP.op.bind fun o => if o.writing then some o else none
            chanB.op := s.wgt.chanB.op.bind fun o => if o.writing then some o else none } }.answered
          tag 0x25#8 .ok [u8 (ended .p ++ ended .b).length])) ∧
  (∀ (ch : Channel) (s : State), s.unbound →
    (∀ o, (s.chan ch).op = some o → o.writing = false → o.kind = .zero →
      exec (.zeroTimeout ch) s = .next (raiseQuiet (.zeroFailed o.tag ch .timeout 0) (freeSlot ch s))) ∧
    (∀ o, s.wgt.chanP.op = some o → o.writing = false → o.kind = .tare →
      exec .tareTimeout s = .next (raiseQuiet (.tareFailed o.tag .timeout none) (freeSlot .p s))) ∧
    (∀ o price code desc, s.wgt.chanP.op = some o → o.writing = false →
      o.kind = .capture price code desc →
      exec .captureTimeoutExpiry s =
        .next (raiseQuiet (.weighFailed o.tag s.captureReasons) (freeSlot .p s))) ∧
    (∀ o, (s.chan ch).op = some o → o.writing = false → o.kind.isCal = true →
      exec (.calTimeout ch) s = .next (raiseQuiet (.calDone o.tag ch o.kind.isSpan .timeout
        (s.chan ch).c0 (s.chan ch).k s.sst.count) (freeSlot ch s))) ∧
    (∀ o, s.wgt.chanP.op = some o → o.writing = false → o.kind.isCal = true → s.wgt.chanB.op = none →
      exec (.calEnChange false) s = .next (raiseQuiet (.calDone o.tag .p o.kind.isSpan .permit
        s.wgt.chanP.c0 s.wgt.chanP.k s.sst.count) (freeSlot .p { s with calEn := false }))) ∧
    exec (.calEnChange true) s = .next { s with calEn := true } ∧
    ((s.chan ch).op = none →
      exec (.zeroTimeout ch) s = .next s ∧ exec (.calTimeout ch) s = .next s) ∧
    (s.wgt.chanP.op = none →
      exec .tareTimeout s = .next s ∧ exec .captureTimeoutExpiry s = .next s))

/-- R21, R24, R33, R38, R196, R197: at the end of a warm-up readings begin, the windows are empty and, with
both calibrations valid, both initial zero attempts run. An attempt on P that gets no stable event ends
NO_STABLE: at start-up it is kept for STARTUP, which is raised once the attempt on B has ended too; later it
is reported by ZERO_FAILED. R35, R36: when the last guard runs out and no action is in force, both
stability windows restart; the channels are not STABLE before. With an action in force only the guard ends. An
event that finds nothing it could happen to leaves the state unchanged: log entry 6. The SETTINGS_DEFAULTED of
STARTUP is that of step 1: log entry 58. -/
def Obligations.ScaleTimersExpire : Prop :=
  (∀ s : State, s.job.table = [] → s.wgt.chanP.stable = false → s.wgt.chanB.stable = false →
      (s.wgt.conv = .warming → s.wgt.chanP.calValid = true → s.wgt.chanB.calValid = true →
        exec .converterWarmupEnd s = .next { s with
          wgt.conv := .running
          wgt.warmAge := 0
          wgt.chanP := { s.wgt.chanP with win := [], stab := [], init := .running 0 }
          wgt.chanB := { s.wgt.chanB with win := [], stab := [], init := .running 0 } }) ∧
      (s.wgt.conv ≠ .warming → exec .converterWarmupEnd s = .next s)) ∧
  (∀ (age : Nat) (s : State), s.unbound → s.job.table = [] → s.wgt.chanP.init = .running age →
      (∀ b, s.sst.started = false → s.wgt.chanB.init = .ended b →
        exec (.initialZeroTimeout .p) s = .next
          (raiseQuiet (.startup s.sst.kind s.sst.defaulted s.wgt.chanP.calValid s.wgt.chanB.calValid
              .noStable b s.sst.interrupted s.sst.count (s.sense .d1) (s.sense .d2))
            { s with wgt.chanP.init := .ended .noStable, sst.started := true, lpm.idle := 0 })) ∧
      (∀ a, s.sst.started = false → s.wgt.chanB.init = .running a →
        exec (.initialZeroTimeout .p) s = .next { s with wgt.chanP.init := .ended .noStable }) ∧
      (s.sst.started = true →
        exec (.initialZeroTimeout .p) s = .next (raiseQuiet (.zeroFailed 0#8 .p .noStable 0)
          { s with wgt.chanP.init := .ended .noStable }))) ∧
  (∀ s : State, s.wgt.chanP.stable = false → s.wgt.chanB.stable = false →
    (s.wgt.guard.isSome = true → s.wgt.actions = [] →
      exec .disturbanceGuardEnd s = .next { s with
        wgt.guard := none, wgt.chanP.stab := [], wgt.chanB.stab := [] }) ∧
    (s.wgt.guard.isSome = true → s.wgt.actions ≠ [] →
      exec .disturbanceGuardEnd s = .next { s with wgt.guard := none }) ∧
    (s.wgt.guard = none → exec .disturbanceGuardEnd s = .next s))

/-- R64, R65: SCALE_STREAM takes the nearest multiple of 100 ms within 100 to 1,000 ms, a tie going up, or 200
ms for 0, and streams afresh; 0xFF stops streaming. The end of a period fills the snapshot slot where the
readout differs from the last one placed. The period answered to 0xFF is a free value: log entry 10. An event
that finds nothing it could happen to leaves the state unchanged: log entry 6. The tare and the interlock a readout
shows are those of its moment: log entry 71. -/
def Obligations.StreamingFollowsReadout : Prop :=
  (∀ (tag channel : Byte) (period : BitVec 16) (s : State), s.ready →
    (∀ ch, Channel.ofByte channel = some ch → ∃ p,
      exec (.scaleStream tag channel period) s = .next
        ({ s with wgt.stream := some { ch := ch, period := p, age := 0, last := none } }.answered
          tag 0x26#8 (if period = 0#16 ∨ p = period.toNat then .ok else .okClamped)
          (channel :: be16 p)) ∧
      p % 100 = 0 ∧ 100 ≤ p ∧ p ≤ 1000 ∧ (period = 0#16 → p = 200) ∧
      (100 ≤ period.toNat → period.toNat ≤ 1000 →
        p ≤ period.toNat + 50 ∧ period.toNat < p + 50) ∧
      (period ≠ 0#16 → period.toNat < 100 → p = 100) ∧ (1000 < period.toNat → p = 1000)) ∧
    (channel = 0xFF#8 → ∃ v, exec (.scaleStream tag channel period) s = .next
      ({ s with wgt.stream := none, free := s.free + 1 }.answered tag 0x26#8 .ok
        (channel :: be16 v))) ∧
    (1 < channel.toNat → channel ≠ 0xFF#8 →
      Refuses (.scaleStream tag channel period) tag 0x26#8 .refusedRange s)) ∧
  (∀ s : State,
    (s.wgt.stream = none → exec .streamPeriodEnd s = .next s) ∧
    (∀ x, s.wgt.stream = some x → x.last = some (s.readoutBody x.ch) →
      exec .streamPeriodEnd s = .next { s with wgt.stream := some { x with age := 0 } }) ∧
    (∀ x, s.wgt.stream = some x → x.last ≠ some (s.readoutBody x.ch) →
      exec .streamPeriodEnd s = .next (fillSnapshot (s.readoutBody x.ch)
        { s with wgt.stream := some { x with age := 0, last := some (s.readoutBody x.ch) } })))

/-- R62, R63, R83, R107, R143, R198: IDENT and the status requests of the scale, the bagging monitor, the sale
and the drawers answer their figures in every power state and change nothing but the link and the idle timer,
which returns to 0. A readout is 10 bytes. What it shows of a channel without readings, and when NOT_READY ends,
is log entries 13 and 53; that it shows the tare and the interlock of its moment is log entry 71; that the open time
of a port saturates is log entry 48. -/
def Obligations.StatusAnswered : Prop :=
  ∀ (tag channel : Byte) (s : State), s.linkFree →
    (∀ ch, Channel.ofByte channel = some ch →
      exec (.scaleRead tag channel) s =
        .next (s.answered tag 0x20#8 .ok (channel :: s.readout ch)) ∧ (s.readout ch).length = 10) ∧
    (1 < channel.toNat → Refuses (.scaleRead tag channel) tag 0x20#8 .refusedRange s) ∧
    exec (.bagStatus tag) s = .next (s.answered tag 0x32#8 .ok s.bag.report) ∧
    exec (.txnStatus tag) s = .next (s.answered tag 0x49#8 .ok s.txnStatus) ∧
    exec (.drawerStatus tag) s =
      .next (s.answered tag 0x62#8 .ok (s.portStatus .d1 ++ s.portStatus .d2)) ∧
    exec (.ident tag) s = .next (s.answered tag 0x01#8 .ok
      ([6#8, 0x43#8, 0x4A#8, 0x2D#8, 0x36#8, 0x34#8, 0x30#8, u8 (0x41 + Config.revision % 26)] ++
        be16 s.sst.count ++
        [0x3A#8, 0x98#8, 2#8, 5#8, 0x17#8, 0x70#8, 0x00#8, 0x28#8,
         0x75#8, 0x30#8, 10#8, 10#8, 0x75#8, 0x30#8, 0x00#8, 0x00#8]))

/-- R55, R60, R74, R92: an accepted candidate becomes the next item of the sale with its record, the interlock
is disarmed, the slot is free, the record counter advances from 65,535 to 1, and with TARE_AUTO_CLEAR on the
tare is cleared. R53, R54: it is so at the first STABLE reading of P at which every condition of a capture holds;
at one where D is outside 40 g to 15,000 g, the zero is invalid or the interlock is disarmed, the capture waits.
R49: a waiting SCALE_TARE takes the reading's D as the tare where it is 1 g to 3,000 g, and fails elsewhere. That
a reading below 40,000 mg re-arms first is log entry 41. -/
def Obligations.CaptureRecorded : Prop :=
  (∀ (tag : Byte) (code unit : Nat) (desc : Text) (d : Int) (s : State),
    s.txn.items.length < 64 → withinLimits s.txn.items (capturePrice d.toNat unit) = true → s.unbound →
      ∃ t : State, judgeCandidate raiseLoud tag code desc (candidate s unit d) s = t ∧
        t.txn.items.length = s.txn.items.length + 1 ∧
        (t.txn.items.getLast?.bind Item.record) = some
          { number := s.wgt.recNo, net := d.toNat, tare := s.wgt.tare / 1000,
            gross := d.toNat + s.wgt.tare / 1000, division := s.wgt.chanP.e, kind := s.wgt.tareKind,
            price := unit, amount := capturePrice d.toNat unit, slot := s.txn.items.length + 1 } ∧
        t.wgt.armed = false ∧ t.wgt.chanP.op = none ∧
        t.wgt.recNo = (if s.wgt.recNo = 65535 then 1 else s.wgt.recNo + 1) ∧
        t.wgt.tare = (if s.set.tareAutoClear = 0 then s.wgt.tare else 0) ∧
        t.rpt.queue = (raiseQuiet (.weighDone tag (s.txn.items.length + 1) s.wgt.recNo d.toNat
          (s.wgt.tare / 1000) (capturePrice d.toNat unit)
          (total s.txn.items + capturePrice d.toNat unit)
          (if s.bag.entries.length < 8 then .pending else .unchecked)) s).rpt.queue) ∧
  (∀ (block : Samples) (o : Op) (price code : Nat) (desc : Text) (d : Int) (s : State), s.unbound →
    s.sst.started = true → s.steady .p block → s.attemptOver .p → s.wgt.chanP.track < 59 →
    s.wgt.chanP.op = some o → o.writing = false → o.kind = .capture price code desc →
    (∀ armed, s.nextD .p block = some d →
      armed = (s.wgt.armed || decide (s.nextG .p block < 40000)) →
      (40 ≤ d → d ≤ 15000 → armed = true → s.txn.items.length < 64 →
        withinLimits s.txn.items (capturePrice d.toNat price) = true →
        ∃ t, exec (.reading .p block) s = .next t ∧
          t.txn.items.length = s.txn.items.length + 1 ∧
          (t.txn.items.getLast?.bind Item.record) = some
            { number := s.wgt.recNo, net := d.toNat, tare := s.wgt.tare / 1000,
              gross := d.toNat + s.wgt.tare / 1000,
              division := Channel.division .p (s.nextNet .p block), kind := s.wgt.tareKind,
              price := price, amount := capturePrice d.toNat price,
              slot := s.txn.items.length + 1 } ∧
          t.wgt.armed = false ∧ t.wgt.chanP.op = none ∧
          t.wgt.recNo = (if s.wgt.recNo = 65535 then 1 else s.wgt.recNo + 1) ∧
          t.wgt.tare = (if s.set.tareAutoClear = 0 then s.wgt.tare else 0)) ∧
      ((d < 40 ∨ 15000 < d ∨ armed = false) → ∃ t, exec (.reading .p block) s = .next t ∧
        t.wgt.chanP.op = some o ∧ t.txn = s.txn ∧ t.wgt.recNo = s.wgt.recNo ∧
        t.wgt.armed = armed)) ∧
    (s.nextD .p block = none → ∃ t, exec (.reading .p block) s = .next t ∧
      t.wgt.chanP.op = some o ∧ t.txn = s.txn ∧ t.wgt.recNo = s.wgt.recNo)) ∧
  (∀ (block : Samples) (o : Op) (d : Int) (s : State), s.unbound → s.sst.started = true →
    s.steady .p block → s.attemptOver .p → s.wgt.chanP.track < 59 → s.wgt.chanP.op = some o →
    o.writing = false → o.kind = .tare → d = Channel.p.toD (s.nextG .p block) →
      ∃ t, exec (.reading .p block) s = .next t ∧ t.wgt.chanP.op = none ∧ t.txn = s.txn ∧
        (s.nextRange .p block = .inside → 1 ≤ d → d ≤ 3000 →
          t.wgt.tare = 1000 * d.toNat ∧ t.wgt.tareKind = .captured ∧
          (s.wgt.chanP.stable = true → s.wgt.chanP.range = .inside →
            t.rpt = (raiseQuiet (.tareDone o.tag d.toNat .captured) s).rpt)) ∧
        ((s.nextRange .p block ≠ .inside ∨ d < 1 ∨ 3000 < d) →
          t.wgt.tare = s.wgt.tare ∧ t.wgt.tareKind = s.wgt.tareKind ∧
          (s.wgt.chanP.stable = true → s.wgt.chanP.range = s.nextRange .p block →
            t.rpt = (raiseQuiet (.tareFailed o.tag .range
              (if s.nextRange .p block = .inside then some d else none)) s).rpt)))

/-! ### The bagging monitor (chapter 4) -/

/-- R72: a new entry's tolerance, age and state, the four worked tolerances, and the item's bag status at the
append to a list with room. -/
def Obligations.ExpectationAppended : Prop :=
  (∀ (slot w tol : Nat) (remove : Bool),
    Entry.new slot remove w tol =
      { slot := slot, remove := remove, weight := w,
        tol := (if tol = 0 then max 30 (w * 5 / 100) else tol), age := 0, overdue := false }) ∧
  ((Entry.new 1 false 420 0).tol = 30 ∧ (Entry.new 1 false 1234 0).tol = 61 ∧
    (Entry.new 1 false 2000 0).tol = 100 ∧ (Entry.new 1 false 599 0).tol = 30) ∧
  (∀ (e : Entry) (s : State), s.bag.entries.length < 8 →
    appendEntry e s = { s with
      bag.entries := s.bag.entries ++ [e]
      txn.items := s.txn.items.map fun (it : Item) =>
        if it.slot = e.slot then { it with bag := .pending } else it })

/-- R68, R69, R70, R78, R79, R80: a stable event of channel B with a D. In OFF the reference follows it; below
the threshold nothing is judged. A settle matches the oldest entry of its sign whose tolerance covers the
difference, and that entry alone leaves the list. A settle that matches none is bad: it takes WATCH to HOLD, and in
HOLD it raises the count of the hold record; it raises the notice of its verdict, with the entries of its sign that it
was judged against, and leaves the list as it was. The reference then is the settle's D. R34: the monitor judges in
this way the reading at which channel B becomes STABLE, and no other. -/
def Obligations.SettleJudged : Prop :=
  (∀ (d : Int) (s : State), s.wgt.chanB.d = some d → s.unbound →
    (s.bag.watch = .off → bagStable raiseLoud s = { s with bag.rb := d }) ∧
    (s.bag.watch ≠ .off → (d - s.bag.rb).natAbs < s.set.bagThreshold → bagStable raiseLoud s = s) ∧
    (∀ pre e post, s.bag.watch ≠ .off → s.set.bagThreshold ≤ (d - s.bag.rb).natAbs →
      s.bag.entries = pre ++ e :: post → (∀ x ∈ pre ++ post, x.slot ≠ e.slot) →
      (e.remove = true ↔ d < s.bag.rb) → ((d - s.bag.rb).natAbs - (e.weight : Int)).natAbs ≤ e.tol →
      (∀ x ∈ pre, x.remove = e.remove →
        x.tol < ((d - s.bag.rb).natAbs - (x.weight : Int)).natAbs) →
        ∃ t, bagStable raiseLoud s = t ∧ t.bag = { s.bag with
            rb := d, entries := pre ++ post, last := .matched, lastDelta := d - s.bag.rb } ∧
          t.txn.items = s.txn.items.map (fun (it : Item) => if it.slot = e.slot then
            (if e.remove then { it with bag := .removed }
             else { it with bag := .bagged, matched := some ((d - s.bag.rb).natAbs, e.tol) }) else it) ∧
          t.rpt = (raiseQuiet (.bagMatch e.slot e.remove (d - s.bag.rb) e.weight e.overdue) s).rpt) ∧
    (s.bag.watch ≠ .off → s.set.bagThreshold ≤ (d - s.bag.rb).natAbs →
      (∀ x ∈ s.bag.entries, x.remove = decide (d < s.bag.rb) →
        x.tol < ((d - s.bag.rb).natAbs - (x.weight : Int)).natAbs) →
        ∃ t v, bagStable raiseLoud s = t ∧ t.txn = s.txn ∧
          v = (if d < s.bag.rb then Verdict.removal
            else if s.bag.entries.any (fun x => !x.remove) then .mismatch else .unexpected) ∧
          (∀ n held, n = s.bag.entries.countP (fun x => x.remove == decide (d < s.bag.rb)) →
            held = decide (s.bag.watch = .hold) →
            t.rpt = (raiseQuiet (if v = .removal then .bagRemoval (d - s.bag.rb) d n held
              else if v = .mismatch then .bagMismatch (d - s.bag.rb) d n held
              else .bagUnexpected (d - s.bag.rb) d n held) s).rpt) ∧
          t.bag = { s.bag with
            watch := .hold, rb := d, last := v, lastDelta := d - s.bag.rb
            hold := some (match s.bag.hold with
              | none => { verdict := v, delta := d - s.bag.rb, count := 1 }
              | some h => { h with count := min (h.count + 1) 255 }) })) ∧
  (∀ (block : Samples) (s u : State), s.unbound → s.sst.started = true → s.steady .b block →
    s.wgt.chanB.op = none → s.attemptOver .b → s.wgt.chanB.track < 59 →
    u = bagStable raiseLoud { s with wgt.chanB.d := s.nextD .b block } →
      ∃ t, exec (.reading .b block) s = .next t ∧
        (s.wgt.chanB.stable = false → t.bag = u.bag ∧ t.txn = u.txn) ∧
        (s.wgt.chanB.stable = true → t.bag = s.bag ∧ t.txn = s.txn))

/-- R77, R81, R82: BAG_SKIP takes the entry of a slot out of the list and makes its item SKIPPED;
BAG_CLEAR_HOLD returns the monitor to WATCH against the present weight. An entry that reaches BAG_TIMEOUT
becomes OVERDUE once, with its notice. An event that finds nothing it could happen to leaves the state
unchanged: log entry 6. -/
def Obligations.ExpectationEnded : Prop :=
  (∀ (tag slot : Byte) (s : State), s.ready →
    ((slot = 0#8 ∨ 64 < slot.toNat) → Refuses (.bagSkip tag slot) tag 0x30#8 .refusedRange s) ∧
    (slot ≠ 0#8 → slot.toNat ≤ 64 → (∀ x ∈ s.bag.entries, x.slot ≠ slot.toNat) →
      Refuses (.bagSkip tag slot) tag 0x30#8 .refusedNotFound s) ∧
    (∀ pre e post, slot ≠ 0#8 → slot.toNat ≤ 64 → s.bag.entries = pre ++ e :: post →
      e.slot = slot.toNat → (∀ x ∈ pre ++ post, x.slot ≠ slot.toNat) →
      exec (.bagSkip tag slot) s = .next
        ({ s with
          bag.entries := pre ++ post
          txn.items := s.txn.items.map fun (it : Item) =>
            if it.slot = slot.toNat then { it with bag := .skipped } else it }.answered
          tag 0x30#8 .ok [slot, if e.remove then 1#8 else 0#8])) ∧
    (s.bag.watch = .hold → exec (.bagClearHold tag) s = .next
      ({ s with
        bag.watch := .watch, bag.hold := none, bag.rb := s.wgt.chanB.d.getD s.bag.rb }.answered
        tag 0x31#8 .ok (beInt32 (s.wgt.chanB.d.getD s.bag.rb)))) ∧
    (s.bag.watch ≠ .hold → Refuses (.bagClearHold tag) tag 0x31#8 .refusedState s)) ∧
  (∀ (slot : Byte) (s : State), s.unbound →
    (∀ pre e post, s.bag.entries = pre ++ e :: post → e.slot = slot.toNat → e.overdue = false →
      (∀ x ∈ pre ++ post, x.slot ≠ slot.toNat) →
      exec (.bagEntryOverdue slot) s = .next (raiseQuiet (.bagOverdue e.slot e.remove e.weight)
        { s with
          bag.entries :=
            pre ++ { e with overdue := true, age := max e.age (1000 * s.set.bagTimeout) } :: post
          txn.items := s.txn.items.map fun (it : Item) =>
            if it.slot = slot.toNat then { it with bag := .overdue } else it })) ∧
    ((∀ x ∈ s.bag.entries, x.slot = slot.toNat → x.overdue = true) →
      exec (.bagEntryOverdue slot) s = .next s))

/-! ### The sale (chapter 5) -/

/-- R67, R68, R86, R121: TXN_BEGIN opens a sale on empty lists, discards the snapshot, starts the watch on the
bag weight of the latest reading, re-judges the expiry of the card records, asks for the marker and stays in
execution. What refuses it: a sale, a no-sale permit, a job bound to the snapshot, a date or time that is
none. -/
def Obligations.SaleBegun : Prop :=
  ∀ (tag : Byte) (id date : BitVec 32) (time : BitVec 16) (s : State), s.ready →
    (s.txn.state = .idle → s.drw.noSale = none → s.snapshotJob = false →
      dateTimeOk date.toNat time.toNat = true →
        ∃ t, exec (.txnBegin tag id date time) s = .next t ∧
          t.link = { s.link with inExec := some { tag := tag, code := 0x40#8
                                                  payload := be32 id.toNat ++ be32 date.toNat ++
                                                    be16 time.toNat } } ∧
          t.txn = { s.txn with
            state := .opened, id := id.toNat, date := date.toNat, time := time.toNat
            items := [], tenders := [], change := 0, receiptDone := false, snap := none } ∧
          t.bag = { s.bag with
            watch := .watch, rb := s.wgt.chanB.d.getD 0, last := .none, lastDelta := 0 } ∧
          t.sst = { s.sst with writes := s.sst.writes ++ [.marker true] } ∧
          (∀ c, t.card c = (s.card c).map fun r => r.judge t.txn) ∧
          t.wgt = s.wgt ∧ t.drw = s.drw ∧ t.job = s.job ∧ t.set = s.set) ∧
    (s.txn.state ≠ .idle → Refuses (.txnBegin tag id date time) tag 0x40#8 .refusedState s) ∧
    (s.txn.state = .idle → (s.drw.noSale ≠ none ∨ s.snapshotJob = true) →
      Refuses (.txnBegin tag id date time) tag 0x40#8 .refusedBusy s) ∧
    (s.txn.state = .idle → s.drw.noSale = none → s.snapshotJob = false →
      (date.toNat / 100 % 100 = 0 ∨ 12 < date.toNat / 100 % 100 ∨ date.toNat % 100 = 0 ∨
        31 < date.toNat % 100 ∨ 23 < time.toNat / 100 ∨ 59 < time.toNat % 100) →
      Refuses (.txnBegin tag id date time) tag 0x40#8 .refusedRange s)

/-- R73, R76, R88, R90, R94: TXN_ITEM appends an item with its amount, and its expectation where it has a
weight and the list has room; the status tells an UNCHECKED item and a cut description. TXN_ITEM_GET answers
the item of a slot, from the sale or, in IDLE, from the snapshot. -/
def Obligations.ItemTaken : Prop :=
  (∀ (tag : Byte) (code : BitVec 32) (qty : BitVec 16) (price : BitVec 32) (weight tol : BitVec 16)
    (desc : List Byte) (s : State), s.ready → desc.length ≤ 240 → s.txn.state = .opened →
    s.bag.watch ≠ .hold → 1 ≤ qty.toNat → qty.toNat ≤ 999 → price.toNat ≤ 9999999 →
    s.txn.items.length < 64 → qty.toNat * price.toNat ≤ 99999999 →
    total s.txn.items + qty.toNat * price.toNat ≤ 99999999 →
    subtotal s.txn.items + qty.toNat * price.toNat ≤ 999999999 →
      ∃ u b, exec (.txnItem tag code qty price weight tol desc) s = .next (State.answered u tag 0x41#8
          (if b = .unchecked then .okUnchecked else if 24 < desc.length then .okClamped else .ok)
          ([u8 (s.txn.items.length + 1)] ++ be32 (qty.toNat * price.toNat) ++
            be32 (total s.txn.items + qty.toNat * price.toNat) ++
            [BagStatus.code b, u8 (min 24 desc.length)])) ∧
        b = (if weight = 0#16 then .none else if s.bag.entries.length < 8 then .pending
          else .unchecked) ∧
        u.txn.items.getLast? = some
          { slot := s.txn.items.length + 1, code := code.toNat, description := desc.take 24,
            quantity := qty.toNat, price := price.toNat, amount := qty.toNat * price.toNat,
            void := false, bag := b, matched := none, record := none } ∧
        u.txn.items.length = s.txn.items.length + 1 ∧
        u.bag.entries = (if weight ≠ 0#16 ∧ s.bag.entries.length < 8 then s.bag.entries ++
          [Entry.new (s.txn.items.length + 1) false weight.toNat tol.toNat] else s.bag.entries) ∧
        u.bag.rb = s.bag.rb ∧ u.wgt = s.wgt ∧ u.txn.tenders = s.txn.tenders ∧ u.crd = s.crd) ∧
  (∀ (tag slot : Byte) (s : State), s.ready →
    ((slot = 0#8 ∨ 64 < slot.toNat) → Refuses (.txnItemGet tag slot) tag 0x4A#8 .refusedRange s) ∧
    (∀ it, slot ≠ 0#8 → slot.toNat ≤ 64 → s.txn.state ≠ .idle →
      findItem slot.toNat s.txn.items = some it →
      exec (.txnItemGet tag slot) s = .next (s.answered tag 0x4A#8 .ok (itemBytes 0#8 it))) ∧
    (∀ x it, slot ≠ 0#8 → slot.toNat ≤ 64 → s.txn.state = .idle → s.txn.snap = some x →
      findItem slot.toNat x.items = some it →
      exec (.txnItemGet tag slot) s = .next (s.answered tag 0x4A#8 .ok (itemBytes 1#8 it))) ∧
    (slot ≠ 0#8 → slot.toNat ≤ 64 → s.txn.state = .idle → s.txn.snap = none →
      Refuses (.txnItemGet tag slot) tag 0x4A#8 .refusedNotFound s))

/-- R52, R75, R76, R91, R93: TXN_WEIGH starts a capture that waits in P's slot; what refuses it, in the order of its
checks. TXN_VOID_ITEM voids an item; a waiting expectation leaves the list, and a BAGGED item gains a REMOVE entry or,
in a full list, is UNCHECKED. That the capture's limit is CAPTURE_TIMEOUT as it stands then is log entry 32. -/
def Obligations.WeighAndVoidItem : Prop :=
  (∀ (tag : Byte) (code price : BitVec 32) (desc : List Byte) (s : State), s.ready →
    desc.length ≤ 246 →
    (s.txn.state = .opened → s.bag.watch ≠ .hold → price ≠ 0#32 → price.toNat ≤ 999999 →
      s.wgt.chanP.calValid = true → s.wgt.chanP.op = none →
      exec (.txnWeigh tag code price desc) s = .next
        ((takeSlot .p (.capture price.toNat code.toNat (desc.take 24)) tag
          (1000 * s.set.captureTimeout) s).answered tag 0x42#8 .pending [])) ∧
    (s.txn.state ≠ .opened → Refuses (.txnWeigh tag code price desc) tag 0x42#8 .refusedState s) ∧
    (s.txn.state = .opened → s.bag.watch = .hold →
      Refuses (.txnWeigh tag code price desc) tag 0x42#8 .refusedHold s) ∧
    (s.txn.state = .opened → s.bag.watch ≠ .hold →
      ((price = 0#32 ∨ 999999 < price.toNat) →
        Refuses (.txnWeigh tag code price desc) tag 0x42#8 .refusedRange s) ∧
      (price ≠ 0#32 → price.toNat ≤ 999999 →
        (s.wgt.chanP.calValid = false →
          Refuses (.txnWeigh tag code price desc) tag 0x42#8 .refusedState s) ∧
        (s.wgt.chanP.calValid = true → s.wgt.chanP.op ≠ none →
          Refuses (.txnWeigh tag code price desc) tag 0x42#8 .refusedBusy s)))) ∧
  (∀ (tag slot : Byte) (it : Item) (s : State), s.ready → s.txn.state = .opened → slot ≠ 0#8 →
    slot.toNat ≤ 64 → findItem slot.toNat s.txn.items = some it →
    (it.void = true → Refuses (.txnVoidItem tag slot) tag 0x43#8 .refusedState s) ∧
    (it.void = false → ∃ u b, exec (.txnVoidItem tag slot) s = .next (State.answered u tag 0x43#8
        (if it.bag = .bagged ∧ b = .unchecked then .okUnchecked else .ok)
        ([slot] ++ be32 (total u.txn.items) ++ [BagStatus.code b])) ∧
      findItem slot.toNat u.txn.items = some { it with void := true, bag := b } ∧
      u.txn.items.map Item.slot = s.txn.items.map Item.slot ∧
      ((it.bag = .pending ∨ it.bag = .overdue) →
        b = .none ∧ u.bag.entries = s.bag.entries.filter fun e => e.slot != slot.toNat) ∧
      (∀ w tol, it.bag = .bagged → it.matched = some (w, tol) → s.bag.entries.length < 8 →
        b = .pending ∧
          u.bag.entries = s.bag.entries ++ [Entry.new slot.toNat true w tol]) ∧
      (∀ m, it.bag = .bagged → it.matched = some m → 8 ≤ s.bag.entries.length →
        b = .unchecked ∧ u.bag.entries = s.bag.entries) ∧
      (it.bag ≠ .pending → it.bag ≠ .overdue → it.bag ≠ .bagged →
        b = it.bag ∧ u.bag.entries = s.bag.entries) ∧ u.wgt = s.wgt ∧ u.bag.rb = s.bag.rb))

/-- R89, R95, R96: TXN_TOTAL moves a sale with an item, no operation on P and no HOLD to TENDER and answers
the sums; with expectations left it needs the override. TXN_REOPEN moves a sale without tenders back. -/
def Obligations.SaleTotalledAndReopened : Prop :=
  ∀ (tag override : Byte) (s : State), s.ready →
    (s.txn.state = .opened → override.toNat ≤ 1 → (∃ it ∈ s.txn.items, it.void = false) →
      s.wgt.chanP.op = none → s.bag.watch ≠ .hold → (override = 0#8 → s.bag.entries = []) →
      exec (.txnTotal tag override) s = .next ({ s with txn.state := .tender }.answered tag 0x44#8 .ok
        (be32 (subtotal s.txn.items) ++ be32 (voidedAmount s.txn.items) ++ be32 (total s.txn.items) ++
          [u8 s.bag.entries.length]))) ∧
    (s.txn.state ≠ .opened → Refuses (.txnTotal tag override) tag 0x44#8 .refusedState s) ∧
    (s.txn.state = .opened → override = 0#8 → (∃ it ∈ s.txn.items, it.void = false) →
      s.wgt.chanP.op = none → s.bag.watch ≠ .hold → s.bag.entries ≠ [] →
      Refuses (.txnTotal tag override) tag 0x44#8 .refusedBagPending s) ∧
    (s.txn.state = .tender → s.txn.tenders = [] → exec (.txnReopen tag) s = .next
      ({ s with txn.state := .opened }.answered tag 0x45#8 .ok [])) ∧
    ((s.txn.state ≠ .tender ∨ s.txn.tenders ≠ []) →
      Refuses (.txnReopen tag) tag 0x45#8 .refusedState s) ∧
    subtotal s.txn.items = total s.txn.items + voidedAmount s.txn.items

/-- R97 to R101, R134, R136: a cash or voucher tender that leaves an amount due is appended; one that covers the
total settles the sale, with the change, the monitor OFF and, after cash with a drawer present, an entitlement. A
card tender binds the held record of its slot, and settles the sale where it covers what is due. With
KICK_ON_SETTLE on, a settlement that creates the entitlement kicks its port with tag 0: a closed port with the
supply free is energised at once, and a port that refuses leaves the entitlement as it is. The kick status is that
of this kick, and 0xFF where none was asked; the other figures of the reply show the sale as the tender leaves it:
log entry 30. A covering tender is stated with no job in the table; the channels are not STABLE before a kick, so
no motion event comes of it. -/
def Obligations.TenderTaken : Prop :=
  ∀ (tag kind : Byte) (k : TenderKind) (amount : BitVec 32) (slot : Byte) (s : State), s.ready →
    TenderKind.ofByte kind = some k → 1 ≤ amount.toNat → amount.toNat ≤ 99999999 →
    s.txn.state = .tender → s.bag.watch ≠ .hold →
    (k ≠ .card → amount.toNat < s.txn.due → s.txn.tenders.length < 7 →
      ∃ u, exec (.txnTender tag kind amount slot) s = .next (State.answered u tag 0x46#8 .ok
          ([u8 (s.txn.tenders.length + 1)] ++ be32 (tenderSum s.txn.tenders + amount.toNat) ++
            be32 (s.txn.due - amount.toNat) ++ [2#8] ++ be32 s.txn.change ++ [0xFF#8])) ∧
        u = { s with txn.tenders :=
          s.txn.tenders ++ [{ kind := k, amount := amount.toNat, card := none }] }) ∧
    (k ≠ .card → s.txn.due ≤ amount.toNat → (k = .voucher → amount.toNat = s.txn.due) →
      tenderSum s.txn.tenders ≤ total s.txn.items → s.job.table = [] →
      (s.set.kickOnSettle = 0 ∨ s.set.present s.set.cash = false ∨
        (k = .voucher ∧ ∀ x ∈ s.txn.tenders, x.kind ≠ .cash)) →
      ∃ u, exec (.txnTender tag kind amount slot) s = .next (State.answered u tag 0x46#8 .ok
          ([u8 (s.txn.tenders.length + 1)] ++ be32 (tenderSum s.txn.tenders + amount.toNat) ++
            be32 0 ++ [3#8] ++ be32 (amount.toNat - s.txn.due) ++ [0xFF#8])) ∧
        u = { s with
          txn.state := .settled
          txn.tenders := s.txn.tenders ++ [{ kind := k, amount := amount.toNat, card := none }]
          txn.change := amount.toNat - s.txn.due
          txn.entitlement := if ((s.txn.tenders.any fun t => decide (t.kind = .cash)) ||
            decide (k = .cash)) && s.set.present s.set.cash then some s.set.cash
            else s.txn.entitlement
          bag.watch := .off, bag.entries := [], bag.hold := none }) ∧
    (∀ c r, k = .card → CardSlot.ofByte slot = some c → s.card c = some r → r.bound = false →
      r.bindable = true → amount.toNat < s.txn.due → s.txn.tenders.length < 7 →
      ∃ u, exec (.txnTender tag kind amount slot) s = .next (State.answered u tag 0x46#8 .ok
          ([u8 (s.txn.tenders.length + 1)] ++ be32 (tenderSum s.txn.tenders + amount.toNat) ++
            be32 (s.txn.due - amount.toNat) ++ [2#8] ++ be32 s.txn.change ++ [0xFF#8])) ∧
        u.txn = { s.txn with tenders :=
          s.txn.tenders ++ [{ kind := .card, amount := amount.toNat, card := some c }] } ∧
        u.card c = some { r with bound := true, age := 0 }) ∧
    (∀ c r, k = .card → CardSlot.ofByte slot = some c → s.card c = some r → r.bound = false →
      r.bindable = true → amount.toNat = s.txn.due → tenderSum s.txn.tenders ≤ total s.txn.items →
      s.job.table = [] → (∀ x ∈ s.txn.tenders, x.kind ≠ .cash) →
      ∃ u, exec (.txnTender tag kind amount slot) s = .next (State.answered u tag 0x46#8 .ok
          ([u8 (s.txn.tenders.length + 1)] ++ be32 (tenderSum s.txn.tenders + amount.toNat) ++
            be32 0 ++ [3#8] ++ be32 0 ++ [0xFF#8])) ∧
        u.txn = { s.txn with
          state := .settled
          tenders := s.txn.tenders ++ [{ kind := .card, amount := amount.toNat, card := some c }]
          change := 0 } ∧
        u.card c = some { r with bound := true, age := 0 } ∧ (∀ o, o ≠ c → u.card o = s.card o) ∧
        u.bag = { s.bag with watch := .off, entries := [], hold := none } ∧ u.drw = s.drw) ∧
    (∀ p o, k ≠ .card → s.txn.due ≤ amount.toNat → (k = .voucher → amount.toNat = s.txn.due) →
      tenderSum s.txn.tenders ≤ total s.txn.items → s.job.table = [] → s.set.kickOnSettle ≠ 0 →
      s.set.cash = p → s.set.present p = true → (k = .cash ∨ ∃ x ∈ s.txn.tenders, x.kind = .cash) →
      o ≠ p →
      ((s.port p).mode = .closed → (s.port p).retry = false → s.wgt.chanP.stable = false →
        s.wgt.chanB.stable = false → s.dsa.queue = [] → s.pen.line = none → s.dsa.low = false →
        s.dsa.committed + 1500 ≤ s.set.capacity → ∃ u,
          exec (.txnTender tag kind amount slot) s = .next (State.answered u tag 0x46#8 .ok
            ([u8 (s.txn.tenders.length + 1)] ++ be32 (tenderSum s.txn.tenders + amount.toNat) ++
              be32 0 ++ [3#8] ++ be32 (amount.toNat - s.txn.due) ++ [0#8])) ∧
          u.txn = { s.txn with
            state := .settled
            tenders := s.txn.tenders ++ [{ kind := k, amount := amount.toNat, card := none }]
            change := amount.toNat - s.txn.due
            entitlement := some p } ∧
          u.bag = { s.bag with watch := .off, entries := [], hold := none } ∧
          u.port p = { s.port p with
            mode := .kicking, tag := 0#8, kick := .entitlement, attempt := 1, retry := false, wait := 0
            on := true, onMs := 0, onTime := s.set.pulseOn, trips := 0, broken := false
            remembered := false } ∧
          u.port o = s.port o ∧ u.drw.noSale = s.drw.noSale ∧
          u.dsa = { s.dsa with loads := s.dsa.loads ++ [(.port p, 1500)] } ∧
          u.wgt = { s.wgt with actions := .pulse p :: s.wgt.actions }) ∧
      ((s.port p).mode = .unknown ∨ (s.port p).mode = .fault → ∃ u,
          exec (.txnTender tag kind amount slot) s = .next (State.answered u tag 0x46#8 .ok
            ([u8 (s.txn.tenders.length + 1)] ++ be32 (tenderSum s.txn.tenders + amount.toNat) ++
              be32 0 ++ [3#8] ++ be32 (amount.toNat - s.txn.due) ++ [0x11#8])) ∧
          u = { s with
            txn.state := .settled
            txn.tenders := s.txn.tenders ++ [{ kind := k, amount := amount.toNat, card := none }]
            txn.change := amount.toNat - s.txn.due
            txn.entitlement := some p
            bag.watch := .off, bag.entries := [], bag.hold := none })) ∧
    (k ≠ .cash → s.txn.due < amount.toNat →
      Refuses (.txnTender tag kind amount slot) tag 0x46#8 .refusedRange s)

/-- R67, R87, R103 to R106, R128: TXN_VOID and TXN_CLOSE end a sale: its snapshot, the tare, the lists, the
watch, the wiping of the held (void) or bound (close) card records and the clearing of the marker. Stated with
no operation on P, no job in the table and no entitlement. -/
def Obligations.SaleVoidedAndClosed : Prop :=
  ∀ (tag : Byte) (s : State), s.ready → s.unbound → s.job.table = [] →
    ((s.txn.state = .opened ∨ s.txn.state = .tender) → s.txn.tenders = [] → s.wgt.chanP.op = none →
      ∃ u, exec (.txnVoid tag) s = .next (State.answered u tag 0x47#8 .ok []) ∧
        u.txn = { Txn.reset with
          entitlement := s.txn.entitlement, snap := some (makeSnapshot true s) } ∧
        (makeSnapshot true s).change = 0 ∧ (makeSnapshot true s).items = s.txn.items ∧
        u.wgt = { s.wgt with tare := 0, tareKind := .none } ∧
        u.bag = { s.bag with watch := .off, entries := [], hold := none } ∧
        u.sst = { s.sst with writes := s.sst.writes ++ [.marker false] } ∧
        (∀ c r, s.card c = some r →
          u.card c = if r.bound then some (r.judge u.txn) else none)) ∧
    (s.txn.state = .settled → s.txn.entitlement = none →
      ∃ u, exec (.txnClose tag) s = .next (State.answered u tag 0x48#8 .ok [0#8]) ∧
        u.txn = { Txn.reset with snap := some (makeSnapshot false s) } ∧
        (makeSnapshot false s).change = s.txn.change ∧
        u.wgt = { s.wgt with tare := 0, tareKind := .none } ∧
        u.sst = { s.sst with writes := s.sst.writes ++ [.marker false] } ∧
        (∀ c r, s.card c = some r →
          u.card c = if r.bound then none else some (r.judge u.txn))) ∧
    (s.txn.state = .idle → Refuses (.txnVoid tag) tag 0x47#8 .refusedState s) ∧
    (s.txn.state ≠ .settled → Refuses (.txnClose tag) tag 0x48#8 .refusedState s)

/-! ### The card reader (chapter 6) -/

/-- R109, R123 to R127: what CARD_ARM does in each reader state, and the requests on a slot of the card store:
CARD_SUMMARY changes nothing, CARD_RELEASE delivers the track data once, CARD_DISCARD and the hold timer wipe
a held record and leave a bound one. An event that finds nothing it could happen to leaves the state
unchanged: log entry 6. -/
def Obligations.CardRequestsAnswered : Prop :=
  ∀ (tag value slot : Byte) (s : State), s.ready →
    (value = 1#8 → exec (.cardArm tag value) s = .next (match s.crd.state with
      | .disarmed => { s with crd.state := .armed }.answered tag 0x50#8 .ok [1#8]
      | .armed => s.answered tag 0x50#8 .ok [1#8]
      | .reading => s.answered tag 0x50#8 .ok [2#8]
      | .decoding => { s with crd.disarm := false }.answered tag 0x50#8 .ok [3#8])) ∧
    (value = 0#8 → exec (.cardArm tag value) s = .next (match s.crd.state with
      | .disarmed => s.answered tag 0x50#8 .ok [0#8]
      | .armed => { s with crd.state := .disarmed }.answered tag 0x50#8 .ok [0#8]
      | .reading => (readerTo .disarmed s).answered tag 0x50#8 .ok [0#8]
      | .decoding => { s with crd.disarm := true }.answered tag 0x50#8 .ok [3#8])) ∧
    (1 < value.toNat → Refuses (.cardArm tag value) tag 0x50#8 .refusedRange s) ∧
    (CardSlot.ofByte slot = none → Refuses (.cardSummary tag slot) tag 0x51#8 .refusedRange s ∧
      Refuses (.cardRelease tag slot) tag 0x52#8 .refusedRange s ∧
      Refuses (.cardDiscard tag slot) tag 0x53#8 .refusedRange s) ∧
    (∀ c, CardSlot.ofByte slot = some c →
      (s.card c = none → Refuses (.cardSummary tag slot) tag 0x51#8 .refusedNotFound s ∧
        Refuses (.cardRelease tag slot) tag 0x52#8 .refusedNotFound s ∧
        Refuses (.cardDiscard tag slot) tag 0x53#8 .refusedNotFound s ∧
        exec (.cardHoldExpiry c) s = .next s) ∧
      (∀ r, s.card c = some r →
        exec (.cardSummary tag slot) s = .next (s.answered tag 0x51#8 .ok (r.summary c)) ∧
        (r.released = false → exec (.cardRelease tag slot) s = .next
          ((s.setCard c (some { r with track := [], released := true })).answered tag 0x52#8 .ok
            (slot :: u8 r.track.length :: r.track))) ∧
        (r.released = true → Refuses (.cardRelease tag slot) tag 0x52#8 .refusedState s) ∧
        (r.bound = true → Refuses (.cardDiscard tag slot) tag 0x53#8 .refusedState s ∧
          exec (.cardHoldExpiry c) s = .next s) ∧
        (r.bound = false → s.unbound →
          exec (.cardDiscard tag slot) s = .next
            ((raiseQuiet (.cardWiped c .discard) (s.setCard c none)).answered tag 0x53#8 .ok []) ∧
          exec (.cardHoldExpiry c) s =
            .next (raiseQuiet (.cardWiped c .holdTimer) (s.setCard c none)))))

/-- R108, R110 to R112, R122: the course of a swipe on a lane that is ACTIVE. It starts in ARMED on one of the two
heads read; a transition within the idle time counts, a later one finds the track ended, and an ended track ignores
it; at the end of both tracks, or at the time limit, decoding begins. At the decode end a GOOD swipe takes the
lowest free slot with CARD_SWIPE, or finds the store full; a bad one, a malformed account included, changes no slot
and raises CARD_SWIPE_BAD; and the reader is ARMED again with empty buffers. R118 to R121: the fields and the flags
of the record made. That a transition exactly at the idle time counts is log entry 60. An event that finds nothing
it could happen to leaves the state unchanged: log entry 6. -/
def Obligations.SwipeFollowed : Prop :=
  (∀ (head : Head) (tr other : Track) (interval : BitVec 32) (s : State), tr ≠ other →
    (Head.track head = some tr → s.crd.state = .armed → s.lpm.mode = .active →
      ∃ t, exec (.swipeStart head) s = .next t ∧ t = { s with crd := t.crd } ∧
        t.crd.state = .reading ∧ t.crd.swipeAge = 0 ∧ t.crd.one = s.crd.one ∧ t.crd.two = s.crd.two ∧
        t.crd.track tr = { TrackCap.empty with transitions := 1 } ∧ t.crd.track other = TrackCap.empty) ∧
    ((Head.track head = none ∨ s.crd.state ≠ .armed) → exec (.swipeStart head) s = .next s) ∧
    ((Head.track head = none ∨ s.crd.state ≠ .reading) →
      exec (.trackTransition head interval) s = .next s) ∧
    (Head.track head = some tr → s.crd.state = .reading → (s.crd.track tr).ended = false →
      ∃ t, exec (.trackTransition head interval) s = .next t ∧ t = { s with crd := t.crd } ∧
        t.crd.track other = s.crd.track other ∧
        (interval.toNat ≤ (s.crd.track tr).idle →
          (t.crd.track tr).transitions = (s.crd.track tr).transitions + 1 ∧
          (t.crd.track tr).ended = false ∧ t.crd.state = .reading) ∧
        ((s.crd.track tr).idle < interval.toNat →
          t.crd.track tr = { s.crd.track tr with ended := true } ∧
          t.crd.state = if (s.crd.track other).ended then .decoding else .reading)) ∧
    (Head.track head = some tr → s.crd.state = .reading → (s.crd.track tr).ended = true →
      (s.crd.track other).ended = false → exec (.trackTransition head interval) s = .next s) ∧
    (s.crd.state = .reading → ∃ t, exec (.trackIdleEnd tr) s = .next t ∧
      t.crd.track tr = { s.crd.track tr with ended := true } ∧ t.crd.track other = s.crd.track other ∧
      t.crd.state = (if (s.crd.track other).ended then .decoding else .reading)) ∧
    (s.crd.state ≠ .reading →
      exec (.trackIdleEnd tr) s = .next s ∧ exec .swipeTimeLimit s = .next s) ∧
    (s.crd.state = .reading → ∃ t, exec .swipeTimeLimit s = .next t ∧ t.crd.state = .decoding ∧
      ((s.crd.track tr).ended = true → t.crd.track tr = s.crd.track tr) ∧
      ((s.crd.track tr).ended = false →
        t.crd.track tr = { s.crd.track tr with ended := true, atLimit := true })) ∧
    (s.crd.state = .decoding → s.unbound →
      ∃ t, exec .decodeEnd s = .next t ∧ t.crd.track tr = TrackCap.empty ∧
        t.crd.state = (if s.crd.disarm then .disarmed else .armed) ∧ t.crd.disarm = false ∧
        ∀ num alp, num = frameTrack .numeric s.crd.numeric → alp = frameTrack .alpha s.crd.alpha →
        (num.result ≠ .ok → t.card .one = s.card .one ∧ t.card .two = s.card .two ∧
          t.rpt = (raiseQuiet (.cardSwipeBad num.result alp.result false) s).rpt) ∧
        (num.result = .ok → accountOf num.codes = none →
          t.card .one = s.card .one ∧ t.card .two = s.card .two ∧
          t.rpt = (raiseQuiet (.cardSwipeBad .ok alp.result true) s).rpt) ∧
        (∀ acc rest r, num.result = .ok → accountOf num.codes = some (acc, rest) →
          r = makeRecord s.txn num alp acc rest →
          (s.crd.one = none → t.card .one = some r ∧ t.card .two = s.card .two ∧
            t.rpt = (raiseQuiet (.cardSwipe .one r.flags r.expiry r.masked) s).rpt) ∧
          (s.crd.one ≠ none → s.crd.two = none → t.card .two = some r ∧ t.card .one = s.card .one ∧
            t.rpt = (raiseQuiet (.cardSwipe .two r.flags r.expiry r.masked) s).rpt) ∧
          (s.crd.one ≠ none → s.crd.two ≠ none → t.card .one = s.card .one ∧
            t.card .two = s.card .two ∧
            t.rpt = (raiseQuiet (.cardStoreFull .ok alp.result) s).rpt))) ∧
    (s.crd.state ≠ .decoding → exec .decodeEnd s = .next s)) ∧
  (∀ (x : Txn) (num alp : Framed) (acc rest : List Nat) (r : CardRec),
    r = makeRecord x num alp acc rest →
    r.bound = false ∧ r.age = 0 ∧ r.released = false ∧ r.reverse = num.reverse ∧
    r.numeric = num.result ∧ r.alpha = alp.result ∧ r.track = num.codes.map (fun c => u8 (c + 0x30)) ∧
    (10 ≤ acc.length → r.masked.length = acc.length ∧
      r.masked.take 6 = (acc.take 6).map (fun c => u8 (c + 0x30)) ∧
      (∀ c ∈ (r.masked.drop 6).take (acc.length - 10), c = 0x2A#8) ∧
      r.masked.drop (acc.length - 4) = (acc.drop (acc.length - 4)).map (fun c => u8 (c + 0x30))) ∧
    (∀ y1 y2 m1 m2 v1 v2 v3 more, rest = [y1, y2, m1, m2, v1, v2, v3] ++ more →
      (∀ c ∈ rest.take 7, c ≤ 9) → 1 ≤ 10 * m1 + m2 → 10 * m1 + m2 ≤ 12 →
      r.expiry = some (1000 * y1 + 100 * y2 + 10 * m1 + m2) ∧
      r.service = some (100 * v1 + 10 * v2 + v3) ∧ r.format = false) ∧
    ((rest.length < 7 ∨ (∃ c ∈ rest.take 7, 9 < c) ∨
        ∃ y1 y2 m1 m2 more, rest = [y1, y2, m1, m2] ++ more ∧ (10 * m1 + m2 = 0 ∨ 12 < 10 * m1 + m2)) →
      r.expiry = none ∧ r.service = none ∧ r.format = true) ∧
    (r.check = true ↔ ((acc.reverse.zipIdx.map fun (d, i) =>
      if i % 2 = 1 then (if 9 < 2 * d then 2 * d - 9 else 2 * d) else d).sum) % 10 ≠ 0) ∧
    ((alp.result ≠ .ok ∨ 0x3E ∉ (innerCodes alp.codes).drop 1) → r.disagree = false ∧ r.name = []) ∧
    (∀ fmt a more, alp.result = .ok → innerCodes alp.codes = fmt :: a ++ 0x3E :: more → 0x3E ∉ a →
      (r.disagree = true ↔ a.map (fun c => u8 (c + 0x20)) ≠ acc.map (fun c => u8 (c + 0x30))) ∧
      (0x3E ∉ more → r.name = []) ∧
      (∀ name tail, more = name ++ 0x3E :: tail → 0x3E ∉ name → r.name =
        if 2 ≤ name.length ∧ name.length ≤ 26 then name.map (fun c => u8 (c + 0x20)) else [])) ∧
    (r.expired = true ↔ x.state ≠ .idle ∧ ∃ e, r.expiry = some e ∧
      e < (x.date / 10000 % 100) * 100 + x.date / 100 % 100) ∧
    (r.bindable = true ↔ r.numeric = .ok ∧ r.format = false ∧ r.check = false ∧ r.disagree = false ∧
      r.expired = false)) ∧
  (∀ inner acc rest : List Nat, accountOf (0x0B :: inner ++ [0x0F]) = some (acc, rest) ↔
    inner = acc ++ 0x0D :: rest ∧ 12 ≤ acc.length ∧ acc.length ≤ 19 ∧ ∀ c ∈ acc, c ≤ 9)

/-- R115: the order in which a track's result is decided. A track that still ran at the limit is marked so at the
limit; a decode stops with SPEED, CELL_ERROR or OVERLONG; a decided track is not framed. R113, R114: the search for
the preamble in the last eight intervals, and the bit an interval after it makes, with the expected cell period that
follows. A stopped decode takes no more. R116, R117: a bit stream that holds a start sentinel, characters up to the
end sentinel and their LRC is OK with those characters, forward, or reverse where the forward stream holds no start
sentinel; with another LRC it is LRC, with a character of even parity PARITY, with too many characters OVERLONG,
with too few bits NO_END or, after the end sentinel, LRC, and without a start sentinel NO_START. Left out are a
1,025th bit that moves P_exp out of its range, and a character beyond the limit that fails its parity. -/
def Obligations.TrackResultDecided : Prop :=
  (∀ (tr : Track) (t : TrackCap),
    (t.atLimit = true →
      frameTrack tr t = { result := .overlong, codes := [], reverse := false }) ∧
    (t.atLimit = false → t.transitions < 16 →
      frameTrack tr t = { result := .noData, codes := [], reverse := false }) ∧
    (t.atLimit = false → 16 ≤ t.transitions → t.pexp = none →
      frameTrack tr t = { result := .noData, codes := [], reverse := false }) ∧
    (∀ p r, t.atLimit = false → 16 ≤ t.transitions → t.pexp = some p → t.stop = some r →
      frameTrack tr t = { result := r, codes := [], reverse := false }) ∧
    (∀ p, t.atLimit = false → 16 ≤ t.transitions → t.pexp = some p → t.stop = none →
      frameTrack tr t = frameBits tr t.bits)) ∧
  (∀ t : TrackCap, t.cutOff.ended = true ∧ t.cutOff.atLimit = (t.atLimit || !t.ended)) ∧
  (∀ (t : TrackCap) (dt : Nat) (r : TrackResult), t.stop = none → (t.interval dt).stop = some r →
    r = .speed ∨ r = .cellError ∨ r = .overlong) ∧
  (∀ (t : TrackCap) (dt : Nat),
    (t.stop ≠ none → t.interval dt = t) ∧
    (t.stop = none → t.pexp = none → ∀ w, w = (t.window ++ [dt]).drop ((t.window ++ [dt]).length - 8) →
      ((w.length = 8 ∧ ∀ x ∈ w, 3 * (w.sum / 8) ≤ 4 * x ∧ 4 * x ≤ 5 * (w.sum / 8)) →
        t.interval dt = { t with
          window := [], pexp := some (w.sum / 8), bits := List.replicate 8 false
          stop := if w.sum / 8 < 50 ∨ 5000 < w.sum / 8 then some .speed else none }) ∧
      (¬(w.length = 8 ∧ ∀ x ∈ w, 3 * (w.sum / 8) ≤ 4 * x ∧ 4 * x ≤ 5 * (w.sum / 8)) →
        t.interval dt = { t with window := w })) ∧
    (∀ p, t.stop = none → t.pexp = some p →
      (4 * dt < 3 * p → t.half = none → t.interval dt = { t with half := some dt }) ∧
      (∀ t1, 3 * p ≤ 4 * dt → t.half = some t1 →
        t.interval dt = { t with half := none, stop := some .cellError }) ∧
      (∀ bit q, (3 * p ≤ 4 * dt ∧ t.half = none ∧ bit = false ∧ q = (3 * p + dt) / 4) ∨
          (∃ t1, 4 * dt < 3 * p ∧ t.half = some t1 ∧ bit = true ∧ q = (3 * p + t1 + dt) / 4) →
        (t.bits.length < 1024 → t.interval dt = { t with
          bits := t.bits ++ [bit], pexp := some q, half := none
          stop := if q < 50 ∨ 5000 < q then some .speed else none }) ∧
        (1024 ≤ t.bits.length → 50 ≤ q → q ≤ 5000 →
          (t.interval dt).stop = some .overlong ∧ (t.interval dt).bits = t.bits)))) ∧
  (∀ (tr : Track) (n z : Nat) (inner : List Nat) (tail head : List Bool),
    n = (if tr = .alpha then 6 else 4) → endCode tr ∉ inner → (∀ c ∈ inner, c < 2 ^ n) →
    head = List.replicate z false ++ (startCode tr :: inner).flatMap (charBits n) →
    (∀ x bits, x = (startCode tr :: inner).foldl (· ^^^ ·) (endCode tr) → x < 2 ^ n ∧
      (inner.length + 3 ≤ maxChars tr → ∀ lrc, lrc < 2 ^ n →
        bits = head ++ charBits n (endCode tr) ++ charBits n lrc ++ tail →
        frameBits tr bits = (if lrc = x then
          { result := .ok, codes := startCode tr :: inner ++ [endCode tr], reverse := false }
          else { result := .lrc, codes := [], reverse := false }) ∧
        (findBits (charBits n (startCode tr)) bits.reverse = none →
          frameBits tr bits.reverse = { frameBits tr bits with reverse := true }))) ∧
    (inner.length + 2 ≤ maxChars tr → tail.length ≤ n →
      frameBits tr (head ++ charBits n (endCode tr) ++ tail) =
        { result := .lrc, codes := [], reverse := false }) ∧
    (inner.length + 1 ≤ maxChars tr → tail.length ≤ n → frameBits tr (head ++ tail) =
      { result := .noEnd, codes := [], reverse := false }) ∧
    (∀ c, inner.length + 2 ≤ maxChars tr → c.length = n + 1 → (c.filter id).length % 2 = 0 →
      frameBits tr (head ++ c ++ tail) = { result := .parity, codes := [], reverse := false }) ∧
    (inner.length + 1 = maxChars tr → n < tail.length → ((tail.take (n + 1)).filter id).length % 2 = 1 →
      frameBits tr (head ++ tail) = { result := .overlong, codes := [], reverse := false }) ∧
    (inner.length + 2 = maxChars tr → n < tail.length →
      frameBits tr (head ++ charBits n (endCode tr) ++ tail) =
        { result := .overlong, codes := [], reverse := false })) ∧
  (∀ (tr : Track) (bits : List Bool) (pat : List Bool),
    pat = (if tr = .alpha then [true, false, true, false, false, false, true]
      else [true, true, false, true, false]) →
    (∀ pre post, bits ≠ pre ++ pat ++ post) → (∀ pre post, bits.reverse ≠ pre ++ pat ++ post) →
      frameBits tr bits = { result := .noStart, codes := [], reverse := false })

/-! ### The drawers (chapter 7) -/

/-- R132 to R136, R177, R178: DRAWER_KICK on a closed port with a permit, and DRAWER_NOSALE, which makes its
own permit. With the supply free the grant comes at once and the solenoid is energised for PULSE_ON, a
disturbing action; otherwise the port waits in the queue. On an open port a no-sale permit is consumed with no
pulse. Cases that refuse a kick. The channels are not STABLE before, so no motion event comes of it. -/
def Obligations.DrawerKicked : Prop :=
  ∀ (tag port : Byte) (p : Port) (s : State), s.ready → s.unbound → Port.ofByte port = some p →
    s.wgt.chanP.stable = false → s.wgt.chanB.stable = false →
    s.dsa.queue = [] → s.pen.line = none →
    (∀ o, s.set.present p = true → (s.port p).mode = .closed → (s.port p).retry = false →
      s.dsa.low = false → s.dsa.committed + 1500 ≤ s.set.capacity → o ≠ p →
      (s.permitOf p ≠ .none → ∃ u,
        exec (.drawerKick tag port) s = .next (State.answered u tag 0x60#8 .ok [port, 3#8]) ∧
        u.port p = { s.port p with
          mode := .kicking, tag := tag, kick := s.permitOf p, attempt := 1, retry := false, wait := 0
          on := true, onMs := 0, onTime := s.set.pulseOn, trips := 0, broken := false
          remembered := false } ∧
        u.port o = s.port o ∧ u.drw.noSale = s.drw.noSale ∧ u.txn = s.txn ∧
        u.dsa = { s.dsa with loads := s.dsa.loads ++ [(.port p, 1500)] } ∧
        u.wgt = { s.wgt with actions := .pulse p :: s.wgt.actions }) ∧
      (s.txn.state = .idle → s.txn.entitlement = none → s.drw.noSale = none → ∃ u,
        exec (.drawerNosale tag port) s = .next (State.answered u tag 0x61#8 .ok [port, 3#8]) ∧
        u.port p = { s.port p with
          mode := .kicking, tag := tag, kick := .noSale, attempt := 1, retry := false, wait := 0
          on := true, onMs := 0, onTime := s.set.pulseOn, trips := 0, broken := false
          remembered := false } ∧
        u.port o = s.port o ∧ u.drw.noSale = some p ∧ u.txn = s.txn ∧
        u.dsa = { s.dsa with loads := s.dsa.loads ++ [(.port p, 1500)] } ∧
        u.wgt = { s.wgt with actions := .pulse p :: s.wgt.actions })) ∧
    (s.set.present p = true → s.permitOf p ≠ .none → (s.port p).mode = .closed →
      (s.port p).retry = false → (s.dsa.low = true ∨ s.set.capacity < s.dsa.committed + 1500) → ∃ u,
        exec (.drawerKick tag port) s = .next (State.answered u tag 0x60#8 .ok [port, 2#8]) ∧
        u.port p = { s.port p with
          mode := .grantWait, tag := tag, kick := s.permitOf p, attempt := 1, retry := false
          wait := 0 } ∧
        u.dsa = { s.dsa with queue := [.port p] } ∧ u.wgt = s.wgt) ∧
    (s.set.present p = true → s.permitOf p = .noSale → (s.port p).mode = .opened →
      exec (.drawerKick tag port) s = .next
        ((raiseQuiet (.drawerOpened tag p .noSale 0) { s with drw.noSale := none }).answered
          tag 0x60#8 .ok [port, 5#8])) ∧
    (s.set.present p = false → Refuses (.drawerKick tag port) tag 0x60#8 .refusedState s) ∧
    (s.set.present p = true → s.permitOf p = .none →
      Refuses (.drawerKick tag port) tag 0x60#8 .refusedPermit s) ∧
    (s.set.present p = true → s.permitOf p ≠ .none →
      ((s.port p).mode = .unknown ∨ (s.port p).mode = .grantWait ∨ (s.port p).mode = .kicking ∨
        (s.port p).mode = .waitOpen ∨ (s.port p).mode = .fault ∨
        ((s.port p).mode = .closed ∧ (s.port p).retry = true)) →
      Refuses (.drawerKick tag port) tag 0x60#8 .refusedBusy s) ∧
    (s.txn.state ≠ .idle → Refuses (.drawerNosale tag port) tag 0x61#8 .refusedState s)

/-- R129 to R131, R141, R142, R192: the sense of a present port. A new level starts its 25 ms; a level held
that long takes a port out of UNKNOWN with no notice, shuts an open drawer, and opens a closed one by force.
The left-open time makes OPEN into OPEN_OVERDUE once. DRAWER_CLEAR takes a port out of FAULT. What restarts
the 25 ms is log entry 25. An event that finds nothing it could happen to leaves the state unchanged: log
entry 6. -/
def Obligations.PortSensed : Prop :=
  ∀ (p : Port) (s : State), s.unbound →
    (∀ high, exec (.senseInputLevelChange p high) s = .next
      (if (s.port p).level = high then s
       else s.setPort p { s.port p with level := high, deb := some 0 })) ∧
    ((s.port p).deb = none → exec (.senseDebouncedChange p) s = .next s) ∧
    ((s.port p).deb ≠ none → (s.port p).present = true → (s.port p).mode = .unknown →
      ∃ t, exec (.senseDebouncedChange p) s = .next t ∧ t.rpt = s.rpt ∧
        (t.port p).held = some (s.port p).level ∧ (t.port p).deb = none ∧
        (t.port p).mode =
          (if (s.port p).level = (if s.set.openLow p then false else true) then .opened
           else .closed)) ∧
    ((s.port p).deb ≠ none → (s.port p).present = true → (s.port p).mode = .closed →
      (s.port p).retry = false → (s.port p).held = some (!(s.port p).level) →
      (s.port p).level = (if s.set.openLow p then false else true) → s.lpm.mode = .active →
      ∃ t, exec (.senseDebouncedChange p) s = .next t ∧ (t.port p).mode = .opened ∧
        (t.port p).openMs = 0 ∧ t.txn = s.txn ∧ t.drw.noSale = s.drw.noSale ∧
        (if p = .d1 then t.rpt.latched.forcedD1 else t.rpt.latched.forcedD2) = true) ∧
    ((s.port p).deb ≠ none → (s.port p).present = true → (s.port p).mode = .opened →
      (s.port p).held = some (!(s.port p).level) →
      (s.port p).level = (if s.set.openLow p then true else false) →
      exec (.senseDebouncedChange p) s = .next
        (raiseQuiet (.drawerClosed p (min ((s.port p).openMs / 1000) 65535))
          (s.setPort p { s.port p with
            held := some (s.port p).level, deb := none, mode := .closed, openMs := 0 }))) ∧
    ((s.port p).mode = .opened → ∃ t, exec (.leftOpenExpiry p) s = .next t ∧
      t.port p = { s.port p with
        mode := .openOverdue, openMs := max (s.port p).openMs (1000 * s.set.leftOpen) } ∧
      t.txn = s.txn ∧ t.rpt = (raiseQuiet (.drawerLeftOpen p
        (min (max (s.port p).openMs (1000 * s.set.leftOpen) / 1000) 65535)) s).rpt) ∧
    ((s.port p).mode ≠ .opened → exec (.leftOpenExpiry p) s = .next s) ∧
    (∀ tag port, s.ready → Port.ofByte port = some p →
      ((s.port p).mode = .fault → s.sense p ≠ some true →
        exec (.drawerClear tag port) s = .next
          ((s.setPort p { s.port p with
            mode := .closed, attempt := 0, retry := false, kick := .none }).answered tag 0x63#8 .ok
            [port, 1#8])) ∧
      ((s.port p).mode ≠ .fault → Refuses (.drawerClear tag port) tag 0x63#8 .refusedState s))

/-- R135, R137 to R139: the events of an attempt. A grant wait or an open wait ends it with DRAWER_NO_OPEN, and the
port is CLOSED until its retry; the third failure ends the kick in FAULT with the permit gone. The on-time's end
returns the grant and starts the guard. A first trip breaks the solenoid with AUTO_RESUME, and the break's end with
the comparator clear energises it again. The retry wait's end begins the next attempt, which waits where the supply
has no room. A port that the event does not concern is unchanged. R132, R135, R138 to R140: a debounced sense of
OPEN in GRANT_WAIT, in WAIT_OPEN or with a retry pending opens the port under its kick: the permit is consumed, be
it an entitlement or a no-sale, and DRAWER_OPENED is raised with the attempt's number; where the permit has ended
before it, nothing is consumed. In KICKING it is remembered, and takes the port to OPEN at the on-time (stated of a
no-sale permit), and on to CLOSED where the sense has returned. R102: the end of an entitlement closes a SETTLED
sale whose receipt is done. Stated with no entry pending, and no BOUND record at such a close. That an entry into
OPEN sets the attempt count to 0 is log entry 47, and the order of DRAWER_OPENED and TXN_CLOSED log entry 27. An
event that finds nothing it could happen to leaves the state unchanged: log entry 6. -/
def Obligations.AttemptEvents : Prop :=
  ∀ (p : Port) (s : State), s.unbound → s.pen.line = none → s.dsa.cap = s.set.capacity →
    ((s.port p).mode = .grantWait → (s.port p).kick ≠ .none → (s.port p).attempt < 3 →
      s.dsa.queue = [.port p] →
      exec (.grantWaitTimeout p) s = .next
        (raiseQuiet (.drawerNoOpen (s.port p).tag p (s.port p).attempt .noGrant true)
          ({ s with dsa.queue := [] }.setPort p { s.port p with
            mode := .closed, retry := true, reason := some .noGrant, wait := 0, on := false
            broken := false, remembered := false }))) ∧
    ((s.port p).mode = .waitOpen → (s.port p).kick ≠ .none → (s.port p).attempt < 3 →
      exec (.openWaitTimeout p) s = .next
        (raiseQuiet (.drawerNoOpen (s.port p).tag p (s.port p).attempt .noOpen true)
          (s.setPort p { s.port p with
            mode := .closed, retry := true, reason := some .noOpen, wait := 0, on := false
            broken := false, remembered := false }))) ∧
    ((s.port p).mode = .waitOpen → (s.port p).kick = .noSale → 3 ≤ (s.port p).attempt →
      s.lpm.entry = none → ∃ t, exec (.openWaitTimeout p) s = .next t ∧
        (t.port p).mode = .fault ∧ (t.port p).kick = .none ∧ (t.port p).reason = some .noOpen ∧
        t.drw.noSale = none ∧ t.txn = s.txn) ∧
    ((s.port p).mode = .kicking → (s.port p).on = true → (s.port p).remembered = false →
      s.dsa.queue = [] → s.dsa.loads = [(.port p, 1500)] → s.wgt.actions = [.pulse p] →
      s.set.drawerGuard ≠ 0 →
      exec (.pulseOnTimeEnd p) s = .next
        ({ s with
          dsa.loads := []
          wgt.actions := []
          wgt.guard := some (max s.set.drawerGuard (s.wgt.guard.getD 0)) }.setPort p
          { s.port p with mode := .waitOpen, wait := 0, on := false, broken := false })) ∧
    ((s.port p).mode = .kicking → (s.port p).on = true → (s.port p).trips = 0 →
      s.set.autoResume ≠ 0 → ∃ t, exec (.overcurrentTrip p) s = .next t ∧
        t.port p = { s.port p with on := false, broken := true, wait := 0, trips := 1 } ∧
        (if p = .d1 then t.rpt.latched.overD1 else t.rpt.latched.overD2) = true ∧
        t.dsa = s.dsa ∧ t.wgt = s.wgt ∧ t.rpt.queue = s.rpt.queue) ∧
    ((s.port p).mode = .kicking → (s.port p).broken = true →
      exec (.overcurrentBreakEnd p true) s = .next
        (s.setPort p { s.port p with on := true, broken := false, wait := 0 })) ∧
    ((s.port p).mode = .closed → (s.port p).retry = true → s.dsa.queue = [] →
      (s.dsa.low = true ∨ s.set.capacity < s.dsa.committed + 1500) →
      exec (.retryWaitEnd p) s = .next ({ s with dsa.queue := [.port p] }.setPort p
        { s.port p with
          mode := .grantWait, attempt := (s.port p).attempt + 1, retry := false, wait := 0 })) ∧
    ((s.port p).mode = .opened → exec (.grantWaitTimeout p) s = .next s ∧
      exec (.openWaitTimeout p) s = .next s ∧ exec (.pulseOnTimeEnd p) s = .next s ∧
      exec (.overcurrentTrip p) s = .next s ∧ exec (.overcurrentBreakEnd p false) s = .next s ∧
      exec (.retryWaitEnd p) s = .next s) ∧
    (∀ q : PortState, s.lpm.entry = none → (s.port p).leaving = false →
      q = { s.port p with
        mode := .opened, openMs := 0, attempt := 0, retry := false, wait := 0, kick := .none, on := false
        broken := false, remembered := false } →
      ((s.port p).present = true → (s.port p).deb ≠ none →
        (s.port p).held = some (!(s.port p).level) →
        (s.port p).level = (if s.set.openLow p then false else true) →
        ((s.port p).mode = .kicking → exec (.senseDebouncedChange p) s = .next
          (s.setPort p { s.port p with
            held := some (s.port p).level, deb := none, remembered := true })) ∧
        (∀ u : State, ((s.port p).mode = .grantWait ∧ s.dsa.queue = [.port p]) ∨
            (s.port p).mode = .waitOpen ∨ ((s.port p).mode = .closed ∧ (s.port p).retry = true) →
          u = { s with
            dsa.queue := if (s.port p).mode = PortMode.grantWait then [] else s.dsa.queue }.setPort p
              { q with held := some (s.port p).level, deb := none } →
          ((s.port p).kick = .noSale → exec (.senseDebouncedChange p) s = .next
            (raiseQuiet (.drawerOpened (s.port p).tag p .noSale (s.port p).attempt)
              { u with drw.noSale := none })) ∧
          ((s.port p).kick = .none → exec (.senseDebouncedChange p) s = .next
            (raiseQuiet (.drawerOpened (s.port p).tag p .none (s.port p).attempt) u)) ∧
          ((s.port p).kick = .entitlement → (s.txn.state ≠ .settled ∨ s.txn.receiptDone = false) →
            exec (.senseDebouncedChange p) s = .next
              (raiseQuiet (.drawerOpened (s.port p).tag p .entitlement (s.port p).attempt)
                { u with txn.entitlement := none })) ∧
          ((s.port p).kick = .entitlement → s.txn.state = .settled → s.txn.receiptDone = true →
            (∀ c r, s.card c = some r → r.bound = false) →
            ∃ t, exec (.senseDebouncedChange p) s = .next t ∧ t.drw = u.drw ∧
              t.txn = { Txn.reset with snap := some (makeSnapshot false s) } ∧
              t.wgt = { s.wgt with tare := 0, tareKind := .none } ∧
              t.bag = { s.bag with watch := .off, entries := [], hold := none } ∧
              t.sst = { s.sst with writes := s.sst.writes ++ [.marker false] } ∧
              (∀ c, t.card c = (s.card c).map fun r => r.judge t.txn) ∧
              t.rpt = (raiseQuiet (.txnClosed 0#8 .normal s.txn.id (total s.txn.items) s.txn.change
                  s.txn.items.length)
                (raiseQuiet (.drawerOpened (s.port p).tag p .entitlement (s.port p).attempt) s)).rpt))) ∧
      (∀ u : State, (s.port p).mode = .kicking → (s.port p).on = true → (s.port p).kick = .noSale →
        (s.port p).remembered = true → s.dsa.queue = [] → s.dsa.loads = [(.port p, 1500)] →
        s.wgt.actions = [.pulse p] → s.set.drawerGuard ≠ 0 →
        u = raiseQuiet (.drawerOpened (s.port p).tag p .noSale (s.port p).attempt) ({ s with
          dsa.loads := [], wgt.actions := [], drw.noSale := none
          wgt.guard := some (max s.set.drawerGuard (s.wgt.guard.getD 0)) }.setPort p q) →
        (s.sense p = some true → exec (.pulseOnTimeEnd p) s = .next u) ∧
        (s.sense p = some false → exec (.pulseOnTimeEnd p) s = .next
          (raiseQuiet (.drawerClosed p 0) (u.setPort p { q with mode := .closed })))))

/-! ### Receipt jobs (chapter 8) -/

/-- R147, R148: cases that JOB_OPEN refuses, and the job an accepted one makes, with a number that no job in
the table has. R146, R149: cases that JOB_DATA refuses, and the append of its elements to a FILLING job that
START_POLICY CLOSED, or an engine that cannot take it, holds back; the bytes held rise by what was sent. R151,
R158: under STREAM the first element starts the job, or takes a job of a sale to WAIT_SETTLE; the arrival of an
element ends an UNDERRUN pause and the job prints on. A job of a sale waits for it whatever the engine does: log
entry 18. The strobe figure of a line that starts here is the supply's last one read: log entry 15. -/
def Obligations.JobOpenedAndFilled : Prop :=
  (∀ (tag role : Byte) (s : State), s.ready →
    (2 < role.toNat → Refuses (.jobOpen tag role) tag 0x70#8 .refusedRange s) ∧
    (role = 0#8 → (s.txn.state = .idle ∨ s.txn.receiptDone = true) →
      Refuses (.jobOpen tag role) tag 0x70#8 .refusedState s) ∧
    (role = 1#8 → s.txn.snap = none → Refuses (.jobOpen tag role) tag 0x70#8 .refusedNotFound s) ∧
    (role = 2#8 → 4 ≤ s.job.table.length →
      Refuses (.jobOpen tag role) tag 0x70#8 .refusedFull s) ∧
    (∀ x, Role.ofByte role = some x → s.job.table.length < 4 → 1 ≤ s.job.next → s.job.next ≤ 255 →
      (x = .receipt → (s.txn.state = .opened ∨ s.txn.state = .tender ∨ s.txn.state = .settled) ∧
        s.txn.receiptDone = false ∧ ∀ j ∈ s.job.table, j.role ≠ .receipt) →
      (x = .reprint → s.txn.snap ≠ none) →
      ∃ n, 1 ≤ n ∧ n ≤ 255 ∧ (∀ j ∈ s.job.table, j.number ≠ n) ∧
        ((∀ j ∈ s.job.table, j.number ≠ s.job.next) → n = s.job.next) ∧
        exec (.jobOpen tag role) s = .next ({ s with
          job.table := s.job.table ++ [Job.new n x tag]
          job.next := if n = 255 then 1 else n + 1 }.answered tag 0x70#8 .ok [u8 n]))) ∧
  (∀ (tag job : Byte) (bytes : List Byte) (s : State), s.ready → 1 ≤ bytes.length →
    bytes.length ≤ 254 →
    (job = 0#8 → Refuses (.jobData tag job bytes) tag 0x71#8 .refusedRange s) ∧
    (job ≠ 0#8 → (∀ j ∈ s.job.table, j.number ≠ job.toNat) →
      Refuses (.jobData tag job bytes) tag 0x71#8 .refusedNotFound s) ∧
    (∀ j, job ≠ 0#8 → s.job.table = [j] → j.number = job.toNat →
      (j.closed = true ∨ j.isAborted = true →
        Refuses (.jobData tag job bytes) tag 0x71#8 .refusedState s) ∧
      (j.closed = false → j.isAborted = false → readElements bytes.length bytes = none →
        Refuses (.jobData tag job bytes) tag 0x71#8 .refusedRange s) ∧
      (∀ l, j.closed = false → j.isAborted = false → readElements bytes.length bytes = some l →
        (s.job.free < bytes.length →
          Refuses (.jobData tag job bytes) tag 0x71#8 .refusedNoRoom s) ∧
        (bytes.length ≤ s.job.free → j.mode = .filling → s.set.startPolicy ≠ 0 →
          exec (.jobData tag job bytes) s = .next
            ({ s with job.table := [{ j with elements := j.elements ++ l }] }.answered tag 0x71#8 .ok
              (job :: be16 bytes.length ++ be16 (s.job.free - bytes.length))) ∧
          Job.bytes { j with elements := j.elements ++ l } = j.bytes + bytes.length) ∧
        (bytes.length ≤ s.job.free → j.mode = .filling → s.set.startPolicy = 0 → j.ofSale = false →
          (s.pen.mode ≠ .idle ∨ s.sst.started = false) →
          exec (.jobData tag job bytes) s = .next
            ({ s with job.table := [{ j with elements := j.elements ++ l }] }.answered tag 0x71#8 .ok
              (job :: be16 bytes.length ++ be16 (s.job.free - bytes.length)))) ∧
        (bytes.length ≤ s.job.free → j.mode = .filling → s.set.startPolicy = 0 → j.ofSale = true →
          s.txn.state ≠ .settled →
          exec (.jobData tag job bytes) s = .next
            ({ s with job.table := [{ j with
                elements := j.elements ++ l, mode := .waitSettle }] }.answered tag 0x71#8 .ok
              (job :: be16 bytes.length ++ be16 (s.job.free - bytes.length))))))) ∧
  (∀ (tag job : Byte) (j : Job) (s : State), s.ready → job ≠ 0#8 → s.job.table = [j] →
    j.number = job.toNat → j.closed = false → j.elements = [] → j.heading = false → s.canPrint →
    (j.mode = .filling → s.set.startPolicy = 0 → j.ofSale = false → s.pen.mode = .idle →
      s.pen.work = none → s.sst.started = true →
      exec (.jobData tag job [3#8]) s = .next
        ({ s with
          job.table := [{ j with
            elements := [.rule], mode := .printing
            truncated := min j.truncated 65535, unavailable := min j.unavailable 65535 }]
          pen.mode := .printing
          pen.work := some
            { owner := .job j.number, current := .element, segs := [.rule], row := 0 }
          pen.line := some (s.dotLine s.dotLimit 0 .rule)
          dsa.loads := s.dsa.loads ++ [s.lineLoad] }.answered tag 0x71#8 .ok
          [job, 0#8, 1#8, 0x1F#8, 0xFF#8])) ∧
    (j.mode = .paused .underrun → s.pen.mode = .paused .underrun →
      s.pen.work = some { owner := .job j.number, current := .none, segs := [], row := 0 } →
      exec (.jobData tag job [3#8]) s = .next
        ({ s with
          job.table := [{ j with
            elements := [.rule], mode := .printing
            truncated := min j.truncated 65535, unavailable := min j.unavailable 65535 }]
          pen.mode := .printing
          pen.work := some
            { owner := .job j.number, current := .element, segs := [.rule], row := 0 }
          pen.line := some (s.dotLine s.dotLimit 0 .rule)
          dsa.loads := s.dsa.loads ++ [s.lineLoad] }.answered tag 0x71#8 .ok
          [job, 0#8, 1#8, 0x1F#8, 0xFF#8])))

/-- R150 to R152: JOB_CLOSE of the only job. It waits as QUEUED while the engine cannot take it, or in
WAIT_SETTLE for its sale; with nothing to print it ends DONE at once; a job that holds one RULE starts, and
its first dot line takes its allocation. A job of a sale waits for it whatever the engine does: log entry 18.
The strobe figure of that line is the supply's last one read: log entry 15. -/
def Obligations.JobClosed : Prop :=
  ∀ (tag job : Byte) (s : State), s.ready →
    (job = 0#8 → Refuses (.jobClose tag job) tag 0x72#8 .refusedRange s) ∧
    (job ≠ 0#8 → (∀ j ∈ s.job.table, j.number ≠ job.toNat) →
      Refuses (.jobClose tag job) tag 0x72#8 .refusedNotFound s) ∧
    (∀ j, job ≠ 0#8 → s.job.table = [j] → j.number = job.toNat →
      (j.closed = true ∨ j.isAborted = true →
        Refuses (.jobClose tag job) tag 0x72#8 .refusedState s) ∧
      (j.closed = false → j.mode = .filling → j.ofSale = false →
        (s.pen.mode ≠ .idle ∨ s.sst.started = false) →
        exec (.jobClose tag job) s = .next
          ({ s with job.table := [{ j with closed := true, mode := .queued }] }.answered tag 0x72#8
            .ok (job :: be16 j.bytes))) ∧
      (j.closed = false → j.mode = .filling → j.ofSale = true → s.txn.state ≠ .settled →
        exec (.jobClose tag job) s = .next
          ({ s with job.table := [{ j with closed := true, mode := .waitSettle }] }.answered tag
            0x72#8 .ok (job :: be16 j.bytes))) ∧
      (j.closed = false → j.mode = .filling → j.ofSale = false → s.pen.mode = .idle →
        s.pen.work = none → s.sst.started = true → s.dsa.queue = [] → s.unbound →
        j.elements = [] → j.heading = false →
        exec (.jobClose tag job) s = .next
          ((raiseQuiet (.jobDone j.tag j.number j.role j.lines j.truncated j.unavailable)
            { s with job.table := [] }).answered tag 0x72#8 .ok [job, 0#8, 0#8])) ∧
      (j.closed = false → j.mode = .filling → j.ofSale = false → s.pen.mode = .idle →
        s.pen.work = none → s.sst.started = true → s.canPrint → j.elements = [.rule] →
        j.heading = false →
        exec (.jobClose tag job) s = .next
          ({ s with
            job.table := [{ j with
              closed := true, mode := .printing
              truncated := min j.truncated 65535, unavailable := min j.unavailable 65535 }]
            pen.mode := .printing
            pen.work := some
              { owner := .job j.number, current := .element, segs := [.rule], row := 0 }
            pen.line := some (s.dotLine s.dotLimit 0 .rule)
            dsa.loads := s.dsa.loads ++ [s.lineLoad] }.answered tag 0x72#8 .ok [job, 0#8, 1#8])))

/-- R146, R159, R160, R162: JOB_ABORT of the only job. Before it has started, or in a PAPER or COVER pause, it
leaves at once with ending NONE; while it prints, its elements are freed and it stays, with ending MARKED.
Cases that refuse it. R163: JOB_STATUS changes nothing. Which ending an aborted job has is log entry 21. -/
def Obligations.JobAbortedAndReported : Prop :=
  ∀ (tag job : Byte) (s : State), s.ready →
    (job = 0#8 → Refuses (.jobAbort tag job) tag 0x73#8 .refusedRange s ∧
      exec (.jobStatus tag job) s = .next (s.answered tag 0x75#8 .ok
        (be16 s.job.free ++ u8 s.job.table.length :: s.job.table.flatMap Job.entry))) ∧
    (job ≠ 0#8 → (∀ j ∈ s.job.table, j.number ≠ job.toNat) →
      Refuses (.jobAbort tag job) tag 0x73#8 .refusedNotFound s ∧
      Refuses (.jobStatus tag job) tag 0x75#8 .refusedNotFound s) ∧
    (∀ j, job ≠ 0#8 → s.job.table = [j] → j.number = job.toNat →
      exec (.jobStatus tag job) s = .next (s.answered tag 0x75#8 .ok j.entry) ∧
      j.entry.length = 16 ∧
      (j.isAborted = true → Refuses (.jobAbort tag job) tag 0x73#8 .refusedState s) ∧
      (s.unbound → (j.mode = .filling ∨ j.mode = .queued ∨ j.mode = .waitSettle) →
        exec (.jobAbort tag job) s = .next
          ((raiseQuiet (.jobAborted j.tag j.number j.role .host .none j.lines j.truncated
            j.unavailable) { s with job.table := [] }).answered tag 0x73#8 .ok [job])) ∧
      (s.unbound → (j.mode = .paused .paper ∨ j.mode = .paused .cover) →
        exec (.jobAbort tag job) s = .next
          ((raiseQuiet (.jobAborted j.tag j.number j.role .host .none j.lines j.truncated
            j.unavailable) { s with job.table := [], pen.work := none }).answered tag 0x73#8 .ok
            [job])) ∧
      (j.mode = .printing → s.inCut j.number = false →
        exec (.jobAbort tag job) s = .next
          ({ s with job.table := [{ j with
            mode := .aborted .host .marked, elements := [], heading := false }] }.answered tag
              0x73#8 .ok [job])))

/-! ### The print engine (chapter 9) -/

/-- R173 to R175: the three requests to the engine. JOB_RESUME ends a PAPER pause with no work left at IDLE;
PRN_CLEAR leaves FAULT once the cutter is home; PRN_FEED of 0 lines changes nothing, and of more begins its
first line, as a disturbing action where it has more than 32. Cases that refuse each. The reply of PRN_CLEAR
shows the engine state after the request: log entry 19. One JOB_RESUME clears a PAPER and a COVER hold
together: log entry 24. A feed line's allocation and its action: log entry 22. Its strobe figure is the
supply's last one read: log entry 15. -/
def Obligations.EngineRequests : Prop :=
  ∀ (tag lines : Byte) (s : State), s.ready →
    (s.pen.mode ≠ .paused .paper → s.pen.mode ≠ .paused .cover →
      Refuses (.jobResume tag) tag 0x74#8 .refusedState s) ∧
    ((s.pen.paperOut = true ∨ s.pen.coverOpen = true) →
      Refuses (.jobResume tag) tag 0x74#8 .refusedState s) ∧
    ((s.pen.mode = .paused .paper ∨ s.pen.mode = .paused .cover) → s.pen.paperOut = false →
      s.pen.coverOpen = false → s.dsa.low = false → s.dsa.queue = [] → s.pen.work = none →
      s.job.table = [] →
      exec (.jobResume tag) s = .next
        ({ s with pen.mode := .idle, pen.paperHold := false, pen.coverHold := false }.answered tag
          0x74#8 .ok [0#8])) ∧
    ((s.pen.mode ≠ .fault ∨ s.pen.home = false) →
      Refuses (.prnClear tag) tag 0x76#8 .refusedState s) ∧
    (s.pen.mode = .fault → s.pen.home = true → s.dsa.queue = [] → s.pen.work = none →
      s.job.table = [] →
      exec (.prnClear tag) s = .next
        ({ s with pen.mode := .idle }.answered tag 0x76#8 .ok [0#8])) ∧
    (s.pen.mode = .fault → Refuses (.prnFeed tag lines) tag 0x77#8 .refusedState s) ∧
    ((s.pen.mode = .printing ∨ s.pen.mode = .cutting ∨ (∃ p, s.pen.mode = .paused p) ∨
      (s.pen.mode = .idle ∧ s.sst.started = false)) →
      Refuses (.prnFeed tag lines) tag 0x77#8 .refusedBusy s) ∧
    (s.pen.mode = .idle → s.sst.started = true →
      (s.pen.paperOut = true ∨ s.pen.coverOpen = true) →
      Refuses (.prnFeed tag lines) tag 0x77#8 .refusedState s) ∧
    (s.pen.mode = .idle → s.sst.started = true → s.canPrint →
      (lines = 0#8 → exec (.prnFeed tag lines) s = .next (s.answered tag 0x77#8 .ok [])) ∧
      (1 ≤ lines.toNat → s.wgt.chanP.stable = false → s.wgt.chanB.stable = false →
        Action.feed ∉ s.wgt.actions →
        exec (.prnFeed tag lines) s = .next
          ({ s with
            pen.mode := .printing
            pen.work := some
              { owner := .feed, current := .none, segs := [.feed lines.toNat], row := 0 }
            pen.line := some (s.dotLine s.dotLimit 0 (.feed lines.toNat))
            dsa.loads := s.dsa.loads ++ [s.lineLoad]
            wgt.actions := if 32 < lines.toNat then .feed :: s.wgt.actions else s.wgt.actions
            }.answered tag 0x77#8 .ok [])))

/-- R165, R166, R172, R180: what reaches the engine and the arbiter from their sensors, on an engine that is
not PAUSED. A change sets its condition and raises its notice; a level already held changes nothing. A head
reading sets θ and the hot condition with its hysteresis, one out of range HEAD_SENSOR. Supply low withholds
the phases of the line in progress, and its end lets a waiting port be granted.
An event that finds nothing it could happen to leaves the state unchanged: log entry 6. That the start and the
end of supply low bring the kept supply figure is log entry 15, and that the end leaves a line withheld is log
entry 36. -/
def Obligations.SensorsAndSupply : Prop :=
  ∀ (s : State) (celsius : Int) (mv : BitVec 16), s.unbound → (∀ p, s.pen.mode ≠ .paused p) →
    (∀ active, exec (.printSensorChange .paperLow active) s = .next
      (if s.pen.paperLow = active then s
       else if active then raiseQuiet .paperLow { s with pen.paperLow := true }
       else { s with pen.paperLow := false })) ∧
    (∀ active, exec (.printSensorChange .paperOut active) s = .next
      (if s.pen.paperOut = active then s
       else if active then raiseQuiet .paperOut { s with pen.paperOut := true }
       else { s with pen.paperOut := false })) ∧
    (∀ active, exec (.printSensorChange .cover active) s = .next
      (if s.pen.coverOpen = active then s
       else if active then raiseQuiet .coverOpen { s with pen.coverOpen := true }
       else { s with pen.coverOpen := false })) ∧
    (exec .cutterHomeSwitchOpens s = .next { s with pen.home := false }) ∧
    ((s.lpm.mode ≠ .active ∨ s.sst.started = false) →
      exec (.headTempReading celsius) s = .next s) ∧
    (s.lpm.mode = .active → s.sst.started = true →
      (-20 ≤ celsius → celsius < 65 → (55 < celsius → s.pen.hot = false) →
        exec (.headTempReading celsius) s = .next
          { s with pen.theta := celsius, pen.hot := false }) ∧
      (65 ≤ celsius → celsius ≤ 100 → s.pen.hot = false →
        exec (.headTempReading celsius) s = .next
          (raiseQuiet (.headHot celsius) { s with pen.theta := celsius, pen.hot := true })) ∧
      (55 < celsius → celsius ≤ 100 → s.pen.hot = true →
        exec (.headTempReading celsius) s = .next { s with pen.theta := celsius }) ∧
      ((celsius < -20 ∨ 100 < celsius) →
        exec (.headTempReading celsius) s = .next
          { s with pen.theta := 25, pen.hot := false, rpt.latched.headSensor := true })) ∧
    ((s.dsa.low = true ∨ 19000 ≤ mv.toNat) → exec (.supplyLowStart mv) s = .next s) ∧
    (s.dsa.low = false → mv.toNat < 19000 →
      exec (.supplyLowStart mv) s = .next
        { s with
          dsa.low := true
          dsa.mv := mv.toNat
          pen.line := s.pen.line.map fun l => { l with withheld := true } }) ∧
    ((s.dsa.low = false ∨ mv.toNat < 20000) → exec (.supplyLowEnd mv) s = .next s) ∧
    (s.dsa.low = true → 20000 ≤ mv.toNat →
      (s.dsa.queue = [] →
        exec (.supplyLowEnd mv) s = .next { s with dsa.low := false, dsa.mv := mv.toNat }) ∧
      (∀ p, s.dsa.queue = [.port p] → s.pen.line = none →
        s.dsa.committed + 1500 ≤ s.set.capacity → s.wgt.chanP.stable = false →
        s.wgt.chanB.stable = false → ∃ t, exec (.supplyLowEnd mv) s = .next t ∧
          (t.port p).mode = .kicking ∧ (t.port p).on = true ∧ t.dsa.queue = [] ∧
          t.dsa.loads = s.dsa.loads ++ [(.port p, 1500)] ∧ t.dsa.low = false))

/-- R152, R160, R161, R164, R167, R171, R172, R179: the end of a dot line and the cut, on a lane with no binding and
no pending entry. The last line of a feed takes the engine to IDLE with its allocation released, and ends the action
of a feed of more than 32 lines; a line with more of its segment to come goes on to the next one, or takes the first
pause that applies; the last line of a text counts it, and the next element is taken and rendered, or a closed job
with none left is DONE. R102: where that job is the receipt of the sale, the receipt-done flag is set, and a SETTLED
sale without an entitlement closes (stated with no BOUND record). R154 to R157: the printed forms of amounts,
weights, unit prices and two-part lines, and the lines of the fields, which are one line without dots where they are
unavailable. The last line before a cut drives the cutter, for a job that prints as for an abort sequence. The
cutter home in time completes the cut: an aborted job's sequence ends MARKED, a closed job with nothing left is
DONE; 500 ms without it is CUTTER_JAM and FAULT, and a job that was printing leaves with reason CUTTER. The stall
limit aborts a job in UNDERRUN, and its abort sequence begins at once. The supply read at a boundary stays the
figure of a line that starts at none, which is log entry 15. That a feed's action ends, and its guard starts, at its
last line's boundary is log entry 22; the home switch that completes a cut with no opening seen is log entry 29; the
end of an abort sequence is log entry 21; an event that finds nothing else it could happen to leaves the state
unchanged is log entry 6; that the truncated count rises as an element is taken is log entry 56; that JOB_DONE and
the close come before the engine is IDLE, JOB_DONE first, is log entries 20 and 27. That a pause is judged by the
sensors and the supply as they stand at the boundary is log entries 64 and 74. -/
def Obligations.LinesAndCuts : Prop :=
  (∀ (mv : BitVec 16) (s : State), s.unbound → s.lpm.entry = none →
    s.wgt.chanP.stable = false → s.wgt.chanB.stable = false →
    (s.pen.line = none → exec (.lineBoundary mv) s = .next { s with dsa.mv := mv.toNat }) ∧
    (∀ (l : DotLine) (n : Nat), s.pen.line = some l → 1 ≤ n →
      s.pen.work = some { owner := .feed, current := .none, segs := [.feed n], row := n - 1 } →
      s.dsa.loads = [(.line, 600 + l.limit * s.set.dotCurrent)] → s.dsa.queue = [] →
      s.dsa.cap = s.set.capacity → s.wgt.actions = [] → s.job.table = [] →
      s.pen.mode = .printing →
      exec (.lineBoundary mv) s = .next { s with
        pen.mode := .idle, pen.work := none, pen.line := none
        dsa.loads := [], dsa.mv := mv.toNat }) ∧
    (∀ (l : DotLine) (n : Nat), s.pen.line = some l → 32 < n →
      s.pen.work = some { owner := .feed, current := .none, segs := [.feed n], row := n - 1 } →
      s.dsa.loads = [(.line, 600 + l.limit * s.set.dotCurrent)] → s.dsa.queue = [] →
      s.dsa.cap = s.set.capacity → s.wgt.actions = [.feed] → s.set.printGuard ≠ 0 →
      s.job.table = [] → s.pen.mode = .printing →
      exec (.lineBoundary mv) s = .next { s with
        pen.mode := .idle, pen.work := none, pen.line := none
        dsa.loads := [], dsa.mv := mv.toNat, wgt.actions := []
        wgt.guard := some (max s.set.printGuard (s.wgt.guard.getD 0)) }) ∧
    (∀ (l : DotLine) (o : Owner) (c : Current) (part : Bool) (g : List Seg), s.pen.line = some l →
      s.pen.work = some { owner := o, current := c, segs := .cut part :: g, row := 95 } →
      (∀ n j, o = .job n → s.job? n = some j → j.isAborted = false) →
      s.dsa.loads = [(.line, 600 + l.limit * s.set.dotCurrent)] → s.dsa.queue = [] →
      s.dsa.cap = s.set.capacity → s.dsa.low = false → 1200 ≤ s.set.capacity →
      s.wgt.actions = [.feed] → s.set.printGuard ≠ 0 →
      ∃ t, exec (.lineBoundary mv) s = .next t ∧ t.pen.mode = .cutting ∧ t.pen.line = none ∧
        t.pen.cut = some 0 ∧ t.dsa.loads = [(.cutter, 1200)] ∧ t.wgt.actions = [.cut] ∧
        t.wgt.guard = some (max s.set.printGuard (s.wgt.guard.getD 0)) ∧ t.job = s.job) ∧
    (s.pen.cut = none → exec .cutterHomeMade s = .next { s with pen.home := true } ∧
      exec .cutJamTimeout s = .next s) ∧
    (∀ (age n : Nat) (j : Job), s.pen.cut = some age → s.pen.mode = .cutting →
      s.pen.work = some { owner := .abort n true, current := .none, segs := [.cut false], row := 96 } →
      s.job.table = [j] → j.number = n → j.mode = .aborted .host .marked →
      s.dsa.loads = [(.cutter, 1200)] → s.dsa.queue = [] → s.dsa.cap = s.set.capacity →
      s.pen.line = none → s.wgt.actions = [.cut] → s.set.printGuard ≠ 0 →
      (∃ t, exec .cutterHomeMade s = .next t ∧ t.job.table = [] ∧ t.pen.mode = .idle ∧
        t.pen.work = none ∧ t.pen.cut = none ∧ t.pen.home = true ∧ t.dsa.loads = [] ∧
        t.wgt.actions = [] ∧
        t.rpt = (raiseQuiet (.jobAborted j.tag n j.role .host .marked j.lines j.truncated
          j.unavailable) s).rpt) ∧
      (∃ t, exec .cutJamTimeout s = .next t ∧ t.job.table = [] ∧ t.pen.mode = .fault ∧
        t.pen.work = none ∧ t.pen.cut = none ∧ t.dsa.loads = [] ∧
        t.rpt.latched.cutterJam = true ∧ t.wgt.actions = [])) ∧
    (∀ (age n row : Nat) (part : Bool) (j : Job) (e : Element), s.pen.cut = some age →
      s.pen.mode = .cutting →
      s.pen.work = some { owner := .job n, current := .element, segs := [.cut part], row := row } →
      s.job.table = [j] → j.number = n → j.mode = .printing → j.closed = true → j.heading = false →
      j.elements = [e] → j.ofSale = false → s.dsa.loads = [(.cutter, 1200)] → s.dsa.queue = [] →
      s.dsa.cap = s.set.capacity → s.pen.line = none → s.wgt.actions = [.cut] →
      s.set.printGuard ≠ 0 →
      (∃ t, exec .cutterHomeMade s = .next t ∧ t.job.table = [] ∧ t.pen.mode = .idle ∧
        t.pen.work = none ∧ t.pen.cut = none ∧ t.pen.home = true ∧ t.dsa.loads = [] ∧
        t.wgt.actions = [] ∧ t.wgt.guard = some (max s.set.printGuard (s.wgt.guard.getD 0)) ∧
        t.rpt = (raiseQuiet (.jobDone j.tag n j.role j.lines j.truncated j.unavailable) s).rpt) ∧
      (∃ t, exec .cutJamTimeout s = .next t ∧ t.job.table = [] ∧ t.pen.mode = .fault ∧
        t.pen.work = none ∧ t.pen.cut = none ∧ t.dsa.loads = [] ∧
        t.rpt.latched.cutterJam = true ∧ t.wgt.actions = [] ∧
        t.rpt.queue = (raiseQuiet (.jobAborted j.tag n j.role .cutter .none j.lines j.truncated
          j.unavailable) (raiseQuiet .cutterJam s)).rpt.queue)) ∧
    (∀ (l : DotLine) (n row : Nat) (c : Current) (g : Seg) (rest : List Seg) (j : Job) (u : State),
      s.pen.line = some l → row + 1 < g.height → g.longFeed = false →
      s.pen.work = some { owner := .job n, current := c, segs := g :: rest, row := row } →
      s.job.table = [j] → j.number = n → j.mode = .printing → s.pen.mode = .printing →
      s.dsa.loads = [(.line, 600 + l.limit * s.set.dotCurrent)] → s.dsa.queue = [] →
      s.dsa.cap = s.set.capacity → s.wgt.actions = [] → s.set.printMotionDisturbs = 0 →
      s.pen.paperHold = false → s.pen.coverHold = false →
      600 + 48 * s.set.dotCurrent ≤ s.set.capacity →
      u = { s with
        dsa.loads := [], dsa.mv := mv.toNat, pen.line := none
        pen.work := some { owner := .job n, current := c, segs := g :: rest, row := row + 1 } } →
      ∀ cause : Option Pause, cause = (if s.pen.paperOut then some .paper
          else if s.pen.coverOpen then some .cover else if s.dsa.low then some .supply
          else if s.pen.hot && (g.counts (row + 1)).any (fun k => decide (0 < k)) then some .hot
          else none) →
        (cause = none → exec (.lineBoundary mv) s = .next { u with
          dsa.loads := [u.lineLoad]
          pen.line := some (u.dotLine u.dotLimit (row + 1) g) }) ∧
        (∀ p, cause = some p → exec (.lineBoundary mv) s = .next { u with
          pen.mode := .paused p
          pen.paperHold := decide (p = .paper)
          pen.coverHold := decide (p = .cover)
          job.table := [{ j with mode := .paused p }] })) ∧
    (∀ (l : DotLine) (n : Nat) (chars : Text) (a : Align) (bold wide tall : Bool) (j : Job)
      (e : Element), s.pen.line = some l →
      s.pen.work = some { owner := .job n, current := .element,
                          segs := [.text chars a bold wide tall true],
                          row := (if tall then 47 else 23) } →
      s.job.table = [j] → j.number = n → j.mode = .printing → j.heading = false →
      s.pen.mode = .printing →
      s.dsa.loads = [(.line, 600 + l.limit * s.set.dotCurrent)] → s.dsa.queue = [] →
      s.dsa.cap = s.set.capacity → s.wgt.actions = [] →
      (j.closed = true → j.elements = [e] →
        ∃ t, exec (.lineBoundary mv) s = .next t ∧ t.job.table = [] ∧ t.pen.mode = .idle ∧
          t.pen.work = none ∧ t.pen.line = none ∧ t.dsa.loads = [] ∧ t.dsa.mv = mv.toNat ∧
          ∀ v, v = raiseQuiet (.jobDone j.tag n j.role (min (j.lines + 1) 65535) j.truncated
            j.unavailable) s →
          (j.ofSale = false → t.txn = s.txn ∧ t.rpt = v.rpt) ∧
          (j.ofSale = true → (s.txn.state ≠ .settled ∨ s.txn.entitlement ≠ none) →
            t.txn = { s.txn with receiptDone := true } ∧ t.rpt = v.rpt) ∧
          (j.ofSale = true → s.txn.state = .settled → s.txn.entitlement = none →
            (∀ c r, s.card c = some r → r.bound = false) →
            t.txn = { Txn.reset with snap := some (makeSnapshot false s) } ∧
            t.wgt = { s.wgt with tare := 0, tareKind := .none } ∧
            t.bag = { s.bag with watch := .off, entries := [], hold := none } ∧
            t.sst = { s.sst with writes := s.sst.writes ++ [.marker false] } ∧
            (∀ c, t.card c = (s.card c).map fun r => r.judge t.txn) ∧
            t.rpt = (raiseQuiet (.txnClosed 0#8 .normal s.txn.id (total s.txn.items) s.txn.change
              s.txn.items.length) v).rpt)) ∧
      (∀ (e2 : Element) (more : List Element) (g : Seg) (rest : List Seg) (x y : Nat) (u : State),
        j.elements = e :: e2 :: more →
        s.render j.binding e2 = { segs := g :: rest, truncated := x, unavailable := y } →
        g.height ≠ 0 → g.longFeed = false → s.pen.paperOut = false → s.pen.coverOpen = false →
        s.pen.paperHold = false → s.pen.coverHold = false → s.pen.hot = false → s.dsa.low = false →
        600 + 48 * s.set.dotCurrent ≤ s.set.capacity → s.set.printMotionDisturbs = 0 →
        u = { s with
          dsa.loads := [], dsa.mv := mv.toNat, pen.line := none
          pen.work := some { owner := .job n, current := .element, segs := g :: rest, row := 0 }
          job.table := [{ j with
            elements := e2 :: more
            lines := min (j.lines + 1) 65535
            rendered := min (j.rendered + 1) 65535
            truncated := min (j.truncated + x) 65535
            unavailable := min (j.unavailable + y) 65535 }] } →
        exec (.lineBoundary mv) s = .next { u with
          dsa.loads := [u.lineLoad]
          pen.line := some (u.dotLine u.dotLimit 0 g) })) ∧
    ((∀ j ∈ s.job.table, j.mode ≠ .paused .underrun) →
      exec .stallLimitExpiry s = .next s) ∧
    (∀ j, s.job.table = [j] → j.mode = .paused .underrun → s.pen.mode = .paused .underrun →
      s.pen.work = some { owner := .job j.number, current := .none, segs := [], row := 0 } →
      s.canPrint →
      exec .stallLimitExpiry s = .next { s with
        job.table := [{ j with
          mode := .aborted .underrun .marked, elements := [], heading := false }]
        pen.mode := .printing
        pen.work := some
          { owner := .abort j.number true, current := .none, segs := [.mark, .cut false], row := 0 }
        pen.line := some (s.dotLine s.dotLimit 0 .mark)
        dsa.loads := s.dsa.loads ++ [s.lineLoad] })) ∧
  (∀ n d g : Nat,
    (digits n).foldl (fun v c => 10 * v + (c.toNat - 48)) 0 = n ∧
    (∀ c ∈ digits n, 48 ≤ c.toNat ∧ c.toNat ≤ 57) ∧ ((digits n).head? = some 0x30#8 → n = 0) ∧
    money 0 n = digits n ∧
    (0 < d → ∃ frac, money d n = digits (n / 10 ^ d) ++ 0x2E#8 :: frac ∧ frac.length = d ∧
      (∀ c ∈ frac, 48 ≤ c.toNat ∧ c.toNat ≤ 57) ∧
      frac.foldl (fun v c => 10 * v + (c.toNat - 48)) 0 = n % 10 ^ d) ∧
    weightText g = money 3 g ++ [0x20#8, 0x6B#8, 0x67#8] ∧
    perKg d n = money d n ++ [0x2F#8, 0x6B#8, 0x67#8]) ∧
  (∀ l r : Text, l.length + r.length ≤ 48 → (twoPart l r).length = 48 ∧
    (twoPart l r).take l.length = l ∧ (twoPart l r).drop (48 - r.length) = r ∧
    ∀ c ∈ ((twoPart l r).drop l.length).take (48 - r.length - l.length), c = 0x20#8) ∧
  (∀ (s : State) (b : JobBinding) (d arg : Nat) (items : List Item) (tenders : List Tender)
      (change id : Nat) (line : Text → Seg), d = s.set.currencyDecimals →
    (line = fun t => .text t .left false false false true) →
    (∀ code, s.render .none (.field code arg) =
      { segs := [.text [] .left false false false false], truncated := 0, unavailable := 1 }) ∧
    ((b = .sale ∧ items = s.txn.items ∧ tenders = s.txn.tenders ∧ change = s.txn.change ∧
        id = s.txn.id) ∨
      (∃ x, b = .snapshot ∧ s.txn.snap = some x ∧ items = x.items ∧ tenders = x.tenders ∧
        change = x.change ∧ id = x.id) →
      (s.render b (.field 1 arg)).segs = items.flatMap (fun it =>
        line (twoPart (padRight 24 it.description ++ [0x20#8, bagMark it.bag])
          (if it.void then ascii "VOID" else money d it.amount)) ::
        (match it.record with
          | some w => [line (ascii "  " ++ weightText w.net ++ ascii " @ " ++ perKg d w.price)]
          | none => if 1 < it.quantity then
              [line (ascii "  " ++ digits it.quantity ++ ascii " x " ++ money d it.price)] else [])) ∧
      (s.render b (.field 2 arg)).segs = [line (twoPart (ascii "SUBTOTAL")
        (money d (total items + voidedAmount items)))] ∧
      (s.render b (.field 3 arg)).segs =
        [.text (twoPart (ascii "TOTAL") (money d (total items))) .left true false false true] ∧
      (s.render b (.field 4 arg)).segs = tenders.map (fun t => line (twoPart
        (match t.kind with
          | .cash => ascii "CASH"
          | .card => ascii "CARD"
          | .voucher => ascii "VOUCHER") (money d t.amount))) ∧
      (s.render b (.field 5 arg)).segs = [line (twoPart (ascii "CHANGE") (money d change))] ∧
      (s.render b (.field 8 arg)).segs = [line (ascii "TXN " ++ digits id)] ∧
      (s.render b (.field 10 arg)).segs = [line (ascii "CAL COUNT " ++ digits s.sst.count)] ∧
      (∀ it w, findItem arg items = some it → it.record = some w →
        (s.render b (.field 7 arg)).segs = [line (ascii "ITEM " ++ digits w.slot ++ ascii "  REC " ++
            digits w.number), line (twoPart (ascii "NET") (weightText w.net))] ++
          (if w.kind = .none then [] else [line (twoPart
            (if w.kind = .captured then ascii "TARE T" else ascii "TARE PT") (weightText w.tare))]) ++
          [line (twoPart (ascii "GROSS") (weightText w.gross)), line (twoPart
            (perKg d w.price ++ ascii "  e=" ++ digits w.division ++ ascii " g") (money d w.amount))]) ∧
      ((findItem arg items = none ∨ ∃ it, findItem arg items = some it ∧ it.record = none) →
        s.render b (.field 7 arg) =
          { segs := [.text [] .left false false false false], truncated := 0, unavailable := 1 })) ∧
    (∀ t, 1 ≤ arg → s.txn.tenders[arg - 1]? = some t →
      (∀ c r y m, t.card = some c → s.card c = some r → r.expiry = some (100 * y + m) → m < 100 →
        (s.render .sale (.field 6 arg)).segs = [line (twoPart r.masked
          (ascii "EXP " ++ padDigits 2 m ++ ascii "/" ++ padDigits 2 y))]) ∧
      (t.card = none → (s.render .sale (.field 6 arg)).unavailable = 1)))

/-- R169 to R171: the phases of a dot line, where no block has more dots than the limit. Each holds at least
one dot and at most the limit, two neighbours together exceed it, none of the line's dots is lost, and there
are no more phases than blocks. The clamps of the strobe time, its value at 25 °C and 24,000 mV, and the line
period. -/
def Obligations.StrobesFollowLimit : Prop :=
  (∀ (limit : Nat) (counts : List Nat), (∀ n ∈ counts, n ≤ limit) →
    (∀ p ∈ groupPhases limit counts, 1 ≤ p ∧ p ≤ limit) ∧
    (groupPhases limit counts).sum = counts.sum ∧
    (groupPhases limit counts).length ≤ counts.length ∧
    (∀ pre p q post, groupPhases limit counts = pre ++ p :: q :: post → limit < p + q)) ∧
  (∀ (darkness : Nat) (theta : Int) (mv : Nat), 1 ≤ darkness → darkness ≤ 5 → 0 < mv →
    512 ≤ tf theta ∧ tf theta ≤ 2048 ∧ 768 ≤ vf mv ∧ vf mv ≤ 1536 ∧
    (theta = 25 → mv = 24000 → strobeTime darkness theta mv = 200 + 50 * darkness)) ∧
  (∀ phases tOn : Nat, linePeriod phases tOn = max 1250 (phases * tOn + 20 * (phases - 1)))

/-- R177: the committed currents stay within the capacity in force, whatever command comes. -/
def Obligations.StepKeepsSupply : Prop :=
  (∀ s t : State, s.supplied → step s = .next t → t.supplied) ∧
  (∀ (c : Instr) (s t : State), s.supplied → exec c s = .next t → t.supplied)

/-- R88: every step keeps the item list within 64 items, numbered consecutively from 1, and its total within
99,999,999. -/
def Obligations.StepKeepsItemList : Prop :=
  ∀ s t : State, s.saleBounded → step s = .next t → t.saleBounded

/-- R71: every step keeps the expectation list within 8 entries that name distinct items of the sale, each of them
PENDING or OVERDUE, and empty in IDLE and SETTLED. That the items are numbered from 1 (R88), and that a capture
waits only in OPEN (R91, R95), is part of what is kept. -/
def Obligations.StepKeepsExpectations : Prop :=
  ∀ s t : State, s.expecting → step s = .next t → t.expecting

/-- R123, R128: every step keeps a card record BOUND only in TENDER and SETTLED, by a tender that names its slot; no
record is BOUND in IDLE. -/
def Obligations.StepKeepsCardsBound : Prop :=
  ∀ s t : State, s.cardsBound → step s = .next t → t.cardsBound

/-- R129, R132, R133, R135, R136, R177: every step keeps at most one drawer permit, and each solenoid energised only
in KICKING, with a grant held and for at most its on-time. A port waits for a grant at most once and only in
GRANT_WAIT, and an absent port is UNKNOWN; both are part of what is kept, and so are PRESENT settings of 0 or 1,
in the working copy and in the settings block. -/
def Obligations.StepKeepsDrawersSafe : Prop :=
  ∀ s t : State, s.drawersSafe → step s = .next t → t.drawersSafe
end

