-- ==== Sys2Proof/Laws/State.lean ====
section
/-! SUPPORT. One lemma per field for each named update of the state. -/

namespace Sys2Proof.Machine

/-! ### State.setChan -/

@[simp] theorem State.setChan_pending (s : State) (ch : Channel) (c : Chan) : (s.setChan ch c).pending = s.pending := by cases ch <;> rfl
@[simp] theorem State.setChan_link (s : State) (ch : Channel) (c : Chan) : (s.setChan ch c).link = s.link := by cases ch <;> rfl
@[simp] theorem State.setChan_bag (s : State) (ch : Channel) (c : Chan) : (s.setChan ch c).bag = s.bag := by cases ch <;> rfl
@[simp] theorem State.setChan_txn (s : State) (ch : Channel) (c : Chan) : (s.setChan ch c).txn = s.txn := by cases ch <;> rfl
@[simp] theorem State.setChan_crd (s : State) (ch : Channel) (c : Chan) : (s.setChan ch c).crd = s.crd := by cases ch <;> rfl
@[simp] theorem State.setChan_drw (s : State) (ch : Channel) (c : Chan) : (s.setChan ch c).drw = s.drw := by cases ch <;> rfl
@[simp] theorem State.setChan_job (s : State) (ch : Channel) (c : Chan) : (s.setChan ch c).job = s.job := by cases ch <;> rfl
@[simp] theorem State.setChan_pen (s : State) (ch : Channel) (c : Chan) : (s.setChan ch c).pen = s.pen := by cases ch <;> rfl
@[simp] theorem State.setChan_dsa (s : State) (ch : Channel) (c : Chan) : (s.setChan ch c).dsa = s.dsa := by cases ch <;> rfl
@[simp] theorem State.setChan_lpm (s : State) (ch : Channel) (c : Chan) : (s.setChan ch c).lpm = s.lpm := by cases ch <;> rfl
@[simp] theorem State.setChan_rpt (s : State) (ch : Channel) (c : Chan) : (s.setChan ch c).rpt = s.rpt := by cases ch <;> rfl
@[simp] theorem State.setChan_set (s : State) (ch : Channel) (c : Chan) : (s.setChan ch c).set = s.set := by cases ch <;> rfl
@[simp] theorem State.setChan_sst (s : State) (ch : Channel) (c : Chan) : (s.setChan ch c).sst = s.sst := by cases ch <;> rfl
@[simp] theorem State.setChan_calEn (s : State) (ch : Channel) (c : Chan) : (s.setChan ch c).calEn = s.calEn := by cases ch <;> rfl
@[simp] theorem State.setChan_free (s : State) (ch : Channel) (c : Chan) : (s.setChan ch c).free = s.free := by cases ch <;> rfl

@[simp] theorem State.setChan_chan (s : State) (ch : Channel) (c : Chan) : (s.setChan ch c).chan ch = c := by
  cases ch <;> rfl

@[simp] theorem State.setChan_p (s : State) (c : Chan) : (s.setChan .p c).wgt = { s.wgt with chanP := c } := rfl

@[simp] theorem State.setChan_b (s : State) (c : Chan) : (s.setChan .b c).wgt = { s.wgt with chanB := c } := rfl

/-! ### State.setPort -/

@[simp] theorem State.setPort_pending (s : State) (p : Port) (q : PortState) : (s.setPort p q).pending = s.pending := by cases p <;> rfl
@[simp] theorem State.setPort_link (s : State) (p : Port) (q : PortState) : (s.setPort p q).link = s.link := by cases p <;> rfl
@[simp] theorem State.setPort_wgt (s : State) (p : Port) (q : PortState) : (s.setPort p q).wgt = s.wgt := by cases p <;> rfl
@[simp] theorem State.setPort_bag (s : State) (p : Port) (q : PortState) : (s.setPort p q).bag = s.bag := by cases p <;> rfl
@[simp] theorem State.setPort_txn (s : State) (p : Port) (q : PortState) : (s.setPort p q).txn = s.txn := by cases p <;> rfl
@[simp] theorem State.setPort_crd (s : State) (p : Port) (q : PortState) : (s.setPort p q).crd = s.crd := by cases p <;> rfl
@[simp] theorem State.setPort_job (s : State) (p : Port) (q : PortState) : (s.setPort p q).job = s.job := by cases p <;> rfl
@[simp] theorem State.setPort_pen (s : State) (p : Port) (q : PortState) : (s.setPort p q).pen = s.pen := by cases p <;> rfl
@[simp] theorem State.setPort_dsa (s : State) (p : Port) (q : PortState) : (s.setPort p q).dsa = s.dsa := by cases p <;> rfl
@[simp] theorem State.setPort_lpm (s : State) (p : Port) (q : PortState) : (s.setPort p q).lpm = s.lpm := by cases p <;> rfl
@[simp] theorem State.setPort_rpt (s : State) (p : Port) (q : PortState) : (s.setPort p q).rpt = s.rpt := by cases p <;> rfl
@[simp] theorem State.setPort_set (s : State) (p : Port) (q : PortState) : (s.setPort p q).set = s.set := by cases p <;> rfl
@[simp] theorem State.setPort_sst (s : State) (p : Port) (q : PortState) : (s.setPort p q).sst = s.sst := by cases p <;> rfl
@[simp] theorem State.setPort_calEn (s : State) (p : Port) (q : PortState) : (s.setPort p q).calEn = s.calEn := by cases p <;> rfl
@[simp] theorem State.setPort_free (s : State) (p : Port) (q : PortState) : (s.setPort p q).free = s.free := by cases p <;> rfl

@[simp] theorem State.setPort_port (s : State) (p : Port) (q : PortState) : (s.setPort p q).port p = q := by
  cases p <;> rfl

@[simp] theorem State.setPort_noSale (s : State) (p : Port) (q : PortState) :
    (s.setPort p q).drw.noSale = s.drw.noSale := by cases p <;> rfl

/-! ### modPort -/

@[simp] theorem modPort_pending (p : Port) (f : PortState → PortState) (s : State) : (modPort p f s).pending = s.pending := by cases p <;> rfl
@[simp] theorem modPort_link (p : Port) (f : PortState → PortState) (s : State) : (modPort p f s).link = s.link := by cases p <;> rfl
@[simp] theorem modPort_wgt (p : Port) (f : PortState → PortState) (s : State) : (modPort p f s).wgt = s.wgt := by cases p <;> rfl
@[simp] theorem modPort_bag (p : Port) (f : PortState → PortState) (s : State) : (modPort p f s).bag = s.bag := by cases p <;> rfl
@[simp] theorem modPort_txn (p : Port) (f : PortState → PortState) (s : State) : (modPort p f s).txn = s.txn := by cases p <;> rfl
@[simp] theorem modPort_crd (p : Port) (f : PortState → PortState) (s : State) : (modPort p f s).crd = s.crd := by cases p <;> rfl
@[simp] theorem modPort_job (p : Port) (f : PortState → PortState) (s : State) : (modPort p f s).job = s.job := by cases p <;> rfl
@[simp] theorem modPort_pen (p : Port) (f : PortState → PortState) (s : State) : (modPort p f s).pen = s.pen := by cases p <;> rfl
@[simp] theorem modPort_dsa (p : Port) (f : PortState → PortState) (s : State) : (modPort p f s).dsa = s.dsa := by cases p <;> rfl
@[simp] theorem modPort_lpm (p : Port) (f : PortState → PortState) (s : State) : (modPort p f s).lpm = s.lpm := by cases p <;> rfl
@[simp] theorem modPort_rpt (p : Port) (f : PortState → PortState) (s : State) : (modPort p f s).rpt = s.rpt := by cases p <;> rfl
@[simp] theorem modPort_set (p : Port) (f : PortState → PortState) (s : State) : (modPort p f s).set = s.set := by cases p <;> rfl
@[simp] theorem modPort_sst (p : Port) (f : PortState → PortState) (s : State) : (modPort p f s).sst = s.sst := by cases p <;> rfl
@[simp] theorem modPort_calEn (p : Port) (f : PortState → PortState) (s : State) : (modPort p f s).calEn = s.calEn := by cases p <;> rfl
@[simp] theorem modPort_free (p : Port) (f : PortState → PortState) (s : State) : (modPort p f s).free = s.free := by cases p <;> rfl

@[simp] theorem modPort_port (p : Port) (f : PortState → PortState) (s : State) :
    (modPort p f s).port p = f (s.port p) := by cases p <;> rfl

/-! ### State.setCard -/

@[simp] theorem State.setCard_pending (s : State) (c : CardSlot) (r : Option CardRec) : (s.setCard c r).pending = s.pending := by cases c <;> rfl
@[simp] theorem State.setCard_link (s : State) (c : CardSlot) (r : Option CardRec) : (s.setCard c r).link = s.link := by cases c <;> rfl
@[simp] theorem State.setCard_wgt (s : State) (c : CardSlot) (r : Option CardRec) : (s.setCard c r).wgt = s.wgt := by cases c <;> rfl
@[simp] theorem State.setCard_bag (s : State) (c : CardSlot) (r : Option CardRec) : (s.setCard c r).bag = s.bag := by cases c <;> rfl
@[simp] theorem State.setCard_txn (s : State) (c : CardSlot) (r : Option CardRec) : (s.setCard c r).txn = s.txn := by cases c <;> rfl
@[simp] theorem State.setCard_drw (s : State) (c : CardSlot) (r : Option CardRec) : (s.setCard c r).drw = s.drw := by cases c <;> rfl
@[simp] theorem State.setCard_job (s : State) (c : CardSlot) (r : Option CardRec) : (s.setCard c r).job = s.job := by cases c <;> rfl
@[simp] theorem State.setCard_pen (s : State) (c : CardSlot) (r : Option CardRec) : (s.setCard c r).pen = s.pen := by cases c <;> rfl
@[simp] theorem State.setCard_dsa (s : State) (c : CardSlot) (r : Option CardRec) : (s.setCard c r).dsa = s.dsa := by cases c <;> rfl
@[simp] theorem State.setCard_lpm (s : State) (c : CardSlot) (r : Option CardRec) : (s.setCard c r).lpm = s.lpm := by cases c <;> rfl
@[simp] theorem State.setCard_rpt (s : State) (c : CardSlot) (r : Option CardRec) : (s.setCard c r).rpt = s.rpt := by cases c <;> rfl
@[simp] theorem State.setCard_set (s : State) (c : CardSlot) (r : Option CardRec) : (s.setCard c r).set = s.set := by cases c <;> rfl
@[simp] theorem State.setCard_sst (s : State) (c : CardSlot) (r : Option CardRec) : (s.setCard c r).sst = s.sst := by cases c <;> rfl
@[simp] theorem State.setCard_calEn (s : State) (c : CardSlot) (r : Option CardRec) : (s.setCard c r).calEn = s.calEn := by cases c <;> rfl
@[simp] theorem State.setCard_free (s : State) (c : CardSlot) (r : Option CardRec) : (s.setCard c r).free = s.free := by cases c <;> rfl

@[simp] theorem State.setCard_card (s : State) (c : CardSlot) (r : Option CardRec) :
    (s.setCard c r).card c = r := by cases c <;> rfl

/-! ### askWrite -/

@[simp] theorem askWrite_pending (w : StoreWrite) (s : State) : (askWrite w s).pending = s.pending := rfl
@[simp] theorem askWrite_link (w : StoreWrite) (s : State) : (askWrite w s).link = s.link := rfl
@[simp] theorem askWrite_wgt (w : StoreWrite) (s : State) : (askWrite w s).wgt = s.wgt := rfl
@[simp] theorem askWrite_bag (w : StoreWrite) (s : State) : (askWrite w s).bag = s.bag := rfl
@[simp] theorem askWrite_txn (w : StoreWrite) (s : State) : (askWrite w s).txn = s.txn := rfl
@[simp] theorem askWrite_crd (w : StoreWrite) (s : State) : (askWrite w s).crd = s.crd := rfl
@[simp] theorem askWrite_drw (w : StoreWrite) (s : State) : (askWrite w s).drw = s.drw := rfl
@[simp] theorem askWrite_job (w : StoreWrite) (s : State) : (askWrite w s).job = s.job := rfl
@[simp] theorem askWrite_pen (w : StoreWrite) (s : State) : (askWrite w s).pen = s.pen := rfl
@[simp] theorem askWrite_dsa (w : StoreWrite) (s : State) : (askWrite w s).dsa = s.dsa := rfl
@[simp] theorem askWrite_lpm (w : StoreWrite) (s : State) : (askWrite w s).lpm = s.lpm := rfl
@[simp] theorem askWrite_rpt (w : StoreWrite) (s : State) : (askWrite w s).rpt = s.rpt := rfl
@[simp] theorem askWrite_set (w : StoreWrite) (s : State) : (askWrite w s).set = s.set := rfl
@[simp] theorem askWrite_calEn (w : StoreWrite) (s : State) : (askWrite w s).calEn = s.calEn := rfl
@[simp] theorem askWrite_free (w : StoreWrite) (s : State) : (askWrite w s).free = s.free := rfl

/-! ### modJob -/

@[simp] theorem modJob_pending (n : Nat) (f : Job → Job) (s : State) : (modJob n f s).pending = s.pending := rfl
@[simp] theorem modJob_link (n : Nat) (f : Job → Job) (s : State) : (modJob n f s).link = s.link := rfl
@[simp] theorem modJob_wgt (n : Nat) (f : Job → Job) (s : State) : (modJob n f s).wgt = s.wgt := rfl
@[simp] theorem modJob_bag (n : Nat) (f : Job → Job) (s : State) : (modJob n f s).bag = s.bag := rfl
@[simp] theorem modJob_txn (n : Nat) (f : Job → Job) (s : State) : (modJob n f s).txn = s.txn := rfl
@[simp] theorem modJob_crd (n : Nat) (f : Job → Job) (s : State) : (modJob n f s).crd = s.crd := rfl
@[simp] theorem modJob_drw (n : Nat) (f : Job → Job) (s : State) : (modJob n f s).drw = s.drw := rfl
@[simp] theorem modJob_pen (n : Nat) (f : Job → Job) (s : State) : (modJob n f s).pen = s.pen := rfl
@[simp] theorem modJob_dsa (n : Nat) (f : Job → Job) (s : State) : (modJob n f s).dsa = s.dsa := rfl
@[simp] theorem modJob_lpm (n : Nat) (f : Job → Job) (s : State) : (modJob n f s).lpm = s.lpm := rfl
@[simp] theorem modJob_rpt (n : Nat) (f : Job → Job) (s : State) : (modJob n f s).rpt = s.rpt := rfl
@[simp] theorem modJob_set (n : Nat) (f : Job → Job) (s : State) : (modJob n f s).set = s.set := rfl
@[simp] theorem modJob_sst (n : Nat) (f : Job → Job) (s : State) : (modJob n f s).sst = s.sst := rfl
@[simp] theorem modJob_calEn (n : Nat) (f : Job → Job) (s : State) : (modJob n f s).calEn = s.calEn := rfl
@[simp] theorem modJob_free (n : Nat) (f : Job → Job) (s : State) : (modJob n f s).free = s.free := rfl

/-! ### dropJob -/

@[simp] theorem dropJob_pending (n : Nat) (s : State) : (dropJob n s).pending = s.pending := rfl
@[simp] theorem dropJob_link (n : Nat) (s : State) : (dropJob n s).link = s.link := rfl
@[simp] theorem dropJob_wgt (n : Nat) (s : State) : (dropJob n s).wgt = s.wgt := rfl
@[simp] theorem dropJob_bag (n : Nat) (s : State) : (dropJob n s).bag = s.bag := rfl
@[simp] theorem dropJob_txn (n : Nat) (s : State) : (dropJob n s).txn = s.txn := rfl
@[simp] theorem dropJob_crd (n : Nat) (s : State) : (dropJob n s).crd = s.crd := rfl
@[simp] theorem dropJob_drw (n : Nat) (s : State) : (dropJob n s).drw = s.drw := rfl
@[simp] theorem dropJob_pen (n : Nat) (s : State) : (dropJob n s).pen = s.pen := rfl
@[simp] theorem dropJob_dsa (n : Nat) (s : State) : (dropJob n s).dsa = s.dsa := rfl
@[simp] theorem dropJob_lpm (n : Nat) (s : State) : (dropJob n s).lpm = s.lpm := rfl
@[simp] theorem dropJob_rpt (n : Nat) (s : State) : (dropJob n s).rpt = s.rpt := rfl
@[simp] theorem dropJob_set (n : Nat) (s : State) : (dropJob n s).set = s.set := rfl
@[simp] theorem dropJob_sst (n : Nat) (s : State) : (dropJob n s).sst = s.sst := rfl
@[simp] theorem dropJob_calEn (n : Nat) (s : State) : (dropJob n s).calEn = s.calEn := rfl
@[simp] theorem dropJob_free (n : Nat) (s : State) : (dropJob n s).free = s.free := rfl

/-! ### commitLoad -/

@[simp] theorem commitLoad_pending (q : Requester) (mA : Nat) (s : State) : (commitLoad q mA s).pending = s.pending := rfl
@[simp] theorem commitLoad_link (q : Requester) (mA : Nat) (s : State) : (commitLoad q mA s).link = s.link := rfl
@[simp] theorem commitLoad_wgt (q : Requester) (mA : Nat) (s : State) : (commitLoad q mA s).wgt = s.wgt := rfl
@[simp] theorem commitLoad_bag (q : Requester) (mA : Nat) (s : State) : (commitLoad q mA s).bag = s.bag := rfl
@[simp] theorem commitLoad_txn (q : Requester) (mA : Nat) (s : State) : (commitLoad q mA s).txn = s.txn := rfl
@[simp] theorem commitLoad_crd (q : Requester) (mA : Nat) (s : State) : (commitLoad q mA s).crd = s.crd := rfl
@[simp] theorem commitLoad_drw (q : Requester) (mA : Nat) (s : State) : (commitLoad q mA s).drw = s.drw := rfl
@[simp] theorem commitLoad_job (q : Requester) (mA : Nat) (s : State) : (commitLoad q mA s).job = s.job := rfl
@[simp] theorem commitLoad_pen (q : Requester) (mA : Nat) (s : State) : (commitLoad q mA s).pen = s.pen := rfl
@[simp] theorem commitLoad_lpm (q : Requester) (mA : Nat) (s : State) : (commitLoad q mA s).lpm = s.lpm := rfl
@[simp] theorem commitLoad_rpt (q : Requester) (mA : Nat) (s : State) : (commitLoad q mA s).rpt = s.rpt := rfl
@[simp] theorem commitLoad_set (q : Requester) (mA : Nat) (s : State) : (commitLoad q mA s).set = s.set := rfl
@[simp] theorem commitLoad_sst (q : Requester) (mA : Nat) (s : State) : (commitLoad q mA s).sst = s.sst := rfl
@[simp] theorem commitLoad_calEn (q : Requester) (mA : Nat) (s : State) : (commitLoad q mA s).calEn = s.calEn := rfl
@[simp] theorem commitLoad_free (q : Requester) (mA : Nat) (s : State) : (commitLoad q mA s).free = s.free := rfl

/-! ### clearTare -/

@[simp] theorem clearTare_pending (s : State) : (clearTare s).pending = s.pending := rfl
@[simp] theorem clearTare_link (s : State) : (clearTare s).link = s.link := rfl
@[simp] theorem clearTare_bag (s : State) : (clearTare s).bag = s.bag := rfl
@[simp] theorem clearTare_txn (s : State) : (clearTare s).txn = s.txn := rfl
@[simp] theorem clearTare_crd (s : State) : (clearTare s).crd = s.crd := rfl
@[simp] theorem clearTare_drw (s : State) : (clearTare s).drw = s.drw := rfl
@[simp] theorem clearTare_job (s : State) : (clearTare s).job = s.job := rfl
@[simp] theorem clearTare_pen (s : State) : (clearTare s).pen = s.pen := rfl
@[simp] theorem clearTare_dsa (s : State) : (clearTare s).dsa = s.dsa := rfl
@[simp] theorem clearTare_lpm (s : State) : (clearTare s).lpm = s.lpm := rfl
@[simp] theorem clearTare_rpt (s : State) : (clearTare s).rpt = s.rpt := rfl
@[simp] theorem clearTare_set (s : State) : (clearTare s).set = s.set := rfl
@[simp] theorem clearTare_sst (s : State) : (clearTare s).sst = s.sst := rfl
@[simp] theorem clearTare_calEn (s : State) : (clearTare s).calEn = s.calEn := rfl
@[simp] theorem clearTare_free (s : State) : (clearTare s).free = s.free := rfl

/-! ### setBagStatus -/

@[simp] theorem setBagStatus_pending (slot : Nat) (b : BagStatus) (s : State) : (setBagStatus slot b s).pending = s.pending := rfl
@[simp] theorem setBagStatus_link (slot : Nat) (b : BagStatus) (s : State) : (setBagStatus slot b s).link = s.link := rfl
@[simp] theorem setBagStatus_wgt (slot : Nat) (b : BagStatus) (s : State) : (setBagStatus slot b s).wgt = s.wgt := rfl
@[simp] theorem setBagStatus_bag (slot : Nat) (b : BagStatus) (s : State) : (setBagStatus slot b s).bag = s.bag := rfl
@[simp] theorem setBagStatus_crd (slot : Nat) (b : BagStatus) (s : State) : (setBagStatus slot b s).crd = s.crd := rfl
@[simp] theorem setBagStatus_drw (slot : Nat) (b : BagStatus) (s : State) : (setBagStatus slot b s).drw = s.drw := rfl
@[simp] theorem setBagStatus_job (slot : Nat) (b : BagStatus) (s : State) : (setBagStatus slot b s).job = s.job := rfl
@[simp] theorem setBagStatus_pen (slot : Nat) (b : BagStatus) (s : State) : (setBagStatus slot b s).pen = s.pen := rfl
@[simp] theorem setBagStatus_dsa (slot : Nat) (b : BagStatus) (s : State) : (setBagStatus slot b s).dsa = s.dsa := rfl
@[simp] theorem setBagStatus_lpm (slot : Nat) (b : BagStatus) (s : State) : (setBagStatus slot b s).lpm = s.lpm := rfl
@[simp] theorem setBagStatus_rpt (slot : Nat) (b : BagStatus) (s : State) : (setBagStatus slot b s).rpt = s.rpt := rfl
@[simp] theorem setBagStatus_set (slot : Nat) (b : BagStatus) (s : State) : (setBagStatus slot b s).set = s.set := rfl
@[simp] theorem setBagStatus_sst (slot : Nat) (b : BagStatus) (s : State) : (setBagStatus slot b s).sst = s.sst := rfl
@[simp] theorem setBagStatus_calEn (slot : Nat) (b : BagStatus) (s : State) : (setBagStatus slot b s).calEn = s.calEn := rfl
@[simp] theorem setBagStatus_free (slot : Nat) (b : BagStatus) (s : State) : (setBagStatus slot b s).free = s.free := rfl

/-! ### dropEntry -/

@[simp] theorem dropEntry_pending (slot : Nat) (s : State) : (dropEntry slot s).pending = s.pending := rfl
@[simp] theorem dropEntry_link (slot : Nat) (s : State) : (dropEntry slot s).link = s.link := rfl
@[simp] theorem dropEntry_wgt (slot : Nat) (s : State) : (dropEntry slot s).wgt = s.wgt := rfl
@[simp] theorem dropEntry_txn (slot : Nat) (s : State) : (dropEntry slot s).txn = s.txn := rfl
@[simp] theorem dropEntry_crd (slot : Nat) (s : State) : (dropEntry slot s).crd = s.crd := rfl
@[simp] theorem dropEntry_drw (slot : Nat) (s : State) : (dropEntry slot s).drw = s.drw := rfl
@[simp] theorem dropEntry_job (slot : Nat) (s : State) : (dropEntry slot s).job = s.job := rfl
@[simp] theorem dropEntry_pen (slot : Nat) (s : State) : (dropEntry slot s).pen = s.pen := rfl
@[simp] theorem dropEntry_dsa (slot : Nat) (s : State) : (dropEntry slot s).dsa = s.dsa := rfl
@[simp] theorem dropEntry_lpm (slot : Nat) (s : State) : (dropEntry slot s).lpm = s.lpm := rfl
@[simp] theorem dropEntry_rpt (slot : Nat) (s : State) : (dropEntry slot s).rpt = s.rpt := rfl
@[simp] theorem dropEntry_set (slot : Nat) (s : State) : (dropEntry slot s).set = s.set := rfl
@[simp] theorem dropEntry_sst (slot : Nat) (s : State) : (dropEntry slot s).sst = s.sst := rfl
@[simp] theorem dropEntry_calEn (slot : Nat) (s : State) : (dropEntry slot s).calEn = s.calEn := rfl
@[simp] theorem dropEntry_free (slot : Nat) (s : State) : (dropEntry slot s).free = s.free := rfl

/-! ### addItem -/

@[simp] theorem addItem_pending (it : Item) (s : State) : (addItem it s).pending = s.pending := rfl
@[simp] theorem addItem_link (it : Item) (s : State) : (addItem it s).link = s.link := rfl
@[simp] theorem addItem_wgt (it : Item) (s : State) : (addItem it s).wgt = s.wgt := rfl
@[simp] theorem addItem_bag (it : Item) (s : State) : (addItem it s).bag = s.bag := rfl
@[simp] theorem addItem_crd (it : Item) (s : State) : (addItem it s).crd = s.crd := rfl
@[simp] theorem addItem_drw (it : Item) (s : State) : (addItem it s).drw = s.drw := rfl
@[simp] theorem addItem_job (it : Item) (s : State) : (addItem it s).job = s.job := rfl
@[simp] theorem addItem_pen (it : Item) (s : State) : (addItem it s).pen = s.pen := rfl
@[simp] theorem addItem_dsa (it : Item) (s : State) : (addItem it s).dsa = s.dsa := rfl
@[simp] theorem addItem_lpm (it : Item) (s : State) : (addItem it s).lpm = s.lpm := rfl
@[simp] theorem addItem_rpt (it : Item) (s : State) : (addItem it s).rpt = s.rpt := rfl
@[simp] theorem addItem_set (it : Item) (s : State) : (addItem it s).set = s.set := rfl
@[simp] theorem addItem_sst (it : Item) (s : State) : (addItem it s).sst = s.sst := rfl
@[simp] theorem addItem_calEn (it : Item) (s : State) : (addItem it s).calEn = s.calEn := rfl
@[simp] theorem addItem_free (it : Item) (s : State) : (addItem it s).free = s.free := rfl

/-! ### setRx -/

@[simp] theorem setRx_pending (m : RxMode) (buf : List Byte) (s : State) : (setRx m buf s).pending = s.pending := rfl
@[simp] theorem setRx_wgt (m : RxMode) (buf : List Byte) (s : State) : (setRx m buf s).wgt = s.wgt := rfl
@[simp] theorem setRx_bag (m : RxMode) (buf : List Byte) (s : State) : (setRx m buf s).bag = s.bag := rfl
@[simp] theorem setRx_txn (m : RxMode) (buf : List Byte) (s : State) : (setRx m buf s).txn = s.txn := rfl
@[simp] theorem setRx_crd (m : RxMode) (buf : List Byte) (s : State) : (setRx m buf s).crd = s.crd := rfl
@[simp] theorem setRx_drw (m : RxMode) (buf : List Byte) (s : State) : (setRx m buf s).drw = s.drw := rfl
@[simp] theorem setRx_job (m : RxMode) (buf : List Byte) (s : State) : (setRx m buf s).job = s.job := rfl
@[simp] theorem setRx_pen (m : RxMode) (buf : List Byte) (s : State) : (setRx m buf s).pen = s.pen := rfl
@[simp] theorem setRx_dsa (m : RxMode) (buf : List Byte) (s : State) : (setRx m buf s).dsa = s.dsa := rfl
@[simp] theorem setRx_lpm (m : RxMode) (buf : List Byte) (s : State) : (setRx m buf s).lpm = s.lpm := rfl
@[simp] theorem setRx_rpt (m : RxMode) (buf : List Byte) (s : State) : (setRx m buf s).rpt = s.rpt := rfl
@[simp] theorem setRx_set (m : RxMode) (buf : List Byte) (s : State) : (setRx m buf s).set = s.set := rfl
@[simp] theorem setRx_sst (m : RxMode) (buf : List Byte) (s : State) : (setRx m buf s).sst = s.sst := rfl
@[simp] theorem setRx_calEn (m : RxMode) (buf : List Byte) (s : State) : (setRx m buf s).calEn = s.calEn := rfl
@[simp] theorem setRx_free (m : RxMode) (buf : List Byte) (s : State) : (setRx m buf s).free = s.free := rfl

/-! ### readerTo -/

@[simp] theorem readerTo_pending (m : ReaderState) (s : State) : (readerTo m s).pending = s.pending := rfl
@[simp] theorem readerTo_link (m : ReaderState) (s : State) : (readerTo m s).link = s.link := rfl
@[simp] theorem readerTo_wgt (m : ReaderState) (s : State) : (readerTo m s).wgt = s.wgt := rfl
@[simp] theorem readerTo_bag (m : ReaderState) (s : State) : (readerTo m s).bag = s.bag := rfl
@[simp] theorem readerTo_txn (m : ReaderState) (s : State) : (readerTo m s).txn = s.txn := rfl
@[simp] theorem readerTo_drw (m : ReaderState) (s : State) : (readerTo m s).drw = s.drw := rfl
@[simp] theorem readerTo_job (m : ReaderState) (s : State) : (readerTo m s).job = s.job := rfl
@[simp] theorem readerTo_pen (m : ReaderState) (s : State) : (readerTo m s).pen = s.pen := rfl
@[simp] theorem readerTo_dsa (m : ReaderState) (s : State) : (readerTo m s).dsa = s.dsa := rfl
@[simp] theorem readerTo_lpm (m : ReaderState) (s : State) : (readerTo m s).lpm = s.lpm := rfl
@[simp] theorem readerTo_rpt (m : ReaderState) (s : State) : (readerTo m s).rpt = s.rpt := rfl
@[simp] theorem readerTo_set (m : ReaderState) (s : State) : (readerTo m s).set = s.set := rfl
@[simp] theorem readerTo_sst (m : ReaderState) (s : State) : (readerTo m s).sst = s.sst := rfl
@[simp] theorem readerTo_calEn (m : ReaderState) (s : State) : (readerTo m s).calEn = s.calEn := rfl
@[simp] theorem readerTo_free (m : ReaderState) (s : State) : (readerTo m s).free = s.free := rfl

/-! ### bagOff -/

@[simp] theorem bagOff_pending (s : State) : (bagOff s).pending = s.pending := rfl
@[simp] theorem bagOff_link (s : State) : (bagOff s).link = s.link := rfl
@[simp] theorem bagOff_wgt (s : State) : (bagOff s).wgt = s.wgt := rfl
@[simp] theorem bagOff_txn (s : State) : (bagOff s).txn = s.txn := rfl
@[simp] theorem bagOff_crd (s : State) : (bagOff s).crd = s.crd := rfl
@[simp] theorem bagOff_drw (s : State) : (bagOff s).drw = s.drw := rfl
@[simp] theorem bagOff_job (s : State) : (bagOff s).job = s.job := rfl
@[simp] theorem bagOff_pen (s : State) : (bagOff s).pen = s.pen := rfl
@[simp] theorem bagOff_dsa (s : State) : (bagOff s).dsa = s.dsa := rfl
@[simp] theorem bagOff_lpm (s : State) : (bagOff s).lpm = s.lpm := rfl
@[simp] theorem bagOff_rpt (s : State) : (bagOff s).rpt = s.rpt := rfl
@[simp] theorem bagOff_set (s : State) : (bagOff s).set = s.set := rfl
@[simp] theorem bagOff_sst (s : State) : (bagOff s).sst = s.sst := rfl
@[simp] theorem bagOff_calEn (s : State) : (bagOff s).calEn = s.calEn := rfl
@[simp] theorem bagOff_free (s : State) : (bagOff s).free = s.free := rfl

/-! ### setTrack -/

@[simp] theorem setTrack_pending (tr : Track) (t : TrackCap) (s : State) : (setTrack tr t s).pending = s.pending := by cases tr <;> rfl
@[simp] theorem setTrack_link (tr : Track) (t : TrackCap) (s : State) : (setTrack tr t s).link = s.link := by cases tr <;> rfl
@[simp] theorem setTrack_wgt (tr : Track) (t : TrackCap) (s : State) : (setTrack tr t s).wgt = s.wgt := by cases tr <;> rfl
@[simp] theorem setTrack_bag (tr : Track) (t : TrackCap) (s : State) : (setTrack tr t s).bag = s.bag := by cases tr <;> rfl
@[simp] theorem setTrack_txn (tr : Track) (t : TrackCap) (s : State) : (setTrack tr t s).txn = s.txn := by cases tr <;> rfl
@[simp] theorem setTrack_drw (tr : Track) (t : TrackCap) (s : State) : (setTrack tr t s).drw = s.drw := by cases tr <;> rfl
@[simp] theorem setTrack_job (tr : Track) (t : TrackCap) (s : State) : (setTrack tr t s).job = s.job := by cases tr <;> rfl
@[simp] theorem setTrack_pen (tr : Track) (t : TrackCap) (s : State) : (setTrack tr t s).pen = s.pen := by cases tr <;> rfl
@[simp] theorem setTrack_dsa (tr : Track) (t : TrackCap) (s : State) : (setTrack tr t s).dsa = s.dsa := by cases tr <;> rfl
@[simp] theorem setTrack_lpm (tr : Track) (t : TrackCap) (s : State) : (setTrack tr t s).lpm = s.lpm := by cases tr <;> rfl
@[simp] theorem setTrack_rpt (tr : Track) (t : TrackCap) (s : State) : (setTrack tr t s).rpt = s.rpt := by cases tr <;> rfl
@[simp] theorem setTrack_set (tr : Track) (t : TrackCap) (s : State) : (setTrack tr t s).set = s.set := by cases tr <;> rfl
@[simp] theorem setTrack_sst (tr : Track) (t : TrackCap) (s : State) : (setTrack tr t s).sst = s.sst := by cases tr <;> rfl
@[simp] theorem setTrack_calEn (tr : Track) (t : TrackCap) (s : State) : (setTrack tr t s).calEn = s.calEn := by cases tr <;> rfl
@[simp] theorem setTrack_free (tr : Track) (t : TrackCap) (s : State) : (setTrack tr t s).free = s.free := by cases tr <;> rfl

end Sys2Proof.Machine
end

