-- ==== Sys2Proof/Laws/Link.lean ====
section
/-! SUPPORT. What the transmit arbiter, a raised notice, a placed reply and a request command can do, each
said once. -/

namespace Sys2Proof.Machine

/-! ### The arbiter and the notice queue -/

/-- The arbiter touches the link and takes from the notice queue, nothing else (R14). -/
theorem arbitrate_cases (s : State) :
    arbitrate s = s ∨
    (∃ p rest, s.link.replies = p :: rest ∧
      arbitrate s = { s with link.replies := rest, link.tx := some p.frame }) ∨
    (∃ body, s.link.replies = [] ∧ s.link.softReset = false ∧ s.link.snapshot = some body ∧
      arbitrate s = { s with
        link.snapshot := none, link.tx := some (TxFrame.make .snapshot 0#8 0xF0#8 body none) }) ∨
    (∃ q rest, s.link.replies = [] ∧ s.link.softReset = false ∧ s.rpt.queue = q :: rest ∧
      arbitrate s = { s with
        rpt.queue := rest
        link.tx := some (TxFrame.make .notice 0#8 (u8 q.notice.code) q.notice.payload none) }) := by
  unfold arbitrate
  split
  · exact .inl rfl
  · split
    · next p rest h => exact .inr (.inl ⟨p, rest, h, rfl⟩)
    · next h =>
      split
      · exact .inl rfl
      · next hs =>
        have hs : s.link.softReset = false := by simpa using hs
        split
        · next body hb => exact .inr (.inr (.inl ⟨body, h, hs, hb, rfl⟩))
        · split
          · exact .inl rfl
          · split
            · exact .inl rfl
            · next q rest hq => exact .inr (.inr (.inr ⟨q, rest, h, hs, hq, rfl⟩))

/-- The arbiter as an update of the link and of the notice queue. -/
theorem arbitrate_eq (s : State) :
    ∃ l q, arbitrate s = { s with link := l, rpt.queue := q } := by
  rcases arbitrate_cases s with h | ⟨_, _, _, h⟩ | ⟨_, _, _, _, h⟩ | ⟨_, _, _, _, _, h⟩ <;>
    exact ⟨_, _, h⟩

@[simp] theorem arbitrate_pending (s : State) : (arbitrate s).pending = s.pending := by
  obtain ⟨_, _, h⟩ := arbitrate_eq s; rw [h]

@[simp] theorem arbitrate_wgt (s : State) : (arbitrate s).wgt = s.wgt := by
  obtain ⟨_, _, h⟩ := arbitrate_eq s; rw [h]

@[simp] theorem arbitrate_bag (s : State) : (arbitrate s).bag = s.bag := by
  obtain ⟨_, _, h⟩ := arbitrate_eq s; rw [h]

@[simp] theorem arbitrate_txn (s : State) : (arbitrate s).txn = s.txn := by
  obtain ⟨_, _, h⟩ := arbitrate_eq s; rw [h]

@[simp] theorem arbitrate_crd (s : State) : (arbitrate s).crd = s.crd := by
  obtain ⟨_, _, h⟩ := arbitrate_eq s; rw [h]

@[simp] theorem arbitrate_drw (s : State) : (arbitrate s).drw = s.drw := by
  obtain ⟨_, _, h⟩ := arbitrate_eq s; rw [h]

@[simp] theorem arbitrate_job (s : State) : (arbitrate s).job = s.job := by
  obtain ⟨_, _, h⟩ := arbitrate_eq s; rw [h]

@[simp] theorem arbitrate_pen (s : State) : (arbitrate s).pen = s.pen := by
  obtain ⟨_, _, h⟩ := arbitrate_eq s; rw [h]

@[simp] theorem arbitrate_dsa (s : State) : (arbitrate s).dsa = s.dsa := by
  obtain ⟨_, _, h⟩ := arbitrate_eq s; rw [h]

@[simp] theorem arbitrate_lpm (s : State) : (arbitrate s).lpm = s.lpm := by
  obtain ⟨_, _, h⟩ := arbitrate_eq s; rw [h]

@[simp] theorem arbitrate_set (s : State) : (arbitrate s).set = s.set := by
  obtain ⟨_, _, h⟩ := arbitrate_eq s; rw [h]

@[simp] theorem arbitrate_sst (s : State) : (arbitrate s).sst = s.sst := by
  obtain ⟨_, _, h⟩ := arbitrate_eq s; rw [h]

@[simp] theorem arbitrate_calEn (s : State) : (arbitrate s).calEn = s.calEn := by
  obtain ⟨_, _, h⟩ := arbitrate_eq s; rw [h]

@[simp] theorem arbitrate_free (s : State) : (arbitrate s).free = s.free := by
  obtain ⟨_, _, h⟩ := arbitrate_eq s; rw [h]

@[simp] theorem arbitrate_latched (s : State) : (arbitrate s).rpt.latched = s.rpt.latched := by
  obtain ⟨_, _, h⟩ := arbitrate_eq s; rw [h]

@[simp] theorem arbitrate_routes (s : State) : (arbitrate s).rpt.routes = s.rpt.routes := by
  obtain ⟨_, _, h⟩ := arbitrate_eq s; rw [h]

@[simp] theorem arbitrate_binding (s : State) (n : Nat) :
    (arbitrate s).rpt.binding n = s.rpt.binding n := by
  obtain ⟨_, _, h⟩ := arbitrate_eq s; rw [h]; rfl

@[simp] theorem arbitrate_rx (s : State) : (arbitrate s).link.rx = s.link.rx := by
  rcases arbitrate_cases s with h | ⟨_, _, _, h⟩ | ⟨_, _, _, _, h⟩ | ⟨_, _, _, _, _, h⟩ <;> rw [h]

@[simp] theorem arbitrate_inExec (s : State) : (arbitrate s).link.inExec = s.link.inExec := by
  rcases arbitrate_cases s with h | ⟨_, _, _, h⟩ | ⟨_, _, _, _, h⟩ | ⟨_, _, _, _, _, h⟩ <;> rw [h]

@[simp] theorem arbitrate_requests (s : State) : (arbitrate s).link.queue = s.link.queue := by
  rcases arbitrate_cases s with h | ⟨_, _, _, h⟩ | ⟨_, _, _, _, h⟩ | ⟨_, _, _, _, _, h⟩ <;> rw [h]

@[simp] theorem arbitrate_softReset (s : State) : (arbitrate s).link.softReset = s.link.softReset := by
  rcases arbitrate_cases s with h | ⟨_, _, _, h⟩ | ⟨_, _, _, _, h⟩ | ⟨_, _, _, _, _, h⟩ <;> rw [h]

/-- An offer touches the queue, the next age and NOTICE_LOST, nothing else (R188). -/
theorem Report.offerOnce_eq (t : Report) (n : Notice) :
    ∃ q k, (t.offerOnce n).1 = { t with queue := q, nextSeq := k } := by
  unfold Report.offerOnce Report.admitNotice
  split
  · exact ⟨_, _, rfl⟩
  · split
    · exact ⟨_, _, rfl⟩
    · split
      · exact ⟨_, _, rfl⟩
      · split <;> exact ⟨_, _, rfl⟩

/-- An offer touches the queue, the next age and NOTICE_LOST, nothing else (R188). -/
theorem Report.offer_eq (t : Report) (n : Notice) :
    ∃ q k l, t.offer n = { t with queue := q, nextSeq := k, latched.noticeLost := l } := by
  obtain ⟨q, k, h⟩ := t.offerOnce_eq n
  unfold Report.offer
  split
  · next t' h' => rw [h'] at h; exact ⟨q, k, _, h⟩
  · next t' lost h' =>
    rw [h'] at h
    subst h
    split
    · exact ⟨q, k, _, rfl⟩
    · obtain ⟨q', k', h''⟩ := Report.offerOnce_eq
        { t with queue := q, nextSeq := k, latched.noticeLost := some lost } (.noticeLost lost)
      exact ⟨q', k', _, h''⟩

/-- A notice raised without bindings touches the link, the queue, the next age and NOTICE_LOST. -/
theorem raiseQuiet_eq (n : Notice) (s : State) :
    ∃ l q k x, raiseQuiet n s =
      { s with link := l, rpt.queue := q, rpt.nextSeq := k, rpt.latched.noticeLost := x } := by
  obtain ⟨q, k, x, h⟩ := s.rpt.offer_eq n
  obtain ⟨l, q', h'⟩ := arbitrate_eq { s with rpt := s.rpt.offer n }
  exact ⟨l, q', k, x, by rw [raiseQuiet, h', h]⟩

@[simp] theorem raiseQuiet_pending (n : Notice) (s : State) : (raiseQuiet n s).pending = s.pending := by
  obtain ⟨_, _, _, _, h⟩ := raiseQuiet_eq n s; rw [h]

@[simp] theorem raiseQuiet_wgt (n : Notice) (s : State) : (raiseQuiet n s).wgt = s.wgt := by
  obtain ⟨_, _, _, _, h⟩ := raiseQuiet_eq n s; rw [h]

@[simp] theorem raiseQuiet_bag (n : Notice) (s : State) : (raiseQuiet n s).bag = s.bag := by
  obtain ⟨_, _, _, _, h⟩ := raiseQuiet_eq n s; rw [h]

@[simp] theorem raiseQuiet_txn (n : Notice) (s : State) : (raiseQuiet n s).txn = s.txn := by
  obtain ⟨_, _, _, _, h⟩ := raiseQuiet_eq n s; rw [h]

@[simp] theorem raiseQuiet_crd (n : Notice) (s : State) : (raiseQuiet n s).crd = s.crd := by
  obtain ⟨_, _, _, _, h⟩ := raiseQuiet_eq n s; rw [h]

@[simp] theorem raiseQuiet_drw (n : Notice) (s : State) : (raiseQuiet n s).drw = s.drw := by
  obtain ⟨_, _, _, _, h⟩ := raiseQuiet_eq n s; rw [h]

@[simp] theorem raiseQuiet_job (n : Notice) (s : State) : (raiseQuiet n s).job = s.job := by
  obtain ⟨_, _, _, _, h⟩ := raiseQuiet_eq n s; rw [h]

@[simp] theorem raiseQuiet_pen (n : Notice) (s : State) : (raiseQuiet n s).pen = s.pen := by
  obtain ⟨_, _, _, _, h⟩ := raiseQuiet_eq n s; rw [h]

@[simp] theorem raiseQuiet_dsa (n : Notice) (s : State) : (raiseQuiet n s).dsa = s.dsa := by
  obtain ⟨_, _, _, _, h⟩ := raiseQuiet_eq n s; rw [h]

@[simp] theorem raiseQuiet_lpm (n : Notice) (s : State) : (raiseQuiet n s).lpm = s.lpm := by
  obtain ⟨_, _, _, _, h⟩ := raiseQuiet_eq n s; rw [h]

@[simp] theorem raiseQuiet_set (n : Notice) (s : State) : (raiseQuiet n s).set = s.set := by
  obtain ⟨_, _, _, _, h⟩ := raiseQuiet_eq n s; rw [h]

@[simp] theorem raiseQuiet_sst (n : Notice) (s : State) : (raiseQuiet n s).sst = s.sst := by
  obtain ⟨_, _, _, _, h⟩ := raiseQuiet_eq n s; rw [h]

@[simp] theorem raiseQuiet_calEn (n : Notice) (s : State) : (raiseQuiet n s).calEn = s.calEn := by
  obtain ⟨_, _, _, _, h⟩ := raiseQuiet_eq n s; rw [h]

@[simp] theorem raiseQuiet_free (n : Notice) (s : State) : (raiseQuiet n s).free = s.free := by
  obtain ⟨_, _, _, _, h⟩ := raiseQuiet_eq n s; rw [h]

@[simp] theorem raiseQuiet_binding (n : Notice) (s : State) (i : Nat) :
    (raiseQuiet n s).rpt.binding i = s.rpt.binding i := by
  obtain ⟨_, _, _, _, h⟩ := raiseQuiet_eq n s; rw [h]; rfl

@[simp] theorem raiseQuiet_rx (n : Notice) (s : State) : (raiseQuiet n s).link.rx = s.link.rx := by
  simp [raiseQuiet]

@[simp] theorem raiseQuiet_inExec (n : Notice) (s : State) :
    (raiseQuiet n s).link.inExec = s.link.inExec := by simp [raiseQuiet]

@[simp] theorem raiseQuiet_requests (n : Notice) (s : State) :
    (raiseQuiet n s).link.queue = s.link.queue := by simp [raiseQuiet]

@[simp] theorem raiseQuiet_softReset (n : Notice) (s : State) :
    (raiseQuiet n s).link.softReset = s.link.softReset := by simp [raiseQuiet]

/-! ### Notices where no binding is set -/

/-- With no binding set, a raised notice is only offered to the queue (R186, R191). -/
theorem raiseLoud_unbound {s : State} (h : s.unbound) (n : Notice) : raiseLoud n s = raiseQuiet n s := by
  obtain ⟨h1, h2, h3, h4⟩ := h
  simp [raiseLoud, fireBindings, fireSlot, Report.binding, h1, h2, h3, h4]

/-- A raised notice sets no binding. -/
theorem raiseQuiet_unbound {s : State} (h : s.unbound) (n : Notice) : (raiseQuiet n s).unbound := by
  obtain ⟨_, _, _, _, e⟩ := raiseQuiet_eq n s
  rw [e]; exact h

/-! ### Updates that pass through the arbiter -/

/-- Setting what the arbiter does not read. -/
theorem arbitrate_frame (s : State) (ie : Option Request) (idle : Nat) :
    arbitrate { s with link.inExec := ie, lpm.idle := idle } =
      { arbitrate s with link.inExec := ie, lpm.idle := idle } := by
  unfold arbitrate
  simp only
  repeat' split
  all_goals rfl

/-- Setting what raising a notice does not read. -/
theorem raiseQuiet_frame (n : Notice) (s : State) (ie : Option Request) (idle : Nat) :
    raiseQuiet n { s with link.inExec := ie, lpm.idle := idle } =
      { raiseQuiet n s with link.inExec := ie, lpm.idle := idle } :=
  arbitrate_frame { s with rpt := s.rpt.offer n } ie idle

/-! ### Requests -/

/-- A request on a lane that is ACTIVE with no entry pending: its immediate action, then its end (R9). -/
theorem execute_active {r : Raise} {q : Request} {act : Act} {s : State} (hm : s.lpm.mode = .active)
    (he : s.lpm.entry = none) :
    execute r q act s = conclude q (act r { s with link.inExec := some q, lpm.idle := 0 }) := by
  have hw : wakeFor r q { s with link.inExec := some q } =
      { s with link.inExec := some q, lpm.idle := 0 } := by
    unfold wakeFor
    split
    · simp [wake, hm]
    · rfl
  rw [execute, hw, cancelFor]
  simp [he]

/-- A request of the status set neither wakes nor cancels (R183, R185). -/
theorem execute_status {r : Raise} {q : Request} {act : Act} {s : State}
    (hw : wakesLane q.code = false) (hc : cancelsEntry q.code = false) :
    execute r q act s = conclude q (act r { s with link.inExec := some q, lpm.idle := 0 }) := by
  simp [execute, wakeFor, cancelFor, hw, hc]

/-- A request with the lengths of Table 1-4 has a payload of at most 255 bytes (R4). -/
theorem encodeRequest_length {i : Instr} {tag code : Byte} {payload : List Byte} (hw : i.wf = true)
    (he : encodeRequest i = some (tag, code, payload)) : payload.length ≤ 255 := by
  cases i <;> simp only [encodeRequest, reduceCtorEq, Option.some.injEq, Prod.mk.injEq] at he <;>
    obtain ⟨-, -, rfl⟩ := he <;>
    simp only [Instr.wf, Bool.and_eq_true, decide_eq_true_eq] at hw <;>
    simp [be16, be32, textField] <;> omega

/-- A request command with the lengths of Table 1-4, on a free link, is executed at once (R6, R8, R9). -/
theorem accept_free {i : Instr} {act : Act} {tag code : Byte} {payload : List Byte} {s : State}
    (hw : i.wf = true) (he : encodeRequest i = some (tag, code, payload)) (h : s.linkFree) :
    accept i act s =
      .next (execute raiseLoud { tag := tag, code := code, payload := payload } act s) := by
  obtain ⟨h1, h2, h3, h4, -⟩ := h
  have hl := encodeRequest_length hw he
  simp only [accept, arrive, he, if_neg h1, if_neg (Nat.not_lt.mpr hl), if_neg (Nat.not_le.mpr h4), h2, h3]
  simp [hw]

/-- A request command on a ready lane: its immediate action, then its end (R9). -/
theorem accept_ready {i : Instr} {act : Act} {tag code : Byte} {payload : List Byte} {s : State}
    (hw : i.wf = true) (he : encodeRequest i = some (tag, code, payload)) (h : s.ready) :
    accept i act s = .next (conclude { tag := tag, code := code, payload := payload }
      (act raiseLoud { s with
        link.inExec := some { tag := tag, code := code, payload := payload }, lpm.idle := 0 })) := by
  rw [accept_free hw he h.1, execute_active h.2.1 h.2.2]

/-- With no soft reset waiting, the end of an answered request is the placing of its reply (R9). -/
theorem finish_plain {q : Request} {st : Status} {data : List Byte} {baud : Option Nat} {t : State}
    (h : t.link.softReset = false) :
    finish q st data baud t = placeReply (q.reply st data baud) { t with link.inExec := none } := by
  simp [finish, judgeReset, placeReply, h]

/-- Where the action's outcome, out of execution, is the state `t` with its idle timer at 0, the request ends
in `t.answered`. -/
theorem conclude_reply {q : Request} {x t : State} {st : Status} {data : List Byte}
    (hs : x.link.softReset = false) (ht : { x with link.inExec := none } = { t with lpm.idle := 0 }) :
    conclude q (x, .reply st data none) = t.answered q.tag q.code st data := by
  simp only [conclude, finish_plain hs, ht, State.answered, Request.reply]

end Sys2Proof.Machine
end

