-- ==== Sys2Proof/Laws/Requests.lean ====
section
/-! SUPPORT. What a request command answers once its action is known, the operand bytes it reads, and what its reply leaves of the state. -/

namespace Sys2Proof.Machine

/-- The report unit after the arbiter depends on the link, the report unit and the settings alone. -/
theorem arbitrate_rpt_congr (s t : State) (h1 : s.link = t.link) (h2 : s.rpt = t.rpt) (h3 : s.set = t.set) : (arbitrate s).rpt = (arbitrate t).rpt := by
  unfold arbitrate
  rw [h1, h3, h2]
  repeat' split
  all_goals first | exact h2 | simp_all

/-- The report unit after a notice depends on the link, the report unit and the settings alone. -/
theorem raiseQuiet_rpt_congr (n : Notice) (s t : State) (h1 : s.link = t.link) (h2 : s.rpt = t.rpt) (h3 : s.set = t.set) : (raiseQuiet n s).rpt = (raiseQuiet n t).rpt := by
  unfold raiseQuiet
  exact arbitrate_rpt_congr _ _ h1 (by simp [h2]) h3

/-- A notice leaves the print engine out. -/
theorem raiseQuiet_pen_frame (n : Notice) (s : State) (e : Engine) : raiseQuiet n { s with pen := e } = { raiseQuiet n s with pen := e } := by
  unfold raiseQuiet arbitrate
  simp only
  repeat' split
  all_goals rfl

/-- A notice leaves the job store out. -/
theorem raiseQuiet_job_frame (n : Notice) (s : State) (e : JobStore) : raiseQuiet n { s with job := e } = { raiseQuiet n s with job := e } := by
  unfold raiseQuiet arbitrate
  simp only
  repeat' split
  all_goals rfl

/-- A placed reply stands in the list or on the line. -/
theorem placeReply_busy (p : Reply) (s : State) : (placeReply p s).link.replies ≠ [] ∨ (placeReply p s).link.tx ≠ none := by
  unfold placeReply
  rcases arbitrate_cases { s with link.replies := s.link.replies ++ [p] } with h | ⟨_, _, _, h⟩ | ⟨_, h0, _⟩ | ⟨_, _, h0, _⟩
  · rw [h]; simp
  · rw [h]; simp
  · simp at h0
  · simp at h0

/-- No soft reset takes effect while a reply is left (R18). -/
theorem judgeReset_placeReply (p : Reply) (s : State) : judgeReset (placeReply p s) = placeReply p s := by
  unfold judgeReset
  rw [if_neg]
  rcases placeReply_busy p s with h | h <;> simp [h]

/-- No soft reset takes effect where none waits. -/
theorem judgeReset_off {s : State} (h : s.link.softReset = false) : judgeReset s = s := by simp [judgeReset, h]

/-- A request command is the arrival of its request with its action. -/
theorem exec_request_eq {i : Instr} {t c : Byte} {p} (he : encodeRequest i = some (t, c, p)) (s : State) :
    exec i s = .next (arrive raiseLoud i (requestAction i) s) := by
  cases i <;> first | (simp only [encodeRequest, reduceCtorEq] at he; done) | rfl

/-- Taking a request into execution and out of it leaves the idle timer reset. -/
theorem clear_inExec {s : State} (h : s.link.inExec = none) (q : Option Request) :
   ({ ({ s with link.inExec := q, lpm.idle := 0 } : State) with link.inExec := none } : State) = { s with lpm.idle := 0 } := by
  simp only; rw [← h]

/-- A request on a ready lane whose action replies answers that reply. -/
theorem accept_answers {i : Instr} {act : Act} {tag code : Byte} {payload} {s t : State} {st data}
   (hw : i.wf = true) (he : encodeRequest i = some (tag, code, payload)) (h : s.ready)
   (ha : act raiseLoud { s with link.inExec := some ⟨tag, code, payload⟩, lpm.idle := 0 } =
      ({ t with link.inExec := some ⟨tag, code, payload⟩, lpm.idle := 0 }, .reply st data none))
   (hr : t.link.softReset = false) (hi : t.link.inExec = none) :
   accept i act s = .next (t.answered tag code st data) := by
  rw [accept_ready hw he h, ha, conclude_reply (t := t)]
  · exact hr
  · exact clear_inExec hi _

/-- A request of the status set on a free link answers its reply in every power state. -/
theorem accept_answers_status {i : Instr} {act : Act} {tag code : Byte} {payload} {s t : State} {st data}
   (hi' : i.wf = true) (he : encodeRequest i = some (tag, code, payload)) (h : s.linkFree) (hw : wakesLane code = false)
   (hc : cancelsEntry code = false)
   (ha : act raiseLoud { s with link.inExec := some ⟨tag, code, payload⟩, lpm.idle := 0 } =
      ({ t with link.inExec := some ⟨tag, code, payload⟩, lpm.idle := 0 }, .reply st data none))
   (hr : t.link.softReset = false) (hi : t.link.inExec = none) :
   accept i act s = .next (t.answered tag code st data) := by
  rw [accept_free hi' he h, execute_status (by exact hw) (by exact hc), ha, conclude_reply (t := t)]
  · exact hr
  · exact clear_inExec hi _

/-- Settings 1 to 32 have values (Table 11-3). -/
theorem settingValues_some {n : Nat} (h1 : 1 ≤ n) (h2 : n ≤ 32) : ∃ k, settingValues n = some k := by
  have : ∀ m : Fin 33, 1 ≤ m.val → ∃ k, settingValues m.val = some k := by
    intro m; revert m
    intro ⟨m, hm⟩
    rcases m with _|_|_|_|_|_|_|_|_|_|_|_|_|_|_|_|_|_|_|_|_|_|_|_|_|_|_|_|_|_|_|_|_|m <;> intro h <;> first | exact ⟨_, rfl⟩ | omega | (simp at h)
  exact this ⟨n, by omega⟩ h1

/-- No other setting has. -/
theorem settingValues_none {n : Nat} (h : n = 0 ∨ 32 < n) : settingValues n = none := by
  unfold settingValues; split <;> first | rfl | omega

/-- A channel byte that is read is the byte of its channel. -/
theorem channel_ofByte_some {b : Byte} {ch} (h : Channel.ofByte b = some ch) : b = ch.byte := by
  unfold Channel.ofByte at h; split at h
  · cases h; assumption
  · split at h <;> cases h; assumption

/-- A channel byte above 1 names no channel (R20). -/
theorem channel_ofByte_none {b : Byte} (h : 1 < b.toNat) : Channel.ofByte b = none := by
  unfold Channel.ofByte
  rw [if_neg, if_neg] <;> intro h' <;> subst h' <;> simp at h

/-- A port byte that is read is the byte of its port. -/
theorem port_ofByte_some {b : Byte} {p : Port} (h : Port.ofByte b = some p) : b = p.byte := by
  unfold Port.ofByte at h
  split at h
  · next h1 => cases h; exact h1
  · split at h
    · next h1 => cases h; exact h1
    · cases h

/-- An item slot of 1 to 64 passes the range check. -/
theorem slot_inRange {slot : Byte} (h1 : slot ≠ 0#8) (h2 : slot.toNat ≤ 64) : ¬ (slot.toNat < 1 ∨ 64 < slot.toNat) := by
  have h0 : slot.toNat ≠ 0 := fun h => h1 (BitVec.eq_of_toNat_eq h)
  omega

/-- Any other does not. -/
theorem slot_outOfRange {slot : Byte} (h1 : slot = 0#8 ∨ 64 < slot.toNat) : slot.toNat < 1 ∨ 64 < slot.toNat := by
  rcases h1 with rfl | h1
  · left; simp
  · exact .inr h1

/-- Taking an operation slot leaves the link alone. -/
@[simp] theorem takeSlot_link (ch k t l) (s : State) : (takeSlot ch k t l s).link = s.link := by simp [takeSlot]

end Sys2Proof.Machine
end

