-- ==== Sys2Proof/Laws/Scale.lean ====
section
/-! SUPPORT. The weighing engine: channels apart from each other, rounding, events of a channel that is not STABLE. -/

namespace Sys2Proof.Machine

/-- A channel holds no binding. -/
theorem setChan_unbound {s : State} (h : s.unbound) (ch : Channel) (c : Chan) : (s.setChan ch c).unbound := by cases ch <;> exact h

/-- A channel does not say whether it is DISTURBED. -/
theorem setChan_disturbed (s : State) (ch c) : (s.setChan ch c).wgt.disturbed = s.wgt.disturbed := by cases ch <;> rfl

/-- The other channel is left alone. -/
theorem setChan_other (s : State) (ch o c) (h : o ≠ ch) : (s.setChan ch c).chan o = s.chan o := by cases ch <;> cases o <;> first | rfl | exact absurd rfl h

/-- The converters are left alone. -/
theorem setChan_conv (s : State) (ch c) : (s.setChan ch c).wgt.conv = s.wgt.conv := by cases ch <;> rfl

/-- The tare is left alone. -/
theorem setChan_tare (s : State) (ch c) : (s.setChan ch c).wgt.tare = s.wgt.tare := by cases ch <;> rfl

/-- The interlock is left alone. -/
theorem setChan_armed (s : State) (ch c) : (s.setChan ch c).wgt.armed = s.wgt.armed := by cases ch <;> rfl

/-- The later value stands. -/
theorem setChan_setChan (s : State) (ch c d) : (s.setChan ch c).setChan ch d = s.setChan ch d := by cases ch <;> rfl

/-- No motion event comes of a channel that is not STABLE. -/
theorem leaveStable_calm {r : Raise} {ch} {s : State} (h : (s.chan ch).stable = false) : leaveStable r ch s = s := by simp [leaveStable, h]

/-- The windows of a channel that is not STABLE restart with no event. -/
theorem restartWindows_calm (r : Raise) (ch : Channel) (s : State) (h : (s.chan ch).stable = false) :
    restartWindows r ch s = s.setChan ch { s.chan ch with win := [], stab := [] } := by
  unfold restartWindows restartStability leaveStable
  simp only [State.setChan_chan, h]
  cases ch <;> simp [State.setChan, State.chan]

/-- A disturbing action begins with no event where neither channel is STABLE. -/
theorem disturbStart_calm {r : Raise} (a : Action) (s : State) (h1 : s.wgt.chanP.stable = false) (h2 : s.wgt.chanB.stable = false) :
   disturbStart r a s = { s with wgt.actions := a :: s.wgt.actions } := by
  unfold disturbStart
  rw [leaveStable_calm (ch := .p) (by exact h1), leaveStable_calm (ch := .b) (by exact h2)]

/-- A range flag raises at most one notice. -/
theorem noticeRange_eq (ch before) (t : State) (hu : t.unbound) : noticeRange raiseLoud ch before t = t ∨ ∃ n, noticeRange raiseLoud ch before t = raiseQuiet n t := by
  unfold noticeRange
  simp only
  split
  · exact .inl rfl
  · exact .inr ⟨_, raiseLoud_unbound hu _⟩

/-- The rounded quotient is nearest, a tie going away from zero. -/
theorem roundHalfAway_nearest (n : Int) (d : Nat) (hd : 0 < d) : 2 * (n - d * roundHalfAway n d).natAbs ≤ d ∧
   (2 * (n - d * roundHalfAway n d).natAbs = d → n.natAbs < (d * roundHalfAway n d).natAbs) := by
  unfold roundHalfAway roundHalfUp
  have h1 := Nat.div_add_mod (2 * n.natAbs + d) (2 * d)
  have h2 := Nat.mod_lt (2 * n.natAbs + d) (show 0 < 2 * d by omega)
  generalize (2 * n.natAbs + d) / (2 * d) = q at *
  have h3 : 2 * d * q = 2 * (d * q) := by rw [Nat.mul_assoc]
  rw [h3] at h1
  have : (d : Int) * (q : Int) = ((d * q : Nat) : Int) := by push_cast; rfl
  split
  · rw [this]
    generalize d * q = m at *
    generalize (2 * n.natAbs + d) % (2 * d) = r at *
    omega
  · rw [Int.mul_neg, this]
    generalize d * q = m at *
    generalize (2 * n.natAbs + d) % (2 * d) = r at *
    omega

/-- Stopping both attempts touches nothing but the attempts. -/
theorem stopAttempts_eq (s : State) : ∃ x y, stopAttempts s = { s with wgt.chanP.init := x, wgt.chanB.init := y } :=
  ⟨_, _, rfl⟩

/-- A stopped attempt is reported by at most one notice. -/
theorem reportStopped_eq {r : Raise} {ch x} {s : State} (hu : s.unbound) (hr : r = raiseLoud) :
    reportStopped r ch x s = s ∨ reportStopped r ch x s = raiseQuiet (.zeroFailed 0#8 ch .noStable 0) s := by
  subst hr
  cases x with
  | running age => exact .inr (raiseLoud_unbound hu _)
  | waiting => exact .inl rfl
  | ended res => exact .inl rfl

end Sys2Proof.Machine
end

