-- ==== Sys2Proof/Laws/Drawer.lean ====
section
/-! SUPPORT. The drawer ports and the arbiter: what a scan and an attempt do with a free and with a busy supply. -/

namespace Sys2Proof.Machine

/-- The later value stands. -/
theorem setPort_setPort (s : State) (p : Port) (a b : PortState) : (s.setPort p a).setPort p b = s.setPort p b := by cases p <;> rfl

/-- The other port is left alone. -/
theorem setPort_other (s : State) {p o : Port} (h : o ≠ p) (a : PortState) : (s.setPort p a).port o = s.port o := by cases p <;> cases o <;> first | rfl | contradiction

/-- A port holds no binding. -/
theorem setPort_unbound {s : State} (h : s.unbound) (p : Port) (q) : (s.setPort p q).unbound := by cases p <;> exact h

/-- The sense of a port is the level it held (R130). -/
theorem setPort_sense (s : State) (p : Port) (q) : (s.setPort p q).sense p = q.held.map fun high => if s.set.openLow p then !high else high := by cases p <;> rfl

/-- A scan of an empty queue grants nothing. -/
theorem scan_nil {r : Raise} {s : State} (h : s.dsa.queue = []) : scan r s = s := by
  rw [scan]
  split
  · rfl
  · rw [scanFrom, h]

/-- A scan grants a port that fits: it is energised (R136, R178). -/
theorem scan_port {r : Raise} {p : Port} {s : State} (h : s.dsa.queue = [.port p]) (hl : s.pen.line = none) (h1 : s.dsa.low = false) (h2 : s.dsa.committed + 1500 ≤ s.set.capacity)
  (c1 : s.wgt.chanP.stable = false) (c2 : s.wgt.chanB.stable = false) :
   scan r s = { s with dsa.queue := [], dsa.loads := s.dsa.loads ++ [(Requester.port p, 1500)], wgt.actions := .pulse p :: s.wgt.actions }.setPort p { s.port p with
    mode := .kicking
    wait := 0
    on := true
    onMs := 0
    onTime := s.set.pulseOn
    trips := 0
    broken := false
    remembered := false } := by
  have hc : (!s.dsa.low && decide (s.dsa.committed + s.need (.port p) ≤ s.set.capacity)) = true := by rw [h1]; exact decide_eq_true h2
  simp only [scan, hl, Option.isSome_none, Bool.false_eq_true, if_false]
  rw [scanFrom, h]
  simp only [hc, if_true, grant, grantPort]
  rw [disturbStart_calm]
  · rw [scanFrom]
    simp only [commitLoad]
    have : ∀ q, (({ s with dsa.queue := [], dsa.loads := s.dsa.loads ++ [(Requester.port p, 1500)] } : State).setPort p q).dsa.queue = [] := by intro q; cases p <;> rfl
    simp only [this]
    cases p <;> rfl
  · cases p <;> exact c1
  · cases p <;> exact c2

/-- A scan grants nothing to a head that does not fit, or in supply low (R178, R180). -/
theorem scan_blocked {r : Raise} {p : Port} {s : State} (h : s.dsa.queue = [.port p]) (h1 : s.dsa.low = true ∨ s.set.capacity < s.dsa.committed + 1500) :
   scan r s = s := by
  have hc : (!s.dsa.low && decide (s.dsa.committed + s.need (.port p) ≤ s.set.capacity)) = false := by
    show (!s.dsa.low && decide (s.dsa.committed + 1500 ≤ s.set.capacity)) = false
    rcases h1 with h1 | h1
    · simp [h1]
    · simp [Nat.not_le.mpr h1]
  simp only [scan]
  split
  · rfl
  · rw [scanFrom, h]
    simp only []
    rw [hc]; rfl

/-- An attempt that finds the supply free is granted at once (R135, R136). -/
theorem startAttempt_granted {r : Raise} (tag : Byte) (k : PermitKind) (p : Port) (s : State) (hq : s.dsa.queue = []) (hl : s.pen.line = none) (h1 : s.dsa.low = false) (h2 : s.dsa.committed + 1500 ≤ s.set.capacity)
  (c1 : s.wgt.chanP.stable = false) (c2 : s.wgt.chanB.stable = false) :
   startAttempt r p (modPort p (fun q => { q with attempt := 0, tag := tag, kick := k }) s) = 
     { s with dsa.loads := s.dsa.loads ++ [(Requester.port p, 1500)], wgt.actions := .pulse p :: s.wgt.actions }.setPort p { s.port p with
          mode := .kicking, tag := tag, kick := k, attempt := 1, retry := false, wait := 0
          on := true, onMs := 0, onTime := s.set.pulseOn, trips := 0, broken := false
          remembered := false } := by
  unfold startAttempt askGrant
  rw [scan_port (p := p)]
  · cases p <;> (simp only [modPort, State.setPort, State.port]; rw [← hq]) 
  · cases p <;> simp [modPort, State.setPort, hq]
  · cases p <;> exact hl
  · cases p <;> exact h1
  · cases p <;> exact h2
  · cases p <;> exact c1
  · cases p <;> exact c2

/-- An attempt that does not waits in the queue (R135). -/
theorem startAttempt_waits {r : Raise} (tag : Byte) (k : PermitKind) (p : Port) (s : State) (hq : s.dsa.queue = []) (h1 : s.dsa.low = true ∨ s.set.capacity < s.dsa.committed + 1500) :
   startAttempt r p (modPort p (fun q => { q with attempt := 0, tag := tag, kick := k }) s) = 
     { s with dsa.queue := [.port p] }.setPort p { s.port p with
          mode := .grantWait, tag := tag, kick := k, attempt := 1, retry := false, wait := 0 } := by
  unfold startAttempt askGrant
  rw [scan_blocked (p := p)]
  · cases p <;> (simp only [modPort, State.setPort, State.port, hq]; rfl) 
  · cases p <;> simp [modPort, State.setPort, hq]
  · cases p <;> exact h1

end Sys2Proof.Machine
end

