-- ==== Sys2Proof/Laws/Power.lean ====
section
/-! SUPPORT. The lane power manager: what an entry asked for draws. -/

namespace Sys2Proof.Machine

/-- Every check holds: the state is entered (R182). -/
theorem askEntry_now {r : Raise} {m tag c} {t : State} (h0 : t.lpm.mode = .active) (hm : m ≠ .active) (h : t.lpm.entry = none)
   (h1 : entryBlock m t = none) (h2 : workDone t = true) : askEntry r m tag c t = (enterPower r m tag c t, .ok) := by
  simp [askEntry, h0, hm.symm, h, h1, h2]

/-- Only work under way stands against it: the entry is recorded (R182). -/
theorem askEntry_later {r : Raise} {m tag c} {t : State} (h0 : t.lpm.mode = .active) (hm : m ≠ .active) (h : t.lpm.entry = none)
   (h1 : entryBlock m t = none) (h2 : workDone t = false) : askEntry r m tag c t = ({ t with lpm.entry := some { target := m, tag := tag, cause := c } }, .pending) := by
  simp [askEntry, h0, hm.symm, h, h1, h2]

/-- Another check fails: its refusal (R182). -/
theorem askEntry_refused {r : Raise} {m tag c st} {t : State} (h0 : t.lpm.mode = .active) (hm : m ≠ .active) (h : t.lpm.entry = none)
   (h1 : entryBlock m t = some st) : askEntry r m tag c t = (t, st) := by
  simp [askEntry, h0, hm.symm, h, h1]

/-- STANDBY entered (R181, R185). -/
theorem enterPower_standby {t : State} {tag c} (hu : t.unbound) (h : t.lpm.entry = none) : enterPower raiseLoud .standby tag c t =
   raiseQuiet (.pwrState tag .entered .standby c) { t with lpm.mode := .standby, lpm.gEntry := if t.wgt.chanP.hasValue then some t.wgt.chanP.g else none } := by
  simp only [enterPower]
  rw [raiseLoud_unbound (by exact hu)]
  simp only [h]

/-- What checks 4 to 7 draw is a refusal (R182). -/
theorem entryBlock_refusal {m st} {s : State} (h1 : entryBlock m s = some st) : st.accepted = false := by
  unfold entryBlock at h1
  repeat' split at h1
  all_goals first | (cases h1; rfl) | cases h1

/-- With no entry pending none is taken. -/
theorem judgeEntry_none {r : Raise} {s : State} (h : s.lpm.entry = none) : judgeEntry r s = s := by simp [judgeEntry, h]

end Sys2Proof.Machine
end

