-- ==== Sys2Proof/Laws/Print.lean ====
section
/-! SUPPORT. The job store and the print engine: names of jobs, the length of elements, and what a boundary does. -/

namespace Sys2Proof.Machine

/-- An empty table starts no job. -/
theorem judgeStart_empty {r : Raise} {s : State} (h : s.job.table = []) : judgeStart r s = s := by simp [judgeStart, judgeHead, h]

/-- The number picked is one that no job has, and the next one where it is free (R147). -/
theorem pickNumber_spec (t : JobStore) (h : t.table.length < 4) : ∀ n, 1 ≤ n → n ≤ 255 →
   1 ≤ t.pickNumber 4 n ∧ t.pickNumber 4 n ≤ 255 ∧ (∀ j ∈ t.table, j.number ≠ t.pickNumber 4 n) ∧ ((∀ j ∈ t.table, j.number ≠ n) → t.pickNumber 4 n = n) := by
  intro n h1 h2
  have any_iff : ∀ n, t.table.any (fun j => j.number == n) = false ↔ ∀ j ∈ t.table, j.number ≠ n := by
    intro n; simp
  have nx : ∀ n, 1 ≤ n → n ≤ 255 → 1 ≤ nextNumber n ∧ nextNumber n ≤ 255 ∧ nextNumber n ≠ n := by
    intro n a b; unfold nextNumber; split <;> omega
  obtain ⟨a1, b1, c1⟩ := nx n h1 h2
  obtain ⟨a2, b2, c2⟩ := nx _ a1 b1
  obtain ⟨a3, b3, c3⟩ := nx _ a2 b2
  have d1 : nextNumber (nextNumber n) ≠ n := by unfold nextNumber; split <;> split <;> omega
  have d2 : nextNumber (nextNumber (nextNumber n)) ≠ n := by unfold nextNumber; split <;> split <;> (try split) <;> omega
  have d3 : nextNumber (nextNumber (nextNumber n)) ≠ nextNumber n := by unfold nextNumber; split <;> split <;> (try split) <;> omega
  simp only [JobStore.pickNumber]
  generalize nextNumber n = n1 at *
  generalize nextNumber n1 = n2 at *
  generalize nextNumber n2 = n3 at *
  split
  · next e1 =>
    split
    · next e2 =>
      split
      · next e3 =>
        split
        · next e4 =>
          exfalso
          simp only [List.any_eq_true, beq_iff_eq] at e1 e2 e3 e4
          obtain ⟨j1, m1, k1⟩ := e1
          obtain ⟨j2, m2, k2⟩ := e2
          obtain ⟨j3, m3, k3⟩ := e3
          obtain ⟨j4, m4, k4⟩ := e4
          have hl : [n, n1, n2, n3].length ≤ (t.table.map Job.number).length := by
            apply List.Nodup.length_le_of_subset
            · simp; omega
            · intro x hx
              simp only [List.mem_cons, List.not_mem_nil, or_false] at hx
              rw [List.mem_map]
              rcases hx with rfl | rfl | rfl | rfl
              · exact ⟨j1, m1, k1⟩
              · exact ⟨j2, m2, k2⟩
              · exact ⟨j3, m3, k3⟩
              · exact ⟨j4, m4, k4⟩
          simp at hl; omega
        · next e4 =>
          refine ⟨a3, b3, (any_iff _).1 (by simpa using e4), ?_⟩
          intro hh; rw [(any_iff _).2 hh] at e1; cases e1
      · next e3 =>
        refine ⟨a2, b2, (any_iff _).1 (by simpa using e3), ?_⟩
        intro hh; rw [(any_iff _).2 hh] at e1; cases e1
    · next e2 =>
      refine ⟨a1, b1, (any_iff _).1 (by simpa using e2), ?_⟩
      intro hh; rw [(any_iff _).2 hh] at e1; cases e1
  · next e1 => exact ⟨h1, h2, (any_iff _).1 (by simpa using e1), fun _ => rfl⟩

/-- An element occupies the bytes it was read from (R146). -/
theorem readElement_length {b e rest} (h : readElement b = some (e, rest)) : b.length = e.length + rest.length := by
  unfold readElement at h
  split at h
  · split at h
    · split at h
      · next hc => cases h; simp [Element.length]; omega
      · cases h
    · cases h
  · cases h; simp [Element.length]; omega
  · cases h; simp [Element.length]; omega
  · split at h
    · cases h; simp [Element.length]; omega
    · split at h
      · cases h; simp [Element.length]; omega
      · cases h
  · split at h
    · cases h; simp [Element.length]; omega
    · cases h
  · cases h

/-- So do the elements of a payload (R146, R149). -/
theorem readElements_length : ∀ (k : Nat) (b : List Byte) (l), readElements k b = some l → (l.map Element.length).sum = b.length := by
  intro k
  induction k with
  | zero => intro b l h; cases b with
    | nil => simp [readElements] at h; subst h; rfl
    | cons => simp [readElements] at h
  | succ k ih => intro b l h; cases b with
    | nil => simp [readElements] at h; subst h; rfl
    | cons x xs =>
      simp only [readElements] at h
      split at h
      · next e rest he =>
        have h1 := readElement_length he
        cases hr : readElements k rest with
        | none => rw [hr] at h; cases h
        | some l' => rw [hr] at h; cases h; have := ih _ _ hr; rw [h1]; simp [this]
      · cases h

/-- Job 0 is out of range (R149). -/
theorem named_zero (s : State) : s.named 0#8 = .error .refusedRange := by simp [State.named]

/-- A job not in the table is not found (R149). -/
theorem named_none {s : State} {job : Byte} (h : job ≠ 0#8) (h2 : ∀ j ∈ s.job.table, j.number ≠ job.toNat) : s.named job = .error .refusedNotFound := by
  unfold State.named State.job?
  rw [if_neg h, List.find?_eq_none.2]
  intro j hj; simpa using h2 j hj

/-- The only job is found by its number. -/
theorem job_one {s : State} {j : Job} {n : Nat} (h2 : s.job.table = [j]) (h3 : j.number = n) : s.job? n = some j := by
  unfold State.job?; rw [h2]; simp [h3]

/-- The only job is named by its number. -/
theorem named_one {s : State} {job : Byte} {j : Job} (h : job ≠ 0#8) (h2 : s.job.table = [j]) (h3 : j.number = job.toNat) : s.named job = .ok j := by
  unfold State.named
  rw [if_neg h, job_one h2 h3]

/-- With no work, no job and no request waiting, a boundary takes the engine to IDLE (R164). -/
theorem atBoundary_idle {r : Raise} {k : Nat} {s : State} (h0 : s.pen.work = none) (h1 : s.pen.mode = .printing ∨ s.pen.mode = .idle ∨ s.boundaryCause = none)
   (h2 : s.dsa.queue = []) (h3 : s.job.table = []) (h4 : s.lpm.entry = none) : atBoundary r (k+1) s = { s with pen.mode := .idle } := by
  have : (if s.pen.mode = .printing ∨ s.pen.mode = .idle then none else s.boundaryCause) = (none : Option Pause) := by
    rcases h1 with h1 | h1 | h1
    · rw [if_pos (.inl h1)]
    · rw [if_pos (.inr h1)]
    · rw [h1]; split <;> rfl
  rw [atBoundary]
  simp only [h0, this]
  rw [scan_nil (by exact h2)]
  simp only [judgeHead, h3, List.head?_nil]
  exact judgeEntry_none h4

/-- What canPrint leaves free is what a line needs (R179). -/
theorem line_fits {s : State} (h : s.dsa.committed + 600 + 48 * s.set.dotCurrent ≤ s.set.capacity) : s.dsa.committed + s.need .line ≤ s.set.capacity := by
  unfold State.need; simp only; split <;> omega

/-- The step of a feed disturbs where it has more than 32 lines (R171). -/
theorem stepStart_feed {r : Raise} {n : Nat} {s : State} (h1 : s.wgt.chanP.stable = false) (h2 : s.wgt.chanB.stable = false) (h3 : Action.feed ∉ s.wgt.actions) (h4 : s.set.printMotionDisturbs = 0) :
   stepStart r (.feed n) s = { s with wgt.actions := if 32 < n then .feed :: s.wgt.actions else s.wgt.actions } := by
  unfold stepStart
  by_cases hlf : 32 < n
  · simp only [Seg.longFeed, hlf, decide_true, if_true, if_neg h3, disturbStart_calm _ _ h1 h2]
  · simp only [Seg.longFeed, hlf, decide_false, Bool.false_eq_true, if_false, h4, if_true]

/-- On an engine that can print the line asked for is granted and fired (R168, R179). -/
theorem askLine_now {r : Raise} {s Y : State} {o c g rest row} (hc : s.canPrint) (hw : s.pen.work = some { owner := o, current := c, segs := g :: rest, row := row }) 
   (hY : stepStart r g (shareMode .printing { s with
      dsa.loads := s.dsa.loads ++ [s.lineLoad]
      pen.mode := .printing
      pen.line := some (s.dotLine s.dotLimit row g)
      pen.work := some { owner := o.fired, current := c, segs := g :: rest, row := row } }) = Y)
   (hq : Y.dsa.queue = []) (hl : Y.pen.line.isSome = true) :
   askLine r s = Y := by
  obtain ⟨c1, c2, c3, c4, c5, c6, c7, c8, c9, c10⟩ := hc
  have hn : (!s.dsa.low && decide (s.dsa.committed + s.need .line ≤ s.set.capacity)) = true := by
    rw [c6]; exact decide_eq_true (line_fits c9)
  have hs : ({ s with dsa.queue := [] } : State) = s := by rw [← c7]
  have hgrant : grant r .line { s with dsa.queue := [] } = Y := by
    rw [hs]
    simp only [grant, grantLine, hw]
    exact hY
  unfold askLine
  rw [if_neg (by rw [c7]; simp)]
  have : askGrant r .line s = Y := by
    unfold askGrant scan
    rw [if_neg (by simp only; rw [c8]; simp)]
    rw [scanFrom]
    simp only [c7, List.nil_append]
    rw [if_pos (by exact hn)]
    have e : ({ ({ s with dsa := { s.dsa with queue := [Requester.line] } } : State) with dsa := { s.dsa with queue := [] } } : State) = { s with dsa.queue := [] } := rfl
    rw [hgrant, scanFrom, hq]
  rw [this, if_pos hl]

/-- An engine that is not PAUSED judges no pause. -/
theorem rejudgePause_off {r : Raise} {s : State} (h : ∀ p, s.pen.mode ≠ .paused p) : rejudgePause r s = s := by
  unfold rejudgePause
  split
  · next p hp => exact absurd hp (h p)
  · rfl

/-- A capacity in force that is the setting stays. -/
theorem settleCap_same {s : State} (h : s.dsa.cap = s.set.capacity) : settleCap s = s := by
  unfold settleCap
  rw [if_pos (.inl (Nat.le_of_eq h)), ← h]

/-- The end of a line in progress, step by step (R161, R171, R179). -/
theorem lineEnd_eq {r : Raise} {mv : Nat} {s : State} {l w} (h1 : s.pen.line = some l) (h2 : s.pen.work = some w) :
  lineEnd r mv s = (
    let s := releaseLoad .line { s with dsa.mv := mv, pen.line := none }
    let s := disturbEnd r .line s.set.printGuard s
    let aborted := (s.turned w).isSome
    match w.segs with
    | [] => boundary r s
    | g :: rest =>
      let done := decide (g.height ≤ w.row + 1)
      let s := if done || aborted then endFeedAction r s else s
      let s := if done && !aborted then countLine w g s else s
      if done && !aborted then
        if g.cutKind.isSome then
          enterCutting r { s with pen.work := some { w with row := w.row + 1 } }
        else boundary r { s with pen.work := some { w with segs := rest, row := 0 } }
      else boundary r { s with pen.work := some { w with row := w.row + 1 } }) := by
  unfold lineEnd
  simp only
  split
  · next l' w' e1 e2 => rw [h2] at e2; cases e2; rfl
  · next hh => exact absurd h2 (hh _ _ h1)

end Sys2Proof.Machine
end

