-- ==== Sys2Proof/Laws/Sale.lean ====
section
/-! SUPPORT. The sale, the bagging list and the card store: sums, slots, entries and wipes. -/

namespace Sys2Proof.Machine

/-- An entry appended, or its item UNCHECKED (R73 to R76). -/
theorem appendEntry_eq (e : Entry) (s : State) : appendEntry e s = { s with
    bag.entries := if s.bag.entries.length < 8 then s.bag.entries ++ [e] else s.bag.entries
    txn.items := s.txn.items.map fun it => if it.slot = e.slot then { it with bag := if s.bag.entries.length < 8 then .pending else .unchecked } else it } := by
  unfold appendEntry setBagStatus modItem
  split <;> rfl

/-- An item not void adds its amount to the total (R89). -/
theorem total_append (l : List Item) (it : Item) (h : it.void = false) : total (l ++ [it]) = total l + it.amount := by
  simp [total, List.filter_append, h]

/-- A change that keeps amounts and voids keeps the total. -/
theorem total_map (l : List Item) (f : Item → Item) (h1 : ∀ x, (f x).void = x.void) (h2 : ∀ x, (f x).amount = x.amount) : total (l.map f) = total l := by
  unfold total
  rw [List.filter_map, List.map_map]
  have e : ((fun it : Item => !it.void) ∘ f) = fun it => !it.void := by funext x; simp [h1]
  have e2 : (Item.amount ∘ f) = Item.amount := by funext x; simp [h2]
  rw [e, e2]

/-- An item adds its amount to the subtotal (R89). -/
theorem subtotal_append (l : List Item) (it : Item) : subtotal (l ++ [it]) = subtotal l + it.amount := by simp [subtotal]

/-- The bag status set is the one found. -/
theorem findItem_setStatus (k : Nat) (B : BagStatus) (l : List Item) (h : ∃ x ∈ l, x.slot = k) :
   ((findItem k (l.map fun it => if it.slot = k then { it with bag := B } else it)).map Item.bag).getD .none = B := by
  unfold findItem
  induction l with
  | nil => simp at h
  | cons a l ih =>
    by_cases ha : a.slot = k
    · simp [ha]
    · simp only [List.map_cons, if_neg ha, List.find?_cons]
      have : (a.slot == k) = false := by simp [ha]
      rw [this]
      apply ih
      obtain ⟨x, hx, hk⟩ := h
      simp at hx
      rcases hx with rfl | hx
      · exact absurd hk ha
      · exact ⟨x, hx, hk⟩

/-- A change that keeps the slots is found in its slot. -/
theorem findItem_map {l : List Item} {k : Nat} {f : Item → Item} (hf : ∀ x, (f x).slot = x.slot) {it} (h : findItem k l = some it) : findItem k (l.map f) = some (f it) := by
  unfold findItem at *
  rw [List.find?_map]
  have : ((fun it : Item => it.slot == k) ∘ f) = fun it => it.slot == k := by funext x; simp [hf]
  rw [this, h]; rfl

/-- The item found in a slot has that slot. -/
theorem findItem_slot {l : List Item} {k : Nat} {it} (h : findItem k l = some it) : it.slot = k := by
  have := List.find?_some h; simpa using this

/-- Dropping a slot's entry leaves the others in order. -/
theorem filter_slot (pre post : List Entry) (e : Entry) (k : Nat) (hk : e.slot = k) (h : ∀ x ∈ pre ++ post, x.slot ≠ k) :
    (pre ++ e :: post).filter (fun x => x.slot != k) = pre ++ post := by
  rw [List.filter_append, List.filter_cons]
  simp only [hk, bne_self_eq_false, Bool.false_eq_true, if_false]
  rw [List.filter_eq_self.2, List.filter_eq_self.2]
  · intro x hx; simpa using h x (by simp [hx])
  · intro x hx; simpa using h x (by simp [hx])

/-- The first that fits is found behind others that do not. -/
theorem find_append_cons {α} (p : α → Bool) (pre post : List α) (e : α) (h : p e = true) (h2 : ∀ x ∈ pre, p x = false) : (pre ++ e :: post).find? p = some e := by
  rw [List.find?_append, List.find?_eq_none.2]
  · simp [h]
  · intro x hx; simp [h2 x hx]

/-- What a wipe does to a slot, and that it leaves the rest to the link and the report unit (R128). -/
theorem wipeWhere_eq (b : Bool) (cause) (slot : CardSlot) (t : State) (hu : t.unbound) :
   ∃ l q, wipeWhere raiseLoud b cause slot t = { (t.setCard slot ((t.card slot).bind fun c => if c.bound = b then none else some c)) with link := l, rpt := q } ∧ (wipeWhere raiseLoud b cause slot t).unbound ∧ l.inExec = t.link.inExec ∧ l.softReset = t.link.softReset := by
  unfold wipeWhere
  split
  · next c hc =>
    split
    · next hb =>
      simp only [wipeCard, hc]
      rw [raiseLoud_unbound (by cases slot <;> exact hu)]
      obtain ⟨l, q, k, x, hr⟩ := raiseQuiet_eq (.cardWiped slot cause) (t.setCard slot none)
      have h1 : (raiseQuiet (.cardWiped slot cause) (t.setCard slot none)).link.inExec = t.link.inExec := by simp
      have h2 : (raiseQuiet (.cardWiped slot cause) (t.setCard slot none)).link.softReset = t.link.softReset := by simp
      have h3 : (raiseQuiet (.cardWiped slot cause) (t.setCard slot none)).unbound := raiseQuiet_unbound (by cases slot <;> exact hu) _
      rw [hr] at h1 h2 h3 ⊢
      refine ⟨l, { t.rpt with queue := q, nextSeq := k, latched.noticeLost := x }, ?_, h3, h1, h2⟩
      simp only [Option.bind_some, if_pos hb, State.setCard_rpt]
    · next hb =>
      refine ⟨t.link, t.rpt, ?_, hu, rfl, rfl⟩
      have e : ((t.card slot).bind fun c => if c.bound = b then none else some c) = t.card slot := by rw [hc]; simp [hb]
      rw [e]; cases slot <;> rfl
  · next hc =>
    refine ⟨t.link, t.rpt, ?_, hu, rfl, rfl⟩
    have e : ((t.card slot).bind fun c => if c.bound = b then none else some c) = t.card slot := by rw [hc]; rfl
    rw [e]; cases slot <;> rfl

/-- What a wipe does to both slots (R103, R105, R128). -/
theorem wipeAll_eq (b : Bool) (cause) (t : State) (hu : t.unbound) :
   ∃ l q, wipeAll raiseLoud b cause t = { t with crd := { t.crd with one := t.crd.one.bind fun c => if c.bound = b then none else some c, two := t.crd.two.bind fun c => if c.bound = b then none else some c }, link := l, rpt := q } ∧ (wipeAll raiseLoud b cause t).unbound ∧ l.inExec = t.link.inExec ∧ l.softReset = t.link.softReset := by
  obtain ⟨l, q, h1, h2, h3, h4⟩ := wipeWhere_eq b cause .one t hu
  obtain ⟨l', q', h1', h2', h3', h4'⟩ := wipeWhere_eq b cause .two _ h2
  refine ⟨l', q', ?_, h2', ?_, ?_⟩
  · unfold wipeAll; rw [h1']
    rw [h1]; rfl
  · rw [h3', h1]; exact h3
  · rw [h4', h1]; exact h4

/-- The card details follow from the card store alone. -/
theorem cardDetails_congr (s t : State) (h : s.crd = t.crd) : ∀ (l : List Tender) (i : Nat), cardDetails s i l = cardDetails t i l := by
  have hc : s.card = t.card := by funext c; cases c <;> simp [State.card, h]
  intro l
  induction l with
  | nil => intro i; rfl
  | cons a l ih => intro i; simp only [cardDetails, hc, ih]

/-- The snapshot follows from the sale and the card store alone. -/
theorem makeSnapshot_congr (v) (s t : State) (h : s.crd = t.crd) (h2 : s.txn = t.txn) : makeSnapshot v s = makeSnapshot v t := by
  simp only [makeSnapshot, h2, cardDetails_congr s t h]

end Sys2Proof.Machine
end

