-- ==== Sys2Proof/Tests/Slice0.lean ====
section
/-! SUPPORT. Tests: ill-formed commands refused, the worked values of the manual, and for each statement
with hypotheses a state and operands that meet them, at the ends of their ranges. -/

namespace Sys2Proof.Tests

open Sys2Proof.Machine

/-- The state a command answers. -/
def after (i : Instr) (s : State) : State :=
  match exec i s with
  | .next t => t
  | _ => s

/-- Bytes of a number repeated. -/
abbrev rep (n : Nat) : List Byte := List.replicate n 0x41#8

/-! ### Commands that no frame can carry -/

theorem test_wf_item_long : (Instr.txnItem 1#8 0#32 1#16 1#32 0#16 0#16 (rep 241)).wf = false ∧
    (Instr.txnItem 1#8 0#32 1#16 1#32 0#16 0#16 (rep 240)).wf = true := by decide +kernel

theorem test_wf_weigh_long : (Instr.txnWeigh 1#8 0#32 1#32 (rep 247)).wf = false ∧
    (Instr.txnWeigh 1#8 0#32 1#32 (rep 246)).wf = true := by decide +kernel

theorem test_wf_data_empty : (Instr.jobData 1#8 1#8 []).wf = false ∧
    (Instr.jobData 1#8 1#8 (rep 255)).wf = false ∧ (Instr.jobData 1#8 1#8 (rep 254)).wf = true := by
  decide +kernel

/-- A payload of more than 255 bytes is a frame of which the receiver discards the 261st byte (R5, R6): nothing
is answered, and the cause is OVERLONG. -/
theorem test_item_long_discarded :
    (after (.txnItem 1#8 0#32 1#16 1#32 0#16 0#16 (rep 241)) State.reset).rpt.latched.frameError =
      some .overlong ∧
    (after (.txnWeigh 1#8 0#32 1#32 (rep 247)) State.reset).rpt.latched.frameError = some .overlong ∧
    (after (.txnWeigh 1#8 0#32 1#32 (rep 247)) State.reset).link.tx.map TxFrame.kind = some .notice := by
  decide +kernel

/-- A JOB_DATA without elements is a request of a wrong length (R10). -/
theorem test_data_empty_answered : exec (.jobData 1#8 1#8 []) State.reset = .next (placeReply
    { tag := 1#8, code := 0x71#8, status := .refusedLength, data := [], baud := none } State.reset) := rfl

/-- The table gives no row any bits. -/
theorem test_table_word : decodeTableWord 8 5 = none ∧ State.reset.withFetchWord 8 5 = State.reset := by
  decide

/-! ### Chapter 1: the worked frame (section 1.2) -/

theorem test_crc_steps : crcByte 0xFFFF#16 0x01#8 = 0xF1D1#16 ∧ crcByte 0xF1D1#16 0x7E#8 = 0xB167#16 ∧
    crcByte 0xB167#16 0x30#8 = 0xE6A9#16 ∧ crcByte 0xE6A9#16 0x05#8 = 0x644D#16 := by decide

theorem test_worked_frame : requestLine 0x7E#8 0x30#8 [0x05#8] =
    [0x7E#8, 0x01#8, 0x7D#8, 0x5E#8, 0x30#8, 0x05#8, 0x64#8, 0x4D#8, 0x7E#8] := by decide +kernel

theorem test_worked_request : decodeRequest 0x7E#8 0x30#8 [0x05#8] = .ok (.bagSkip 0x7E#8 0x05#8) := rfl

theorem test_wrong_length : decodeRequest 0x7E#8 0x30#8 [] = .error .refusedLength := rfl

theorem test_wrong_code : decodeRequest 0x7E#8 0x33#8 [] = .error .refusedCode := rfl

/-! ### Chapter 2: the worked chain (section 2.10) -/

theorem test_decimation : decimate [619316, 619321, 619319, 619324, 619317, 619322, 619318, 619323] = 619320 := by
  decide

theorem test_calibration : calibrated 619320 120000 163840 = 1248300 := by decide

theorem test_division : Channel.toD .p 1246200 = 1246 ∧ Channel.toD .b 1246200 = 1250 := by decide

theorem test_filling : smoothed [619320] = 619320 ∧ smoothed [619320, 619321] = 619321 ∧
    smoothed [619320, 619321, 619324] = 619322 := by decide

theorem test_interval_edge : Channel.division .p 6000000 = 2 ∧ Channel.division .p 6000001 = 5 := by decide

theorem test_negative_tie : Channel.toD .p (-1000) = -2 ∧ Channel.toD .p 1000 = 2 := by decide

/-! ### Chapters 3 and 4 -/

theorem test_price : capturePrice 1218 229 = 279 ∧ capturePrice 40 12 = 0 := by decide

theorem test_tolerances : defaultTolerance 420 = 30 ∧ defaultTolerance 1234 = 61 ∧
    defaultTolerance 2000 = 100 ∧ defaultTolerance 599 = 30 := by decide

/-! ### Chapter 6: the worked decode, check digit and mask -/

/-- A track whose first transition has been taken, fed with intervals. -/
def fed (l : List Nat) : TrackCap :=
  l.foldl TrackCap.transition { TrackCap.empty with transitions := 1 }

theorem test_worked_decode :
    (fed [210, 205, 198, 202, 207, 200, 203, 199, 101, 104, 206, 99, 108, 214, 103, 102]).bits =
      List.replicate 8 false ++ [true, false, true, false, true] ∧
    (fed [210, 205, 198, 202, 207, 200, 203, 199, 101, 104, 206, 99, 108, 214, 103, 102]).pexp =
      some 205 := by decide

theorem test_worked_cell_error :
    (fed [210, 205, 198, 202, 207, 200, 203, 199, 101, 104, 206, 99, 108, 214, 110, 185]).stop =
      some .cellError := by decide

theorem test_worked_lrc : frameBits .numeric
    (charBits 4 0x0B ++ charBits 4 4 ++ charBits 4 0 ++ charBits 4 0x0F ++ [false, false, false, false, true]) =
      { result := .ok, codes := [0x0B, 4, 0, 0x0F], reverse := false } := by decide

theorem test_check_digit : accountValid [4, 0, 0, 0, 1, 2, 3, 4, 5, 6, 7, 8, 9, 0, 1, 7] = true := by decide

theorem test_mask : maskAccount [4, 0, 0, 0, 1, 2, 3, 4, 5, 6, 7, 8, 9, 0, 1, 7] = ascii "400012******9017" ∧
    maskAccount [4, 1, 1, 1, 1, 1, 2, 2, 3, 3, 4, 4] = ascii "411111**3344" := by decide

theorem test_expired : expiredNow { Txn.reset with state := .opened, date := 20240612 } (some 2405) = true ∧
    expiredNow { Txn.reset with state := .opened, date := 20240612 } (some 2406) = false ∧
    expiredNow { Txn.reset with state := .opened, date := 20240612 } (some 2709) = false := by decide

/-! ### Chapter 8: the worked item lines -/

/-- An item with no weigh record and no matched weight. -/
def anItem (slot : Nat) (desc : Text) (qty price : Nat) (void : Bool) (bag : BagStatus) : Item where
  slot := slot
  code := 0
  description := desc
  quantity := qty
  price := price
  amount := qty * price
  void := void
  bag := bag
  matched := none
  record := none

theorem test_item_milk : itemLines 2 (anItem 1 (ascii "MILK") 1 129 false .bagged) =
    [ascii "MILK                                        1.29"] := by decide

theorem test_item_cereal : itemLines 2 (anItem 2 (ascii "CEREAL") 2 315 false .skipped) =
    [ascii "CEREAL                   S                  6.30", ascii "  2 x 3.15"] := by decide

/-- The weigh record of the worked sale. -/
def bananas : WeighRecord where
  number := 204
  net := 1218
  tare := 0
  gross := 1218
  division := 2
  kind := .none
  price := 229
  amount := 279
  slot := 3

theorem test_item_bananas :
    itemLines 2 { anItem 3 (ascii "BANANAS") 1 279 false .bagged with record := some bananas } =
      [ascii "BANANAS                                     2.79", ascii "  1.218 kg @ 2.29/kg"] := by decide

theorem test_item_wine : itemLines 2 (anItem 4 (ascii "WINE") 1 899 true .removed) =
    [ascii "WINE                                        VOID"] := by decide

/-! ### Chapter 9: the worked strobe times -/

theorem test_strobe_times : strobeTime 3 40 22800 = 296 ∧ lineStrobe true 296 = 370 ∧
    strobeTime 3 10 22800 = 478 ∧ strobeTime 3 10 20500 = 591 := by decide

theorem test_strobe_phases : groupPhases 340 (List.replicate 12 48) = [336, 240] ∧
    groupPhases 190 (List.replicate 12 48) = [144, 144, 144, 144] := by decide

theorem test_line_periods : linePeriod 2 296 = 1250 ∧ linePeriod 4 296 = 1250 ∧ linePeriod 4 370 = 1540 ∧
    linePeriod 4 478 = 1972 ∧ linePeriod 4 591 = 2424 := by decide

/-- Table 10-1 at the defaults: 340 dots with the motor alone, 190 with a drawer energised. -/
theorem test_dot_limits : State.reset.dotLimit = 340 ∧
    ({ State.reset with dsa.loads := [(.port .d1, 1500)] } : State).dotLimit = 190 := by decide

/-! ### Witnesses: the link (chapter 1) -/

theorem test_reset_free : State.reset.ready ∧ State.reset.unbound := by decide

/-- A reply. -/
def aReply : Reply where
  tag := 1#8
  code := 0x30#8
  status := .ok
  data := []
  baud := none

/-- A request that waits. -/
def aRequest : Request where
  tag := 1#8
  code := 0x30#8
  payload := [5#8]

/-- The reset state with the receiver in a state, with so many requests waiting and replies placed. -/
def linkAt (m : RxMode) (bytes queue replies : Nat) : State :=
  { State.reset with
    link.rx := { mode := m, buf := rep bytes, quiet := 0 }
    link.queue := List.replicate queue aRequest
    link.replies := List.replicate replies aReply }

theorem witness_DecodingInvertsEncoding : (Instr.bagSkip 0x7E#8 5#8).wf = true ∧
    encodeRequest (.bagSkip 0x7E#8 5#8) = some (0x7E#8, 0x30#8, [5#8]) := by decide

theorem witness_FramedRequestReceived : (rep 255).length ≤ 255 ∧ ([] : List Byte).length ≤ 255 ∧
    (linkAt .seek 0 4 3).link.rx.mode = .seek ∧ (linkAt .seek 0 4 3).link.placesInUse < 8 ∧
    (linkAt .gap 0 0 7).link.rx.mode = .gap ∧ (linkAt .gap 0 0 7).link.placesInUse < 8 := by decide +kernel

theorem witness_ReceiverHandlesCharacter : (linkAt .closed 0 0 0).link.rx.mode = .closed ∧
    (linkAt .seek 0 0 0).link.rx.mode = .seek ∧ (linkAt .gap 0 0 0).link.rx.mode = .gap ∧
    (0x7F#8 : Byte) ≠ 0x7E#8 ∧ (0x7F#8 : Byte) ≠ 0x7D#8 ∧
    (linkAt .body 259 0 0).link.rx.mode = .body ∧ (linkAt .body 259 0 0).link.rx.buf.length < 260 ∧
    (linkAt .bodyEsc 259 0 0).link.rx.mode = .bodyEsc ∧
    (linkAt .bodyEsc 259 0 0).link.rx.buf.length < 260 ∧
    (linkAt .body 260 0 0).unbound ∧ 260 ≤ (linkAt .body 260 0 0).link.rx.buf.length ∧
    (linkAt .bodyEsc 0 0 0).unbound := by decide +kernel

theorem witness_ReceiverHandlesCharacter_stall : (linkAt .bodyEsc 0 0 0).link.rx.mode.inBody = true ∧
    (linkAt .bodyEsc 0 0 0).rpt.latched.frameError = none ∧
    ({ linkAt .body 1 0 0 with rpt.latched.frameError := some .crc } : State).unbound ∧
    ({ linkAt .body 1 0 0 with rpt.latched.frameError := some .crc } : State).rpt.latched.frameError ≠ none ∧
    ({ linkAt .body 1 0 0 with rpt.latched.frameError := some .crc } : State).link.rx.mode.inBody = true ∧
    (linkAt .gap 0 0 0).link.rx.mode.inBody = false ∧ (linkAt .gap 0 0 0).unbound := by decide +kernel

/-- The reset state in BODY with a body received, and so many replies placed. -/
def receiving (body : List Byte) (replies : Nat) : State :=
  { linkAt .body 0 0 replies with link.rx.buf := body }

theorem witness_ReceiverHandlesCharacter_closing : (receiving [0x01#8, 0#8, 0#8, 0#8] 0).unbound ∧
    (receiving [0x01#8, 0#8, 0#8, 0#8] 0).link.rx.mode = .body ∧
    [0x01#8, 0#8, 0#8, (0#8 : Byte)].length < 5 ∧
    [0x01#8, 0#8, 0x02#8, 0#8, (0#8 : Byte)].drop 3 ≠
      be16 (crc16 [0x01#8, 0#8, 0x02#8]).toNat ∧
    [0x02#8, 0#8, 0x02#8, 0x82#8, (0xBE#8 : Byte)].drop 3 =
      be16 (crc16 [0x02#8, 0#8, 0x02#8]).toNat ∧
    8 ≤ (receiving [] 8).link.placesInUse ∧ (receiving [] 7).link.placesInUse < 8 ∧
    (linkAt .bodyEsc 260 0 0).unbound ∧ 260 ≤ (linkAt .bodyEsc 260 0 0).link.rx.buf.length := by
  decide +kernel

theorem witness_RequestAdmission : (Instr.bagSkip 1#8 5#8).wf = true ∧
    encodeRequest (.bagSkip 1#8 5#8) = some (1#8, 0x30#8, [5#8]) ∧
    (linkAt .gap 0 3 4).link.rx.mode ≠ .closed ∧ (linkAt .gap 0 3 4).link.placesInUse < 8 ∧
    (linkAt .gap 0 3 4).link.queue ≠ [] ∧ (linkAt .gap 0 3 4).link.queue.length < 4 ∧
    (linkAt .gap 0 4 3).link.placesInUse < 8 ∧ 4 ≤ (linkAt .gap 0 4 3).link.queue.length ∧
    8 ≤ (linkAt .gap 0 4 4).link.placesInUse ∧ (linkAt .gap 0 4 4).unbound ∧
    (linkAt .gap 0 4 4).rpt.latched.frameError = none ∧
    (linkAt .closed 0 0 0).link.rx.mode = .closed ∧ (Instr.jobData 1#8 1#8 []).wf = false := by
  decide +kernel

theorem witness_RequestAdmission_length :
    (encodeRequest (.txnWeigh 1#8 1#32 0#32 (rep 247))).map (fun x => x.2.2.length) = some 256 ∧
    (encodeRequest (.txnWeigh 1#8 1#32 0#32 (rep 246))).map (fun x => x.2.2.length) = some 255 ∧
    State.reset.linkFree ∧ State.reset.unbound ∧ (linkAt .gap 0 4 4).link.rx.mode ≠ .closed := by
  decide +kernel

theorem witness_QueuedRequestExecuted : (linkAt .gap 0 1 7).link.inExec = none ∧
    (linkAt .gap 0 1 7).link.queue = [aRequest] ∧ (linkAt .gap 0 1 7).link.softReset = false ∧
    (linkAt .gap 0 1 7).link.rx.mode ≠ .closed ∧ (linkAt .gap 0 1 7).link.placesInUse ≤ 8 ∧
    ({ linkAt .gap 0 1 7 with link.softReset := true } : State).link.softReset = true ∧
    (linkAt .gap 0 0 0).link.queue = [] := by decide +kernel

theorem witness_QueuedRequestExecuted_codes :
    decodeRequest aRequest.tag aRequest.code aRequest.payload = .ok (.bagSkip 1#8 5#8) ∧
    decodeRequest 1#8 0x30#8 [] = .error .refusedLength ∧ decodeRequest 1#8 0x00#8 [] = .error .refusedCode :=
  ⟨rfl, rfl, rfl⟩

/-- A frame on the line. -/
def aFrame (baud : Option Nat) : TxFrame where
  kind := .reply
  tag := 1#8
  code := 0x30#8
  payload := [0#8]
  line := []
  baud := baud

/-- The reset state with a frame on the line. -/
def sending (baud : Option Nat) (replies : List Reply) (body : Option (List Byte)) (q : List Queued) : State :=
  { State.reset with
    link.tx := some (aFrame baud)
    link.replies := replies
    link.snapshot := body
    rpt.queue := q }

theorem witness_NextFrameChosen : State.reset.link.softReset = false ∧ State.reset.link.tx = none ∧
    (sending none [aReply] none []).link.tx = some (aFrame none) ∧ (aFrame none).baud = none ∧
    (sending none [aReply] none []).link.replies = [aReply] ∧
    (sending none [] (some [0#8]) []).link.replies = [] ∧
    (sending none [] (some [0#8]) []).link.snapshot = some [0#8] ∧
    (sending none [] none [⟨.paperLow, 0⟩]).link.snapshot = none ∧
    (sending none [] none [⟨.paperLow, 0⟩]).set.noticePush ≠ 0 ∧
    (sending none [] none [⟨.paperLow, 0⟩]).rpt.queue = [⟨.paperLow, 0⟩] ∧
    (sending none [] none []).rpt.queue = [] ∧ (aFrame (some 19200)).baud = some 19200 := by decide

theorem witness_SoftResetFollowsLastReply :
    ({ sending none [] none [] with link.softReset := true } : State).link.softReset = true ∧
    (sending none [] none []).link.queue = [] ∧ (sending none [] none []).link.inExec = none ∧
    (sending none [] none []).link.replies = [] ∧ State.reset.ready := by decide

/-- A notice with an age. -/
def aged (n : Nat) : Queued where
  notice := .paperLow
  seq := n

/-- A state with every place of the link and of the notice queue taken. -/
def brimful : State :=
  { linkAt .gap 0 4 4 with
    rpt.queue := (List.range 16).map aged
    rpt.nextSeq := 16 }

theorem witness_StepKeepsBounds : brimful.bounded ∧ 8 ≤ brimful.link.placesInUse ∧
    16 ≤ brimful.rpt.queue.length ∧ ∃ t, step brimful = .next t :=
  ⟨by decide +kernel, by decide +kernel, by decide +kernel, _, rfl⟩

theorem witness_StepKeepsSupply : State.reset.supplied ∧
    ({ State.reset with dsa.loads := [(.port .d1, 4000)] } : State).supplied ∧
    (∃ t, step State.reset = .next t) ∧ ∃ t, exec .converterWarmupEnd State.reset = .next t :=
  ⟨by decide, by decide, ⟨_, rfl⟩, _, rfl⟩

/-! ### Witnesses: notices, settings and power (chapters 10 and 11) -/

theorem witness_ConditionsAndNoticesFetched : State.reset.linkFree ∧ (511#16 : BitVec 16).toNat < 512 ∧
    512 ≤ (512#16 : BitVec 16).toNat := by decide

theorem witness_ConditionsAndNoticesFetched_notice : State.reset.linkFree ∧ State.reset.rpt.queue = [] ∧
    (sending none [] none [aged 0]).linkFree ∧ (sending none [] none [aged 0]).rpt.queue = [aged 0] := by
  decide

theorem witness_NoticeQueueKeepsOrder : brimful.rpt.ordered ∧ brimful.rpt.aged ∧
    brimful.rpt.queue.length ≤ 16 ∧ isNoticeCode 0x80 = true ∧ isNoticeCode 0xA5 = true ∧
    brimful.rpt.routes.length = 38 := by decide +kernel

theorem witness_RouteSet : State.reset.ready ∧ isNoticeCode (0x81#8 : Byte).toNat = true ∧
    isNoticeCode (0xA5#8 : Byte).toNat = true ∧ (7#8 : Byte).toNat ≤ 7 ∧ 7 < (8#8 : Byte).toNat ∧
    isNoticeCode (0x7F#8 : Byte).toNat = false ∧ isNoticeCode (0xA6#8 : Byte).toNat = false := by decide

/-- The reset state with one binding that arms the reader. -/
def armed (once : Bool) : State :=
  { State.reset with rpt.bind1 := some { once := once, trigger := 0x9F, action := .armReader } }

theorem witness_BindingSetAndFired : State.reset.ready ∧ (1#8 : Byte).toNat ≤ 4 ∧ (4#8 : Byte).toNat ≤ 4 ∧
    BindAction.read 2#8 999999 = some (.capture 999999) ∧ BindAction.read 2#8 1000000 = none ∧
    BindAction.read 3#8 255 = some (.startFeed 255) ∧ BindAction.read 4#8 0 = some .armReader ∧
    isTrigger 0x81 = true ∧ isTrigger 0x82 = false ∧ 2 < (3#8 : Byte).toNat ∧
    (armed true).lpm.mode = .active ∧ (armed true).lpm.entry = none ∧
    (armed true).rpt.bind1 = some { once := true, trigger := Notice.code .paperLow, action := .armReader } ∧
    (armed true).rpt.bind2 = none ∧ (armed true).rpt.bind3 = none ∧ (armed true).rpt.bind4 = none ∧
    (0#8 : Byte).toNat < 1 ∧ 4 < (5#8 : Byte).toNat := by decide

theorem witness_SettingReadAndWritten : State.reset.ready ∧ 1 ≤ (1#8 : Byte).toNat ∧ (32#8 : Byte).toNat ≤ 32 ∧
    32 < (33#8 : Byte).toNat := by decide

theorem witness_SettingReadAndWritten_put : State.reset.ready ∧ (1#8 : Byte).toNat ∈ plainSettings ∧
    (32#8 : Byte).toNat ∈ plainSettings ∧
    State.reset.set.taken 1 0 = some 19200 ∧ State.reset.set.taken 1 4294967295 = some 460800 ∧
    State.reset.set.taken 10 255 = some 260 ∧ State.reset.set.taken 32 61 = some 60 := by decide

theorem witness_SettingReadAndWritten_taken : State.reset.set.taken 23 255 = some 250 ∧
    State.reset.set.taken 23 245 = some 250 ∧ State.reset.set.taken 3 6 = some 8 ∧
    State.reset.set.taken 5 0 = some 16 ∧ State.reset.set.taken 6 121 = some 120 ∧
    settingValues 23 = some (.range 50 250 10) ∧ settingValues 3 = some (.listed [4, 8, 16, 32]) := by decide

theorem witness_SettingsActAtOnce : State.reset.ready ∧ State.reset.unbound ∧
    State.reset.set.taken 3 32 = some 32 ∧ 32 ≠ State.reset.set.filterDepthP ∧
    State.reset.wgt.chanP.stable = false ∧ State.reset.set.taken 6 120 = some 120 ∧
    State.reset.set.taken 8 0 = some 0 ∧ State.reset.set.get 8 = 1 ∧
    State.reset.set.get 30 = 40 ∧ State.reset.set.taken 30 19 = some 20 ∧
    State.reset.dsa.queue = [] := by decide

/-- A request of a code in execution, with a write of the store under way. -/
def writing (code : Byte) (w : StoreWrite) : State :=
  { State.reset with
    link.inExec := some { tag := 1#8, code := code, payload := [] }
    sst.writes := [w] }

theorem witness_StoreWritesCompleted : State.reset.ready ∧ (writing 0x12#8 .settings).link.softReset = false ∧
    (writing 0x12#8 .settings).sst.writes = [.settings] ∧
    (writing 0x12#8 .settings).link.inExec = some { tag := 1#8, code := 0x12#8, payload := [] } ∧
    State.reset.sst.writes.head? ≠ some .settings := by decide

theorem witness_StoreWritesCompleted_marker : (writing 0x40#8 (.marker true)).link.softReset = false ∧
    (writing 0x40#8 (.marker true)).sst.writes = [.marker true] ∧
    (writing 0x40#8 (.marker true)).link.inExec = some { tag := 1#8, code := 0x40#8, payload := [] } ∧
    (writing 0x40#8 (.marker false)).sst.writes = [.marker false] ∧
    State.reset.sst.writes.head? ≠ some (.marker true) ∧
    State.reset.sst.writes.head? ≠ some (.marker false) := by decide

/-- An operation that waits on a channel. -/
def anOp (k : OpKind) : Op where
  kind := k
  tag := 1#8
  age := 0
  limit := 3000
  writing := false

/-- The reset state with an operation in flight on channel P, its readings running and its zero valid. -/
def holding (k : OpKind) : State :=
  { State.reset with
    wgt.conv := .running
    wgt.chanP.zeroValid := true
    wgt.chanP.op := some (anOp k) }

theorem witness_StoreWritesCompleted_calibration :
    ({ holding .calZero with sst.writes := [.calibration .p 1 5 65536] } : State).unbound ∧
    ({ holding .calZero with sst.writes := [.calibration .p 1 5 65536] } : State).sst.writes =
      [.calibration .p 1 5 65536] ∧
    (holding .calZero).wgt.chanP.op = some (anOp .calZero) := by decide

theorem witness_StandbyAsked : State.reset.ready ∧ State.reset.unbound ∧
    entryBlock .standby State.reset = none ∧ workDone State.reset = true ∧
    ({ State.reset with pen.mode := .printing } : State).ready ∧
    entryBlock .standby ({ State.reset with pen.mode := .printing } : State) = none ∧
    workDone ({ State.reset with pen.mode := .printing } : State) = false ∧
    (holding .zero).ready ∧ entryBlock .standby (holding .zero) = some .refusedBusy := by decide

theorem witness_DormantEntered :
    ({ State.reset with sst.started := true, drw.d1.mode := .closed } : State).ready ∧
    entryBlock .dormant ({ State.reset with sst.started := true, drw.d1.mode := .closed } : State) = none ∧
    workDone ({ State.reset with sst.started := true, drw.d1.mode := .closed } : State) = true ∧
    State.reset.unbound := by decide

/-- An entry into STANDBY that waits. -/
def anEntry : PendingEntry where
  target := .standby
  tag := 1#8
  cause := .request

theorem witness_WakeAsked : ({ State.reset with lpm.mode := .standby } : State).linkFree ∧
    ({ State.reset with lpm.mode := .standby } : State).unbound ∧
    ({ State.reset with lpm.mode := .standby } : State).lpm.entry = none ∧ State.reset.linkFree ∧
    State.reset.lpm.mode = .active ∧ State.reset.lpm.entry = none ∧
    ({ State.reset with lpm.entry := some anEntry } : State).linkFree ∧
    ({ State.reset with lpm.entry := some anEntry } : State).lpm.entry = some anEntry := by decide

/-- The reset state with start-up ended. -/
def started : State := { State.reset with sst.started := true }

theorem witness_IdleTimerExpires : started.unbound ∧ started.lpm.entry = none ∧ started.idleRuns = true ∧
    entryBlock .standby started = none ∧ workDone started = true ∧
    ({ started with pen.mode := .printing } : State).idleRuns = true ∧
    workDone ({ started with pen.mode := .printing } : State) = false ∧
    ({ started with pen.mode := .fault } : State).idleRuns = true ∧
    entryBlock .standby ({ started with pen.mode := .fault } : State) = some .refusedState ∧
    State.reset.idleRuns = false := by decide

/-! ### Witnesses: the weighing channels (chapters 2 and 3) -/

/-- A block of one value throughout. -/
def flat (v : BitVec 24) : Samples := ⟨v, v, v, v, v, v, v, v⟩

/-- The reset state with readings running and both zeros valid. -/
def weighing : State :=
  { State.reset with wgt.conv := .running, wgt.chanP.zeroValid := true, wgt.chanB.zeroValid := true }

theorem witness_ReadingTaken : weighing.unbound ∧ weighing.wgt.conv = .running ∧
    overrange (sampleValues (flat 8388606#24)) = none ∧ overrange (sampleValues (flat 0x800001#24)) = none ∧
    (weighing.chan .p).stable = false ∧ (weighing.chan .b).stable = false ∧
    (({ weighing with wgt.chanP.win := List.replicate 14 0 } : State).chan .p).win.length + 1 <
      ({ weighing with wgt.chanP.win := List.replicate 14 0 } : State).set.filterDepth .p ∧
    ({ weighing with wgt.guard := some 80 } : State).wgt.disturbed = true ∧
    State.reset.wgt.conv ≠ .running ∧ overrange (sampleValues (flat 0x7FFFFF#24)) = some .overRange ∧
    overrange (sampleValues (flat 0x800000#24)) = some .underRange ∧
    ({ weighing with wgt.chanP.range := .underRange } : State).wgt.chanP.range = .underRange := by decide

/-- A reading of channel P at one milligram per count and its D in grams (R24 to R28). -/
theorem test_reading : (after (.reading .p (flat 1246200#24)) weighing).wgt.chanP.d = some 1246 := by decide

/-- A block with an extreme code takes D away and forces OVER for 8 clean readings (R23). -/
theorem test_overrange : (after (.reading .p (flat 0x7FFFFF#24)) weighing).wgt.chanP.d = none ∧
    (after (.reading .p (flat 0x7FFFFF#24)) weighing).wgt.chanP.forced = 8 := by decide

theorem witness_OperationChecked : weighing.ready ∧ Channel.ofByte 0#8 = some .p ∧
    Channel.ofByte 1#8 = some .b ∧ (weighing.chan .p).op = none ∧ (weighing.chan .p).calValid = true ∧
    weighing.wgt.tare = 0 ∧ ({ weighing with calEn := true } : State).calEn = true ∧
    100 ≤ (100#16 : BitVec 16).toNat ∧ (15000#16 : BitVec 16).toNat ≤ Channel.maxGrams .p ∧
    (30000#16 : BitVec 16).toNat ≤ Channel.maxGrams .b := by decide

theorem witness_OperationChecked_refused : 1 < (2#8 : Byte).toNat ∧ State.reset.calEn = false ∧
    (99#16 : BitVec 16).toNat < 100 ∧ Channel.maxGrams .p < (15001#16 : BitVec 16).toNat ∧
    (holding .zero).ready ∧ (holding .zero).wgt.chanP.op.isSome = true ∧
    ({ holding .zero with calEn := true } : State).calEn = true ∧
    ({ State.reset with wgt.chanB.calValid := false } : State).wgt.chanB.calValid = false ∧
    0 < ({ State.reset with wgt.tare := 2000 } : State).wgt.tare ∧
    ({ State.reset with calEn := true, wgt.chanP.calValid := false } : State).wgt.chanP.calZeroed = false ∧
    State.reset.wgt.chanP.zeroValid = false := by decide

theorem witness_TareSetAndCleared : weighing.ready ∧ (1#16 : BitVec 16).toNat < 2 ∧
    3000 < (3001#16 : BitVec 16).toNat ∧ 2 ≤ (2#16 : BitVec 16).toNat ∧ (3000#16 : BitVec 16).toNat ≤ 3000 ∧
    (holding .zero).wgt.chanP.op.isSome = true ∧ weighing.wgt.chanP.op = none ∧
    weighing.wgt.chanP.calValid = true ∧ weighing.wgt.chanP.zeroValid = true ∧
    (3000#16 : BitVec 16).toNat % 2 = 0 ∧ (2999#16 : BitVec 16).toNat % 2 = 1 ∧
    State.reset.wgt.chanP.zeroValid = false ∧ weighing.wgt.tare = 0 ∧ weighing.wgt.tareKind = .none := by
  decide

theorem test_preset_odd : (after (.scaleTarePreset 1#8 2999#16) weighing).wgt.tare = 3000000 := by decide

theorem witness_OperationsEnded : (holding .zero).ready ∧ (holding .zero).unbound := by decide

theorem witness_OperationsEnded_timeout : (holding .zero).unbound ∧
    ((holding .zero).chan .p).op = some (anOp .zero) ∧ (anOp .zero).writing = false ∧
    (anOp .tare).kind = .tare ∧ (holding .tare).wgt.chanP.op = some (anOp .tare) ∧
    (holding (.capture 229 4011 [])).wgt.chanP.op = some (anOp (.capture 229 4011 [])) ∧
    (anOp (.calSpan 15000)).kind.isCal = true ∧
    (holding (.calSpan 15000)).wgt.chanP.op = some (anOp (.calSpan 15000)) ∧
    (holding (.calSpan 15000)).wgt.chanB.op = none ∧ State.reset.wgt.chanP.op = none := by decide

theorem witness_ScaleTimersExpire : State.reset.job.table = [] ∧ State.reset.wgt.chanP.stable = false ∧
    State.reset.wgt.chanB.stable = false ∧ State.reset.wgt.conv = .warming ∧
    State.reset.wgt.chanP.calValid = true ∧ State.reset.wgt.chanB.calValid = true ∧
    weighing.wgt.conv ≠ .warming ∧ State.reset.unbound ∧
    ({ weighing with wgt.chanP.init := .running 4999 } : State).wgt.chanP.init = .running 4999 ∧
    ({ weighing with wgt.chanB.init := .ended .established } : State).wgt.chanB.init =
      .ended .established ∧
    ({ weighing with wgt.chanB.init := .running 0 } : State).wgt.chanB.init = .running 0 ∧
    weighing.sst.started = false ∧ started.sst.started = true := by decide

theorem witness_ScaleTimersExpire_guard :
    ({ weighing with wgt.guard := some 0 } : State).wgt.guard.isSome = true ∧
    ({ weighing with wgt.guard := some 0 } : State).wgt.actions = [] ∧
    ({ weighing with wgt.guard := some 0, wgt.actions := [.cut] } : State).wgt.actions ≠ [] ∧
    weighing.wgt.guard = none ∧ weighing.wgt.chanP.stable = false ∧ weighing.wgt.chanB.stable = false := by
  decide

/-- Streaming of channel P with a last readout placed. -/
def aStream (last : Option (List Byte)) : Stream where
  ch := .p
  period := 200
  age := 200
  last := last

theorem witness_StreamingFollowsReadout : State.reset.ready ∧ Channel.ofByte 1#8 = some .b ∧
    100 ≤ (100#16 : BitVec 16).toNat ∧ (1000#16 : BitVec 16).toNat ≤ 1000 ∧ (1#16 : BitVec 16) ≠ 0#16 ∧
    (99#16 : BitVec 16).toNat < 100 ∧ 1000 < (1001#16 : BitVec 16).toNat ∧ 1 < (2#8 : Byte).toNat ∧
    (2#8 : Byte) ≠ 0xFF#8 ∧ State.reset.wgt.stream = none ∧
    (aStream (some (State.reset.readoutBody .p))).last =
      some (({ State.reset with
        wgt.stream := some (aStream (some (State.reset.readoutBody .p))) } : State).readoutBody .p) ∧
    (aStream none).last ≠
      some (({ State.reset with wgt.stream := some (aStream none) } : State).readoutBody .p) := by decide

theorem test_stream_tie : streamPeriod 150 = 200 ∧ streamPeriod 149 = 100 ∧ streamPeriod 1049 = 1000 := by
  decide

theorem witness_StatusAnswered : State.reset.linkFree ∧ Channel.ofByte 0#8 = some .p ∧
    1 < (2#8 : Byte).toNat := by decide

/-- The reset state with so many items of an amount in an OPEN sale. -/
def withItems (n amount : Nat) : State :=
  { weighing with
    txn.state := .opened
    bag.watch := .watch
    txn.items := (List.range n).map fun i => anItem (i + 1) [] 1 amount false .none }

theorem witness_CaptureRecorded : (withItems 63 0).txn.items.length < 64 ∧
    withinLimits (withItems 63 0).txn.items (capturePrice 1218 229) = true ∧ (withItems 63 0).unbound ∧
    withinLimits (withItems 1 99999720).txn.items (capturePrice 1218 229) = true ∧
    withinLimits (withItems 1 99999721).txn.items (capturePrice 1218 229) = false := by decide +kernel

/-! ### Witnesses: the bagging monitor (chapter 4) -/

/-- A PENDING entry. -/
def anExpectation (slot weight : Nat) (remove : Bool) : Entry := Entry.new slot remove weight 0

theorem witness_ExpectationAppended : ({ withItems 8 0 with
    bag.entries := (List.range 7).map fun i => anExpectation (i + 1) 100 false } : State).bag.entries.length
      < 8 := by decide

/-- A lane in WATCH with entries, a reference of 0 and a D of channel B. -/
def bagging (d : Int) (l : List Entry) : State :=
  { withItems 3 0 with
    bag.rb := 0
    bag.entries := l
    wgt.chanB.d := some d }

theorem witness_SettleJudged : (bagging 450 []).wgt.chanB.d = some 450 ∧ (bagging 450 []).unbound ∧
    ({ bagging 450 [] with bag.watch := .off } : State).bag.watch = .off ∧
    (bagging 19 []).bag.watch ≠ .off ∧ ((19 : Int) - 0).natAbs < (bagging 19 []).set.bagThreshold ∧
    (bagging 20 []).set.bagThreshold ≤ ((20 : Int) - 0).natAbs := by decide

/-- A match at the end of the tolerance, behind an entry whose tolerance just misses. -/
theorem witness_SettleJudged_match :
    (bagging 450 [anExpectation 1 419 false, anExpectation 2 420 false]).bag.entries =
      [anExpectation 1 419 false] ++ anExpectation 2 420 false :: [] ∧
    (∀ x ∈ [anExpectation 1 419 false] ++ [], x.slot ≠ (anExpectation 2 420 false).slot) ∧
    ((anExpectation 2 420 false).remove = true ↔ (450 : Int) < 0) ∧
    (((450 : Int) - 0).natAbs - ((anExpectation 2 420 false).weight : Int)).natAbs ≤
      (anExpectation 2 420 false).tol ∧
    (∀ x ∈ [anExpectation 1 419 false], x.remove = (anExpectation 2 420 false).remove →
      x.tol < (((450 : Int) - 0).natAbs - (x.weight : Int)).natAbs) := by decide

/-- No entry explains a removal of 20 g. -/
theorem witness_SettleJudged_none :
    (bagging (-20) [anExpectation 1 419 false]).bag.watch = .watch ∧
    (bagging (-20) [anExpectation 1 419 false]).set.bagThreshold ≤ ((-20 : Int) - 0).natAbs ∧
    (∀ x ∈ (bagging (-20) [anExpectation 1 419 false]).bag.entries, x.remove = decide ((-20 : Int) < 0) →
      x.tol < (((-20 : Int) - 0).natAbs - (x.weight : Int)).natAbs) := by decide

theorem test_settle_matched :
    (bagStable raiseLoud (bagging 450 [anExpectation 1 419 false, anExpectation 2 420 false])).bag.entries =
      [anExpectation 1 419 false] := by decide

theorem witness_ExpectationEnded : (bagging 0 [anExpectation 64 100 false]).ready ∧ 64 < (65#8 : Byte).toNat ∧
    (64#8 : Byte) ≠ 0#8 ∧ (64#8 : Byte).toNat ≤ 64 ∧
    (∀ x ∈ (bagging 0 [anExpectation 64 100 false]).bag.entries, x.slot ≠ (1#8 : Byte).toNat) ∧
    (bagging 0 [anExpectation 64 100 false]).bag.entries = [] ++ anExpectation 64 100 false :: [] ∧
    (anExpectation 64 100 false).slot = (64#8 : Byte).toNat ∧ (anExpectation 64 100 false).overdue = false ∧
    ({ bagging 0 [] with bag.watch := .hold } : State).bag.watch = .hold ∧
    ({ bagging 0 [] with bag.watch := .hold } : State).ready ∧ (bagging 0 []).bag.watch ≠ .hold ∧
    (bagging 0 []).unbound := by decide

/-! ### Witnesses: the sale (chapter 5) -/

theorem witness_SaleBegun : State.reset.ready ∧ State.reset.txn.state = .idle ∧
    State.reset.drw.noSale = none ∧ State.reset.snapshotJob = false ∧
    dateTimeOk (20240612#32 : BitVec 32).toNat (2359#16 : BitVec 16).toNat = true ∧
    dateTimeOk (20240101#32 : BitVec 32).toNat (0#16 : BitVec 16).toNat = true ∧
    12 < (20241301#32 : BitVec 32).toNat / 100 % 100 ∧ 31 < (20241232#32 : BitVec 32).toNat % 100 ∧
    23 < (2400#16 : BitVec 16).toNat / 100 ∧ 59 < (2360#16 : BitVec 16).toNat % 100 ∧
    (withItems 1 0).txn.state ≠ .idle ∧
    ({ State.reset with drw.noSale := some .d1 } : State).drw.noSale ≠ none := by decide

theorem test_sale_begun : (after (.txnBegin 1#8 7#32 20240612#32 1430#16) State.reset).txn.state = .opened ∧
    (after (.txnBegin 1#8 7#32 20240612#32 1430#16) State.reset).bag.watch = .watch := by decide

theorem witness_ItemTaken : (withItems 63 0).ready ∧ (rep 240).length ≤ 240 ∧
    (withItems 63 0).txn.state = .opened ∧ (withItems 63 0).bag.watch ≠ .hold ∧
    (999#16 : BitVec 16).toNat ≤ 999 ∧ (9999999#32 : BitVec 32).toNat ≤ 9999999 ∧
    (withItems 63 0).txn.items.length < 64 ∧
    (10#16 : BitVec 16).toNat * (9999999#32 : BitVec 32).toNat ≤ 99999999 ∧
    total (withItems 63 0).txn.items + 99999999 ≤ 99999999 ∧
    subtotal (withItems 63 0).txn.items + 99999999 ≤ 999999999 := by decide +kernel

/-- The reset state with the last sale's snapshot. -/
def afterSale : State := { State.reset with txn.snap := some (makeSnapshot false (withItems 1 129)) }

theorem witness_ItemTaken_get : (64#8 : Byte) ≠ 0#8 ∧ 64 < (65#8 : Byte).toNat ∧ (withItems 1 129).ready ∧
    findItem 1 (withItems 1 129).txn.items = some (anItem 1 [] 1 129 false .none) ∧ afterSale.ready ∧
    afterSale.txn.snap = some (makeSnapshot false (withItems 1 129)) ∧ afterSale.txn.state = .idle ∧
    findItem 1 (makeSnapshot false (withItems 1 129)).items = some (anItem 1 [] 1 129 false .none) ∧
    State.reset.txn.snap = none := by decide

theorem witness_WeighAndVoidItem : (withItems 1 129).ready ∧ (rep 246).length ≤ 246 ∧
    (withItems 1 129).txn.state = .opened ∧ (withItems 1 129).bag.watch ≠ .hold ∧
    (999999#32 : BitVec 32) ≠ 0#32 ∧ (999999#32 : BitVec 32).toNat ≤ 999999 ∧
    (withItems 1 129).wgt.chanP.calValid = true ∧ (withItems 1 129).wgt.chanP.op = none ∧
    State.reset.txn.state ≠ .opened ∧
    ({ withItems 1 129 with bag.watch := .hold } : State).bag.watch = .hold := by decide +kernel

/-- The sale with its one item of some bag status. -/
def voiding (b : BagStatus) (entries : Nat) : State :=
  { withItems 1 129 with
    txn.items := [{ anItem 1 [] 1 129 false b with matched := some (420, 30) }]
    bag.entries := (List.range entries).map fun i => anExpectation (i + 2) 100 false }

theorem witness_WeighAndVoidItem_void : (voiding .bagged 7).ready ∧ (voiding .bagged 7).txn.state = .opened ∧
    findItem (1#8 : Byte).toNat (voiding .bagged 7).txn.items =
      some { anItem 1 [] 1 129 false .bagged with matched := some (420, 30) } ∧
    (voiding .bagged 7).bag.entries.length < 8 ∧ 8 ≤ (voiding .bagged 8).bag.entries.length ∧
    findItem (1#8 : Byte).toNat (voiding .pending 0).txn.items =
      some { anItem 1 [] 1 129 false .pending with matched := some (420, 30) } ∧
    BagStatus.skipped ≠ .pending ∧ BagStatus.skipped ≠ .overdue ∧ BagStatus.skipped ≠ .bagged ∧
    (anItem 1 [] 1 129 true .none).void = true := by decide

theorem test_void_bagged : (after (.txnVoidItem 1#8 1#8) (voiding .bagged 0)).bag.entries =
    [Entry.new 1 true 420 30] := by decide

theorem witness_SaleTotalledAndReopened : (withItems 1 129).ready ∧ (1#8 : Byte).toNat ≤ 1 ∧
    (∃ it ∈ (withItems 1 129).txn.items, it.void = false) ∧ (withItems 1 129).wgt.chanP.op = none ∧
    (withItems 1 129).bag.watch ≠ .hold ∧ (withItems 1 129).bag.entries = [] ∧
    (bagging 0 [anExpectation 1 100 false]).bag.entries ≠ [] ∧
    (∃ it ∈ (bagging 0 [anExpectation 1 100 false]).txn.items, it.void = false) ∧
    ({ withItems 1 129 with txn.state := .tender } : State).txn.tenders = [] ∧
    State.reset.txn.state ≠ .tender := by decide

/-- The sale of 129 in TENDER, KICK_ON_SETTLE off. -/
def tendering : State :=
  { withItems 1 129 with
    txn.state := .tender
    set.kickOnSettle := 0 }

/-- A tender of one. -/
def aTender : Tender where
  kind := .cash
  amount := 1
  card := none

/-- A HELD record that may be bound. -/
def aCard : CardRec where
  bound := false
  reverse := false
  numeric := .ok
  alpha := .noData
  masked := ascii "400012******9017"
  expiry := some 2709
  service := some 101
  name := []
  track := [0x3B#8]
  expired := false
  check := false
  disagree := false
  format := false
  released := false
  bindable := true
  age := 0

theorem witness_TenderTaken : tendering.ready ∧ TenderKind.ofByte 0#8 = some .cash ∧
    TenderKind.ofByte 2#8 = some .voucher ∧ 1 ≤ (1#32 : BitVec 32).toNat ∧
    (99999999#32 : BitVec 32).toNat ≤ 99999999 ∧ tendering.txn.state = .tender ∧
    tendering.bag.watch ≠ .hold ∧ (128#32 : BitVec 32).toNat < tendering.txn.due ∧
    ({ tendering with txn.tenders := List.replicate 6 aTender } : State).txn.tenders.length < 7 ∧
    (122#32 : BitVec 32).toNat <
      ({ tendering with txn.tenders := List.replicate 6 aTender } : State).txn.due ∧
    tendering.txn.due ≤ (129#32 : BitVec 32).toNat ∧ tendering.txn.due = 129 ∧
    tenderSum tendering.txn.tenders ≤ total tendering.txn.items ∧ tendering.set.kickOnSettle = 0 ∧
    tendering.job.table = [] ∧ tendering.txn.due < (130#32 : BitVec 32).toNat := by decide

theorem witness_TenderTaken_card : TenderKind.ofByte 1#8 = some .card ∧ CardSlot.ofByte 2#8 = some .two ∧
    ({ tendering with crd.two := some aCard } : State).ready ∧
    ({ tendering with crd.two := some aCard } : State).card .two = some aCard ∧ aCard.bound = false ∧
    aCard.bindable = true ∧
    (128#32 : BitVec 32).toNat < ({ tendering with crd.two := some aCard } : State).txn.due := by decide

theorem witness_TenderTaken_covering :
    ({ tendering with set.kickOnSettle := 1, set.presentD1 := 0 } : State).ready ∧
    ({ tendering with set.kickOnSettle := 1, set.presentD1 := 0 } : State).set.present .d1 = false ∧
    tendering.set.cash = .d1 ∧ (∀ x ∈ tendering.txn.tenders, x.kind ≠ .cash) ∧
    ({ tendering with crd.two := some aCard } : State).job.table = [] ∧
    (129#32 : BitVec 32).toNat = ({ tendering with crd.two := some aCard } : State).txn.due := by decide

/-- A sale in TENDER with the automatic kick on and the first port, which holds the cash, in a mode. -/
def kickable (m : PortMode) : State :=
  { tendering with set.kickOnSettle := 1, drw.d1.mode := m }

theorem witness_TenderTaken_kick : (kickable .closed).ready ∧ (kickable .closed).job.table = [] ∧
    (kickable .closed).set.kickOnSettle ≠ 0 ∧ (kickable .closed).set.cash = .d1 ∧
    (kickable .closed).set.present .d1 = true ∧ ((kickable .closed).port .d1).mode = .closed ∧
    ((kickable .closed).port .d1).retry = false ∧ (kickable .closed).wgt.chanP.stable = false ∧
    (kickable .closed).wgt.chanB.stable = false ∧ (kickable .closed).dsa.queue = [] ∧
    (kickable .closed).pen.line = none ∧ (kickable .closed).dsa.low = false ∧
    (kickable .closed).dsa.committed + 1500 ≤ (kickable .closed).set.capacity ∧
    (kickable .unknown).ready ∧ ((kickable .unknown).port .d1).mode = .unknown ∧
    (kickable .fault).ready ∧ ((kickable .fault).port .d1).mode = .fault ∧
    (kickable .closed).txn.due = 129 ∧ Port.d2 ≠ Port.d1 := by decide

theorem witness_SaleVoidedAndClosed : (withItems 1 129).ready ∧ (withItems 1 129).unbound ∧
    (withItems 1 129).job.table = [] ∧ (withItems 1 129).txn.tenders = [] ∧
    (withItems 1 129).wgt.chanP.op = none ∧ tendering.txn.state = .tender ∧
    ({ withItems 1 129 with txn.state := .settled } : State).ready ∧
    ({ withItems 1 129 with txn.state := .settled } : State).txn.entitlement = none ∧
    ({ withItems 1 129 with crd.one := some aCard } : State).card .one = some aCard ∧
    State.reset.txn.state = .idle := by decide

/-! ### Witnesses: the card reader (chapter 6) -/

theorem witness_CardRequestsAnswered : ({ State.reset with crd.two := some aCard } : State).ready ∧
    1 < (2#8 : Byte).toNat ∧ CardSlot.ofByte 0#8 = none ∧ CardSlot.ofByte 3#8 = none ∧
    CardSlot.ofByte 1#8 = some .one ∧ CardSlot.ofByte 2#8 = some .two ∧
    ({ State.reset with crd.two := some aCard } : State).card .one = none ∧
    ({ State.reset with crd.two := some aCard } : State).card .two = some aCard ∧
    aCard.released = false ∧ ({ aCard with released := true } : CardRec).released = true ∧
    ({ aCard with bound := true } : CardRec).bound = true ∧ aCard.bound = false ∧
    ({ State.reset with crd.two := some aCard } : State).unbound := by decide

/-- The reset state with the reader in a state. -/
def reader (m : ReaderState) : State := { State.reset with crd.state := m }

theorem witness_SwipeFollowed : Track.numeric ≠ .alpha ∧ Head.track .numeric = some .numeric ∧
    (reader .armed).crd.state = .armed ∧ (reader .armed).lpm.mode = .active ∧
    Head.track .third = none ∧ (reader .disarmed).crd.state ≠ .armed ∧
    (reader .reading).crd.state = .reading ∧ ((reader .reading).crd.track .numeric).ended = false ∧
    (20000#32 : BitVec 32).toNat ≤ ((reader .reading).crd.track .numeric).idle ∧
    ((reader .reading).crd.track .numeric).idle < (20001#32 : BitVec 32).toNat ∧
    (reader .decoding).crd.state = .decoding ∧ (reader .decoding).unbound ∧
    (frameTrack .numeric (reader .decoding).crd.numeric).result ≠ .ok := by decide

/-- The bits of a numeric track: start sentinel, codes, end sentinel and LRC. -/
def trackBits (codes : List Nat) : List Bool :=
  let l := 0x0B :: codes ++ [0x0F]
  (l ++ [l.foldl (· ^^^ ·) 0]).flatMap (charBits 4)

/-- A capture that holds the worked account, expiry 2709 and service code 101. -/
def goodTrack : TrackCap :=
  { TrackCap.empty with
    transitions := 200
    pexp := some 203
    bits := trackBits [4, 0, 0, 0, 1, 2, 3, 4, 5, 6, 7, 8, 9, 0, 1, 7, 0x0D, 2, 7, 0, 9, 1, 0, 1]
    ended := true }

/-- A reader that decodes a good numeric track. -/
def decoding (one two : Option CardRec) : State :=
  { reader .decoding with crd.numeric := goodTrack, crd.one := one, crd.two := two }

theorem witness_SwipeFollowed_good :
    (frameTrack .numeric (decoding none none).crd.numeric).result = .ok ∧
    accountOf (frameTrack .numeric (decoding none none).crd.numeric).codes =
      some ([4, 0, 0, 0, 1, 2, 3, 4, 5, 6, 7, 8, 9, 0, 1, 7], [2, 7, 0, 9, 1, 0, 1]) ∧
    (decoding (some aCard) none).crd.one ≠ none ∧ (decoding (some aCard) none).crd.two = none ∧
    (decoding (some aCard) (some aCard)).crd.two ≠ none := by decide +kernel

theorem test_swipe_stored : ((after .decodeEnd (decoding none none)).crd.one.map CardRec.masked) =
    some (ascii "400012******9017") ∧
    ((after .decodeEnd (decoding none none)).crd.one.map CardRec.bindable) = some true := by decide +kernel

theorem witness_TrackResultDecided : ({ goodTrack with atLimit := true } : TrackCap).atLimit = true ∧
    goodTrack.atLimit = false ∧ ({ goodTrack with transitions := 15 } : TrackCap).transitions < 16 ∧
    16 ≤ ({ goodTrack with transitions := 16 } : TrackCap).transitions ∧
    ({ goodTrack with pexp := none } : TrackCap).pexp = none ∧ goodTrack.pexp = some 203 ∧
    ({ goodTrack with stop := some .speed } : TrackCap).stop = some .speed ∧ goodTrack.stop = none ∧
    (goodTrack.interval 27000).stop = some .speed ∧
    (({ goodTrack with half := some 100 } : TrackCap).interval 27000).stop = some .cellError := by
  decide +kernel

/-! ### Witnesses: the drawers (chapter 7) -/

/-- The reset state with both ports present, port 1 in a state and a kick or a retry of it under way. -/
def drawer (m : PortMode) (attempt : Nat) (k : PermitKind) (retry : Bool) : State :=
  { State.reset with
    set.presentD2 := 1
    drw.d1 := { PortState.reset true false with
      mode := m, deb := none, held := some false, attempt := attempt, kick := k, retry := retry } }

/-- The same with a no-sale permit. -/
def permitted (m : PortMode) : State := { drawer m 0 .none false with drw.noSale := some .d1 }

theorem witness_DrawerKicked : (permitted .closed).ready ∧ (permitted .closed).unbound ∧
    Port.ofByte 1#8 = some .d1 ∧ Port.ofByte 2#8 = some .d2 ∧ (permitted .closed).wgt.chanP.stable = false ∧
    (permitted .closed).wgt.chanB.stable = false ∧ (permitted .closed).dsa.queue = [] ∧
    (permitted .closed).pen.line = none ∧ (permitted .closed).set.present .d1 = true ∧
    ((permitted .closed).port .d1).mode = .closed ∧ ((permitted .closed).port .d1).retry = false ∧
    (permitted .closed).dsa.low = false ∧
    ({ permitted .closed with dsa.loads := [(.line, 2500)] } : State).dsa.committed + 1500 ≤
      ({ permitted .closed with dsa.loads := [(.line, 2500)] } : State).set.capacity ∧
    (permitted .closed).permitOf .d1 = .noSale ∧ Port.d2 ≠ .d1 := by decide

theorem witness_DrawerKicked_other : (drawer .closed 0 .none false).txn.state = .idle ∧
    (drawer .closed 0 .none false).txn.entitlement = none ∧ (drawer .closed 0 .none false).drw.noSale = none ∧
    ({ permitted .closed with dsa.loads := [(.line, 2501)] } : State).set.capacity <
      ({ permitted .closed with dsa.loads := [(.line, 2501)] } : State).dsa.committed + 1500 ∧
    (permitted .opened).permitOf .d1 = .noSale ∧ ((permitted .opened).port .d1).mode = .opened ∧
    State.reset.set.present .d2 = false ∧ (drawer .closed 0 .none false).permitOf .d1 = .none ∧
    ((permitted .fault).port .d1).mode = .fault ∧ (permitted .fault).permitOf .d1 ≠ .none ∧
    (withItems 1 129).txn.state ≠ .idle ∧ (withItems 1 129).ready := by decide

theorem test_nosale_kicks : (after (.drawerNosale 1#8 1#8) (drawer .closed 0 .none false)).drw.d1.on = true := by
  decide

/-- The same with the sense input at a level, debouncing, and a level held before. -/
def sensing (m : PortMode) (level held : Bool) : State :=
  { State.reset with
    drw.d1 := { PortState.reset true level with mode := m, deb := some 25, held := some held } }

theorem witness_PortSensed : State.reset.unbound ∧ ((drawer .closed 0 .none false).port .d1).deb = none ∧
    ((sensing .unknown true true).port .d1).deb ≠ none ∧
    ((sensing .unknown true true).port .d1).present = true ∧
    ((sensing .unknown true true).port .d1).mode = .unknown ∧
    ((sensing .closed true false).port .d1).mode = .closed ∧
    ((sensing .closed true false).port .d1).retry = false ∧
    ((sensing .closed true false).port .d1).held = some (!((sensing .closed true false).port .d1).level) ∧
    ((sensing .closed true false).port .d1).level =
      (if (sensing .closed true false).set.openLow .d1 then false else true) ∧
    (sensing .closed true false).lpm.mode = .active ∧
    ((sensing .opened false true).port .d1).mode = .opened ∧
    ((sensing .opened false true).port .d1).held = some (!((sensing .opened false true).port .d1).level) ∧
    ((sensing .opened false true).port .d1).level =
      (if (sensing .opened false true).set.openLow .d1 then true else false) ∧
    ((sensing .closed true false).port .d1).mode ≠ .opened := by decide

theorem witness_PortSensed_clear : (drawer .fault 3 .none false).ready ∧ Port.ofByte 1#8 = some .d1 ∧
    ((drawer .fault 3 .none false).port .d1).mode = .fault ∧
    (drawer .fault 3 .none false).sense .d1 ≠ some true ∧
    ((drawer .closed 0 .none false).port .d1).mode ≠ .fault := by decide

theorem test_forced : (after (.senseDebouncedChange .d1) (sensing .closed true false)).drw.d1.mode = .opened ∧
    (after (.senseDebouncedChange .d1) (sensing .closed true false)).rpt.latched.forcedD1 = true := by decide

theorem witness_SettingsActAtOnce_ports : State.reset.set.taken 19 0 = some 0 ∧ State.reset.set.get 19 = 1 ∧
    (drawer .fault 3 .none false).ready ∧ (drawer .fault 3 .none false).unbound ∧
    ((drawer .fault 3 .none false).port .d1).retry = false ∧
    ((drawer .fault 3 .none false).port .d1).mode ≠ .grantWait ∧
    State.reset.set.taken 20 1 = some 1 ∧ State.reset.set.get 20 = 0 ∧
    ({ State.reset with drw.d2.deb := none, drw.d2.held := some true } : State).sense .d2 = some true ∧
    (State.reset.port .d2).leaving = false ∧ State.reset.set.taken 21 1 = some 1 ∧
    ((drawer .closed 0 .none false).port .d1).present = true ∧
    ((drawer .openOverdue 0 .none false).port .d1).mode = .openOverdue ∧
    State.reset.set.taken 25 5 = some 5 ∧
    1000 * 5 ≤ (({ drawer .opened 0 .none false with drw.d1.openMs := 5000 } : State).port .d1).openMs ∧
    ((drawer .opened 0 .none false).port .d2).mode ≠ .opened := by decide

/-- A port that is turned on with its sense debounced takes it at once (R131). -/
theorem test_present_on : (after (.setPut 1#8 20#8 1#32)
    { State.reset with drw.d2.deb := none, drw.d2.held := some true }).drw.d2.mode = .opened := by decide

/-- A port that is energised, its grant held. -/
def energised (trips : Nat) : State :=
  { drawer .kicking 1 .noSale false with
    drw.d1.on := true
    drw.d1.trips := trips
    drw.noSale := some .d1
    dsa.loads := [(.port .d1, 1500)]
    wgt.actions := [.pulse .d1] }

theorem witness_AttemptEvents : (drawer .grantWait 2 .noSale false).unbound ∧
    (drawer .grantWait 2 .noSale false).pen.line = none ∧
    (drawer .grantWait 2 .noSale false).dsa.cap = (drawer .grantWait 2 .noSale false).set.capacity ∧
    ((drawer .grantWait 2 .noSale false).port .d1).mode = .grantWait ∧
    ((drawer .grantWait 2 .noSale false).port .d1).kick ≠ .none ∧
    ((drawer .grantWait 2 .noSale false).port .d1).attempt < 3 ∧
    ({ drawer .grantWait 2 .noSale false with dsa.queue := [.port .d1] } : State).dsa.queue = [.port .d1] ∧
    ((drawer .waitOpen 2 .noSale false).port .d1).mode = .waitOpen ∧
    3 ≤ ((drawer .waitOpen 3 .noSale false).port .d1).attempt ∧
    ((drawer .waitOpen 3 .noSale false).port .d1).kick = .noSale ∧
    (drawer .waitOpen 3 .noSale false).lpm.entry = none := by decide

theorem witness_AttemptEvents_energised : ((energised 0).port .d1).mode = .kicking ∧
    ((energised 0).port .d1).on = true ∧ ((energised 0).port .d1).remembered = false ∧
    (energised 0).dsa.queue = [] ∧ (energised 0).dsa.loads = [(.port .d1, 1500)] ∧
    (energised 0).wgt.actions = [.pulse .d1] ∧ (energised 0).set.drawerGuard ≠ 0 ∧
    ((energised 0).port .d1).trips = 0 ∧ (energised 0).set.autoResume ≠ 0 ∧
    (({ energised 1 with drw.d1.on := false, drw.d1.broken := true } : State).port .d1).broken = true ∧
    (energised 0).unbound ∧ (energised 0).pen.line = none ∧
    (energised 0).dsa.cap = (energised 0).set.capacity := by decide

theorem witness_AttemptEvents_retry : ((drawer .closed 1 .noSale true).port .d1).mode = .closed ∧
    ((drawer .closed 1 .noSale true).port .d1).retry = true ∧
    (drawer .closed 1 .noSale true).dsa.queue = [] ∧
    ({ drawer .closed 1 .noSale true with dsa.low := true } : State).dsa.low = true ∧
    ((drawer .opened 0 .none false).port .d1).mode = .opened := by decide

theorem test_third_failure :
    (after (.openWaitTimeout .d1) { drawer .waitOpen 3 .noSale false with drw.noSale := some .d1 }).drw.d1.mode =
      .fault ∧
    (after (.openWaitTimeout .d1) { drawer .waitOpen 3 .noSale false with drw.noSale := some .d1 }).drw.noSale =
      none := by decide

/-! ### Witnesses: receipt jobs and the print engine (chapters 8 and 9) -/

/-- A lane with one FREE job in a state. -/
def oneJob (m : JobMode) (closed : Bool) (l : List Element) : State :=
  { started with
    job.table := [{ Job.new 1 .free 1#8 with mode := m, closed := closed, elements := l }]
    job.next := 2 }

/-- Its job. -/
def theJob (m : JobMode) (closed : Bool) (l : List Element) : Job :=
  { Job.new 1 .free 1#8 with mode := m, closed := closed, elements := l }

theorem witness_JobOpenedAndFilled : State.reset.ready ∧ 2 < (3#8 : Byte).toNat ∧
    State.reset.txn.state = .idle ∧ State.reset.txn.snap = none ∧
    4 ≤ ({ State.reset with
      job.table := List.replicate 4 (theJob .filling false []) } : State).job.table.length ∧
    Role.ofByte 0#8 = some .receipt ∧ Role.ofByte 1#8 = some .reprint ∧ Role.ofByte 2#8 = some .free ∧
    ({ State.reset with
      job.table := List.replicate 3 (theJob .filling false []) } : State).job.table.length < 4 ∧
    1 ≤ State.reset.job.next ∧ ({ State.reset with job.next := 255 } : State).job.next ≤ 255 ∧
    (withItems 1 129).ready ∧ (withItems 1 129).txn.receiptDone = false ∧ afterSale.txn.snap ≠ none := by
  decide

theorem witness_JobOpenedAndFilled_data : (oneJob .filling false []).ready ∧ 1 ≤ ([3#8] : List Byte).length ∧
    (rep 254).length ≤ 254 ∧ (1#8 : Byte) ≠ 0#8 ∧
    (∀ j ∈ (oneJob .filling false []).job.table, j.number ≠ (2#8 : Byte).toNat) ∧
    (oneJob .filling false []).job.table = [theJob .filling false []] ∧
    (theJob .filling false []).number = (1#8 : Byte).toNat ∧ (theJob .queued true []).closed = true ∧
    (theJob (.aborted .host .marked) false []).isAborted = true ∧
    readElements 1 [9#8] = none ∧ readElements 1 [3#8] = some [.rule] ∧
    (oneJob .filling false (List.replicate 8192 .rule)).job.free < 1 ∧
    1 ≤ (oneJob .filling false (List.replicate 8191 .rule)).job.free ∧
    ({ oneJob .filling false [] with set.startPolicy := 1 } : State).set.startPolicy ≠ 0 := by
  decide +kernel

/-- A lane with the receipt of its sale being filled. -/
def receiptJob : Job := Job.new 1 .receipt 1#8

theorem witness_JobClosed : (oneJob .filling false [.rule]).ready ∧
    (oneJob .filling false [.rule]).job.table = [theJob .filling false [.rule]] ∧
    (theJob .filling false [.rule]).ofSale = false ∧ (theJob .filling false [.rule]).heading = false ∧
    (oneJob .filling false [.rule]).pen.mode = .idle ∧ (oneJob .filling false [.rule]).pen.work = none ∧
    (oneJob .filling false [.rule]).sst.started = true ∧ (oneJob .filling false [.rule]).canPrint ∧
    (oneJob .filling false []).dsa.queue = [] ∧ (oneJob .filling false []).unbound ∧
    (theJob .filling false []).elements = [] ∧ State.reset.sst.started = false ∧
    ({ oneJob .filling false [] with pen.mode := .printing } : State).pen.mode ≠ .idle ∧
    receiptJob.ofSale = true ∧ receiptJob.mode = .filling ∧ receiptJob.closed = false ∧
    ({ withItems 1 129 with job.table := [receiptJob] } : State).ready ∧
    ({ withItems 1 129 with job.table := [receiptJob] } : State).txn.state ≠ .settled := by decide

/-- The limit of canPrint: a supply with just room for the motor and one strobe block. -/
theorem witness_canPrint : ({ started with dsa.loads := [(.cutter, 2920)] } : State).canPrint ∧
    ¬ ({ started with dsa.loads := [(.cutter, 2921)] } : State).canPrint := by decide

theorem test_rule_starts : (after (.jobClose 1#8 1#8) (oneJob .filling false [.rule])).pen.mode = .printing := by
  decide +kernel

theorem witness_JobAbortedAndReported : (oneJob .queued true []).ready ∧ (oneJob .queued true []).unbound ∧
    (oneJob .queued true []).job.table = [theJob .queued true []] ∧
    (theJob .queued true []).number = (1#8 : Byte).toNat ∧
    (theJob (.aborted .host .marked) true []).isAborted = true ∧
    (theJob (.paused .paper) true []).mode = .paused .paper ∧
    (theJob .printing true []).mode = .printing ∧ (oneJob .printing true []).inCut 1 = false := by decide

/-- An idle engine that can print, with a mode. -/
def engine (m : EngineMode) : State := { started with pen.mode := m }

theorem witness_EngineRequests : (engine .idle).ready ∧ (engine .idle).pen.mode ≠ .paused .paper ∧
    (engine .idle).pen.mode ≠ .paused .cover ∧
    ({ engine (.paused .paper) with pen.paperOut := true } : State).pen.paperOut = true ∧
    (engine (.paused .paper)).pen.mode = .paused .paper ∧ (engine (.paused .paper)).pen.paperOut = false ∧
    (engine (.paused .paper)).pen.coverOpen = false ∧ (engine (.paused .paper)).dsa.low = false ∧
    (engine (.paused .paper)).dsa.queue = [] ∧ (engine (.paused .paper)).pen.work = none ∧
    (engine (.paused .paper)).job.table = [] ∧ (engine .fault).pen.mode = .fault ∧
    (engine .fault).pen.home = true ∧ (engine .cutting).pen.mode = .cutting ∧
    State.reset.pen.mode = .idle ∧ State.reset.sst.started = false ∧ (engine .idle).sst.started = true ∧
    ({ engine .idle with pen.coverOpen := true } : State).pen.coverOpen = true ∧ (engine .idle).canPrint ∧
    1 ≤ (1#8 : Byte).toNat ∧ (255#8 : Byte) ≠ 0#8 ∧ (engine .idle).wgt.chanP.stable = false ∧
    (engine .idle).wgt.chanB.stable = false ∧ Action.feed ∉ (engine .idle).wgt.actions := by decide

theorem witness_SensorsAndSupply : started.unbound ∧ started.pen.mode = .idle ∧ started.lpm.mode = .active ∧
    started.sst.started = true ∧ State.reset.sst.started = false ∧ (-20 : Int) ≤ -20 ∧ (64 : Int) < 65 ∧
    started.pen.hot = false ∧ (100 : Int) ≤ 100 ∧ ({ started with pen.hot := true } : State).pen.hot = true ∧
    (55 : Int) < 56 ∧ (-21 : Int) < -20 ∧ (100 : Int) < 101 ∧
    19000 ≤ (19000#16 : BitVec 16).toNat ∧ (18999#16 : BitVec 16).toNat < 19000 ∧ started.dsa.low = false ∧
    ({ started with dsa.low := true } : State).dsa.low = true ∧ (19999#16 : BitVec 16).toNat < 20000 ∧
    20000 ≤ (20000#16 : BitVec 16).toNat ∧ started.dsa.queue = [] ∧
    ({ started with dsa.low := true, dsa.queue := [.port .d2] } : State).dsa.queue = [.port .d2] ∧
    ({ started with dsa.low := true, dsa.queue := [.port .d2] } : State).pen.line = none ∧
    ({ started with dsa.loads := [(.cutter, 2500)] } : State).dsa.committed + 1500 ≤
      started.set.capacity := by decide

theorem witness_SensorsAndSupply_modes : ∀ p, started.pen.mode ≠ .paused p := by
  intro p h; cases h

/-- A dot line without dots. -/
def aLine : DotLine where
  limit := 340
  phases := []
  tOn := 350
  period := 1250
  withheld := false

/-- An engine that ends a line of some work, with its allocation. -/
def ending (w : Work) (a : List Action) : State :=
  { engine .printing with
    pen.work := some w
    pen.line := some aLine
    dsa.loads := [(.line, 600 + 340 * 10)]
    wgt.actions := a }

/-- The last of so many feed lines. -/
def feedWork (n : Nat) : Work where
  owner := .feed
  current := .none
  segs := [.feed n]
  row := n - 1

/-- The last line before a cut of a job that has left. -/
def cutWork (row : Nat) : Work where
  owner := .abort 1 true
  current := .none
  segs := [.cut false]
  row := row

theorem witness_LinesAndCuts : (ending (feedWork 1) []).unbound ∧ (ending (feedWork 1) []).lpm.entry = none ∧
    (ending (feedWork 1) []).wgt.chanP.stable = false ∧ (ending (feedWork 1) []).wgt.chanB.stable = false ∧
    started.pen.line = none ∧ (ending (feedWork 1) []).pen.line = some aLine ∧
    (ending (feedWork 255) []).pen.work =
      some { owner := .feed, current := .none, segs := [.feed 255], row := 255 - 1 } ∧
    (ending (feedWork 1) []).dsa.loads =
      [(.line, 600 + aLine.limit * (ending (feedWork 1) []).set.dotCurrent)] ∧
    (ending (feedWork 1) []).dsa.queue = [] ∧
    (ending (feedWork 1) []).dsa.cap = (ending (feedWork 1) []).set.capacity ∧
    (ending (feedWork 1) []).wgt.actions = [] ∧ (ending (feedWork 1) []).job.table = [] ∧
    (ending (feedWork 1) []).pen.mode = .printing := by decide

theorem witness_LinesAndCuts_cut : (ending (cutWork 95) [.feed]).pen.work =
      some { owner := .abort 1 true, current := .none, segs := .cut false :: [], row := 95 } ∧
    (ending (cutWork 95) [.feed]).dsa.low = false ∧ 1200 ≤ (ending (cutWork 95) [.feed]).set.capacity ∧
    (ending (cutWork 95) [.feed]).wgt.actions = [.feed] ∧
    (ending (cutWork 95) [.feed]).set.printGuard ≠ 0 ∧ started.pen.cut = none := by decide

/-- The cutter driven at the end of an aborted job. -/
def cutting : State :=
  { oneJob (.aborted .host .marked) true [] with
    pen.mode := .cutting
    pen.work := some (cutWork 96)
    pen.cut := some 499
    dsa.loads := [(.cutter, 1200)]
    wgt.actions := [.cut] }

theorem witness_LinesAndCuts_done : cutting.unbound ∧ cutting.lpm.entry = none ∧ cutting.pen.cut = some 499 ∧
    cutting.pen.mode = .cutting ∧
    cutting.pen.work = some { owner := .abort 1 true, current := .none, segs := [.cut false], row := 96 } ∧
    cutting.job.table = [theJob (.aborted .host .marked) true []] ∧
    (theJob (.aborted .host .marked) true []).number = 1 ∧ cutting.dsa.loads = [(.cutter, 1200)] ∧
    cutting.dsa.queue = [] ∧ cutting.dsa.cap = cutting.set.capacity ∧ cutting.pen.line = none ∧
    cutting.wgt.actions = [.cut] ∧ cutting.set.printGuard ≠ 0 := by decide

/-- The engine paused for its job's lack of elements. -/
def starved : State :=
  { oneJob (.paused .underrun) false [] with
    pen.mode := .paused .underrun
    pen.work := some { owner := .job 1, current := .none, segs := [], row := 0 } }

theorem witness_LinesAndCuts_stall : starved.job.table = [theJob (.paused .underrun) false []] ∧
    (theJob (.paused .underrun) false []).mode = .paused .underrun ∧ starved.pen.mode = .paused .underrun ∧
    starved.pen.work = some { owner := .job (theJob (.paused .underrun) false []).number,
                              current := .none, segs := [], row := 0 } ∧
    starved.canPrint ∧ (∀ j ∈ started.job.table, j.mode ≠ .paused .underrun) ∧ starved.unbound := by decide

theorem witness_StrobesFollowLimit : (∀ n ∈ List.replicate 12 48, n ≤ 48) ∧ 1 ≤ 1 ∧ 5 ≤ 5 ∧ 0 < 1 ∧
    groupPhases 340 (List.replicate 12 48) = [] ++ 336 :: 240 :: [] := by decide

theorem witness_LinesAndCuts_owner : ∀ n, (cutWork 95).owner = .job n → started.job? n = none := by
  intro n h; cases h

/-! ### Witnesses that need states of several chapters -/

theorem witness_StandbyAsked_checks : (drawer .opened 0 .none false).txn.state = .idle ∧
    ((drawer .opened 0 .none false).port .d1).mode ≠ .closed ∧
    ({ State.reset with crd.two := some aCard } : State).crd.two ≠ none ∧
    ({ State.reset with pen.mode := .fault } : State).pen.mode = .fault ∧
    (holding .zero).txn.state = .idle ∧ ((holding .zero).chan .p).op ≠ none ∧
    (writing 0x12#8 .settings).sst.writes ≠ [] ∧ State.reset.sst.writes = [] ∧
    (∀ ch, (State.reset.chan ch).op = none) :=
  ⟨by decide, by decide, by decide, by decide, by decide, by decide, by decide, by decide,
    fun ch => by cases ch <;> rfl⟩

theorem witness_StandbyAsked_first :
    ({ State.reset with lpm.mode := .standby } : State).linkFree ∧
    ({ State.reset with lpm.mode := .dormant } : State).linkFree ∧
    ({ State.reset with lpm.entry := some anEntry } : State).linkFree ∧
    ({ State.reset with lpm.entry := some anEntry } : State).lpm.mode = .active ∧
    ({ State.reset with lpm.mode := .standby, lpm.entry := some anEntry } : State).linkFree := by decide

theorem witness_WakeAsked_forced :
    ({ sensing .closed true false with lpm.mode := .dormant } : State).unbound ∧
    ({ sensing .closed true false with lpm.mode := .dormant } : State).lpm.mode ≠ .active ∧
    ((sensing .closed true false).port .d1).present = true ∧
    ((sensing .closed true false).port .d1).mode = .closed ∧
    ((sensing .closed true false).port .d1).retry = false ∧
    ((sensing .closed true false).port .d1).level =
      (if (sensing .closed true false).set.openLow .d1 then false else true) := by decide

theorem witness_WakeAsked_dormant : ({ State.reset with lpm.mode := .dormant } : State).linkFree ∧
    ({ State.reset with lpm.mode := .dormant } : State).unbound ∧
    ({ State.reset with lpm.mode := .dormant } : State).lpm.entry = none ∧
    (Instr.bagSkip 1#8 5#8).wf = true ∧ wakesLane 0x30#8 = true ∧ (0x30#8 : Byte) ≠ 0x07#8 ∧
    ({ reader .armed with lpm.mode := .standby } : State).unbound ∧ Head.track .alpha ≠ none ∧
    (reader .armed).crd.state = .armed ∧
    ((sensing .closed true false).port .d1).deb ≠ none ∧
    ((sensing .closed true false).port .d1).held = some (!((sensing .closed true false).port .d1).level) ∧
    ({ sensing .closed true false with lpm.mode := .standby } : State).unbound := by decide

/-- A lane at rest whose readings run: both ports CLOSED, start-up ended, no attempt running. -/
def resting : State :=
  { drawer .closed 0 .none false with
    wgt.conv := .running
    wgt.chanP.zeroValid := true
    wgt.chanB.zeroValid := true
    wgt.chanP.init := .ended .established
    wgt.chanB.init := .ended .established
    drw.d2.deb := none
    crd.state := .armed
    sst.started := true }

theorem resting_attemptOver : ∀ ch, resting.attemptOver ch := by intro ch age h; cases ch <;> cases h

/-- An operation that ends with the next millisecond. -/
def lastMs (k : OpKind) : State :=
  { resting with
    lpm.mode := .standby
    wgt.chanP.op := some { anOp k with age := 2999 } }

theorem witness_MillisecondPasses : (linkAt .gap 0 1 0).pending = [] ∧ (linkAt .gap 0 1 0).link.inExec = none ∧
    (linkAt .gap 0 1 0).link.queue ≠ [] ∧ resting.pending = [] ∧ resting.link.queue = [] ∧ resting.unbound ∧
    resting.link.rx.mode.inBody = false ∧ resting.wgt.conv = .running ∧ resting.wgt.stream = none ∧
    resting.bag.entries = [] ∧ resting.crd.state ≠ .reading ∧ resting.crd.one = none ∧
    resting.crd.two = none ∧ resting.job.table = [] ∧ resting.pen.cut = none ∧
    ({ resting with lpm.idle := 299999 } : State).idleRuns = true ∧
    60000 * resting.set.idleStandby ≤ 299999 + 1 ∧
    ({ resting with wgt.guard := some 1 } : State).wgt.guard = some 1 ∧
    (lastMs .tare).idleRuns = false ∧ (lastMs .tare).wgt.chanB.op = none ∧
    3000 ≤ ({ anOp .tare with age := 2999 } : Op).age + 1 := by decide

theorem witness_MillisecondPasses_ports : ∀ p, (resting.port p).deb = none ∧ ((resting.port p).mode = .unknown ∨
    (resting.port p).mode = .fault ∨ (resting.port p).mode = .openOverdue ∨
    ((resting.port p).mode = .closed ∧ (resting.port p).retry = false)) := by
  intro p; cases p <;> decide

theorem test_ms_timeout : ∃ t, step (lastMs .tare) = .next t ∧ t.wgt.chanP.op = none ∧
    t.wgt.chanP.init = .ended .established := ⟨_, rfl, by decide +kernel⟩

/-- A lane whose channels have had a reading of so many counts, one milligram each, often enough: the next one
is STABLE. The windows take 4 and 6 readings. -/
def steadyAt (v : Int) : State :=
  { resting with
    set.filterDepthP := 4, set.filterDepthB := 4, set.stabilityWindowP := 6, set.stabilityWindowB := 6
    wgt.chanP.win := List.replicate 4 v, wgt.chanP.stab := List.replicate 6 v
    wgt.chanB.win := List.replicate 4 v, wgt.chanB.stab := List.replicate 6 v }

/-- The same, STABLE already and at a tracking count. -/
def stableAt (v : Int) (track : Nat) : State :=
  { steadyAt v with
    wgt.chanP.stable := true
    wgt.chanP.track := track }

theorem witness_ReadingTaken_stable : (steadyAt 1218000).unbound ∧ (steadyAt 1218000).steady .p (flat 1218000#24) ∧
    (steadyAt 1218000).steady .b (flat 1218000#24) ∧ ((steadyAt 1218000).chan .p).op = none ∧
    (steadyAt 1218000).nextRange .p (flat 1218000#24) = ((steadyAt 1218000).chan .p).range ∧
    ((steadyAt 1218000).chan .p).stable = false ∧ (steadyAt 1218000).sst.started = true ∧
    (steadyAt 1218000).lpm.mode ≠ .standby ∧ (steadyAt 1218000).bag.watch = .off ∧
    ({ steadyAt 1218000 with wgt.chanB.track := 58 } : State).wgt.chanB.track < 59 := by decide

theorem witness_ReadingTaken_track : (stableAt 1000 59).steady .p (flat 1000#24) ∧
    (stableAt 1000 59).set.zeroTrack .p = true ∧ (stableAt 1000 59).wgt.tare = 0 ∧
    (((stableAt 1000 59).nextG .p (flat 1000#24)).natAbs : Int) ≤ Channel.trackWindow .p ∧
    (((stableAt 1000 59).nextW .p (flat 1000#24) - 0).natAbs : Int) ≤ Channel.zeroBand .p ∧
    ({ stableAt 300001 59 with wgt.chanP.zw := 300000 } : State).steady .p (flat 300001#24) ∧
    Channel.zeroBand .p < (((stableAt 300001 59).nextW .p (flat 300001#24) - 0).natAbs : Int) ∧
    (stableAt 1000 58).wgt.chanP.track < 59 := by decide

/-- The 60th reading within 1 g moves the offset; its own G stands (R41). -/
theorem test_track_moves : (after (.reading .p (flat 1000#24)) (stableAt 1000 59)).wgt.chanP.zw = 1000 ∧
    (after (.reading .p (flat 1000#24)) (stableAt 1000 59)).wgt.chanP.g = 1000 := by decide

theorem witness_ReadingTaken_motion : (stableAt 0 0).readable (flat 40000#24) ∧
    (stableAt 0 0).nextRange .p (flat 40000#24) = (stableAt 0 0).wgt.chanP.range ∧
    1000 * (Channel.division .p ((stableAt 0 0).nextNet .p (flat 40000#24)) : Int) <
      spread ((stableAt 0 0).nextStab .p (flat 40000#24)) := by decide

/-- A steady lane with an operation on a channel. -/
def judging (ch : Channel) (k : OpKind) (v : Int) : State :=
  (steadyAt v).setChan ch { (steadyAt v).chan ch with op := some (anOp k) }

theorem witness_ZeroOperationsJudged : (judging .p .zero 300000).unbound ∧
    (judging .p .zero 300000).sst.started = true ∧ (judging .p .zero 300000).steady .p (flat 300000#24) ∧
    ((judging .p .zero 300000).nextW .p (flat 300000#24) - 0).natAbs ≤ Channel.zeroBand .p ∧
    Channel.zeroBand .b < ((judging .b .zero 600001).nextW .b (flat 600001#24) - 0).natAbs ∧
    (judging .b .calZero 600001).steady .b (flat 600001#24) ∧
    (judging .b .calZero 600001).wgt.chanB.calValid = true ∧
    (judging .p (.calSpan 1000) 400000).steady .p (flat 400000#24) ∧
    400000 ≤ (judging .p (.calSpan 1000) 400000).nextF .p (flat 400000#24) - 0 ∧
    spanFactor 1000 400000 = 163840 ∧ spanFactor 1000 4000000 = 16384 ∧ spanFactor 15000 400000 = 2457600 ∧
    (anOp .zero).writing = false ∧ State.reset.job.table = [] := by decide +kernel

theorem witness_ZeroOperationsJudged_initial :
    ({ steadyAt 1500000 with wgt.chanP.init := .running 4999, sst.started := false } : State).steady .p
      (flat 1500000#24) ∧
    ((steadyAt 1500000).nextW .p (flat 1500000#24)).natAbs ≤ Channel.initRange .p ∧
    Channel.initRange .p < ((steadyAt 1500001).nextW .p (flat 1500001#24)).natAbs ∧
    (steadyAt 1500000).job.table = [] ∧
    ((steadyAt 1500000).chan .b).init = .ended .established := by decide

theorem test_zero_moves :
    (after (.reading .p (flat 300000#24)) (judging .p .zero 300000)).wgt.chanP.zw = 300000 ∧
    (after (.reading .p (flat 300000#24)) (judging .p .zero 300000)).wgt.chanP.d = some 0 := by decide

theorem test_span : (after (.reading .p (flat 400000#24)) (judging .p (.calSpan 1000) 400000)).wgt.chanP.k =
    163840 := by decide

/-- A sale in OPEN whose capture the next reading judges. -/
def capturing (v : Int) : State :=
  { judging .p (.capture 229 4011 []) v with
    txn.state := .opened
    bag.watch := .watch }

theorem witness_CaptureRecorded_reading : (capturing 40000).steady .p (flat 40000#24) ∧
    (capturing 40000).nextD .p (flat 40000#24) = some 40 ∧ (capturing 40000).wgt.armed = true ∧
    (capturing 40000).txn.items.length < 64 ∧ (capturing 0).nextD .p (flat 0#24) = some 0 ∧
    ({ capturing 40000 with wgt.chanP.zeroValid := false } : State).nextD .p (flat 40000#24) = none ∧
    (capturing 6000000).nextD .p (flat 6000000#24) = some 6000 ∧
    (judging .p .tare 3000000).steady .p (flat 3000000#24) ∧
    Channel.p.toD ((judging .p .tare 3000000).nextG .p (flat 3000000#24)) = 3000 ∧
    Channel.p.toD ((judging .p .tare 0).nextG .p (flat 0#24)) = 0 := by decide

/-- The upper end of a capture, at two milligrams per count. -/
def heavy (stab : Int) : State :=
  { capturing 7500000 with wgt.chanP.k := 131072, wgt.chanP.stab := List.replicate 6 stab }

theorem witness_CaptureRecorded_heavy : (heavy 15000000).steady .p (flat 7500000#24) ∧
    (heavy 15000000).nextD .p (flat 7500000#24) = some 15000 ∧ (heavy 15000000).unbound ∧
    (heavy 15000000).wgt.chanP.op = some (anOp (.capture 229 4011 [])) := by decide

theorem test_capture_price :
    (after (.reading .p (flat 1218000#24)) (capturing 1218000)).txn.items.map Item.amount = [279] := by decide

theorem witness_SettleJudged_reading : (steadyAt 450000).unbound ∧ (steadyAt 450000).steady .b (flat 450000#24) ∧
    ((steadyAt 450000).chan .b).op = none ∧ ((steadyAt 450000).chan .b).stable = false ∧
    (steadyAt 450000).nextD .b (flat 450000#24) = some 450 ∧ (steadyAt 450000).sst.started = true := by decide

theorem witness_WakeAsked_weight :
    ({ steadyAt 40000 with lpm.mode := .standby, lpm.gEntry := some 0 } : State).steady .p (flat 40000#24) ∧
    40000 ≤ ((steadyAt 40000).nextG .p (flat 40000#24) - 0).natAbs ∧
    ((steadyAt 39999).nextG .p (flat 39999#24) - 0).natAbs < 40000 := by decide

/-- An entry that has waited a time, in a list behind one that is OVERDUE. -/
def aging (age : Nat) : State :=
  bagging 0 [{ anExpectation 1 100 false with overdue := true }, { anExpectation 2 100 false with age := age }]

theorem witness_SettingsActAtOnce_ages : (aging 3000).bag.entries =
      [{ anExpectation 1 100 false with overdue := true }] ++
        { anExpectation 2 100 false with age := 3000 } :: [] ∧
    State.reset.set.taken 15 3 = some 3 ∧ 1000 * 3 ≤ ({ anExpectation 2 100 false with age := 3000 } : Entry).age ∧
    (aging 3000).ready ∧ (aging 3000).unbound ∧ State.reset.set.taken 18 10 = some 10 ∧
    1000 * 10 ≤ ({ aCard with age := 10000 } : CardRec).age ∧ (1 : Nat) < 1000 * 10 := by decide

theorem witness_SettingsActAtOnce_jobs : (oneJob .filling false []).ready ∧ (oneJob .filling false []).unbound ∧
    State.reset.set.taken 26 1 = some 1 ∧ State.reset.set.taken 27 500 = some 500 ∧
    ({ withItems 1 129 with
      set.startPolicy := 1, job.table := [{ receiptJob with elements := [.rule] }] } : State).ready ∧
    starved.ready ∧ starved.canPrint ∧
    500 ≤ ({ theJob (.paused .underrun) false [] with stall := 500 } : Job).stall ∧
    State.reset.set.taken 30 80 = some 80 ∧
    ({ State.reset with dsa.queue := [.port .d1], dsa.loads := [(.cutter, 1200)] } : State).dsa.committed + 1500 ≤
      100 * 80 ∧
    ({ State.reset with dsa.queue := [.port .d1] } : State).dsa.cap ≤ 100 * 80 := by decide

/-- A capacity lowered and set back to the one in force lets a waiting port be granted (R178). -/
theorem test_capacity_returns : (after (.setPut 1#8 30#8 40#32)
    { drawer .grantWait 1 .noSale false with
      set.supplyCapacity := 20, dsa.loads := [(.cutter, 2500)], dsa.queue := [.port .d1] }).drw.d1.mode =
    .kicking := by decide

theorem witness_JobOpenedAndFilled_stream : (oneJob .filling false []).canPrint ∧
    (oneJob .filling false []).set.startPolicy = 0 ∧ (theJob .filling false []).ofSale = false ∧
    (oneJob .filling false []).pen.mode = .idle ∧ (oneJob .filling false []).pen.work = none ∧
    (oneJob .filling false []).sst.started = true ∧ (theJob .filling false []).heading = false ∧
    starved.job.table = [theJob (.paused .underrun) false []] ∧ starved.pen.mode = .paused .underrun ∧
    receiptJob.ofSale = true ∧ (withItems 1 129).txn.state ≠ .settled ∧
    ({ oneJob .filling false [] with pen.mode := .fault } : State).pen.mode ≠ .idle := by decide

theorem test_stream_starts :
    (after (.jobData 1#8 1#8 [3#8]) (oneJob .filling false [])).job.table.map Job.mode = [.printing] := by
  decide +kernel

/-- The work of a job of one element. -/
def jobWork (segs : List Seg) (row : Nat) : Work where
  owner := .job 1
  current := .element
  segs := segs
  row := row

/-- An engine that ends a line of its closed job. -/
def jobEnding (e : Element) (segs : List Seg) (row : Nat) (a : List Action) : State :=
  { ending (jobWork segs row) a with job.table := [theJob .printing true [e]] }

theorem witness_LinesAndCuts_job : (jobEnding (.cut true) [.cut true] 95 [.feed]).job? 1 =
      some (theJob .printing true [.cut true]) ∧
    (theJob .printing true [.cut true]).isAborted = false ∧
    (jobEnding (.cut true) [.cut true] 95 [.feed]).wgt.actions = [.feed] ∧
    1 + 1 < (Seg.feed 32).height ∧ (Seg.feed 32).longFeed = false ∧ 0 + 1 < Seg.rule.height ∧
    (jobEnding .rule [.rule] 0 []).job.table = [theJob .printing true [.rule]] ∧
    (jobEnding .rule [.rule] 0 []).dsa.loads =
      [(.line, 600 + aLine.limit * (jobEnding .rule [.rule] 0 []).set.dotCurrent)] ∧
    (jobEnding .rule [.rule] 0 []).set.printMotionDisturbs = 0 ∧
    (jobEnding .rule [.rule] 0 []).pen.paperHold = false ∧
    (jobEnding .rule [.rule] 0 []).pen.coverHold = false ∧
    600 + 48 * (jobEnding .rule [.rule] 0 []).set.dotCurrent ≤ (jobEnding .rule [.rule] 0 []).set.capacity ∧
    (theJob .printing true [.rule]).ofSale = false := by decide +kernel

theorem witness_LinesAndCuts_jobcut : ({ jobEnding (.cut true) [.cut true] 96 [.cut] with
      pen.mode := .cutting, pen.line := none, pen.cut := some 499, dsa.loads := [(.cutter, 1200)] } : State).pen.work =
      some { owner := .job 1, current := .element, segs := [.cut true], row := 96 } ∧
    (jobEnding (.cut true) [.cut true] 96 [.cut]).set.printGuard ≠ 0 ∧
    (jobEnding (.cut true) [.cut true] 96 [.cut]).unbound ∧
    (jobEnding (.cut true) [.cut true] 96 [.cut]).lpm.entry = none := by decide +kernel

/-- The last dot line of the last text counts it and ends the job (R152, R161). -/
theorem test_last_line :
    (after (.lineBoundary 24000#16)
      (jobEnding (.text false false false .left [0x41#8]) [.text [0x41#8] .left false false false true] 23 [])
      ).job.table = [] := by decide +kernel

/-- The kind of a CUT reaches the cutter's work (R154). -/
theorem test_cut_kind : (State.reset.render .none (.cut true)).segs = [.cut true] := by decide

/-- A job closed in a COVER pause with nothing left stays until the pause ends (R152, R167). -/
theorem test_closed_in_pause : (after (.printSensorChange .cover false)
    { oneJob (.paused .cover) true [] with
      pen.mode := .paused .cover, pen.coverHold := true, pen.coverOpen := true
      pen.work := some { owner := .job 1, current := .none, segs := [], row := 0 } }).job.table.map Job.mode =
    [.paused .cover] := by decide +kernel

/-- DISTURBED as shown by a channel whose converter is off stays as it stood (R62). -/
theorem test_held_flags : ({ resting with
    wgt.conv := .off, wgt.guard := some 80
    wgt.chanP.held := { disturbed := false, filling := true, centre := true, tareHeld := false } } : State).shown .p =
    { disturbed := false, filling := true, centre := true, tareHeld := false } := by decide

/-! ### Witnesses: the invariants that every step keeps -/

theorem witness_StepKeepsItemList : (withItems 64 1).saleBounded ∧ (∃ t, step (withItems 64 1) = .next t) :=
  ⟨by decide +kernel, _, rfl⟩

/-- A sale with all 8 expectations. -/
def expectant : State :=
  { withItems 8 1 with
    txn.items := (List.range 8).map fun i => anItem (i + 1) [] 1 1 false .pending
    bag.entries := (List.range 8).map fun i => anExpectation (i + 1) 100 false }

theorem witness_StepKeepsExpectations : expectant.expecting ∧ 8 ≤ expectant.bag.entries.length ∧
    (∃ t, step expectant = .next t) := by
  refine ⟨⟨by decide, by decide, by decide, ?_, by decide, by decide⟩, by decide, _, rfl⟩
  intro o h; cases h

/-- A sale in TENDER paid in part by the card of slot 1. -/
def cardPaid : State :=
  { tendering with
    txn.tenders := [{ kind := .card, amount := 1, card := some .one }]
    crd.one := some { aCard with bound := true } }

theorem witness_StepKeepsCardsBound : cardPaid.cardsBound ∧ (∃ r, cardPaid.card .one = some r ∧ r.bound = true) ∧
    (∃ t, step cardPaid = .next t) := by
  refine ⟨?_, ⟨_, rfl, rfl⟩, _, rfl⟩
  intro c r h hb
  cases c with
  | one => exact ⟨.inl rfl, _, List.mem_singleton.2 rfl, rfl⟩
  | two => cases h

theorem witness_StepKeepsDrawersSafe :
    ({ energised 0 with drw.d2.present := true } : State).drawersSafe ∧ ((energised 0).port .d1).on = true ∧
    (∃ t, step ({ energised 0 with drw.d2.present := true } : State) = .next t) := by
  refine ⟨⟨by decide, ?_, by decide, by decide⟩, by decide, _, rfl⟩
  intro p; cases p <;> decide

/-! ### Witnesses: what start-up loads, bound actions, pending entries, openings, closes and records -/

/-- A store with a bad settings block, a bad calibration of channel B and a bad count. -/
def damaged : State :=
  { State.reset with
    sst.blockCrc := 0x00C3#16
    sst.calB.crc := State.reset.sst.calB.crc ^^^ 1#16
    sst.countCrc := State.reset.sst.countCrc ^^^ 1#16 }

theorem test_default_crc_1 : (Settings.defaults.bytes.take 32).foldl crcByte 0xFFFF#16 = 0x81C8#16 := by
  decide +kernel

theorem test_default_crc_2 :
    ((Settings.defaults.bytes.drop 32).take 32).foldl crcByte 0x81C8#16 = 0x9CB6#16 := by decide +kernel

theorem test_default_crc_3 :
    ((Settings.defaults.bytes.drop 64).take 32).foldl crcByte 0x9CB6#16 = 0x8C3B#16 := by decide +kernel

theorem test_default_crc_4 : (Settings.defaults.bytes.drop 96).foldl crcByte 0x8C3B#16 = 0x00C2#16 := by
  decide +kernel

/-- The CRC of the block of defaults (R194). -/
theorem test_default_crc : crc16 Settings.defaults.bytes = 0x00C2#16 := by
  have h : Settings.defaults.bytes = Settings.defaults.bytes.take 32 ++
      (Settings.defaults.bytes.drop 32).take 32 ++ (Settings.defaults.bytes.drop 64).take 32 ++
      Settings.defaults.bytes.drop 96 := rfl
  rw [crc16, h, List.foldl_append, List.foldl_append, List.foldl_append, test_default_crc_1,
    test_default_crc_2, test_default_crc_3, test_default_crc_4]

theorem witness_HardResetState : State.reset.sst.writes = [] ∧ State.reset.sst.blockGood = true ∧
    State.reset.sst.calP.good = true ∧ damaged.sst.writes = [] ∧ damaged.sst.blockGood = false ∧
    damaged.sst.calB.good = false ∧ damaged.sst.countGood = false ∧
    (writing 0x12#8 .settings).sst.writes = .settings :: [] ∧
    (writing 0x40#8 (.marker true)).sst.writes = .marker true :: [] ∧ (1 : Nat) ≠ 5 ∧ (1 : Nat) ≠ 6 := by
  have h (s : State) (e : s.sst.block = Settings.defaults) : s.sst.blockGood = decide (s.sst.blockCrc = 0x00C2#16) := by
    rw [Store.blockGood, e, test_default_crc]
  refine ⟨rfl, by rw [h _ rfl]; decide, by decide +kernel, rfl, by rw [h _ rfl]; decide, by decide +kernel,
    by decide +kernel, rfl, rfl, by decide, by decide⟩

theorem test_marker_interrupts : (after .hardReset { State.reset with sst.marker := true }).sst.interrupted = true ∧
    (after .hardReset damaged).sst.count = 65535 := by decide +kernel

/-- A binding of PAPER_LOW in slot 1. -/
def bound (a : BindAction) (s : State) : State :=
  { s with rpt.bind1 := some { once := true, trigger := 0x9F, action := a } }

theorem witness_BindingSetAndFired_kick : (bound (.kick .d1) (permitted .closed)).lpm.mode = .active ∧
    (bound (.kick .d1) (permitted .closed)).lpm.entry = none ∧
    (bound (.kick .d1) (permitted .closed)).rpt.bind1 =
      some { once := true, trigger := Notice.code .paperLow, action := .kick .d1 } ∧
    (bound (.kick .d1) (permitted .closed)).rpt.bind2 = none ∧ (permitted .closed).set.present .d1 = true ∧
    (permitted .closed).permitOf .d1 ≠ .none ∧ ((permitted .closed).port .d1).mode = .closed ∧
    ((permitted .closed).port .d1).retry = false ∧ (permitted .closed).pen.line = none ∧
    (permitted .closed).dsa.low = false ∧
    (permitted .closed).dsa.committed + 1500 ≤ (permitted .closed).set.capacity ∧
    State.reset.set.present .d2 = false ∧ (drawer .closed 0 .none false).permitOf .d1 = .none ∧
    (permitted .fault).permitOf .d1 ≠ .none ∧ ((permitted .fault).port .d1).mode = .fault := by decide

theorem witness_BindingSetAndFired_capture : (withItems 1 129).lpm.mode = .active ∧
    (bound (.capture 999999) (withItems 1 129)).rpt.bind1 =
      some { once := true, trigger := Notice.code .paperLow, action := .capture 999999 } ∧
    (withItems 1 129).txn.state = .opened ∧ (withItems 1 129).bag.watch ≠ .hold ∧
    (withItems 1 129).wgt.chanP.calValid = true ∧ (withItems 1 129).wgt.chanP.op = none ∧
    State.reset.txn.state ≠ .opened ∧
    ({ withItems 1 129 with bag.watch := .hold } : State).bag.watch = .hold ∧ (999999 : Nat) ≤ 999999 ∧
    ({ withItems 1 129 with wgt.chanP.calValid := false } : State).wgt.chanP.calValid = false ∧
    ({ withItems 1 129 with wgt.chanP.op := some (anOp .zero) } : State).wgt.chanP.op ≠ none := by decide

theorem witness_BindingSetAndFired_feed : (engine .idle).pen.mode = .idle ∧ (engine .idle).canPrint ∧
    (bound (.startFeed 255) (engine .idle)).rpt.bind1 =
      some { once := true, trigger := Notice.code .paperLow, action := .startFeed 255 } ∧
    (engine .idle).sst.started = true ∧ Action.feed ∉ (engine .idle).wgt.actions ∧
    (engine .fault).pen.mode = .fault ∧ (engine .printing).pen.mode = .printing ∧
    ({ engine .idle with pen.paperOut := true } : State).pen.paperOut = true := by decide

/-- A lane whose entry waits for the last line of a feed. -/
def entering (m : PowerMode) (s : State) : State := { s with lpm.entry := some { anEntry with target := m } }

theorem witness_StandbyAsked_pending : (entering .standby (ending (feedWork 1) [])).unbound ∧
    (ending (feedWork 1) []).pen.line = some aLine ∧ (ending (feedWork 1) []).pen.mode = .printing ∧
    workDone ({ entering .standby (ending (feedWork 1) []) with
      pen.mode := .idle, drw.d1.mode := .kicking } : State) = false ∧
    workDone ({ entering .standby (ending (feedWork 1) []) with pen.mode := .idle } : State) = true ∧
    entryBlock .standby ({ entering .standby (ending (feedWork 1) []) with
      pen.mode := .idle, txn.state := .opened } : State) = some .refusedState ∧
    entryBlock .standby ({ entering .standby (ending (feedWork 1) []) with pen.mode := .idle } : State) = none ∧
    entryBlock .dormant ({ entering .dormant (ending (feedWork 1) []) with
      pen.mode := .idle, drw.d1.mode := .closed } : State) = none ∧
    (ending (feedWork 1) []).sst.started = true := by decide

/-- A lane at rest but for the last line of a feed, its entry into DORMANT waiting. -/
def dozing : State :=
  { resting with
    lpm.entry := some { anEntry with target := .dormant }
    pen.mode := .printing
    pen.work := some (feedWork 1)
    pen.line := some aLine
    dsa.loads := [(.line, 600 + 340 * 10)] }

theorem witness_StandbyAsked_dormant : dozing.unbound ∧ dozing.wgt.chanP.stable = false ∧
    dozing.sst.started = true ∧ dozing.job.table = [] ∧ dozing.wgt.actions = [] ∧
    workDone { dozing with pen.mode := .idle } = true ∧
    entryBlock .dormant { dozing with pen.mode := .idle } = none ∧ (∀ ch, dozing.attemptOver ch) :=
  ⟨by decide, by decide, by decide, by decide, by decide, by decide, by decide,
    fun ch age h => by cases ch <;> cases h⟩

/-- An attempt whose drawer opens, its debounced sense still shut. -/
def opening (m : PortMode) (k : PermitKind) : State :=
  { sensing m true false with
    drw.d1.kick := k
    drw.d1.attempt := 1
    drw.noSale := some .d1 }

theorem witness_StandbyAsked_opening : (entering .standby (opening .waitOpen .noSale)).unbound ∧
    ((opening .waitOpen .noSale).port .d1).mode = .waitOpen ∧
    ((opening .waitOpen .noSale).port .d1).kick = .noSale ∧
    ((opening .waitOpen .noSale).port .d1).leaving = false ∧
    workDone ({ entering .standby (opening .opened .none) with drw.noSale := none } : State) = true ∧
    entryBlock .standby ({ entering .standby (opening .opened .none) with drw.noSale := none } : State) = none := by
  decide

theorem test_entry_taken :
    (after (.lineBoundary 24000#16) (entering .standby (ending (feedWork 1) []))).lpm.mode = .standby ∧
    (after (.senseDebouncedChange .d1) (entering .dormant (opening .waitOpen .noSale))).lpm.entry = none := by
  decide +kernel

theorem witness_StandbyAsked_accepted : (Instr.cardArm 1#8 1#8).wf = true ∧
    encodeRequest (.cardArm 1#8 1#8) = some (1#8, 0x50#8, [1#8]) ∧ cancelsEntry 0x50#8 = true ∧
    (entering .standby State.reset).linkFree ∧ (entering .standby State.reset).lpm.mode = .active ∧
    (requestAction (.cardArm 1#8 1#8) raiseLoud { entering .standby State.reset with
      link.inExec := some { tag := 1#8, code := 0x50#8, payload := [1#8] }
      lpm.entry := none, lpm.idle := 0 }).2.accepted = true ∧ 1 < (2#8 : Byte).toNat := by decide

/-- A bad verdict judged in HOLD. -/
theorem witness_SettleJudged_hold : ({ bagging 20 [] with bag.watch := .hold } : State).bag.watch = .hold ∧
    ({ bagging 20 [] with bag.watch := .hold } : State).bag.watch ≠ .off ∧
    ({ bagging 20 [] with bag.watch := .hold } : State).set.bagThreshold ≤ ((20 : Int) - 0).natAbs ∧
    ({ bagging 20 [] with bag.watch := .hold } : State).bag.entries = [] := by decide

theorem witness_WeighAndVoidItem_refused : (0#32 : BitVec 32) = 0#32 ∧ 999999 < (1000000#32 : BitVec 32).toNat ∧
    ({ withItems 1 129 with wgt.chanP.calValid := false } : State).wgt.chanP.calValid = false ∧
    ({ withItems 1 129 with wgt.chanP.op := some (anOp .zero) } : State).wgt.chanP.op ≠ none ∧
    ({ withItems 1 129 with wgt.chanP.op := some (anOp .zero) } : State).ready := by decide

/-- A framed track that is OK. -/
def framed (codes : List Nat) : Framed where
  result := .ok
  codes := codes
  reverse := false

theorem witness_SwipeFollowed_ended :
    ({ reader .reading with crd.numeric.ended := true } : State).crd.state = .reading ∧
    (({ reader .reading with crd.numeric.ended := true } : State).crd.track .numeric).ended = true ∧
    (({ reader .reading with crd.numeric.ended := true } : State).crd.track .alpha).ended = false ∧
    accountOf (0x0B :: [4, 1, 0x0D, 2] ++ [0x0F]) = none := by decide

/-- The ends of the ranges of a record's fields: an account of 12 digits, months 1, 12, 0 and 13, names of 2 and
27 characters. -/
theorem witness_SwipeFollowed_record : 10 ≤ [4, 1, 1, 1, 1, 1, 2, 2, 3, 3, 4, 4].length ∧
    [2, 7, 0, 1, 1, 0, 1] = [2, 7, 0, 1, 1, 0, 1] ++ ([] : List Nat) ∧
    (∀ c ∈ ([2, 7, 1, 2, 1, 0, 1] : List Nat).take 7, c ≤ 9) ∧ 1 ≤ 10 * 0 + 1 ∧ 10 * 1 + 2 ≤ 12 ∧
    ([2, 7, 0, 1, 1, 0] : List Nat).length < 7 ∧
    (∃ c ∈ ([2, 7, 0, 1, 1, 0, 10] : List Nat).take 7, 9 < c) ∧ 12 < 10 * 1 + 3 ∧ 10 * 0 + 0 = 0 ∧
    (framed []).result = .ok ∧ 0x3E ∉ (innerCodes (framed [5, 0x22, 0x1F]).codes).drop 1 ∧
    innerCodes (framed [5, 0x22, 0x14, 0x3E, 0x21, 0x21, 0x3E, 0x1F]).codes =
      0x22 :: [0x14] ++ 0x3E :: [0x21, 0x21, 0x3E] ∧
    0x3E ∉ [0x14] ∧ [0x21, 0x21, 0x3E] = [0x21, 0x21] ++ 0x3E :: [] ∧ 0x3E ∉ [0x21, 0x21] ∧
    0x3E ∉ List.replicate 27 0x21 := by decide

/-- A track after its preamble. -/
def inCells (half : Option Nat) (bits : Nat) : TrackCap :=
  { TrackCap.empty with
    transitions := 200
    pexp := some 200
    half := half
    bits := List.replicate bits false }

theorem witness_TrackResultDecided_decoder : TrackCap.empty.stop = none ∧ TrackCap.empty.pexp = none ∧
    ([100, 100, 100, 100, 100, 100, 100, 100] : List Nat).sum / 8 = 100 ∧
    (inCells none 8).stop = none ∧ (inCells none 8).pexp = some 200 ∧ 4 * 149 < 3 * 200 ∧ 3 * 200 ≤ 4 * 150 ∧
    (inCells none 8).half = none ∧ (inCells (some 100) 8).half = some 100 ∧
    (inCells none 1023).bits.length < 1024 ∧ 1024 ≤ (inCells none 1024).bits.length := by decide +kernel

theorem test_cell_edges : ((inCells none 8).interval 149).half = some 149 ∧
    ((inCells none 8).interval 150).bits = List.replicate 9 false ∧
    ((inCells (some 100) 8).interval 149).bits = List.replicate 8 false ++ [true] ∧
    ((inCells none 1024).interval 200).stop = some .overlong := by decide +kernel

/-- The longest numeric tracks that are read, and one more character. -/
theorem witness_TrackResultDecided_framing : endCode .numeric ∉ List.replicate 39 1 ∧
    (∀ c ∈ List.replicate 39 1, c < 2 ^ 4) ∧ (List.replicate 37 1).length + 3 ≤ maxChars .numeric ∧
    (List.replicate 38 1).length + 2 ≤ maxChars .numeric ∧ ([false] : List Bool).length ≤ 4 ∧
    (List.replicate 39 1).length + 1 = maxChars .numeric ∧ (List.replicate 38 1).length + 2 = maxChars .numeric ∧
    ([false, false, false, false, false] : List Bool).length = 4 + 1 ∧
    (([false, false, false, false, false] : List Bool).filter id).length % 2 = 0 ∧
    4 < ([false, false, false, false, true] : List Bool).length ∧
    ((([false, false, false, false, true] : List Bool).take 5).filter id).length % 2 = 1 ∧
    findBits (charBits 4 (startCode .numeric)) (trackBits [1]).reverse = none := by decide +kernel

theorem witness_TrackResultDecided_nostart : ∀ pre post : List Bool, [] ≠ pre ++ [true, true, false, true, false] ++ post := by
  intro pre post h
  simp at h

/-- The framing of the longest numeric track, and of one character more (R117). -/
theorem test_longest_track : (frameBits .numeric (trackBits (List.replicate 37 1))).result = .ok ∧
    (frameBits .numeric (trackBits (List.replicate 38 1))).result = .overlong := by decide +kernel

theorem witness_AttemptEvents_opens : (opening .kicking .noSale).unbound ∧ (opening .kicking .noSale).lpm.entry = none ∧
    (opening .kicking .noSale).pen.line = none ∧
    (opening .kicking .noSale).dsa.cap = (opening .kicking .noSale).set.capacity ∧
    ((opening .kicking .noSale).port .d1).leaving = false ∧ ((opening .kicking .noSale).port .d1).present = true ∧
    ((opening .kicking .noSale).port .d1).deb ≠ none ∧
    ((opening .kicking .noSale).port .d1).held = some (!((opening .kicking .noSale).port .d1).level) ∧
    ((opening .kicking .noSale).port .d1).level =
      (if (opening .kicking .noSale).set.openLow .d1 then false else true) ∧
    ((opening .kicking .noSale).port .d1).mode = .kicking ∧
    ((opening .grantWait .entitlement).port .d1).mode = .grantWait ∧
    ({ opening .grantWait .entitlement with dsa.queue := [.port .d1] } : State).dsa.queue = [.port .d1] ∧
    ((opening .waitOpen .none).port .d1).kick = .none ∧
    (({ opening .closed .noSale with drw.d1.retry := true } : State).port .d1).retry = true ∧
    ((opening .waitOpen .entitlement).port .d1).kick = .entitlement ∧
    (opening .waitOpen .entitlement).txn.state ≠ .settled := by decide

/-- A SETTLED sale whose receipt is done and whose entitlement is being kicked. -/
def lastOpening : State :=
  { opening .waitOpen .entitlement with
    drw.noSale := none
    txn.state := .settled
    txn.receiptDone := true
    txn.entitlement := some .d1 }

theorem witness_AttemptEvents_closes : lastOpening.txn.state = .settled ∧ lastOpening.txn.receiptDone = true ∧
    (∀ c r, lastOpening.card c = some r → r.bound = false) :=
  ⟨rfl, rfl, fun c r h => by cases c <;> cases h⟩

theorem test_opening_closes : (after (.senseDebouncedChange .d1) lastOpening).txn.state = .idle ∧
    (after (.senseDebouncedChange .d1) lastOpening).drw.d1.mode = .opened := by decide +kernel

theorem witness_AttemptEvents_remembered :
    (({ energised 0 with drw.d1.remembered := true } : State).port .d1).remembered = true ∧
    ({ energised 0 with drw.d1.held := some true } : State).sense .d1 = some true ∧
    (energised 0).sense .d1 = some false ∧ (energised 0).lpm.entry = none ∧
    ((energised 0).port .d1).kick = .noSale ∧ ((energised 0).port .d1).leaving = false := by decide

theorem test_remembered_open :
    (after (.pulseOnTimeEnd .d1) { energised 0 with drw.d1.remembered := true }).drw.d1.mode = .closed := by
  decide +kernel

theorem witness_LinesAndCuts_longfeed : 32 < 33 ∧ (ending (feedWork 33) [.feed]).wgt.actions = [.feed] ∧
    (ending (feedWork 33) [.feed]).set.printGuard ≠ 0 ∧
    (ending (feedWork 33) [.feed]).pen.work =
      some { owner := .feed, current := .none, segs := [.feed 33], row := 33 - 1 } := by decide

/-- The receipt of a sale at the last dot line of its one text. -/
def receiptEnding (x : TxnState) : State :=
  { ending (jobWork [.text [0x41#8] .left false false false true] 23) [] with
    txn.state := x
    job.table := [{ receiptJob with
      mode := .printing, closed := true, elements := [.text false false false .left [0x41#8]] }] }

theorem witness_LinesAndCuts_receipt : (receiptEnding .settled).unbound ∧ (receiptEnding .settled).lpm.entry = none ∧
    (receiptEnding .settled).pen.line = some aLine ∧ (receiptEnding .settled).pen.mode = .printing ∧
    (receiptEnding .settled).txn.state = .settled ∧ (receiptEnding .settled).txn.entitlement = none ∧
    (receiptEnding .opened).txn.state ≠ .settled ∧ receiptJob.ofSale = true ∧
    (∀ c r, (receiptEnding .settled).card c = some r → r.bound = false) :=
  ⟨by decide, by decide, by decide, by decide, by decide, by decide, by decide, by decide,
    fun c r h => by cases c <;> cases h⟩

theorem test_receipt_closes :
    (after (.lineBoundary 24000#16) (receiptEnding .settled)).txn.state = .idle ∧
    (after (.lineBoundary 24000#16) (receiptEnding .opened)).txn.receiptDone = true := by decide +kernel

theorem witness_LinesAndCuts_element : State.reset.render .none .rule = { segs := [.rule], truncated := 0, unavailable := 0 } ∧
    State.reset.render .none (.field 1 0) =
      { segs := [.text [] .left false false false false], truncated := 0, unavailable := 1 } ∧
    Seg.rule.height ≠ 0 ∧ Seg.rule.longFeed = false ∧ (receiptEnding .settled).pen.paperOut = false ∧
    (receiptEnding .settled).pen.hot = false ∧ (receiptEnding .settled).dsa.low = false ∧
    600 + 48 * (receiptEnding .settled).set.dotCurrent ≤ (receiptEnding .settled).set.capacity ∧
    (receiptEnding .settled).set.printMotionDisturbs = 0 := by decide

/-- A sale with a weighed item and a card tender whose record shows an expiry. -/
def printable : State :=
  { cardPaid with txn.items := [{ anItem 4 (ascii "BANANAS") 1 229 false .bagged with record := some bananas }] }

theorem witness_LinesAndCuts_fields : (ascii "TOTAL").length + (ascii "1.29").length ≤ 48 ∧
    (rep 24).length + (rep 24).length ≤ 48 ∧ 0 < 1 ∧ findItem 4 printable.txn.items =
      some { anItem 4 (ascii "BANANAS") 1 229 false .bagged with record := some bananas } ∧
    findItem 5 printable.txn.items = none ∧ 1 ≤ 1 ∧ printable.txn.tenders[1 - 1]? =
      some { kind := .card, amount := 1, card := some .one } ∧
    printable.card .one = some { aCard with bound := true } ∧ aCard.expiry = some (100 * 27 + 9) ∧
    tendering.txn.tenders[0]? = none ∧ aTender.card = none ∧ afterSale.txn.snap ≠ none := by decide

end Sys2Proof.Tests
end

