-- ==== Sys2Proof/Proofs/Tare.lean ====
section
/-! PROOFS. SCALE_TARE_PRESET and SCALE_TARE_CLEAR: what their actions answer, check by check, and the statement
about both requests (R50, R51). -/

namespace Sys2Proof.Machine

/-! ### A request on a ready lane -/

/-- A request on a ready lane whose action replies, and leaves the link as it found it, answers that reply. -/
theorem exec_answers_of_ready {i : Instr} {tag code : Byte} {payload data : List Byte} {s t : State} {st : Status}
    (hw : i.wf = true) (he : encodeRequest i = some (tag, code, payload)) (h : s.ready) (ht : t.link = s.link)
    (ha : ∀ q, requestAction i raiseLoud { s with link.inExec := some q, lpm.idle := 0 } =
      ({ t with link.inExec := some q, lpm.idle := 0 }, .reply st data none)) :
    exec i s = .next (t.answered tag code st data) := by
  have ⟨⟨_, hexec, _, _, hsoft⟩, _⟩ := h
  rw [exec_request_eq he]
  exact accept_answers hw he h (ha _) (ht ▸ hsoft) (ht ▸ hexec)

/-- A request on a ready lane whose action refuses is refused, and nothing else happens (R11). -/
theorem refuses_of_ready {i : Instr} {tag code : Byte} {payload : List Byte} {s : State} {st : Status}
    (hw : i.wf = true) (he : encodeRequest i = some (tag, code, payload)) (h : s.ready)
    (ha : ∀ q, requestAction i raiseLoud { s with link.inExec := some q, lpm.idle := 0 } =
      refuse st { s with link.inExec := some q, lpm.idle := 0 }) : Refuses i tag code st s :=
  exec_answers_of_ready hw he h rfl ha

/-! ### The tare a preset takes -/

theorem presetGrams_of_even {g : Nat} (h : g % 2 = 0) : presetGrams g = g := by
  unfold presetGrams; omega

theorem presetGrams_of_odd {g : Nat} (h : g % 2 = 1) : presetGrams g = g + 1 := by
  unfold presetGrams; omega

/-! ### The checks of SCALE_TARE_PRESET, in order (R50) -/

section
variable (r : Raise) {grams : BitVec 16} {s : State}

theorem actTarePreset_outOfRange (h : grams.toNat < 2 ∨ 3000 < grams.toNat) :
    actTarePreset grams r s = refuse .refusedRange s := if_pos h

/-- What is left to check once the value is within 2 g to 3,000 g. -/
theorem actTarePreset_inRange (hlo : 2 ≤ grams.toNat) (hhi : grams.toNat ≤ 3000) :
    actTarePreset grams r s =
      if s.wgt.chanP.op.isSome then refuse .refusedBusy s
      else if !s.wgt.chanP.calValid || !s.wgt.chanP.zeroValid then refuse .refusedState s
      else answer (if presetGrams grams.toNat = grams.toNat then .ok else .okClamped)
        (be16 (presetGrams grams.toNat))
        { s with wgt.tare := 1000 * presetGrams grams.toNat, wgt.tareKind := .preset } :=
  if_neg (by omega)

theorem actTarePreset_busy (hlo : 2 ≤ grams.toNat) (hhi : grams.toNat ≤ 3000)
    (hop : s.wgt.chanP.op.isSome = true) : actTarePreset grams r s = refuse .refusedBusy s := by
  rw [actTarePreset_inRange r hlo hhi, if_pos hop]

theorem actTarePreset_invalid (hlo : 2 ≤ grams.toNat) (hhi : grams.toNat ≤ 3000) (hop : s.wgt.chanP.op = none)
    (hv : s.wgt.chanP.calValid = false ∨ s.wgt.chanP.zeroValid = false) :
    actTarePreset grams r s = refuse .refusedState s := by
  simp [actTarePreset_inRange r hlo hhi, hop, hv]

theorem actTarePreset_taken (hlo : 2 ≤ grams.toNat) (hhi : grams.toNat ≤ 3000) (hop : s.wgt.chanP.op = none)
    (hcal : s.wgt.chanP.calValid = true) (hzero : s.wgt.chanP.zeroValid = true) :
    actTarePreset grams r s =
      answer (if presetGrams grams.toNat = grams.toNat then .ok else .okClamped) (be16 (presetGrams grams.toNat))
        { s with wgt.tare := 1000 * presetGrams grams.toNat, wgt.tareKind := .preset } := by
  simp [actTarePreset_inRange r hlo hhi, hop, hcal, hzero]

end

/-- A preset that passes every check sets the tare and answers the value taken (R50). -/
theorem exec_scaleTarePreset_taken {tag : Byte} {grams : BitVec 16} {s : State} (h : s.ready)
    (hlo : 2 ≤ grams.toNat) (hhi : grams.toNat ≤ 3000) (hop : s.wgt.chanP.op = none)
    (hcal : s.wgt.chanP.calValid = true) (hzero : s.wgt.chanP.zeroValid = true) :
    exec (.scaleTarePreset tag grams) s = .next
      ({ s with wgt.tare := 1000 * presetGrams grams.toNat, wgt.tareKind := .preset }.answered tag 0x23#8
        (if presetGrams grams.toNat = grams.toNat then .ok else .okClamped) (be16 (presetGrams grams.toNat))) :=
  exec_answers_of_ready rfl rfl h rfl fun _ => actTarePreset_taken raiseLoud hlo hhi hop hcal hzero

/-! ### SCALE_TARE_CLEAR (R51) -/

theorem actTareClear_busy (r : Raise) {s : State} (hop : s.wgt.chanP.op.isSome = true) :
    actTareClear r s = refuse .refusedBusy s := if_pos hop

theorem actTareClear_cleared (r : Raise) {s : State} (hop : s.wgt.chanP.op = none) :
    actTareClear r s = answer .ok (be16 (s.wgt.tare / 1000) ++ [s.wgt.tareKind.code]) (clearTare s) := by
  simp [actTareClear, hop]

/-- Where no tare is held, clearing it changes nothing. -/
theorem clearTare_of_none {s : State} (ht : s.wgt.tare = 0) (hk : s.wgt.tareKind = .none) : clearTare s = s := by
  rw [clearTare, ← ht, ← hk]

/-- A clear that finds the slot free clears the tare and answers what was cleared (R51). -/
theorem exec_scaleTareClear_cleared {tag : Byte} {s : State} (h : s.ready) (hop : s.wgt.chanP.op = none) :
    exec (.scaleTareClear tag) s = .next
      ((clearTare s).answered tag 0x24#8 .ok (be16 (s.wgt.tare / 1000) ++ [s.wgt.tareKind.code])) :=
  exec_answers_of_ready rfl rfl h rfl fun _ => actTareClear_cleared raiseLoud hop

/-! ### The statement -/

/-- Settles O28: each check of the two actions in the order they stand, on a ready lane; the two parities of a
preset are the two values of `presetGrams`. -/
theorem tareSetAndCleared : Obligations.TareSetAndCleared := by
  refine ⟨fun tag grams s hs => ⟨fun hrange => ?outOfRange, fun hlo hhi hop => ?busy,
    fun hlo hhi hop hv => ?invalid, fun hlo hhi hop hcal hzero => ⟨fun heven => ?even, fun hodd => ?odd⟩⟩,
    fun tag s hs => ⟨fun hop => ?clearBusy, fun hop => ?cleared, fun hop ht hk => ?noTare⟩⟩
  case outOfRange => exact refuses_of_ready rfl rfl hs fun _ => actTarePreset_outOfRange raiseLoud hrange
  case busy => exact refuses_of_ready rfl rfl hs fun _ => actTarePreset_busy raiseLoud hlo hhi hop
  case invalid => exact refuses_of_ready rfl rfl hs fun _ => actTarePreset_invalid raiseLoud hlo hhi hop hv
  case even =>
    have htaken := exec_scaleTarePreset_taken (tag := tag) hs hlo hhi hop hcal hzero
    rwa [presetGrams_of_even heven, if_pos rfl] at htaken
  case odd =>
    have htaken := exec_scaleTarePreset_taken (tag := tag) hs hlo hhi hop hcal hzero
    rwa [presetGrams_of_odd hodd, if_neg (Nat.succ_ne_self _)] at htaken
  case clearBusy => exact refuses_of_ready rfl rfl hs fun _ => actTareClear_busy raiseLoud hop
  case cleared => exact exec_scaleTareClear_cleared hs hop
  case noTare =>
    have hcleared := exec_scaleTareClear_cleared (tag := tag) hs hop
    rw [clearTare_of_none ht hk, ht, hk] at hcleared
    exact hcleared

end Sys2Proof.Machine
end

