-- ==== Sys2Proof/Proofs/Expectation.lean ====
section
/-! PROOFS. A new entry of the expectation list: its tolerance, given or the default, and its append to a list
with room (R72). -/

namespace Sys2Proof.Machine

/-! ### The default tolerance -/

/-- Below 620 g, 5 % of the weight rounds down to at most 30 g. -/
theorem defaultTolerance_light {w : Nat} (h : w < 620) : defaultTolerance w = 30 := by
  unfold defaultTolerance; omega

/-- From 600 g, 5 % of the weight is at least 30 g. -/
theorem defaultTolerance_heavy {w : Nat} (h : 600 ≤ w) : defaultTolerance w = w * 5 / 100 := by
  unfold defaultTolerance; omega

/-! ### A new entry -/

/-- A tolerance given as 0 asks for the default. -/
theorem Entry.new_tol_default (slot w : Nat) (remove : Bool) :
    (Entry.new slot remove w 0).tol = defaultTolerance w := by
  simp [Entry.new]

theorem Entry.new_tol_light {w : Nat} (slot : Nat) (remove : Bool) (h : w < 620) :
    (Entry.new slot remove w 0).tol = 30 := by
  rw [Entry.new_tol_default, defaultTolerance_light h]

theorem Entry.new_tol_heavy {w : Nat} (slot : Nat) (remove : Bool) (h : 600 ≤ w) :
    (Entry.new slot remove w 0).tol = w * 5 / 100 := by
  rw [Entry.new_tol_default, defaultTolerance_heavy h]

/-! ### The append -/

/-- With room in the list the entry joins at the tail and its item becomes PENDING; nothing else changes. -/
theorem appendEntry_of_room {e : Entry} {s : State} (h : s.bag.entries.length < 8) :
    appendEntry e s = { s with
      bag.entries := s.bag.entries ++ [e]
      txn.items := s.txn.items.map fun it => if it.slot = e.slot then { it with bag := .pending } else it } := by
  simp only [appendEntry_eq, if_pos h]

/-! ### The statement -/

/-- Settles O34: a new entry field by field, the worked weights on their side of the 30 g floor, and the append
with room. -/
theorem expectationAppended : Obligations.ExpectationAppended := by
  refine ⟨fun slot w tol remove => ?entry, ⟨?w420, ?w1234, ?w2000, ?w599⟩, fun e s hroom => ?append⟩
  case entry => rfl
  case w420 => exact Entry.new_tol_light 1 false (by decide)
  case w1234 => exact Entry.new_tol_heavy 1 false (by decide)
  case w2000 => exact Entry.new_tol_heavy 1 false (by decide)
  case w599 => exact Entry.new_tol_light 1 false (by decide)
  case append => exact appendEntry_of_room hroom

end Sys2Proof.Machine
end

section
/-! PROOFS. The bits of a card track, their framing, and the order in which a track's result is decided
(R112 to R117). -/

namespace Sys2Proof.Machine

/-! ### What a track's end decides (R115) -/

section
variable {t : TrackCap}

theorem TrackCap.decided_of_atLimit (h : t.atLimit = true) : t.decided = some .overlong := if_pos h

theorem TrackCap.decided_of_few (hl : t.atLimit = false) (hn : t.transitions < 16) :
    t.decided = some .noData := by
  simp [TrackCap.decided, hl, hn]

theorem TrackCap.decided_of_noPreamble (hl : t.atLimit = false) (hp : t.pexp = none) :
    t.decided = some .noData := by
  simp [TrackCap.decided, hl, hp]

/-- A track with enough transitions and a preamble is decided by a stopped decode alone. -/
theorem TrackCap.decided_of_preamble {p : Nat} (hl : t.atLimit = false) (hn : 16 ≤ t.transitions)
    (hp : t.pexp = some p) : t.decided = t.stop := by
  simp [TrackCap.decided, hl, Nat.not_lt.mpr hn, hp]

/-- A decided track is not framed. -/
theorem frameTrack_of_decided (tr : Track) {r : TrackResult} (h : t.decided = some r) :
    frameTrack tr t = { result := r, codes := [], reverse := false } := by
  rw [frameTrack, h]

theorem frameTrack_of_undecided (tr : Track) (h : t.decided = none) : frameTrack tr t = frameBits tr t.bits := by
  rw [frameTrack, h]

theorem TrackCap.cutOff_spec (t : TrackCap) :
    t.cutOff.ended = true ∧ t.cutOff.atLimit = (t.atLimit || !t.ended) := by
  cases h : t.ended <;> simp [TrackCap.cutOff, h]

end

/-! ### Recovering the bits (R113, R114) -/

theorem isPreamble_iff {w : List Nat} : isPreamble w = true ↔
    w.length = 8 ∧ ∀ x ∈ w, 3 * (w.sum / 8) ≤ 4 * x ∧ 4 * x ≤ 5 * (w.sum / 8) := by
  simp [isPreamble]

section
variable {t : TrackCap} {p dt : Nat}

theorem TrackCap.interval_of_stopped (dt : Nat) (h : t.stop ≠ none) : t.interval dt = t :=
  if_pos (Option.isSome_iff_ne_none.mpr h)

theorem TrackCap.interval_of_searching (dt : Nat) (hs : t.stop = none) (hp : t.pexp = none) :
    t.interval dt = t.search dt := by
  simp [TrackCap.interval, hs, hp]

theorem TrackCap.interval_of_preamble (dt : Nat) (hs : t.stop = none) (hp : t.pexp = some p) :
    t.interval dt = t.cell p dt := by
  simp [TrackCap.interval, hs, hp]

/-- The intervals the preamble search looks at: the last eight, the new one included (R113). -/
def TrackCap.lastEight (t : TrackCap) (dt : Nat) : List Nat :=
  (t.window ++ [dt]).drop ((t.window ++ [dt]).length - 8)

/-- The last eight intervals are a preamble: eight zero bits, with their mean as the expected cell period. -/
theorem TrackCap.search_of_preamble (h : isPreamble (t.lastEight dt) = true) :
    t.search dt = { t with
      window := [], pexp := some ((t.lastEight dt).sum / 8), bits := List.replicate 8 false
      stop := if (t.lastEight dt).sum / 8 < 50 ∨ 5000 < (t.lastEight dt).sum / 8 then some .speed else none } :=
  if_pos h

theorem TrackCap.search_of_noPreamble (h : ¬ isPreamble (t.lastEight dt) = true) :
    t.search dt = { t with window := t.lastEight dt } :=
  if_neg h

theorem TrackCap.addBit_of_room {bit : Bool} {q : Nat} (h : t.bits.length < 1024) :
    t.addBit bit q = { t with
      bits := t.bits ++ [bit], pexp := some q, half := none
      stop := if q < 50 ∨ 5000 < q then some .speed else none } :=
  if_neg (Nat.not_le.mpr h)

theorem TrackCap.addBit_of_full {bit : Bool} {q : Nat} (h : 1024 ≤ t.bits.length) :
    t.addBit bit q = { t with stop := some .overlong, half := none } :=
  if_pos h

/-- The first half of a 1 bit waits for its second half. -/
theorem TrackCap.cell_of_firstHalf (hdt : 4 * dt < 3 * p) (hh : t.half = none) :
    t.cell p dt = { t with half := some dt } := by
  simp [TrackCap.cell, hh, Nat.not_le.mpr hdt]

theorem TrackCap.cell_of_zero (hdt : 3 * p ≤ 4 * dt) (hh : t.half = none) :
    t.cell p dt = t.addBit false ((3 * p + dt) / 4) := by
  simp [TrackCap.cell, hh, hdt]

theorem TrackCap.cell_of_one {t1 : Nat} (hdt : 4 * dt < 3 * p) (hh : t.half = some t1) :
    t.cell p dt = t.addBit true ((3 * p + t1 + dt) / 4) := by
  simp [TrackCap.cell, hh, Nat.not_le.mpr hdt]

theorem TrackCap.cell_of_brokenPair {t1 : Nat} (hdt : 3 * p ≤ 4 * dt) (hh : t.half = some t1) :
    t.cell p dt = { t with half := none, stop := some .cellError } := by
  simp [TrackCap.cell, hh, hdt]

/-- A long interval makes a 0 bit, a short one after a first half a 1 bit. -/
theorem TrackCap.interval_of_bit {bit : Bool} {q : Nat} (hs : t.stop = none) (hp : t.pexp = some p)
    (h : (3 * p ≤ 4 * dt ∧ t.half = none ∧ bit = false ∧ q = (3 * p + dt) / 4) ∨
      ∃ t1, 4 * dt < 3 * p ∧ t.half = some t1 ∧ bit = true ∧ q = (3 * p + t1 + dt) / 4) :
    t.interval dt = t.addBit bit q := by
  rw [interval_of_preamble dt hs hp]
  rcases h with ⟨hdt, hh, rfl, rfl⟩ | ⟨t1, hdt, hh, rfl, rfl⟩
  · exact cell_of_zero hdt hh
  · exact cell_of_one hdt hh

/-- A preamble stops the decode with SPEED or not at all. -/
theorem TrackCap.search_stop {r : TrackResult} (hs : t.stop = none) (h : (t.search dt).stop = some r) :
    r = .speed := by
  by_cases hpre : isPreamble (t.lastEight dt) = true
  · rw [search_of_preamble hpre] at h
    exact (Option.some.inj (Option.ite_none_right_eq_some.mp h).2).symm
  · rw [search_of_noPreamble hpre] at h
    simp [hs] at h

/-- A bit stops the decode with OVERLONG, with SPEED or not at all. -/
theorem TrackCap.addBit_stop {bit : Bool} {q : Nat} {r : TrackResult} (h : (t.addBit bit q).stop = some r) :
    r = .speed ∨ r = .overlong := by
  rcases Nat.lt_or_ge t.bits.length 1024 with hroom | hfull
  · rw [addBit_of_room hroom] at h
    exact .inl (Option.some.inj (Option.ite_none_right_eq_some.mp h).2).symm
  · rw [addBit_of_full hfull] at h
    exact .inr (Option.some.inj h).symm

theorem TrackCap.cell_stop {r : TrackResult} (hs : t.stop = none) (h : (t.cell p dt).stop = some r) :
    r = .speed ∨ r = .cellError ∨ r = .overlong := by
  have hadd {bit q} (h : (t.addBit bit q).stop = some r) : r = .speed ∨ r = .cellError ∨ r = .overlong :=
    (addBit_stop h).imp_right .inr
  cases hh : t.half with
  | none =>
    rcases Nat.lt_or_ge (4 * dt) (3 * p) with hdt | hdt
    · rw [cell_of_firstHalf hdt hh] at h
      simp [hs] at h
    · exact hadd (cell_of_zero hdt hh ▸ h)
  | some t1 =>
    rcases Nat.lt_or_ge (4 * dt) (3 * p) with hdt | hdt
    · exact hadd (cell_of_one hdt hh ▸ h)
    · rw [cell_of_brokenPair hdt hh] at h
      exact .inr (.inl (Option.some.inj h).symm)

/-- The results a decode stops with (R115). -/
theorem TrackCap.interval_stop {r : TrackResult} (hs : t.stop = none) (h : (t.interval dt).stop = some r) :
    r = .speed ∨ r = .cellError ∨ r = .overlong := by
  cases hp : t.pexp with
  | none => exact .inl (search_stop hs (interval_of_searching dt hs hp ▸ h))
  | some p => exact cell_stop hs (interval_of_preamble dt hs hp ▸ h)

end

/-! ### A character and its bits (R117) -/

theorem bitsNat_testBits (n code : Nat) :
    bitsNat ((List.range n).map fun i => code.testBit i) = code % 2 ^ n := by
  induction n generalizing code with
  | zero => simp [bitsNat, Nat.mod_one]
  | succ n ih =>
    have htail : ((List.range n).map fun i => code.testBit (i + 1)) =
        (List.range n).map fun i => (code / 2).testBit i := by
      simp [Nat.testBit_succ]
    have hbit : (code.testBit 0).toNat = code % 2 := by
      rw [Nat.testBit_zero]; rcases Nat.mod_two_eq_zero_or_one code with h | h <;> simp [h]
    rw [List.range_succ_eq_map, List.map_cons, List.map_map, bitsNat, Function.comp_def, htail, ih, hbit,
      Nat.pow_succ', Nat.mod_mul]

@[simp] theorem charBits_length (n c : Nat) : (charBits n c).length = n + 1 := by simp [charBits]

theorem dataCode_charBits {n c : Nat} (hc : c < 2 ^ n) (rest : List Bool) :
    dataCode ((charBits n c ++ rest).take n) = c := by
  simp [charBits, dataCode, bitsNat_testBits, Nat.mod_eq_of_lt hc]

theorem le_length_charBits_append (n c : Nat) (rest : List Bool) : n + 1 ≤ (charBits n c ++ rest).length := by
  simp

theorem take_charBits (n c : Nat) (rest : List Bool) : (charBits n c ++ rest).take (n + 1) = charBits n c :=
  List.take_left' (charBits_length n c)

theorem drop_charBits (n c : Nat) (rest : List Bool) : (charBits n c ++ rest).drop (n + 1) = rest :=
  List.drop_left' (charBits_length n c)

/-- The parity bit makes the number of ones odd. -/
theorem oddOnes_charBits (n c : Nat) : oddOnes (charBits n c) = true := by
  simp only [oddOnes, charBits, List.filter_append, List.length_append, decide_eq_true_eq]
  rcases Nat.mod_two_eq_zero_or_one (((List.range n).map fun i => c.testBit i).filter id).length with h | h <;>
    rw [h, Nat.add_mod, h] <;> rfl

/-! ### The codes of a track (R117, Table 6-1) -/

theorem dataBits_eq (tr : Track) : dataBits tr = if tr = .alpha then 6 else 4 := by cases tr <;> rfl

theorem startCode_lt (tr : Track) : startCode tr < 2 ^ dataBits tr := by cases tr <;> decide

theorem endCode_lt (tr : Track) : endCode tr < 2 ^ dataBits tr := by cases tr <;> decide

theorem endCode_ne_startCode (tr : Track) : endCode tr ≠ startCode tr := by cases tr <;> decide

/-! ### Reading characters (R117) -/

section
variable {tr : Track} {fuel x : Nat} {codes : List Nat} {bits : List Bool}

theorem readChars_of_short (h : bits.length < dataBits tr + 1) : readChars tr fuel bits codes x = (.noEnd, []) := by
  cases fuel with
  | zero => rfl
  | succ fuel => simp [readChars, h]

theorem readChars_of_overlong (hb : dataBits tr + 1 ≤ bits.length) (hmax : maxChars tr < codes.length + 1) :
    readChars tr (fuel + 1) bits codes x = (.overlong, []) := by
  simp [readChars, Nat.not_lt.mpr hb, hmax]

theorem readChars_of_even (hb : dataBits tr + 1 ≤ bits.length) (hmax : codes.length + 1 ≤ maxChars tr)
    (hodd : oddOnes (bits.take (dataBits tr + 1)) = false) :
    readChars tr (fuel + 1) bits codes x = (.parity, []) := by
  simp [readChars, Nat.not_lt.mpr hb, Nat.not_lt.mpr hmax, hodd]

/-- What is left to judge once the end sentinel is read: the LRC character. -/
theorem readChars_end (hmax : codes.length + 1 ≤ maxChars tr) :
    readChars tr (fuel + 1) (charBits (dataBits tr) (endCode tr) ++ bits) codes x =
      if bits.length < dataBits tr + 1 then (.lrc, [])
      else if maxChars tr < codes.length + 2 then (.overlong, [])
      else if !oddOnes (bits.take (dataBits tr + 1)) then (.lrc, [])
      else if dataCode (bits.take (dataBits tr)) = x ^^^ endCode tr then (.ok, codes ++ [endCode tr])
      else (.lrc, []) := by
  rw [readChars, if_neg (Nat.not_lt_of_le (le_length_charBits_append ..)), if_neg (Nat.not_lt_of_le hmax),
    take_charBits, oddOnes_charBits, dataCode_charBits (endCode_lt tr), drop_charBits]
  simp

/-- A character other than the end sentinel joins the codes and the exclusive-or. -/
theorem readChars_char {c : Nat} (hc : c < 2 ^ dataBits tr) (hne : c ≠ endCode tr)
    (hmax : codes.length + 1 ≤ maxChars tr) :
    readChars tr (fuel + 1) (charBits (dataBits tr) c ++ bits) codes x =
      readChars tr fuel bits (codes ++ [c]) (x ^^^ c) := by
  rw [readChars, if_neg (Nat.not_lt_of_le (le_length_charBits_append ..)), if_neg (Nat.not_lt_of_le hmax),
    take_charBits, oddOnes_charBits, dataCode_charBits hc, drop_charBits]
  simp [hne]

theorem readChars_chars {cs : List Nat} (hcs : ∀ c ∈ cs, c < 2 ^ dataBits tr) (hne : endCode tr ∉ cs)
    (hmax : codes.length + cs.length ≤ maxChars tr) :
    readChars tr (fuel + cs.length) (cs.flatMap (charBits (dataBits tr)) ++ bits) codes x =
      readChars tr fuel bits (codes ++ cs) (cs.foldl (· ^^^ ·) x) := by
  induction cs generalizing codes x with
  | nil => simp
  | cons c cs ih =>
    obtain ⟨hc, hcs⟩ := List.forall_mem_cons.mp hcs
    obtain ⟨hcne, hne⟩ := not_or.mp (mt List.mem_cons.mpr hne)
    simp only [List.length_cons] at hmax ⊢
    rw [List.flatMap_cons, List.append_assoc, ← Nat.add_assoc, readChars_char hc (Ne.symm hcne) (by omega),
      ih hcs hne (by simp; omega), List.append_assoc, List.singleton_append, List.foldl_cons]

end

/-! ### Finding the start sentinel (R116) -/

/-- The bits a framing searches for (R116). -/
abbrev startBits (tr : Track) : List Bool := charBits (dataBits tr) (startCode tr)

/-- The start sentinel's bits as Table 6-1 reads them. -/
theorem startBits_eq (tr : Track) : startBits tr =
    if tr = .alpha then [true, false, true, false, false, false, true] else [true, true, false, true, false] := by
  cases tr <;> decide

/-- The first bit of the start sentinel is a 1, so a zero bit starts no match. -/
theorem startBits_cons (tr : Track) : ∃ l, startBits tr = true :: l := by
  cases tr <;> exact ⟨_, startBits_eq _⟩

theorem findBits_at_front {b : Bool} {l : List Bool} (rest : List Bool) :
    findBits (b :: l) (b :: l ++ rest) = some (b :: l ++ rest) :=
  if_pos (List.isPrefixOf_iff_prefix.mpr (List.prefix_append _ _))

theorem findBits_after_zeros (z : Nat) (l rest : List Bool) :
    findBits (true :: l) (List.replicate z false ++ (true :: l ++ rest)) = some (true :: l ++ rest) := by
  induction z with
  | zero => exact findBits_at_front rest
  | succ z ih => simpa [List.replicate_succ, findBits] using ih

theorem findBits_eq_none {pat bits : List Bool} (h : ∀ pre post, bits ≠ pre ++ pat ++ post) :
    findBits pat bits = none := by
  induction bits with
  | nil => rfl
  | cons b rest ih =>
    have hhere : ¬ pat.isPrefixOf (b :: rest) = true := fun hpre => by
      obtain ⟨post, heq⟩ := List.isPrefixOf_iff_prefix.mp hpre
      exact h [] post heq.symm
    rw [findBits, if_neg hhere]
    exact ih fun pre post heq => h (b :: pre) post (congrArg (b :: ·) heq)

/-! ### Framing (R116, R117) -/

/-- The framed track of what reading its characters gave, in a direction. -/
def Framed.ofRead (rd : TrackResult × List Nat) (reverse : Bool) : Framed :=
  { result := rd.1, codes := rd.2, reverse := reverse }

section
variable {tr : Track} {bits l : List Bool}

theorem frameBits_forward (h : findBits (startBits tr) bits = some l) :
    frameBits tr bits = .ofRead (readChars tr (maxChars tr + 1) l [] 0) false := by
  simp only [frameBits, h, Framed.ofRead]

theorem frameBits_backward (h : findBits (startBits tr) bits = none)
    (hrev : findBits (startBits tr) bits.reverse = some l) :
    frameBits tr bits = .ofRead (readChars tr (maxChars tr + 1) l [] 0) true := by
  simp only [frameBits, h, hrev, Framed.ofRead]

theorem frameBits_noStart (h : findBits (startBits tr) bits = none)
    (hrev : findBits (startBits tr) bits.reverse = none) :
    frameBits tr bits = { result := .noStart, codes := [], reverse := false } := by
  simp only [frameBits, h, hrev]

/-- A stream whose reversal holds no start sentinel frames the same when it is read backward. -/
theorem frameBits_reverse (h : findBits (startBits tr) bits = some l)
    (hrev : findBits (startBits tr) bits.reverse = none) :
    frameBits tr bits.reverse = { frameBits tr bits with reverse := true } := by
  rw [frameBits_forward h, frameBits_backward hrev (by rwa [List.reverse_reverse])]
  rfl

end

/-- The bits of a track up to its end sentinel: zeros, the start sentinel and the characters after it. -/
def headBits (tr : Track) (z : Nat) (inner : List Nat) : List Bool :=
  List.replicate z false ++ (startCode tr :: inner).flatMap (charBits (dataBits tr))

/-- The LRC of a track's characters, sentinels included (R117). -/
def lrcOf (tr : Track) (inner : List Nat) : Nat := (startCode tr :: inner).foldl (· ^^^ ·) (endCode tr)

section
variable {tr : Track} {inner : List Nat}

theorem findBits_headBits (tr : Track) (z : Nat) (inner : List Nat) (rest : List Bool) :
    findBits (startBits tr) (headBits tr z inner ++ rest) =
      some ((startCode tr :: inner).flatMap (charBits (dataBits tr)) ++ rest) := by
  obtain ⟨l, hl⟩ := startBits_cons tr
  simp only [headBits, List.flatMap_cons, hl, List.append_assoc]
  exact findBits_after_zeros z l _

/-- The LRC is the exclusive-or read up to the end sentinel, and the end sentinel. -/
theorem lrcOf_eq (tr : Track) (inner : List Nat) :
    lrcOf tr inner = (startCode tr :: inner).foldl (· ^^^ ·) 0 ^^^ endCode tr := by
  calc lrcOf tr inner
    _ = (startCode tr :: inner).foldl (· ^^^ ·) (endCode tr ^^^ 0) := by rw [Nat.xor_zero]; rfl
    _ = endCode tr ^^^ (startCode tr :: inner).foldl (· ^^^ ·) 0 := List.foldl_assoc
    _ = _ := Nat.xor_comm ..

theorem foldl_xor_lt {n : Nat} {cs : List Nat} {x : Nat} (hx : x < 2 ^ n) (hcs : ∀ c ∈ cs, c < 2 ^ n) :
    cs.foldl (· ^^^ ·) x < 2 ^ n :=
  List.foldlRecOn (motive := (· < 2 ^ n)) cs _ hx fun _ hy c hc => Nat.xor_lt_two_pow hy (hcs c hc)

theorem start_inner_lt (h : ∀ c ∈ inner, c < 2 ^ dataBits tr) :
    ∀ c ∈ startCode tr :: inner, c < 2 ^ dataBits tr :=
  List.forall_mem_cons.mpr ⟨startCode_lt tr, h⟩

variable (hne : endCode tr ∉ inner) (hlt : ∀ c ∈ inner, c < 2 ^ dataBits tr) (z : Nat) {rest : List Bool}
include hne hlt

/-- A stream is framed by what stands after its start sentinel and the characters before the end sentinel. -/
theorem frameBits_headBits (hmax : inner.length + 1 ≤ maxChars tr) (rest : List Bool) :
    frameBits tr (headBits tr z inner ++ rest) =
      .ofRead (readChars tr (maxChars tr - (inner.length + 1) + 1) rest (startCode tr :: inner)
        ((startCode tr :: inner).foldl (· ^^^ ·) 0)) false := by
  have hnotEnd : endCode tr ∉ startCode tr :: inner :=
    mt List.mem_cons.mp (not_or.mpr ⟨endCode_ne_startCode tr, hne⟩)
  have hread := readChars_chars (codes := []) (x := 0) (bits := rest) (fuel := maxChars tr - (inner.length + 1) + 1)
    (start_inner_lt hlt) hnotEnd (by simpa using hmax)
  have hfuel : maxChars tr - (inner.length + 1) + 1 + (startCode tr :: inner).length = maxChars tr + 1 := by
    rw [List.length_cons]; omega
  rw [hfuel] at hread
  rw [frameBits_forward (findBits_headBits tr z inner rest), hread, List.nil_append]

/-- A stream that ends within a character before the end sentinel. -/
theorem frameBits_noEnd (hmax : inner.length + 1 ≤ maxChars tr) (hrest : rest.length ≤ dataBits tr) :
    frameBits tr (headBits tr z inner ++ rest) = { result := .noEnd, codes := [], reverse := false } := by
  rw [frameBits_headBits hne hlt z hmax, readChars_of_short (by omega)]
  rfl

theorem frameBits_parity {c : List Bool} (hmax : inner.length + 2 ≤ maxChars tr) (hc : c.length = dataBits tr + 1)
    (heven : (c.filter id).length % 2 = 0) :
    frameBits tr (headBits tr z inner ++ (c ++ rest)) = { result := .parity, codes := [], reverse := false } := by
  have hodd : oddOnes ((c ++ rest).take (dataBits tr + 1)) = false := by
    simp [List.take_left' hc, oddOnes, heven]
  rw [frameBits_headBits hne hlt z (by omega), readChars_of_even (by simp; omega) (by simp; omega) hodd]
  rfl

/-- One character more than a track carries, before an end sentinel. -/
theorem frameBits_overlong (hmax : inner.length + 1 = maxChars tr) (hrest : dataBits tr < rest.length) :
    frameBits tr (headBits tr z inner ++ rest) = { result := .overlong, codes := [], reverse := false } := by
  rw [frameBits_headBits hne hlt z (Nat.le_of_eq hmax), readChars_of_overlong hrest (by simp; omega)]
  rfl

/-- A stream that ends within the LRC character. -/
theorem frameBits_lrc_short (hmax : inner.length + 2 ≤ maxChars tr) (hrest : rest.length ≤ dataBits tr) :
    frameBits tr (headBits tr z inner ++ (charBits (dataBits tr) (endCode tr) ++ rest)) =
      { result := .lrc, codes := [], reverse := false } := by
  rw [frameBits_headBits hne hlt z (by omega), readChars_end (by simp; omega), if_pos (by omega)]
  rfl

/-- The LRC character would be one more than a track carries. -/
theorem frameBits_lrc_overlong (hmax : inner.length + 2 = maxChars tr) (hrest : dataBits tr < rest.length) :
    frameBits tr (headBits tr z inner ++ (charBits (dataBits tr) (endCode tr) ++ rest)) =
      { result := .overlong, codes := [], reverse := false } := by
  rw [frameBits_headBits hne hlt z (by omega), readChars_end (by simp; omega), if_neg (by omega),
    if_pos (by simp; omega)]
  rfl

/-- A stream with its end sentinel and an LRC character is OK or LRC by that character. -/
theorem frameBits_lrc {lrc : Nat} (hmax : inner.length + 3 ≤ maxChars tr) (hlrc : lrc < 2 ^ dataBits tr) :
    frameBits tr (headBits tr z inner ++
        (charBits (dataBits tr) (endCode tr) ++ (charBits (dataBits tr) lrc ++ rest))) =
      if lrc = lrcOf tr inner then
        { result := .ok, codes := startCode tr :: inner ++ [endCode tr], reverse := false }
      else { result := .lrc, codes := [], reverse := false } := by
  rw [frameBits_headBits hne hlt z (by omega), readChars_end (by simp; omega),
    if_neg (Nat.not_lt_of_le (le_length_charBits_append ..)), if_neg (by simp; omega), take_charBits,
    oddOnes_charBits, dataCode_charBits hlrc, ← lrcOf_eq]
  by_cases h : lrc = lrcOf tr inner <;> simp [h, Framed.ofRead]

end

/-! ### The statement -/

/-- Settles O45. The order of decision, the cut at the limit and the results of a stopped decode; then an interval
by the decoder's state; then framing by what follows the characters read; then a stream with no start sentinel. -/
theorem trackResultDecided : Obligations.TrackResultDecided := by
  refine ⟨fun tr t => ⟨fun hl => ?limit, fun hl hn => ?few, fun hl hn hp => ?noPreamble,
      fun p r hl hn hp hr => ?stopped, fun p hl hn hp hs => ?framed⟩,
    TrackCap.cutOff_spec, fun t dt r => TrackCap.interval_stop,
    fun t dt => ⟨TrackCap.interval_of_stopped dt, fun hs hp w hw => ⟨fun hpre => ?preamble, fun hpre => ?search⟩,
      fun p hs hp => ⟨fun hdt hh => ?firstHalf, fun t1 hdt hh => ?brokenPair,
        fun bit q hbit => ⟨fun hroom => ?bit, fun hfull _ _ => ?bufferFull⟩⟩⟩,
    fun tr n z inner tail head hn hne hlt hhead => ?framing,
    fun tr bits pat hpat hfwd hrev => ?noStart⟩
  case limit => exact frameTrack_of_decided tr (TrackCap.decided_of_atLimit hl)
  case few => exact frameTrack_of_decided tr (TrackCap.decided_of_few hl hn)
  case noPreamble => exact frameTrack_of_decided tr (TrackCap.decided_of_noPreamble hl hp)
  case stopped => exact frameTrack_of_decided tr ((TrackCap.decided_of_preamble hl hn hp).trans hr)
  case framed => exact frameTrack_of_undecided tr ((TrackCap.decided_of_preamble hl hn hp).trans hs)
  case preamble =>
    obtain rfl : w = t.lastEight dt := hw
    rw [TrackCap.interval_of_searching dt hs hp, TrackCap.search_of_preamble (isPreamble_iff.mpr hpre)]
  case search =>
    obtain rfl : w = t.lastEight dt := hw
    rw [TrackCap.interval_of_searching dt hs hp, TrackCap.search_of_noPreamble (mt isPreamble_iff.mp hpre)]
  case firstHalf => rw [TrackCap.interval_of_preamble dt hs hp, TrackCap.cell_of_firstHalf hdt hh]
  case brokenPair => rw [TrackCap.interval_of_preamble dt hs hp, TrackCap.cell_of_brokenPair hdt hh]
  case bit => rw [TrackCap.interval_of_bit hs hp hbit, TrackCap.addBit_of_room hroom]
  case bufferFull => rw [TrackCap.interval_of_bit hs hp hbit, TrackCap.addBit_of_full hfull]; exact ⟨rfl, rfl⟩
  case framing =>
    rw [← dataBits_eq] at hn
    subst hn
    obtain rfl : head = headBits tr z inner := hhead
    simp only [List.append_assoc]
    refine ⟨fun x bits hx => ⟨?lrcRange, fun hmax lrc hlrc hbits => ⟨?lrc, fun hrev => ?reverse⟩⟩,
      frameBits_lrc_short hne hlt z, frameBits_noEnd hne hlt z, fun c hmax => frameBits_parity hne hlt z hmax,
      fun hmax htail _ => frameBits_overlong hne hlt z hmax htail, frameBits_lrc_overlong hne hlt z⟩
    case lrcRange => exact hx ▸ foldl_xor_lt (endCode_lt tr) (start_inner_lt hlt)
    case lrc => exact hbits ▸ hx ▸ frameBits_lrc hne hlt z hmax hlrc
    case reverse => exact frameBits_reverse (hbits ▸ findBits_headBits tr z inner _) hrev
  case noStart =>
    rw [← startBits_eq] at hpat
    subst hpat
    exact frameBits_noStart (findBits_eq_none hfwd) (findBits_eq_none hrev)

end Sys2Proof.Machine
end

