-- ==== Sys2Proof/Proofs/Invariants/View.lean ====
section
/-! PROOFS. What the six invariants of a safe run read of the state: a view of the link's counts, the committed
loads, the sale and the ports, and the invariants said of it. -/

namespace Sys2Proof.Machine

/-! ### The view -/

/-- What the invariants read of a drawer port. -/
structure PortView where
  mode    : PortMode
  on      : Bool
  onMs    : Nat
  onTime  : Nat
  present : Bool
  leaving : Bool

/-- What the invariants read of the state. `line` says whether the frame on the line is a reply; `op` is the kind
of the operation in flight on P; a card slot shows whether its record is bound. -/
structure View where
  waiting     : Nat
  executing   : Bool
  replies     : Nat
  line        : Option Bool
  notices     : Nat
  loads       : List (Requester × Nat)
  waits       : List Requester
  cap         : Nat
  capacity    : Nat
  presentD1   : Nat
  presentD2   : Nat
  storedD1    : Nat
  storedD2    : Nat
  items       : List Item
  sale        : TxnState
  tenders     : List Tender
  entitlement : Option Port
  noSale      : Option Port
  entries     : List Nat
  op          : Option OpKind
  one         : Option Bool
  two         : Option Bool
  d1          : PortView
  d2          : PortView

def PortState.view (q : PortState) : PortView where
  mode := q.mode
  on := q.on
  onMs := q.onMs
  onTime := q.onTime
  present := q.present
  leaving := q.leaving

def State.view (s : State) : View where
  waiting := s.link.queue.length
  executing := s.link.inExec.isSome
  replies := s.link.replies.length
  line := s.link.tx.map fun f => decide (f.kind = .reply)
  notices := s.rpt.queue.length
  loads := s.dsa.loads
  waits := s.dsa.queue
  cap := s.dsa.cap
  capacity := s.set.capacity
  presentD1 := s.set.presentD1
  presentD2 := s.set.presentD2
  storedD1 := s.sst.block.presentD1
  storedD2 := s.sst.block.presentD2
  items := s.txn.items
  sale := s.txn.state
  tenders := s.txn.tenders
  entitlement := s.txn.entitlement
  noSale := s.drw.noSale
  entries := s.bag.entries.map Entry.slot
  op := s.wgt.chanP.op.map Op.kind
  one := s.crd.one.map CardRec.bound
  two := s.crd.two.map CardRec.bound
  d1 := s.drw.d1.view
  d2 := s.drw.d2.view

namespace View

def port (v : View) : Port → PortView
  | .d1 => v.d1
  | .d2 => v.d2

def setPort (v : View) (p : Port) (q : PortView) : View :=
  { v with d1 := if p = .d1 then q else v.d1, d2 := if p = .d2 then q else v.d2 }

def card (v : View) : CardSlot → Option Bool
  | .one => v.one
  | .two => v.two

def setCard (v : View) (c : CardSlot) (b : Option Bool) : View :=
  { v with one := if c = .one then b else v.one, two := if c = .two then b else v.two }

/-- PRESENT of a port. -/
def presence (v : View) : Port → Bool
  | .d1 => v.presentD1 != 0
  | .d2 => v.presentD2 != 0

def committed (v : View) : Nat := (v.loads.map Prod.snd).sum

/-- Reply places in use. -/
def places (v : View) : Nat :=
  v.waiting + v.executing.toNat + v.replies + (if v.line = some true then 1 else 0)

/-- A changed capacity takes effect where R177 lets it. -/
def settleCap (v : View) : View :=
  { v with cap := if v.cap ≤ v.capacity ∨ v.committed ≤ v.capacity then v.capacity else v.cap }

/-- The bag status of the item in a slot. -/
def setBag (v : View) (slot : Nat) (b : BagStatus) : View :=
  { v with items := v.items.map fun it => if it.slot = slot then { it with bag := b } else it }

/-- An entry for a slot, or none in a full list. -/
def append (v : View) (slot : Nat) : View :=
  if v.entries.length < 8 then { v with entries := v.entries ++ [slot] }.setBag slot .pending
  else v.setBag slot .unchecked

@[simp] theorem port_setPort (v : View) (p : Port) (q : PortView) : (v.setPort p q).port p = q := by cases p <;> rfl

theorem port_setPort_other (v : View) {p o : Port} (q : PortView) (h : o ≠ p) : (v.setPort p q).port o = v.port o := by
  cases p <;> cases o <;> first | rfl | contradiction

@[simp] theorem presence_setPort (v : View) (p o : Port) (q : PortView) : (v.setPort p q).presence o = v.presence o := by
  cases o <;> rfl

@[simp] theorem card_setCard (v : View) (c : CardSlot) (b : Option Bool) : (v.setCard c b).card c = b := by cases c <;> rfl

theorem card_setCard_other (v : View) {c o : CardSlot} (b : Option Bool) (h : o ≠ c) : (v.setCard c b).card o = v.card o := by
  cases c <;> cases o <;> first | rfl | contradiction

end View

theorem view_setPort (s : State) (p : Port) (q : PortState) : (s.setPort p q).view = s.view.setPort p q.view := by
  cases p <;> rfl

theorem view_port (s : State) (p : Port) : s.view.port p = (s.port p).view := by cases p <;> rfl

theorem view_modPort (s : State) (p : Port) (f : PortState → PortState) :
    (modPort p f s).view = s.view.setPort p (f (s.port p)).view := view_setPort ..

theorem view_setCard (s : State) (c : CardSlot) (x : Option CardRec) :
    (s.setCard c x).view = s.view.setCard c (x.map CardRec.bound) := by cases c <;> rfl

theorem view_card (s : State) (c : CardSlot) : s.view.card c = (s.card c).map CardRec.bound := by cases c <;> rfl

theorem view_presence (s : State) (p : Port) : s.view.presence p = s.set.present p := by cases p <;> rfl

theorem view_settleCap (s : State) : (settleCap s).view = s.view.settleCap := by
  unfold settleCap View.settleCap
  split <;> split <;> first | rfl | contradiction

/-- A channel written back with the operation it had is not seen. -/
theorem view_setChan {s : State} {ch : Channel} {c : Chan} (h : c.op.map Op.kind = (s.chan ch).op.map Op.kind) :
    (s.setChan ch c).view = s.view := by
  cases ch
  · simp [State.setChan, State.view]; exact h
  · rfl

/-- A port written back with what the view shows of it is not seen. -/
theorem view_modPort_same {s : State} {p : Port} {f : PortState → PortState}
    (h : (f (s.port p)).view = (s.port p).view) : (modPort p f s).view = s.view := by
  rw [view_modPort, h, ← view_port]; cases p <;> rfl

/-! ### The invariants of the view -/

/-- What of a port's invariant an operation in progress may suspend: nothing; the bound of the on-time, by one
millisecond, from the passing of a millisecond to the port's expiry; what PRESENT says, from its change to the end of
the change's effects. -/
inductive Lag where
  | none | ticked | moved
  deriving DecidableEq

namespace View

abbrev bounded (v : View) : Prop := v.waiting ≤ 4 ∧ v.places ≤ 8 ∧ v.notices ≤ 16

abbrev supplied (v : View) : Prop := v.committed ≤ v.cap ∧ v.capacity ≤ v.cap

abbrev numbered (v : View) : Prop := v.items.map Item.slot = List.range' 1 v.items.length

abbrev saleBounded (v : View) : Prop := v.items.length ≤ 64 ∧ v.numbered ∧ total v.items ≤ 99999999

abbrev captureOpen (v : View) : Prop := ∀ o, v.op = some o → o.isCapture = true → v.sale = .opened

abbrev expecting (v : View) : Prop :=
  v.entries.length ≤ 8 ∧ v.entries.Nodup ∧ v.numbered ∧ v.captureOpen ∧
    (∀ n ∈ v.entries, ∃ it ∈ v.items, it.slot = n ∧ (it.bag = .pending ∨ it.bag = .overdue)) ∧
    (v.sale = .idle ∨ v.sale = .settled → v.entries = [])

abbrev cardsBound (v : View) : Prop :=
  ∀ c, v.card c = some true → (v.sale = .tender ∨ v.sale = .settled) ∧ ∃ x ∈ v.tenders, x.card = some c

abbrev onePermit (v : View) : Prop :=
  (v.entitlement ≠ none → v.sale = .settled) ∧ (v.noSale ≠ none → v.sale = .idle)

/-- The solenoid's part of a port's safety: on only in KICKING, with its grant and within its on-time. -/
abbrev pulsed (v : View) (lag : Lag) (p : Port) : Prop :=
  ((v.port p).on = true → (v.port p).mode = .kicking) ∧
    ((v.port p).mode = .kicking → (.port p, 1500) ∈ v.loads ∧
      (v.port p).onMs ≤ (v.port p).onTime + (if lag = .ticked ∧ (v.port p).on = true then 1 else 0))

/-- A port waits at most once, and only in GRANT_WAIT. -/
abbrev queuedOnce (v : View) (p : Port) : Prop :=
  (.port p ∈ v.waits → (v.port p).mode = .grantWait) ∧ v.waits.count (.port p) ≤ 1

/-- What PRESENT says of a port. -/
abbrev placed (v : View) (lag : Lag) (p : Port) : Prop :=
  ((v.port p).leaving = true → v.presence p = false) ∧
    (lag ≠ .moved → (v.port p).present = (v.presence p || (v.port p).leaving) ∧
      ((v.port p).present = false → (v.port p).mode = .unknown))

abbrev portHeld (v : View) (lag : Lag) (p : Port) : Prop :=
  v.pulsed lag p ∧ v.queuedOnce p ∧ v.placed lag p

abbrev held (v : View) (lag : Port → Lag) : Prop :=
  v.onePermit ∧ (∀ p, v.portHeld (lag p) p) ∧ (v.presentD1 ≤ 1 ∧ v.presentD2 ≤ 1) ∧
    (v.storedD1 ≤ 1 ∧ v.storedD2 ≤ 1)

/-- The drawers' invariant where it is asked for, with a lag for each port. -/
def heldAt (v : View) : Option (Port → Lag) → Prop
  | none => True
  | some lag => v.held lag

end View

theorem view_places (s : State) : s.view.places = s.link.placesInUse := by
  unfold Link.placesInUse View.places State.view
  cases s.link.tx <;> cases s.link.inExec <;> simp

theorem bounded_iff (s : State) : s.bounded ↔ s.view.bounded := by
  simp only [State.bounded, View.bounded, view_places]
  rfl

theorem supplied_iff (s : State) : s.supplied ↔ s.view.supplied := Iff.rfl

theorem saleBounded_iff (s : State) : s.saleBounded ↔ s.view.saleBounded := Iff.rfl

theorem expecting_iff (s : State) : s.expecting ↔ s.view.expecting := by
  simp [State.expecting, View.expecting, State.captureOpen, View.captureOpen, State.view, Txn.numbered, View.numbered]

theorem cardsBound_iff (s : State) : s.cardsBound ↔ s.view.cardsBound := by
  simp only [State.cardsBound, View.cardsBound, view_card, Option.map_eq_some_iff, forall_exists_index, and_imp]
  exact Iff.rfl

theorem drawersSafe_iff (s : State) : s.drawersSafe ↔ s.view.held fun _ => .none := by
  have hport : ∀ p, s.portSafe p ↔ s.view.portHeld .none p := fun p => by
    simp only [State.portSafe, View.portHeld, View.pulsed, View.queuedOnce, View.placed, view_port, view_presence]
    exact ⟨fun ⟨hon, hkick, hwait, honce, hpres, hleave, habsent⟩ =>
        ⟨⟨hon, fun hm => ⟨(hkick hm).1, Nat.le_add_right_of_le (hkick hm).2⟩⟩, ⟨hwait, honce⟩, hleave,
          fun _ => ⟨hpres, habsent⟩⟩,
      fun ⟨⟨hon, hkick⟩, ⟨hwait, honce⟩, hleave, hplaced⟩ =>
        ⟨hon, fun hm => ⟨(hkick hm).1, by simpa [PortState.view] using (hkick hm).2⟩, hwait, honce,
          (hplaced (by decide)).1, hleave, (hplaced (by decide)).2⟩⟩
  simp only [State.drawersSafe, View.held, hport]
  rfl

end Sys2Proof.Machine
end

