-- ==== Sys2Proof/Proofs/Invariants/Moves.lean ====
section
/-! PROOFS. What the operations of the block can do to the view, one constructor for each kind of change, in the order of
what may make it: bound actions, the other operations and events, the requests of the sale and the settings, the link.
Each change keeps the invariants. -/

namespace Sys2Proof.Machine

/-- A chain of changes, each of them one of `R`. -/
inductive Chain (R : View → View → Prop) (v : View) : View → Prop
  | refl : Chain R v v
  | tail {u w : View} (hc : Chain R v u) (h : R u w) : Chain R v w

namespace Chain
variable {R R' : View → View → Prop} {u v w : View}

theorem single (h : R v w) : Chain R v w := .tail .refl h

theorem trans (h : Chain R u v) (h' : Chain R v w) : Chain R u w := by
  induction h' with
  | refl => exact h
  | tail _ hstep ih => exact .tail ih hstep

theorem mono (hR : ∀ {v w}, R v w → R' v w) (hc : Chain R v w) : Chain R' v w := by
  induction hc with
  | refl => exact .refl
  | tail _ hstep ih => exact .tail ih (hR hstep)

end Chain

/-- A chain of changes keeps what each of them keeps. -/
theorem chain_keeps {R : View → View → Prop} {Q : View → Prop} (h : ∀ {v w}, R v w → Q v → Q w) {v w : View}
    (hc : Chain R v w) (hv : Q v) : Q w := by
  induction hc with
  | refl => exact hv
  | tail _ hstep ih => exact h hstep ih

/-! ### The changes -/

/-- What a raised notice, and an action bound to it, can do to the view. -/
inductive Move : View → View → Prop
  | notices {v : View} (n : Nat) (h : n ≤ 16 ∨ n ≤ v.notices) : Move v { v with notices := n }
  | sendReply {v : View} (m : Nat) (h : v.line = none) (hm : v.replies = m + 1) :
      Move v { v with replies := m, line := some true }
  | sendOther {v : View} (n : Nat) (h : v.line = none) (hn : n ≤ v.notices) :
      Move v { v with line := some false, notices := n }
  | capture {v : View} (k : OpKind) (h : v.op = none) (hs : v.sale = .opened) : Move v { v with op := some k }
  | attempt {v : View} (p : Port) (h : (v.port p).mode = .closed) (hp : v.presence p = true) :
      Move v ({ v with waits := v.waits ++ [Requester.port p] }.setPort p { v.port p with mode := .grantWait })
  | ask {v : View} (q : Requester) (h : ∀ p, q ≠ .port p) : Move v { v with waits := v.waits ++ [q] }
  | drop {v : View} (q : Requester) (h : ∀ p, q ≠ .port p) : Move v { v with waits := v.waits.erase q }
  | pulse {v : View} (p : Port) (rest : List Requester) (onTime : Nat) (h : v.waits = .port p :: rest)
      (hc : v.committed + 1500 ≤ v.capacity) :
      Move v ({ v with waits := rest, loads := v.loads ++ [(Requester.port p, 1500)] }.setPort p
        { v.port p with mode := .kicking, on := true, onMs := 0, onTime := onTime })
  | grant {v : View} (q : Requester) (rest : List Requester) (mA : Nat) (h : v.waits = q :: rest)
      (hq : ∀ p, q ≠ .port p) (hc : v.committed + mA ≤ v.capacity) :
      Move v { v with waits := rest, loads := v.loads ++ [(q, mA)] }
  | pass {v : View} (q : Requester) (rest : List Requester) (h : v.waits = q :: rest) (hq : ∀ p, q ≠ .port p) :
      Move v { v with waits := rest }
  | endEntitlement {v : View} : Move v { v with entitlement := none }
  | endNoSale {v : View} : Move v { v with noSale := none }
  | wipe {v : View} (c : CardSlot) : Move v (v.setCard c none)
  | close {v : View} (h : v.sale = .settled ∨ v.sale = .idle) (he : v.entitlement = none)
      (hc : ∀ c, v.card c ≠ some true) :
      Move v { v with sale := .idle, items := [], tenders := [], entries := [] }

/-- What an operation or an event can do to the view. A change of a port keeps the invariant of that port, and a
port's load is not released while it is in KICKING, where the drawers' invariant is asked for. -/
inductive Effect (k : Option (Port → Lag)) : View → View → Prop
  | move {v w : View} (h : Move v w) : Effect k v w
  | freeOp {v : View} : Effect k v { v with op := none }
  | takeOp {v : View} (o : OpKind) (h : o.isCapture = false) : Effect k v { v with op := some o }
  | store {v : View} (c : CardSlot) : Effect k v (v.setCard c (some false))
  | withdraw {v : View} (p : Port) : Effect k v { v with waits := v.waits.erase (Requester.port p) }
  | retry {v : View} (p : Port) (h : (v.port p).mode = .closed) :
      Effect k v ({ v with waits := v.waits ++ [Requester.port p] }.setPort p { v.port p with mode := .grantWait })
  | port {v : View} (p : Port) (q : PortView)
      (h : ∀ lag, k = some lag → v.portHeld (lag p) p → (v.setPort p q).portHeld (lag p) p) :
      Effect k v (v.setPort p q)
  | release {v : View} (q : Requester) (h : k ≠ none → ∀ p, q = .port p → (v.port p).mode ≠ .kicking) :
      Effect k v { v with loads := v.loads.filter fun l => l.1 != q }.settleCap
  | addItem {v : View} (it : Item) (hslot : it.slot = v.items.length + 1) (hroom : v.items.length < 64)
      (htotal : total v.items + it.amount ≤ 99999999) : Effect k v { v with items := v.items ++ [it] }
  | expectItem {v : View} (it : Item) (hslot : it.slot = v.items.length + 1) (hroom : v.items.length < 64)
      (htotal : total v.items + it.amount ≤ 99999999)
      (hs : v.sale = .opened ∨ ∃ o, v.op = some o ∧ o.isCapture = true) :
      Effect k v ({ v with items := v.items ++ [it] }.append it.slot)
  | expectRemoval {v : View} (slot : Nat) (hs : v.sale = .opened)
      (hit : ∃ it ∈ v.items, it.slot = slot ∧ it.bag = .bagged) : Effect k v (v.append slot)
  | voidItem {v : View} (slot : Nat) :
      Effect k v { v with items := v.items.map fun it => if it.slot = slot then { it with void := true } else it }
  | unexpect {v : View} (slot : Nat) (f : Item → Item)
      (hf : ∀ it, (f it).slot = it.slot ∧ (f it).amount = it.amount ∧ (f it).void = it.void) :
      Effect k v { v with
        entries := v.entries.filter (· != slot)
        items := v.items.map fun it => if it.slot = slot then f it else it }
  | overdue {v : View} (slot : Nat) : Effect k v (v.setBag slot .overdue)
  | clearEntries {v : View} : Effect k v { v with entries := [] }

/-- What a request of the sale or the settings, or a millisecond, can do to the view. -/
inductive Deal (k : Option (Port → Lag)) : View → View → Prop
  | effect {v w : View} (h : Effect k v w) : Deal k v w
  | beginSale {v : View} (h : v.sale = .idle) (hn : v.noSale = none) :
      Deal k v { v with sale := .opened, items := [], tenders := [] }
  | total {v : View} (h : v.sale = .opened) (hop : v.op = none) : Deal k v { v with sale := .tender }
  | reopen {v : View} (h : v.sale = .tender) (ht : v.tenders = []) : Deal k v { v with sale := .opened }
  | tender {v : View} (x : Tender) (h : v.sale = .tender) : Deal k v { v with tenders := v.tenders ++ [x] }
  | bind {v : View} (c : CardSlot) (h : v.sale = .tender) (hx : ∃ x ∈ v.tenders, x.card = some c) :
      Deal k v (v.setCard c ((v.card c).map fun _ => true))
  | settle {v : View} (h : v.sale = .tender) : Deal k v { v with sale := .settled, entries := [] }
  | earn {v : View} (p : Port) (h : v.sale = .settled) : Deal k v { v with entitlement := some p }
  | noSale {v : View} (p : Port) (h : v.sale = .idle) : Deal k v { v with noSale := some p }
  | void {v : View} (o : Option OpKind) (h : v.sale = .opened ∨ v.sale = .tender ∧ v.tenders = [])
      (ho : ∀ x, o = some x → x.isCapture = false) : Deal k v { v with sale := .voided, op := o }
  | closeVoid {v : View} (h : v.sale = .voided) :
      Deal k v { v with sale := .idle, items := [], tenders := [], entries := [] }
  | capacity {v : View} (c : Nat) : Deal k v { v with capacity := c }.settleCap
  | stored {v : View} : Deal k v { v with storedD1 := v.presentD1, storedD2 := v.presentD2 }

/-- What a command, or a step without one, can do to the view, the drawers' invariant left aside. -/
inductive Exchange : View → View → Prop
  | deal {v w : View} (h : Deal none v w) : Exchange v w
  | ports {v : View} (a b : PortView) : Exchange v { v with d1 := a, d2 := b }
  | presence {v : View} (a b : Nat) : Exchange v { v with presentD1 := a, presentD2 := b }
  | enqueue {v : View} (h : v.waiting < 4) (hp : v.places < 8) : Exchange v { v with waiting := v.waiting + 1 }
  | refuse {v : View} (hp : v.places < 8) : Exchange v { v with replies := v.replies + 1 }
  | take {v : View} (m : Nat) (h : v.executing = false) (hm : v.waiting = m + 1) :
      Exchange v { v with waiting := m, executing := true }
  | start {v : View} (h : v.executing = false) (hp : v.places < 8) : Exchange v { v with executing := true }
  | answer {v : View} (h : v.executing = true) : Exchange v { v with executing := false, replies := v.replies + 1 }
  | bounce {v : View} (m : Nat) (hm : v.waiting = m + 1) :
      Exchange v { v with waiting := m, replies := v.replies + 1 }
  | sent {v : View} : Exchange v { v with line := none }
  | reset {v : View} (c a b a' b' : Nat) (d1 d2 : PortView) : Exchange v
      { waiting := 0, executing := false, replies := 0, line := none, notices := 0, loads := [], waits := [], cap := c,
        capacity := c, presentD1 := a, presentD2 := b, storedD1 := a', storedD2 := b', items := [], sale := .idle,
        tenders := [], entitlement := none, noSale := none, entries := [], op := none, one := none, two := none,
        d1 := d1, d2 := d2 }

/-! ### The bounds of the link and of the notice queue -/

section
variable {v w : View} {k : Option (Port → Lag)}

theorem Move.keeps_bounded (h : Move v w) (hv : v.bounded) : w.bounded := by
  obtain ⟨hwait, hplaces, hnotices⟩ := hv
  cases h with
  | notices n h => exact ⟨hwait, hplaces, by simp; omega⟩
  | sendReply m h hm => exact ⟨hwait, by simp_all [View.places]; omega, hnotices⟩
  | sendOther n h hn => exact ⟨hwait, by simp_all [View.places], Nat.le_trans hn hnotices⟩
  | _ => exact ⟨hwait, hplaces, hnotices⟩

/-- No operation touches the link or the notice queue but through the notices it raises. -/
theorem Effect.keeps_bounded (h : Effect k v w) (hv : v.bounded) : w.bounded := by
  cases h with
  | move h => exact h.keeps_bounded hv
  | expectItem => unfold View.append; split <;> exact hv
  | expectRemoval => unfold View.append; split <;> exact hv
  | _ => exact hv

theorem Deal.keeps_bounded (h : Deal k v w) (hv : v.bounded) : w.bounded := by
  cases h with
  | effect h => exact h.keeps_bounded hv
  | _ => exact hv

/-- A request takes a place free or its own, and leaves the queue or execution as its reply joins the list. -/
theorem Exchange.keeps_bounded (h : Exchange v w) (hv : v.bounded) : w.bounded := by
  obtain ⟨hwait, hplaces, hnotices⟩ := hv
  cases h with
  | deal h => exact h.keeps_bounded ⟨hwait, hplaces, hnotices⟩
  | enqueue h hp => exact ⟨h, by simp only [View.places] at *; omega, hnotices⟩
  | refuse hp => exact ⟨hwait, by simp only [View.places] at *; omega, hnotices⟩
  | take m h hm => exact ⟨by simp_all; omega, by simp_all [View.places], hnotices⟩
  | start h hp => exact ⟨hwait, by simp_all [View.places]; omega, hnotices⟩
  | answer h => exact ⟨hwait, by simp_all [View.places]; omega, hnotices⟩
  | bounce m hm => exact ⟨by simp_all; omega, by simp_all [View.places]; omega, hnotices⟩
  | sent => exact ⟨hwait, by simp [View.places] at *; omega, hnotices⟩
  | reset => exact ⟨Nat.zero_le _, by simp [View.places], Nat.zero_le _⟩
  | _ => exact ⟨hwait, hplaces, hnotices⟩

/-! ### The committed currents -/

theorem View.settleCap_supplied (h : v.committed ≤ v.cap) : v.settleCap.supplied := by
  by_cases hc : v.cap ≤ v.capacity ∨ v.committed ≤ v.capacity
  · simp only [View.settleCap, if_pos hc]
    exact ⟨hc.elim (fun hc => Nat.le_trans h hc) id, Nat.le_refl _⟩
  · simp only [View.settleCap, if_neg hc]
    exact ⟨h, show v.capacity ≤ v.cap by omega⟩

theorem Move.keeps_supplied (h : Move v w) (hv : v.supplied) : w.supplied := by
  obtain ⟨hsum, hcap⟩ := hv
  cases h with
  | pulse p rest t h hc => exact ⟨by simp [View.committed, View.setPort] at *; omega, hcap⟩
  | grant q rest mA h hq hc => exact ⟨by simp [View.committed] at *; omega, hcap⟩
  | _ => exact ⟨hsum, hcap⟩

theorem sum_filter_le (l : List (Requester × Nat)) (f : Requester × Nat → Bool) :
    ((l.filter f).map Prod.snd).sum ≤ (l.map Prod.snd).sum := by
  induction l with
  | nil => exact Nat.le_refl _
  | cons x l ih => rw [List.filter_cons]; split <;> simp only [List.map_cons, List.sum_cons] <;> omega

theorem Effect.keeps_supplied (h : Effect k v w) (hv : v.supplied) : w.supplied := by
  cases h with
  | move h => exact h.keeps_supplied hv
  | release q => exact View.settleCap_supplied (Nat.le_trans (sum_filter_le _ _) hv.1)
  | expectItem => unfold View.append; split <;> exact hv
  | expectRemoval => unfold View.append; split <;> exact hv
  | _ => exact hv

theorem Deal.keeps_supplied (h : Deal k v w) (hv : v.supplied) : w.supplied := by
  cases h with
  | effect h => exact h.keeps_supplied hv
  | capacity => exact View.settleCap_supplied hv.1
  | _ => exact hv

theorem Exchange.keeps_supplied (h : Exchange v w) (hv : v.supplied) : w.supplied := by
  cases h with
  | deal h => exact h.keeps_supplied hv
  | reset => exact ⟨Nat.zero_le _, Nat.le_refl _⟩
  | _ => exact hv

end

end Sys2Proof.Machine
end

