-- ==== Sys2Proof/Proofs/Invariants/Sale.lean ====
section
/-! PROOFS. The item list, the expectation list and the bound card records: each change of the view keeps them
(R71, R88, R123). -/

namespace Sys2Proof.Machine

/-! ### Lists of items -/

/-- Change the items of a slot. -/
abbrev amend (slot : Nat) (f : Item → Item) (l : List Item) : List Item :=
  l.map fun it => if it.slot = slot then f it else it

theorem total_cons (it : Item) (l : List Item) : total (it :: l) = (if it.void then 0 else it.amount) + total l := by
  cases h : it.void <;> simp [total, h]

theorem total_concat_le (l : List Item) (it : Item) : total (l ++ [it]) ≤ total l + it.amount := by
  induction l with
  | nil => rw [List.nil_append, total_cons]; split <;> simp [total]
  | cons x l ih => rw [List.cons_append, total_cons, total_cons]; omega

/-- An item that keeps its amount, and its void mark where it has one, adds no more to the total. -/
theorem total_map_le {f : Item → Item} (hf : ∀ it, (f it).amount = it.amount ∧ (it.void = true → (f it).void = true))
    (l : List Item) : total (l.map f) ≤ total l := by
  induction l with
  | nil => exact Nat.le_refl _
  | cons x l ih =>
    obtain ⟨hamount, hvoid⟩ := hf x
    rw [List.map_cons, total_cons, total_cons, hamount]
    cases hx : x.void
    · split <;> simp <;> omega
    · simp [hvoid hx, ih]

theorem slots_map {f : Item → Item} (hf : ∀ it, (f it).slot = it.slot) (l : List Item) :
    (l.map f).map Item.slot = l.map Item.slot := by
  simp [hf]

theorem amend_slot {slot : Nat} {f : Item → Item} (hf : ∀ it, (f it).slot = it.slot) (it : Item) :
    (if it.slot = slot then f it else it).slot = it.slot := by
  split <;> simp [hf]

namespace View
variable {v : View} {slot : Nat} {f : Item → Item} {it : Item}

theorem numbered_map (hf : ∀ it, (f it).slot = it.slot) (hv : v.numbered) :
    { v with items := v.items.map f }.numbered := by
  simpa only [numbered, slots_map hf, List.length_map] using hv

theorem numbered_concat (hslot : it.slot = v.items.length + 1) (hv : v.numbered) :
    { v with items := v.items ++ [it] }.numbered := by
  simp only [numbered, List.map_append, List.map_singleton, List.length_append, List.length_singleton,
    List.range'_1_concat] at hv ⊢
  rw [hv, hslot, Nat.add_comm]

/-- An item list amended in a way that keeps slots and amounts stays within its bounds. -/
theorem saleBounded_amend
    (hf : ∀ it, (f it).slot = it.slot ∧ (f it).amount = it.amount ∧ (it.void = true → (f it).void = true))
    (hv : v.saleBounded) : { v with items := amend slot f v.items }.saleBounded := by
  obtain ⟨hroom, hnum, htotal⟩ := hv
  refine ⟨by simpa using hroom, numbered_map (amend_slot fun it => (hf it).1) hnum, ?_⟩
  refine Nat.le_trans (total_map_le (fun it => ?_) _) htotal
  split
  · exact (hf it).2
  · exact ⟨rfl, id⟩

theorem saleBounded_append (hv : v.saleBounded) : (v.append slot).saleBounded := by
  unfold append
  split <;> exact saleBounded_amend (fun _ => ⟨rfl, rfl, id⟩) hv

end View

section
variable {v w : View} {k : Option (Port → Lag)}

/-! ### The item list (R88) -/

theorem View.saleBounded_concat {it : Item} (hslot : it.slot = v.items.length + 1) (hroom : v.items.length < 64)
    (htotal : total v.items + it.amount ≤ 99999999) (hv : v.saleBounded) :
    { v with items := v.items ++ [it] }.saleBounded :=
  ⟨by simp; omega, View.numbered_concat hslot hv.2.1, Nat.le_trans (total_concat_le ..) htotal⟩

theorem View.saleBounded_nil (h : v.items = []) : v.saleBounded := by simp [View.saleBounded, View.numbered, h, total]

theorem Move.keeps_saleBounded (h : Move v w) (hv : v.saleBounded) : w.saleBounded := by
  cases h with
  | close => exact View.saleBounded_nil rfl
  | _ => exact hv

theorem Effect.keeps_saleBounded (h : Effect k v w) (hv : v.saleBounded) : w.saleBounded := by
  cases h with
  | move h => exact h.keeps_saleBounded hv
  | addItem it hslot hroom htotal => exact View.saleBounded_concat hslot hroom htotal hv
  | expectItem it hslot hroom htotal =>
    exact View.saleBounded_append (View.saleBounded_concat hslot hroom htotal hv)
  | expectRemoval => exact View.saleBounded_append hv
  | voidItem slot => exact View.saleBounded_amend (fun _ => ⟨rfl, rfl, fun _ => rfl⟩) hv
  | unexpect slot f hf => exact View.saleBounded_amend (fun it => ⟨(hf it).1, (hf it).2.1, (hf it).2.2.trans⟩) hv
  | overdue slot => exact View.saleBounded_amend (fun _ => ⟨rfl, rfl, id⟩) hv
  | _ => exact hv

theorem Deal.keeps_saleBounded (h : Deal k v w) (hv : v.saleBounded) : w.saleBounded := by
  cases h with
  | effect h => exact h.keeps_saleBounded hv
  | beginSale => exact View.saleBounded_nil rfl
  | closeVoid => exact View.saleBounded_nil rfl
  | _ => exact hv

theorem Exchange.keeps_saleBounded (h : Exchange v w) (hv : v.saleBounded) : w.saleBounded := by
  cases h with
  | deal h => exact h.keeps_saleBounded hv
  | reset => exact View.saleBounded_nil rfl
  | _ => exact hv

/-! ### The expectation list (R71) -/

/-- An item of a slot that waits for its settle. -/
def Awaits (l : List Item) (n : Nat) : Prop := ∃ it ∈ l, it.slot = n ∧ (it.bag = .pending ∨ it.bag = .overdue)

/-- A change of one slot's items leaves those of the other slots awaited, and its own where it leaves their status. -/
theorem awaits_amend {l : List Item} {n slot : Nat} {f : Item → Item} (h : Awaits l n)
    (hf : ∀ it, (f it).slot = it.slot)
    (hb : n = slot → ∀ it : Item, it.bag = .pending ∨ it.bag = .overdue →
      (f it).bag = .pending ∨ (f it).bag = .overdue) : Awaits (Machine.amend slot f l) n := by
  obtain ⟨it, hmem, hslot, hbag⟩ := h
  refine ⟨_, List.mem_map_of_mem hmem, ?_, ?_⟩
  · rw [amend_slot hf, hslot]
  · split
    · next heq => exact hb (hslot.symm.trans heq) it hbag
    · exact hbag

theorem View.numbered_nodup (h : v.numbered) : (v.items.map Item.slot).Nodup := h ▸ List.nodup_range'

theorem View.slot_le_of_numbered (h : v.numbered) {it : Item} (hmem : it ∈ v.items) : it.slot ≤ v.items.length := by
  have hslot : it.slot ∈ List.range' 1 v.items.length := h ▸ List.mem_map_of_mem hmem
  rw [List.mem_range'_1] at hslot
  omega

/-- The slot after the last has no entry. -/
theorem View.expecting.fresh (h : v.expecting) : v.items.length + 1 ∉ v.entries := fun hmem => by
  obtain ⟨-, -, hnum, -, hnames, -⟩ := h
  obtain ⟨it, hit, hslot, -⟩ := hnames _ hmem
  have := View.slot_le_of_numbered hnum hit
  omega

theorem View.expecting_concat {it : Item} (hslot : it.slot = v.items.length + 1) (h : v.expecting) :
    { v with items := v.items ++ [it] }.expecting := by
  obtain ⟨hlen, hnodup, hnum, hcap, hnames, hempty⟩ := h
  refine ⟨hlen, hnodup, View.numbered_concat hslot hnum, hcap, fun n hn => ?_, hempty⟩
  obtain ⟨x, hx, hrest⟩ := hnames n hn
  exact ⟨x, List.mem_append_left _ hx, hrest⟩

/-- A change of the items that keeps slots and leaves each entry its item keeps the list. -/
theorem View.expecting_amend {slot : Nat} {f : Item → Item} (hf : ∀ it, (f it).slot = it.slot)
    (hb : slot ∈ v.entries →
      ∀ it : Item, it.bag = .pending ∨ it.bag = .overdue → (f it).bag = .pending ∨ (f it).bag = .overdue)
    (h : v.expecting) : { v with items := amend slot f v.items }.expecting := by
  obtain ⟨hlen, hnodup, hnum, hcap, hnames, hempty⟩ := h
  exact ⟨hlen, hnodup, View.numbered_map (amend_slot hf) hnum, hcap,
    fun n hn => awaits_amend (hnames n hn) hf fun heq => hb (heq ▸ hn), hempty⟩

/-- An entry for an item that has none. -/
theorem View.expecting_append {slot : Nat} (h : v.expecting) (hfresh : slot ∉ v.entries)
    (hitem : ∃ it ∈ v.items, it.slot = slot) (hs : v.sale = .opened) : (v.append slot).expecting := by
  unfold View.append
  split
  · next hroom =>
    obtain ⟨-, hnodup, hnum, hcap, hnames, -⟩ := h
    obtain ⟨it, hit, hslot⟩ := hitem
    refine ⟨by simp [View.setBag]; omega, ?_, View.numbered_map (amend_slot fun _ => rfl) hnum, hcap, fun n hn => ?_,
      fun hend => ?_⟩
    · exact List.nodup_append.mpr ⟨hnodup, List.pairwise_singleton _ _, fun a ha b hb heq =>
        hfresh (List.mem_singleton.mp hb ▸ heq ▸ ha)⟩
    · rcases List.mem_append.mp hn with hn | hn
      · exact awaits_amend (hnames n hn) (fun _ => rfl) fun _ _ _ => .inl rfl
      · obtain rfl := List.mem_singleton.mp hn
        exact ⟨_, List.mem_map_of_mem hit, by simp [hslot], .inl (by simp [hslot])⟩
    · exact absurd (show v.sale = .idle ∨ v.sale = .settled from hend) (by simp [hs])
  · exact View.expecting_amend (fun _ => rfl) (absurd · hfresh) h

/-- What distinct images tell apart is told apart by its image. -/
theorem eq_of_nodup_map {f : Item → Nat} {l : List Item} (h : (l.map f).Nodup) {x y : Item} (hx : x ∈ l) (hy : y ∈ l)
    (heq : f x = f y) : x = y := by
  induction l with
  | nil => exact absurd hx (by simp)
  | cons a l ih =>
    obtain ⟨hfirst, hrest⟩ := List.nodup_cons.mp h
    rcases List.mem_cons.mp hx with hxa | hxl <;> rcases List.mem_cons.mp hy with hya | hyl
    · rw [hxa, hya]
    · exact absurd (hxa ▸ heq ▸ List.mem_map_of_mem hyl) hfirst
    · exact absurd (hya ▸ heq ▸ List.mem_map_of_mem hxl) hfirst
    · exact ih hrest hxl hyl

/-- An item that is BAGGED has no entry. -/
theorem View.expecting.no_entry_of_bagged (h : v.expecting) {it : Item} (hit : it ∈ v.items) (hbag : it.bag = .bagged) :
    it.slot ∉ v.entries := fun hmem => by
  obtain ⟨-, -, hnum, -, hnames, -⟩ := h
  obtain ⟨x, hx, hslot, hwait⟩ := hnames _ hmem
  obtain rfl := eq_of_nodup_map (View.numbered_nodup hnum) hx hit hslot
  simp [hbag] at hwait

/-- The list where an entry is taken out with its item's status. -/
theorem View.expecting_unexpect {slot : Nat} {f : Item → Item} (hf : ∀ it, (f it).slot = it.slot) (h : v.expecting) :
    { v with entries := v.entries.filter (· != slot), items := amend slot f v.items }.expecting := by
  obtain ⟨hlen, hnodup, hnum, hcap, hnames, hempty⟩ := h
  refine ⟨Nat.le_trans (List.length_filter_le _ _) hlen, hnodup.filter _, View.numbered_map (amend_slot hf) hnum, hcap,
    fun n hn => ?_, fun hend => by simp [hempty hend]⟩
  obtain ⟨hn, hne⟩ := List.mem_filter.mp hn
  exact awaits_amend (hnames n hn) hf fun heq => absurd heq (by simpa using hne)

/-- A sale without items, in a state in which no capture waits. -/
theorem View.expecting_nil (hi : v.items = []) (he : v.entries = []) (hc : v.captureOpen) : v.expecting := by
  simp only [View.expecting, View.numbered, hi, he]
  exact ⟨by simp, by simp, by simp, hc, by simp, by simp⟩

theorem Move.keeps_expecting (h : Move v w) (hv : v.expecting) : w.expecting := by
  have ⟨hlen, hnodup, hnum, hcap, hnames, hempty⟩ := hv
  cases h with
  | capture k h hs => exact ⟨hlen, hnodup, hnum, fun _ _ _ => hs, hnames, hempty⟩
  | close h =>
    refine View.expecting_nil rfl rfl fun o ho hc => ?_
    rw [hcap o ho hc] at h
    simp at h
  | _ => exact hv

theorem Effect.keeps_expecting (h : Effect k v w) (hv : v.expecting) : w.expecting := by
  have ⟨hlen, hnodup, hnum, hcap, hnames, hempty⟩ := hv
  cases h with
  | move h => exact h.keeps_expecting hv
  | freeOp => exact ⟨hlen, hnodup, hnum, fun _ ho => absurd ho (by simp), hnames, hempty⟩
  | takeOp o h =>
    refine ⟨hlen, hnodup, hnum, fun x ho hc => ?_, hnames, hempty⟩
    obtain rfl := Option.some.inj ho
    simp [h] at hc
  | addItem it hslot => exact View.expecting_concat hslot hv
  | expectItem it hslot _ _ hs =>
    refine View.expecting_append (View.expecting_concat hslot hv) (hslot ▸ hv.fresh) ⟨it, by simp⟩ ?_
    rcases hs with hs | ⟨o, ho, hc⟩
    · exact hs
    · exact hcap o ho hc
  | expectRemoval slot hs hit =>
    obtain ⟨it, hit, rfl, hbag⟩ := hit
    exact View.expecting_append hv (hv.no_entry_of_bagged hit hbag) ⟨it, hit, rfl⟩ hs
  | voidItem slot => exact View.expecting_amend (fun _ => rfl) (fun _ _ => id) hv
  | unexpect slot f hf => exact View.expecting_unexpect (fun it => (hf it).1) hv
  | overdue slot => exact View.expecting_amend (fun _ => rfl) (fun _ _ _ => .inr rfl) hv
  | clearEntries => exact ⟨Nat.zero_le _, List.nodup_nil, hnum, hcap, by simp, fun _ => rfl⟩
  | _ => exact hv

theorem Deal.keeps_expecting (h : Deal k v w) (hv : v.expecting) : w.expecting := by
  have ⟨hlen, hnodup, hnum, hcap, hnames, hempty⟩ := hv
  cases h with
  | effect h => exact h.keeps_expecting hv
  | beginSale h => exact View.expecting_nil rfl (hempty (.inl h)) fun _ _ _ => rfl
  | total h hop =>
    refine ⟨hlen, hnodup, hnum, fun o ho => absurd (hop.symm.trans ho) (by simp), hnames, fun h => ?_⟩
    simp at h
  | reopen => exact ⟨hlen, hnodup, hnum, fun _ _ _ => rfl, hnames, fun h => by simp at h⟩
  | settle h =>
    refine ⟨Nat.zero_le _, List.nodup_nil, hnum, fun o ho hc => ?_, by simp, fun _ => rfl⟩
    simp [hcap o ho hc] at h
  | void o h ho =>
    refine ⟨hlen, hnodup, hnum, fun x hx hc => ?_, hnames, fun h => by simp at h⟩
    simp [ho x hx] at hc
  | closeVoid h =>
    refine View.expecting_nil rfl rfl fun o ho hc => ?_
    simp [hcap o ho hc] at h
  | _ => exact hv

theorem Exchange.keeps_expecting (h : Exchange v w) (hv : v.expecting) : w.expecting := by
  cases h with
  | deal h => exact h.keeps_expecting hv
  | reset => exact View.expecting_nil rfl rfl fun _ ho => absurd ho (by simp)
  | _ => exact hv

/-! ### The bound card records (R123) -/

/-- Where no record is bound, whatever the sale. -/
theorem View.cardsBound_of_none (h : ∀ c, v.card c ≠ some true) : v.cardsBound := fun c hc => absurd hc (h c)

/-- Out of TENDER and SETTLED, and where there is no tender, no record is bound. -/
theorem View.cardsBound.none_bound (h : v.cardsBound) (hs : (v.sale ≠ .tender ∧ v.sale ≠ .settled) ∨ v.tenders = [])
    (c : CardSlot) : v.card c ≠ some true := fun hc => by
  obtain ⟨hsale, x, hx, -⟩ := h c hc
  rcases hs with ⟨h1, h2⟩ | hnil
  · exact hsale.elim h1 h2
  · simp [hnil] at hx

/-- A slot that takes what is not a bound record. -/
theorem View.cardsBound_setCard {c : CardSlot} {b : Option Bool} (hb : b ≠ some true) (h : v.cardsBound) :
    (v.setCard c b).cardsBound := fun o ho => by
  by_cases heq : o = c
  · subst heq
    rw [View.card_setCard] at ho
    exact absurd ho hb
  · rw [View.card_setCard_other _ _ heq] at ho
    exact h o ho

theorem Move.keeps_cardsBound (h : Move v w) (hv : v.cardsBound) : w.cardsBound := by
  cases h with
  | wipe c => exact View.cardsBound_setCard (by simp) hv
  | close _ _ hc => exact View.cardsBound_of_none hc
  | _ => exact hv

theorem Effect.keeps_cardsBound (h : Effect k v w) (hv : v.cardsBound) : w.cardsBound := by
  cases h with
  | move h => exact h.keeps_cardsBound hv
  | store c => exact View.cardsBound_setCard (by simp) hv
  | expectItem => unfold View.append; split <;> exact hv
  | expectRemoval => unfold View.append; split <;> exact hv
  | _ => exact hv

theorem Deal.keeps_cardsBound (h : Deal k v w) (hv : v.cardsBound) : w.cardsBound := by
  cases h with
  | effect h => exact h.keeps_cardsBound hv
  | beginSale h => exact View.cardsBound_of_none (hv.none_bound (.inl (by simp [h])))
  | total h => exact View.cardsBound_of_none (hv.none_bound (.inl (by simp [h])))
  | reopen h ht => exact View.cardsBound_of_none (hv.none_bound (.inr ht))
  | tender x h =>
    intro c hc
    obtain ⟨hs, y, hy, hcard⟩ := hv c hc
    exact ⟨hs, y, List.mem_append_left _ hy, hcard⟩
  | bind c h hx =>
    intro o ho
    by_cases heq : o = c
    · subst heq; exact ⟨.inl h, hx⟩
    · rw [View.card_setCard_other _ _ heq] at ho
      exact hv o ho
  | settle h =>
    intro c hc
    exact ⟨.inr rfl, (hv c hc).2⟩
  | void o h =>
    exact View.cardsBound_of_none (hv.none_bound (h.imp (fun h => by simp [h]) And.right))
  | closeVoid h => exact View.cardsBound_of_none (hv.none_bound (.inl (by simp [h])))
  | _ => exact hv

theorem Exchange.keeps_cardsBound (h : Exchange v w) (hv : v.cardsBound) : w.cardsBound := by
  cases h with
  | deal h => exact h.keeps_cardsBound hv
  | reset => exact View.cardsBound_of_none fun c => by cases c <;> simp [View.card]
  | _ => exact hv

end

end Sys2Proof.Machine
end

