-- ==== Sys2Proof/Proofs/Invariants/Drawers.lean ====
section
/-! PROOFS. The drawers' invariant: each change of the view keeps it, with what it leaves of a port, of the permits and
of the sale while actions bound to notices run (R132, R136). -/

namespace Sys2Proof.Machine

section
variable {v w : View} {k : Option (Port → Lag)} {lag : Port → Lag}

/-! ### What one port's invariant reads -/

/-- A port's invariant reads its own port, its place in the queue, its load, and its PRESENT. -/
theorem View.portHeld_congr {x : Lag} {p : Port} (hport : w.port p = v.port p)
    (hload : (Requester.port p, 1500) ∈ v.loads → (v.port p).mode = .kicking → (Requester.port p, 1500) ∈ w.loads)
    (hcount : w.waits.count (.port p) ≤ v.waits.count (.port p)) (hpres : w.presence p = v.presence p)
    (h : v.portHeld x p) : w.portHeld x p := by
  obtain ⟨⟨hon, hkick⟩, ⟨hwait, honce⟩, hplaced⟩ := h
  refine ⟨⟨by rwa [hport], fun hm => ?_⟩, ⟨fun hmem => ?_, Nat.le_trans hcount honce⟩, ?_⟩
  · rw [hport] at hm ⊢
    exact ⟨hload (hkick hm).1 hm, (hkick hm).2⟩
  · rw [hport]
    exact hwait (List.count_pos_iff.mp (Nat.lt_of_lt_of_le (List.count_pos_iff.mpr hmem) hcount))
  · simpa only [View.placed, hport, hpres] using hplaced

/-- The invariant of the other port where one port changes. -/
theorem View.portHeld_setPort_other {x : Lag} {p o : Port} (q : PortView) (h : o ≠ p) (hv : v.portHeld x o) :
    (v.setPort p q).portHeld x o :=
  View.portHeld_congr (View.port_setPort_other v q h) (fun h _ => h) (Nat.le_refl _) (View.presence_setPort ..) hv

/-- A port off the queue and at rest. -/
theorem View.portHeld_rest {x : Lag} {p : Port} (hon : (v.port p).on = false) (hk : (v.port p).mode ≠ .kicking)
    (hq : Requester.port p ∉ v.waits) (hplaced : v.placed x p) : v.portHeld x p :=
  ⟨⟨fun h => absurd h (by simp [hon]), fun h => absurd h hk⟩,
    ⟨fun h => absurd h hq, by simp [List.count_eq_zero_of_not_mem hq]⟩, hplaced⟩

/-- A port joins the queue from CLOSED. -/
theorem View.portHeld_attempt {x : Lag} {p : Port} (hm : (v.port p).mode = .closed) (h : v.portHeld x p) :
    ({ v with waits := v.waits ++ [Requester.port p] }.setPort p
      { v.port p with mode := .grantWait }).portHeld x p := by
  obtain ⟨⟨hon, -⟩, ⟨hwait, -⟩, hplaced⟩ := h
  have hnot : Requester.port p ∉ v.waits := fun h => by simp [hm] at hwait; exact hwait h
  refine ⟨⟨fun h => ?_, fun h => ?_⟩, ⟨fun _ => ?_, ?_⟩, ?_⟩
  · simp only [View.port_setPort] at h
    simp [hm] at hon
    simp [hon] at h
  · simp at h
  · simp
  · simp [View.setPort, List.count_append, List.count_eq_zero_of_not_mem hnot]
  · simp only [View.placed, View.port_setPort, View.presence_setPort]
    exact ⟨hplaced.1, fun hx => ⟨(hplaced.2 hx).1, fun h => absurd (hm.symm.trans ((hplaced.2 hx).2 h)) (by simp)⟩⟩

/-- The port at the head of the queue is energised. -/
theorem View.portHeld_pulse {x : Lag} {p : Port} {rest : List Requester} {onTime : Nat}
    (hw : v.waits = Requester.port p :: rest) (h : v.portHeld x p) :
    ({ v with waits := rest, loads := v.loads ++ [(Requester.port p, 1500)] }.setPort p
      { v.port p with mode := .kicking, on := true, onMs := 0, onTime := onTime }).portHeld x p := by
  obtain ⟨-, ⟨hwait, honce⟩, hplaced⟩ := h
  have hm : (v.port p).mode = .grantWait := hwait (by simp [hw])
  have hnot : Requester.port p ∉ rest := by
    rw [hw, List.count_cons_self] at honce
    exact List.count_eq_zero.mp (by omega)
  refine ⟨⟨fun _ => by simp, fun _ => ⟨by simp [View.setPort], by simp⟩⟩,
    ⟨fun hmem => absurd hmem hnot, by simp [View.setPort, List.count_eq_zero_of_not_mem hnot]⟩, ?_⟩
  simp only [View.placed, View.port_setPort, View.presence_setPort]
  exact ⟨hplaced.1, fun hx => ⟨(hplaced.2 hx).1, fun h => absurd (hm.symm.trans ((hplaced.2 hx).2 h)) (by simp)⟩⟩

/-- A port that comes to rest, off the queue: its solenoid is off, and only a present port leaves UNKNOWN. -/
theorem View.portHeld_stop {x : Lag} {p : Port} {q : PortView} (h : v.portHeld x p) (hw : Requester.port p ∉ v.waits)
    (hon : q.on = false ∨ q.on = (v.port p).on ∧ (v.port p).mode ≠ .kicking) (hk : q.mode ≠ .kicking)
    (hp : q.present = (v.port p).present) (hl : q.leaving = (v.port p).leaving)
    (hu : (v.port p).mode ≠ .unknown ∨ q.mode = .unknown ∨ (v.port p).present = true) :
    (v.setPort p q).portHeld x p := by
  obtain ⟨⟨hpon, -⟩, -, hleave, hplaced⟩ := h
  have hoff : q.on = false := hon.elim id fun ⟨heq, hm⟩ => by
    rw [heq]; exact Bool.eq_false_iff.mpr fun h => hm (hpon h)
  refine View.portHeld_rest (by simpa using hoff) (by simpa using hk) hw ?_
  simp only [View.placed, View.port_setPort, View.presence_setPort]
  rw [hp, hl]
  refine ⟨hleave, fun hx => ⟨(hplaced hx).1, fun hpres => ?_⟩⟩
  rcases hu with hu | hu | hu
  · exact absurd ((hplaced hx).2 hpres) hu
  · exact hu
  · simp [hu] at hpres

/-- The invariant of both ports where one port, the queue and the loads change. -/
theorem View.ports_held_of {p : Port} {u : View} {q : PortView} (hv : ∀ o, v.portHeld (lag o) o)
    (hport : ∀ o, u.port o = v.port o) (hpres : ∀ o, u.presence o = v.presence o)
    (hload : ∀ o ≠ p, (Requester.port o, 1500) ∈ v.loads → (Requester.port o, 1500) ∈ u.loads)
    (hcount : ∀ o ≠ p, u.waits.count (.port o) ≤ v.waits.count (.port o))
    (hp : (u.setPort p q).portHeld (lag p) p) (o : Port) : (u.setPort p q).portHeld (lag o) o := by
  by_cases ho : o = p
  · exact ho ▸ hp
  · exact View.portHeld_setPort_other q ho
      (View.portHeld_congr (hport o) (fun h _ => hload o ho h) (hcount o ho) (hpres o) (hv o))

/-- The invariant of both ports where only the queue and the loads change. -/
theorem View.ports_held_congr (hv : ∀ o, v.portHeld (lag o) o) (hport : ∀ o, w.port o = v.port o)
    (hpres : ∀ o, w.presence o = v.presence o)
    (hload : ∀ o, (Requester.port o, 1500) ∈ v.loads → (v.port o).mode = .kicking → (Requester.port o, 1500) ∈ w.loads)
    (hcount : ∀ o, w.waits.count (.port o) ≤ v.waits.count (.port o)) (o : Port) : w.portHeld (lag o) o :=
  View.portHeld_congr (hport o) (hload o) (hcount o) (hpres o) (hv o)

theorem count_concat_of_ne {q : Requester} {p : Port} (l : List Requester) (h : q ≠ .port p) :
    (l ++ [q]).count (.port p) = l.count (.port p) := by
  rw [List.count_append, List.count_singleton, if_neg (by simpa using h), Nat.add_zero]

/-! ### Each change -/

theorem Move.keeps_held (h : Move v w) (hv : v.held lag) : w.held lag := by
  have ⟨hpermit, hports, hlegal⟩ := hv
  cases h with
  | attempt p h hp =>
    refine ⟨hpermit, View.ports_held_of hports (fun _ => rfl) (fun _ => rfl) (fun _ _ h => h) (fun o ho => ?_)
      (View.portHeld_attempt h (hports p)), hlegal⟩
    exact Nat.le_of_eq (count_concat_of_ne _ (by simpa using Ne.symm ho))
  | ask q h =>
    exact ⟨hpermit, View.ports_held_congr hports (fun _ => rfl) (fun _ => rfl) (fun _ h _ => h)
      fun o => Nat.le_of_eq (count_concat_of_ne _ (h o)), hlegal⟩
  | drop q h =>
    exact ⟨hpermit, View.ports_held_congr hports (fun _ => rfl) (fun _ => rfl) (fun _ h _ => h)
      fun _ => List.erase_sublist.count_le _, hlegal⟩
  | pulse p rest onTime h hc =>
    refine ⟨hpermit, View.ports_held_of hports (fun _ => rfl) (fun _ => rfl)
      (fun _ _ h => List.mem_append_left _ h) (fun o _ => ?_) (View.portHeld_pulse h (hports p)), hlegal⟩
    rw [h]; exact (List.sublist_cons_self _ _).count_le _
  | grant q rest mA h hq hc =>
    refine ⟨hpermit, View.ports_held_congr hports (fun _ => rfl) (fun _ => rfl)
      (fun _ h _ => List.mem_append_left _ h) (fun o => ?_), hlegal⟩
    rw [h]; exact (List.sublist_cons_self _ _).count_le _
  | pass q rest h hq =>
    refine ⟨hpermit, View.ports_held_congr hports (fun _ => rfl) (fun _ => rfl) (fun _ h _ => h) (fun o => ?_), hlegal⟩
    rw [h]; exact (List.sublist_cons_self _ _).count_le _
  | endEntitlement => exact ⟨⟨fun h => absurd rfl h, hpermit.2⟩, hports, hlegal⟩
  | endNoSale => exact ⟨⟨hpermit.1, fun h => absurd rfl h⟩, hports, hlegal⟩
  | close h he => exact ⟨⟨fun h => absurd he h, fun _ => rfl⟩, hports, hlegal⟩
  | _ => exact hv

theorem View.held_append {slot : Nat} (hv : v.held lag) : (v.append slot).held lag := by
  unfold View.append; split <;> exact hv

theorem mem_loads_filter {l : List (Requester × Nat)} {q o : Requester} {n : Nat} (h : (o, n) ∈ l) (hne : o ≠ q) :
    (o, n) ∈ l.filter fun x => x.1 != q :=
  List.mem_filter.mpr ⟨h, by simpa using hne⟩

theorem Effect.keeps_held (h : Effect (some lag) v w) (hv : v.held lag) : w.held lag := by
  have ⟨hpermit, hports, hlegal⟩ := hv
  cases h with
  | move h => exact h.keeps_held hv
  | withdraw p =>
    exact ⟨hpermit, View.ports_held_congr hports (fun _ => rfl) (fun _ => rfl) (fun _ h _ => h)
      fun _ => List.erase_sublist.count_le _, hlegal⟩
  | retry p h =>
    refine ⟨hpermit, View.ports_held_of hports (fun _ => rfl) (fun _ => rfl) (fun _ _ h => h) (fun o ho => ?_)
      (View.portHeld_attempt h (hports p)), hlegal⟩
    exact Nat.le_of_eq (count_concat_of_ne _ (by simpa using Ne.symm ho))
  | port p q h =>
    exact ⟨hpermit, View.ports_held_of hports (fun _ => rfl) (fun _ => rfl) (fun _ _ h => h) (fun _ _ => Nat.le_refl _)
      (h lag rfl (hports p)), hlegal⟩
  | release q h =>
    refine ⟨hpermit, View.ports_held_congr hports (fun _ => rfl) (fun _ => rfl) (fun o ho hm => ?_)
      (fun _ => Nat.le_refl _), hlegal⟩
    exact mem_loads_filter ho fun heq => h (by simp) o heq.symm hm
  | expectItem => exact View.held_append hv
  | expectRemoval => exact View.held_append hv
  | _ => exact hv

theorem Deal.keeps_held (h : Deal (some lag) v w) (hv : v.held lag) : w.held lag := by
  have ⟨⟨hent, hnos⟩, hports, hlegal, hstored⟩ := hv
  cases h with
  | effect h => exact h.keeps_held hv
  | beginSale h hn => exact ⟨⟨fun he => absurd (hent he) (by simp [h]), fun h => absurd hn h⟩, hports, hlegal, hstored⟩
  | total h hop =>
    exact ⟨⟨fun he => absurd (hent he) (by simp [h]), fun hn => absurd (hnos hn) (by simp [h])⟩, hports, hlegal, hstored⟩
  | reopen h ht =>
    exact ⟨⟨fun he => absurd (hent he) (by simp [h]), fun hn => absurd (hnos hn) (by simp [h])⟩, hports, hlegal, hstored⟩
  | settle h => exact ⟨⟨fun _ => rfl, fun hn => absurd (hnos hn) (by simp [h])⟩, hports, hlegal, hstored⟩
  | earn p h => exact ⟨⟨fun _ => h, hnos⟩, hports, hlegal, hstored⟩
  | noSale p h => exact ⟨⟨hent, fun _ => h⟩, hports, hlegal, hstored⟩
  | void o h =>
    have hsale : v.sale ≠ .settled ∧ v.sale ≠ .idle := by rcases h with h | ⟨h, -⟩ <;> simp [h]
    exact ⟨⟨fun he => absurd (hent he) hsale.1, fun hn => absurd (hnos hn) hsale.2⟩, hports, hlegal, hstored⟩
  | closeVoid h =>
    exact ⟨⟨fun he => absurd (hent he) (by simp [h]), fun _ => rfl⟩, hports, hlegal, hstored⟩
  | stored => exact ⟨⟨hent, hnos⟩, hports, hlegal, hlegal⟩
  | _ => exact hv

theorem Effect.keeps_heldAt (h : Effect k v w) (hv : v.heldAt k) : w.heldAt k := by
  cases k with
  | none => trivial
  | some lag => exact Effect.keeps_held h hv

theorem Deal.keeps_heldAt (h : Deal k v w) (hv : v.heldAt k) : w.heldAt k := by
  cases k with
  | none => trivial
  | some lag => exact Deal.keeps_held h hv

/-! ### What actions bound to notices leave -/

/-- A port that no bound action changes: off the queue, and not CLOSED or not PRESENT. -/
def View.steady (v : View) (p : Port) (q : PortView) (b : Bool) : Prop :=
  v.port p = q ∧ Requester.port p ∉ v.waits ∧ v.presence p = b ∧ (q.mode ≠ .closed ∨ b = false)

theorem Move.keeps_steady {p : Port} {q : PortView} {b : Bool} (h : Move v w) (hv : v.steady p q b) :
    w.steady p q b := by
  have ⟨hport, hwait, hpres, hshut⟩ := hv
  cases h with
  | attempt o h hp =>
    have hne : p ≠ o := fun heq => by
      subst heq
      rcases hshut with hs | hs
      · exact hs (hport ▸ h)
      · simp [hp, hs] at hpres
    refine ⟨?_, fun hmem => ?_, by rwa [View.presence_setPort], hshut⟩
    · rw [View.port_setPort_other _ _ hne]; exact hport
    · exact (List.mem_append.mp hmem).elim hwait fun h => hne (by simpa using h)
  | ask o h =>
    exact ⟨hport, fun hmem => (List.mem_append.mp hmem).elim hwait fun hm => h p (List.mem_singleton.mp hm).symm, hpres, hshut⟩
  | drop o h => exact ⟨hport, fun hmem => hwait (List.mem_of_mem_erase hmem), hpres, hshut⟩
  | pulse o rest onTime h hc =>
    have hne : p ≠ o := fun heq => hwait (by simp [h, heq])
    refine ⟨?_, fun hmem => hwait (h ▸ List.mem_cons_of_mem _ hmem), by rwa [View.presence_setPort], hshut⟩
    rw [View.port_setPort_other _ _ hne]; exact hport
  | grant o rest mA h hq hc => exact ⟨hport, fun hmem => hwait (h ▸ List.mem_cons_of_mem _ hmem), hpres, hshut⟩
  | pass o rest h hq => exact ⟨hport, fun hmem => hwait (h ▸ List.mem_cons_of_mem _ hmem), hpres, hshut⟩
  | _ => exact hv

theorem Move.keeps_leaving (h : Move v w) (p : Port) : (w.port p).leaving = (v.port p).leaving := by
  have hset : ∀ (u : View) (o : Port) (q : PortView), q.leaving = (u.port o).leaving →
      ((u.setPort o q).port p).leaving = (u.port p).leaving := fun u o q hq => by
    by_cases heq : p = o
    · rw [heq, View.port_setPort]; exact hq
    · rw [View.port_setPort_other _ _ heq]
  cases h with
  | attempt o => exact hset _ _ _ rfl
  | pulse o => exact hset _ _ _ rfl
  | _ => rfl

/-- The operation that waits on P stays in flight. -/
theorem Move.keeps_op {o : OpKind} (h : Move v w) (hv : v.op = some o) : w.op = some o := by
  cases h with
  | capture k hop => exact absurd (hop.symm.trans hv) (by simp)
  | _ => exact hv

/-- A sale that has ended, or was never begun, or is being voided, is not opened again. -/
theorem Effect.keeps_ended (h : Effect k v w) (hv : v.sale = .settled ∨ v.sale = .idle) :
    w.sale = .settled ∨ w.sale = .idle := by
  cases h with
  | move h =>
    cases h with
    | close => exact .inr rfl
    | _ => exact hv
  | expectItem => unfold View.append; split <;> exact hv
  | expectRemoval => unfold View.append; split <;> exact hv
  | _ => exact hv

theorem Effect.keeps_voided (h : Effect k v w) (hv : v.sale = .voided) : w.sale = .voided := by
  cases h with
  | move h =>
    cases h with
    | close h => simp [hv] at h
    | _ => exact hv
  | expectItem => unfold View.append; split <;> exact hv
  | expectRemoval => unfold View.append; split <;> exact hv
  | _ => exact hv

theorem Effect.keeps_opened (h : Effect k v w) (hv : v.sale = .opened) : w.sale = .opened := by
  cases h with
  | move h =>
    cases h with
    | close h => simp [hv] at h
    | _ => exact hv
  | expectItem => unfold View.append; split <;> exact hv
  | expectRemoval => unfold View.append; split <;> exact hv
  | _ => exact hv

theorem Effect.keeps_unentitled (h : Effect k v w) (hv : v.entitlement = none) : w.entitlement = none := by
  cases h with
  | move h =>
    cases h with
    | endEntitlement => rfl
    | _ => exact hv
  | expectItem => unfold View.append; split <;> exact hv
  | expectRemoval => unfold View.append; split <;> exact hv
  | _ => exact hv

/-- No operation binds a record. -/
theorem Effect.keeps_unbound {c : CardSlot} (h : Effect k v w) (hv : v.card c ≠ some true) : w.card c ≠ some true := by
  have hset : ∀ (u : View) (o : CardSlot) (b : Option Bool), b ≠ some true → u.card c ≠ some true →
      (u.setCard o b).card c ≠ some true := fun u o b hb hu => by
    by_cases heq : c = o
    · rw [heq, View.card_setCard]; exact hb
    · rwa [View.card_setCard_other _ _ heq]
  cases h with
  | move h =>
    cases h with
    | wipe o => exact hset _ _ _ (by simp) hv
    | _ => exact hv
  | store o => exact hset _ _ _ (by simp) hv
  | expectItem => unfold View.append; split <;> exact hv
  | expectRemoval => unfold View.append; split <;> exact hv
  | _ => exact hv

/-- No operation takes the request in execution out of it. -/
theorem Deal.keeps_executing (h : Deal k v w) : w.executing = v.executing := by
  cases h with
  | effect h =>
    cases h with
    | move h => cases h <;> rfl
    | expectItem => unfold View.append; split <;> rfl
    | expectRemoval => unfold View.append; split <;> rfl
    | _ => rfl
  | _ => rfl

end

end Sys2Proof.Machine
end

