-- ==== Sys2Proof/Proofs/Invariants/Raised.lean ====
section
/-! PROOFS. Each operation that a raised notice, or an action bound to it, can run changes the view by moves alone. -/

namespace Sys2Proof.Machine

/-- The view comes to that of the other state by moves. -/
def Moves (s t : State) : Prop := Chain Move s.view t.view

/-- A way of raising notices that moves the view alone. -/
def Calm (r : Raise) : Prop := ∀ n s, Moves s (r n s)

namespace Moves
variable {s t u : State}

theorem same (h : t.view = s.view) : Moves s t := show Chain Move s.view t.view from h ▸ .refl

theorem refl (s : State) : Moves s s := same rfl

theorem trans (h : Moves s t) (h' : Moves t u) : Moves s u := Chain.trans h h'

theorem one (h : Move s.view t.view) : Moves s t := .single h

/-- A move to what the state is seen as. -/
theorem of_move {w : View} (h : Move s.view w) (hw : t.view = w) : Moves s t := one (hw ▸ h)

/-- What the view does not see, then moves. -/
theorem after (h : Moves t u) (ht : t.view = s.view) : Moves s u := (same ht).trans h

/-- Moves to a state from one that moves lead to, the last operation first. -/
theorem snoc (h : Moves t u) (h' : Moves s t) : Moves s u := h'.trans h

theorem of_ite {c : Prop} [Decidable c] (h : c → Moves s t) (h' : ¬ c → Moves s u) : Moves s (if c then t else u) := by
  split
  · exact h ‹_›
  · exact h' ‹_›

/-! What moves leave -/

theorem keeps_unbound {c : CardSlot} (h : Moves s t) (hs : s.view.card c ≠ some true) : t.view.card c ≠ some true :=
  chain_keeps (Q := fun v => v.card c ≠ some true) (fun h => Effect.keeps_unbound (k := none) (.move h)) h hs

theorem keeps_ended (h : Moves s t) (hs : s.txn.state = .settled ∨ s.txn.state = .idle) :
    t.txn.state = .settled ∨ t.txn.state = .idle :=
  chain_keeps (Q := fun v => v.sale = .settled ∨ v.sale = .idle)
    (fun h => Effect.keeps_ended (k := none) (.move h)) h hs

theorem keeps_voided (h : Moves s t) (hs : s.txn.state = .voided) : t.txn.state = .voided :=
  chain_keeps (Q := fun v => v.sale = .voided) (fun h => Effect.keeps_voided (k := none) (.move h)) h hs

theorem keeps_unentitled (h : Moves s t) (hs : s.txn.entitlement = none) : t.txn.entitlement = none :=
  chain_keeps (Q := fun v => v.entitlement = none) (fun h => Effect.keeps_unentitled (k := none) (.move h)) h hs

theorem keeps_op {o : OpKind} (h : Moves s t) (hs : s.view.op = some o) : t.view.op = some o :=
  chain_keeps (Q := fun v => v.op = some o) Move.keeps_op h hs

theorem keeps_held {lag : Port → Lag} (h : Moves s t) (hs : s.view.held lag) : t.view.held lag :=
  chain_keeps (Q := fun v => v.held lag) Move.keeps_held h hs

theorem keeps_leaving (h : Moves s t) (p : Port) : (t.view.port p).leaving = (s.view.port p).leaving :=
  chain_keeps (Q := fun v => (v.port p).leaving = (s.view.port p).leaving)
    (fun h hv => (h.keeps_leaving p).trans hv) h rfl

theorem keeps_steady {p : Port} {q : PortView} {b : Bool} (h : Moves s t) (hs : s.view.steady p q b) :
    t.view.steady p q b :=
  chain_keeps (Q := fun v => v.steady p q b) Move.keeps_steady h hs

end Moves

/-! ### Notices and the arbiter (R14, R188) -/

theorem arbitrate_moves (s : State) : Moves s (arbitrate s) := by
  rcases Option.eq_none_or_eq_some s.link.tx with htx | ⟨f, htx⟩
  · have hline : s.view.line = none := by simp [State.view, htx]
    rcases arbitrate_cases s with h | ⟨p, rest, hreplies, h⟩ | ⟨body, -, -, -, h⟩ | ⟨q, rest, -, -, hqueue, h⟩
    · exact .same (by rw [h])
    · exact .of_move (.sendReply rest.length hline (by simp [State.view, hreplies])) (by rw [h]; rfl)
    · exact .of_move (.sendOther s.view.notices hline (Nat.le_refl _)) (by rw [h]; rfl)
    · exact .of_move (.sendOther rest.length hline (by simp [State.view, hqueue])) (by rw [h]; rfl)
  · exact .same (by simp [arbitrate, htx])

theorem admitNotice_length (t : Report) (n : Notice) : (t.admitNotice n).queue.length = t.queue.length + 1 := by
  rw [Report.admitNotice, List.length_append, List.length_cons, Nat.add_succ, ← List.length_append,
    List.takeWhile_append_dropWhile]

/-- An offer leaves at most 16 notices, or no more than there were (R188). -/
theorem offerOnce_length (t : Report) (n : Notice) :
    (t.offerOnce n).1.queue.length ≤ 16 ∨ (t.offerOnce n).1.queue.length ≤ t.queue.length := by
  unfold Report.offerOnce
  split
  · exact .inr (Nat.le_refl _)
  · split
    · next hroom => exact .inl (by rw [admitNotice_length]; omega)
    · split
      · exact .inr (Nat.le_refl _)
      · split
        · refine .inr ?_
          rw [admitNotice_length, List.length_dropLast]
          omega
        · exact .inr (Nat.le_refl _)

theorem offer_length (t : Report) (n : Notice) :
    (t.offer n).queue.length ≤ 16 ∨ (t.offer n).queue.length ≤ t.queue.length := by
  have hfirst := offerOnce_length t n
  unfold Report.offer
  split
  · next t' h => rwa [h] at hfirst
  · next t' lost h =>
    rw [h] at hfirst
    split
    · exact hfirst
    · rcases offerOnce_length { t' with latched.noticeLost := some lost } (.noticeLost lost) with hsecond | hsecond
      · exact .inl hsecond
      · exact hfirst.imp (Nat.le_trans hsecond) (Nat.le_trans hsecond)

theorem raiseQuiet_calm : Calm raiseQuiet := fun n s =>
  Moves.trans (.of_move (t := { s with rpt := s.rpt.offer n }) (.notices _ (offer_length s.rpt n))
    (by obtain ⟨q, k, l, h⟩ := s.rpt.offer_eq n; simp only [h]; rfl)) (arbitrate_moves _)

theorem Calm.after {r : Raise} (hr : Calm r) (n : Notice) {s t : State} (h : t.view = s.view) : Moves s (r n t) :=
  (hr n t).after h

section
variable {r : Raise} (hr : Calm r)
include hr

/-! ### Windows and disturbance (R24, R33 to R36) -/

theorem leaveStable_moves (ch : Channel) (s : State) : Moves s (leaveStable r ch s) :=
  .of_ite (fun _ => hr.after _ (view_setChan rfl)) fun _ => .refl _

theorem restartStability_moves (ch : Channel) (s : State) : Moves s (restartStability r ch s) :=
  (leaveStable_moves hr ch _).after (view_setChan rfl)

theorem restartWindows_moves (ch : Channel) (s : State) : Moves s (restartWindows r ch s) :=
  (restartStability_moves hr ch _).after (view_setChan rfl)

theorem disturbStart_moves (a : Action) (s : State) : Moves s (disturbStart r a s) :=
  .snoc (leaveStable_moves hr .b _) (.snoc (leaveStable_moves hr .p _) (.same rfl))

theorem judgeQuiet_moves (s : State) : Moves s (judgeQuiet r s) :=
  .of_ite (fun _ => .refl _) fun _ => (restartStability_moves hr .p s).trans (restartStability_moves hr .b _)

theorem disturbEnd_moves (a : Action) (g : Nat) (s : State) : Moves s (disturbEnd r a g s) :=
  .of_ite (fun _ => (judgeQuiet_moves hr _).after rfl) fun _ => .refl _

theorem guardEnd_moves (s : State) : Moves s (guardEnd r s) :=
  .of_ite (fun _ => (judgeQuiet_moves hr _).after rfl) fun _ => .refl _

/-! ### Power states (R181 to R185, R196) -/

omit hr in
theorem invalidateZero_view (ch : Channel) (s : State) : (invalidateZero ch s).view = s.view := by cases ch <;> rfl

theorem judgeStarted_moves (s : State) : Moves s (judgeStarted r s) := by
  refine .of_ite (fun _ => .refl _) fun _ => ?_
  split
  · exact hr.after _ rfl
  · exact .refl _

theorem reportStopped_moves (ch : Channel) (x : InitZero) (s : State) : Moves s (reportStopped r ch x s) := by
  cases x with
  | running => exact hr _ _
  | _ => exact .refl _

theorem enterPower_moves (target : PowerMode) (tag : Byte) (cause : PowerCause) (s : State) :
    Moves s (enterPower r target tag cause s) := by
  cases target with
  | dormant =>
    refine .snoc (hr _ _) (.of_ite (fun _ => ?_) fun _ => (judgeStarted_moves hr _).after rfl)
    exact .snoc (reportStopped_moves hr .b _ _) (.snoc (reportStopped_moves hr .p _ _) (.same rfl))
  | _ => exact hr.after _ rfl

theorem wake_moves (tag : Byte) (cause : PowerCause) (s : State) : Moves s (wake r tag cause s) := by
  unfold wake
  cases s.lpm.mode with
  | active => exact .refl _
  | standby => exact hr.after _ rfl
  | dormant => exact hr.after _ rfl

theorem cancelEntry_moves (cause : PowerCause) (s : State) : Moves s (cancelEntry r cause s) := by
  unfold cancelEntry
  split
  · exact .refl _
  · exact hr.after _ rfl

theorem judgeEntry_moves (s : State) : Moves s (judgeEntry r s) := by
  unfold judgeEntry
  split
  · exact .refl _
  · refine .of_ite (fun _ => ?_) fun _ => .refl _
    split
    · exact enterPower_moves hr _ _ _ _
    · exact cancelEntry_moves hr _ _

theorem askEntry_moves (target : PowerMode) (tag : Byte) (cause : PowerCause) (s : State) :
    Moves s (askEntry r target tag cause s).1 := by
  unfold askEntry
  repeat' split
  all_goals first | exact enterPower_moves hr _ _ _ _ | exact .same rfl

theorem idleExpired_moves (s : State) : Moves s (idleExpired r s) :=
  (askEntry_moves hr .standby 0#8 .idleTimer s).trans (.same rfl)

/-! ### The card store and the close (R102, R103, R123) -/

theorem wipeCard_moves (c : CardSlot) (cause : WipeCause) (s : State) : Moves s (wipeCard r c cause s) := by
  unfold wipeCard
  split
  · exact .refl _
  · exact (Moves.of_move (.wipe c) (view_setCard ..)).trans (hr _ _)

theorem wipeWhere_moves (bound : Bool) (cause : WipeCause) (c : CardSlot) (s : State) :
    Moves s (wipeWhere r bound cause c s) := by
  unfold wipeWhere
  split
  · exact .of_ite (fun _ => wipeCard_moves hr c cause s) fun _ => .refl _
  · exact .refl _

theorem wipeAll_moves (bound : Bool) (cause : WipeCause) (s : State) : Moves s (wipeAll r bound cause s) :=
  (wipeWhere_moves hr bound cause .one s).trans (wipeWhere_moves hr bound cause .two _)

/-- Once its bound record is wiped, a slot holds none. -/
theorem wipeWhere_unbound (cause : WipeCause) (c : CardSlot) (s : State) :
    (wipeWhere r true cause c s).view.card c ≠ some true := by
  unfold wipeWhere
  split
  · next x hx =>
    split
    · rw [wipeCard, hx]
      exact (hr _ _).keeps_unbound (by rw [view_setCard]; simp)
    · next hb => rw [view_card, hx]; simpa using hb
  · next hx => rw [view_card, hx]; simp

theorem wipeAll_unbound (cause : WipeCause) (s : State) (c : CardSlot) :
    (wipeAll r true cause s).view.card c ≠ some true := by
  cases c with
  | one =>
    exact (wipeWhere_moves hr true cause .two _).keeps_unbound (wipeWhere_unbound hr cause .one s)
  | two => exact wipeWhere_unbound hr cause .two _

omit hr in
/-- The view of a sale's end (R103, R105). -/
theorem emptySale_view (s : State) : (emptySale s).view =
    { s.view with sale := .idle, items := [], tenders := [], entries := [] } := by
  simp [emptySale, rejudgeCards, bagOff, State.view, Option.map_map]
  exact ⟨by cases s.crd.one <;> rfl, by cases s.crd.two <;> rfl⟩


theorem closeEffects_moves (tag : Byte) (outcome : CloseOutcome) (s : State)
    (hs : s.txn.state = .settled ∨ s.txn.state = .idle) (he : s.txn.entitlement = none) :
    Moves s (closeEffects r tag outcome s) := by
  have hwipe := wipeAll_moves hr true .close s
  refine .snoc (hr _ _) (hwipe.trans (.of_move ?_ (emptySale_view _)))
  exact .close (hwipe.keeps_ended hs) (hwipe.keeps_unentitled he) (wipeAll_unbound hr .close s)

theorem judgeClose_moves (s : State) : Moves s (judgeClose r s) :=
  .of_ite (fun h => (closeEffects_moves hr _ _ (takeSnapshot false s) (.inl h.1) h.2.2).after rfl) fun _ => .refl _

theorem receiptDone_moves (s : State) : Moves s (receiptDone r s) := (judgeClose_moves hr _).after rfl

theorem permitEnded_moves (k : PermitKind) (s : State) : Moves s (permitEnded r k s) :=
  .of_ite (fun _ => judgeClose_moves hr s) fun _ => .refl _

omit hr in
theorem endPermit_moves (k : PermitKind) (s : State) : Moves s (endPermit k s) := by
  cases k with
  | none => exact .refl _
  | entitlement => exact .one .endEntitlement
  | noSale => exact .one .endNoSale

/-! ### The arbiter of the drive supply (R177, R178) -/

omit hr in
theorem shareMode_view (m : JobMode) (s : State) : (shareMode m s).view = s.view := by
  unfold shareMode; split <;> rfl

theorem stepStart_moves (g : Seg) (s : State) : Moves s (stepStart r g s) := by
  unfold stepStart
  repeat' split
  all_goals first | exact .refl _ | exact disturbStart_moves hr _ _

omit hr in
/-- The load of a line that fits: the motor and the head's share are within what is left (R179). -/
theorem lineLoad_fits {s : State} (h : s.dsa.committed + s.need .line ≤ s.set.capacity) :
    s.dsa.committed + (600 + s.dotLimit * s.set.dotCurrent) ≤ s.set.capacity := by
  have hshare : s.dotLimit * s.set.dotCurrent ≤ s.set.capacity - s.dsa.committed - 600 :=
    Nat.le_trans (Nat.mul_le_mul_right _ (Nat.min_le_right ..)) (Nat.div_mul_le_self _ _)
  have hmotor : 600 ≤ s.need .line := Nat.le_add_right ..
  omega

/-- The grant of the request at the head of the queue, where its need fits (R178). -/
theorem grant_moves {q : Requester} {rest : List Requester} {s : State} (hq : s.dsa.queue = q :: rest)
    (hfit : s.dsa.committed + s.need q ≤ s.set.capacity) : Moves s (grant r q { s with dsa.queue := rest }) := by
  cases q with
  | port p =>
    refine .snoc (disturbStart_moves hr _ _) (.of_move (.pulse p rest s.set.pulseOn hq hfit) ?_)
    cases p <;> rfl
  | cutter => exact .snoc (disturbStart_moves hr _ _) (.of_move (.grant .cutter rest 1200 hq (by simp) hfit) rfl)
  | line =>
    simp only [grant, grantLine]
    split
    · exact .snoc (stepStart_moves hr _ _)
        (.of_move (.grant .line rest _ hq (by simp) (lineLoad_fits (s := s) hfit)) (shareMode_view _ _))
    · exact .of_move (.pass .line rest hq (by simp)) rfl

theorem scanFrom_moves (fuel : Nat) (s : State) : Moves s (scanFrom r fuel s) := by
  induction fuel generalizing s with
  | zero => exact .refl _
  | succ fuel ih =>
    rw [scanFrom]
    split
    · exact .refl _
    · next q rest hq =>
      refine .of_ite (fun hfit => .snoc (ih _) (grant_moves hr hq ?_)) fun _ => .refl _
      simp at hfit
      exact hfit.2

theorem scan_moves (s : State) : Moves s (scan r s) :=
  .of_ite (fun _ => .refl _) fun _ => scanFrom_moves hr 8 s

theorem askGrant_moves {q : Requester} (h : ∀ p, q ≠ .port p) (s : State) : Moves s (askGrant r q s) :=
  .snoc (scan_moves hr _) (.one (.ask q h))

theorem withdraw_moves {q : Requester} (h : ∀ p, q ≠ .port p) (s : State) : Moves s (withdraw r q s) := by
  have herase : Moves s { s with dsa.queue := s.dsa.queue.erase q } := .one (.drop q h)
  exact .of_ite (fun _ => .of_ite (fun _ => .snoc (scan_moves hr _) herase) fun _ => herase) fun _ => .refl _

/-! ### Kicks that a bound action can make (R134) -/

theorem startAttempt_moves {p : Port} {s : State} (hm : (s.port p).mode = .closed) (hp : s.set.present p = true) :
    Moves s (startAttempt r p s) := by
  refine .snoc (scan_moves hr _) (.of_move (.attempt p ?_ ?_) ?_)
  · rw [view_port]; exact hm
  · rw [view_presence]; exact hp
  · cases p <;> rfl

theorem kickOpen_moves (tag : Byte) (p : Port) (s : State) : Moves s (kickOpen r tag p s) :=
  .snoc (permitEnded_moves hr _ _) (.snoc (hr _ _) (endPermit_moves _ _))

theorem kickAccepted_moves (tag : Byte) {p : Port} {s : State} (hp : s.set.present p = true) :
    Moves s (kickAccepted r tag p s) := by
  unfold kickAccepted
  split
  · next hm =>
    refine (startAttempt_moves hr ?_ ?_).after (view_modPort_same rfl)
    · simpa [modPort] using hm
    · cases p <;> exact hp
  · exact kickOpen_moves hr tag p s

omit hr in
/-- A kick that no check refuses is of a port with PRESENT on (R134). -/
theorem present_of_kickRefusal {p : Port} {s : State} (h : kickRefusal p s = none) : s.set.present p = true := by
  cases hp : s.set.present p with
  | true => rfl
  | false => simp [kickRefusal, hp] at h

theorem kick_moves (tag : Byte) (p : Port) (s : State) : Moves s (kick r tag p s).1 := by
  unfold kick
  split
  · exact .refl _
  · next h => exact kickAccepted_moves hr tag (present_of_kickRefusal h)

end

end Sys2Proof.Machine
end

