-- ==== Sys2Proof/Proofs/Invariants/Engine.lean ====
section
/-! PROOFS. The print engine, and the actions bound to notices, change the view by moves alone. -/

namespace Sys2Proof.Machine

section
variable {r : Raise} (hr : Calm r)

/-! ### The print engine (chapters 8 and 9) -/

theorem judgeHead_view (s : State) : (judgeHead s).1.view = s.view := by
  unfold judgeHead
  repeat' split
  all_goals rfl

theorem contentDone_view (n : Nat) (w : Work) (s : State) : (contentDone n w s).view = s.view := by
  unfold contentDone; cases w.current <;> rfl

include hr

theorem jobDone_moves (n : Nat) (s : State) : Moves s (jobDone r n s) := by
  unfold jobDone
  split
  · exact .refl _
  · next j _ =>
    have hdone : Moves s (r (.jobDone j.tag n j.role j.lines j.truncated j.unavailable) (dropJob n s)) :=
      hr.after _ rfl
    exact .of_ite (fun _ => .snoc (receiptDone_moves hr _) hdone) fun _ => hdone

theorem jobLeaves_moves (n : Nat) (reason : AbortReason) (ending : Ending) (s : State) :
    Moves s (jobLeaves r n reason ending s) := by
  unfold jobLeaves
  split
  · exact .refl _
  · exact hr.after _ rfl

theorem endPausedWork_moves (s : State) : Moves s (endPausedWork r s) := by
  unfold endPausedWork
  split
  · exact .same rfl
  · exact .snoc (.same (judgeHead_view _)) ((jobLeaves_moves hr _ _ _ _).after rfl)
  · exact .refl _

theorem endFeedAction_moves (s : State) : Moves s (endFeedAction r s) := disturbEnd_moves hr _ _ _

theorem takePause_moves (p : Pause) (s : State) : Moves s (takePause r p s) := by
  refine .of_ite (fun _ => .refl _) fun _ => .snoc (scan_moves hr _) ?_
  have off {t : State} (h : t.view = s.view) : Moves s (withdraw r .line (endFeedAction r t)) :=
    .snoc (withdraw_moves hr (by simp) _) (.snoc (endFeedAction_moves hr t) (.same h))
  cases p with
  | paper => exact .snoc (endPausedWork_moves hr _) (off (shareMode_view _ _))
  | cover => exact .snoc (endPausedWork_moves hr _) (off (shareMode_view _ _))
  | drive => exact .snoc (endFeedAction_moves hr _) (.same (shareMode_view _ _))
  | underrun => exact off (by dsimp only; split <;> exact shareMode_view _ _)
  | hot => exact off (shareMode_view _ _)
  | supply => exact off (shareMode_view _ _)

theorem askLine_moves (s : State) : Moves s (askLine r s) := by
  have hask := askGrant_moves hr (q := .line) (by simp) s
  exact .of_ite (fun _ => takePause_moves hr _ s) fun _ =>
    .of_ite (fun _ => hask) fun _ => .snoc (takePause_moves hr _ _) hask

theorem atBoundary_moves (fuel : Nat) (s : State) : Moves s (atBoundary r fuel s) := by
  induction fuel generalizing s with
  | zero => exact .refl _
  | succ fuel ih =>
    have next {t : State} (h : t.view = s.view) : Moves s (atBoundary r fuel t) := (ih t).after h
    rw [atBoundary]
    split
    · split
      · exact takePause_moves hr _ s
      · have hscan : Moves s (scan r { s with pen.mode := .idle }) := (scan_moves hr _).after rfl
        split
        · next t h =>
          exact .snoc (ih t) (hscan.trans (.same (congrArg (fun x => x.1.view) h ▸ judgeHead_view _)))
        · next t h =>
          exact .snoc (judgeEntry_moves hr t) (hscan.trans (.same (congrArg (fun x => x.1.view) h ▸ judgeHead_view _)))
    · next w _ =>
      split
      · exact next rfl
      · split
        · refine .of_ite (fun _ => next rfl) fun _ => ?_
          split
          · exact takePause_moves hr _ s
          · exact askLine_moves hr s
        · split
          · exact next rfl
          · exact next rfl
          · split
            · exact next rfl
            · refine .of_ite (fun _ => .snoc (ih _) ((jobDone_moves hr _ _).after rfl)) fun _ => ?_
              split
              · exact takePause_moves hr _ s
              · refine .of_ite (fun _ => next rfl) fun _ => ?_
                split
                · exact next rfl
                · exact takePause_moves hr _ s
            · exact next (contentDone_view _ w s)

theorem boundary_moves (s : State) : Moves s (boundary r s) := atBoundary_moves hr _ s

theorem judgeStart_moves (s : State) : Moves s (judgeStart r s) := by
  unfold judgeStart
  have hhead := judgeHead_view s
  split
  · next t h => rw [h] at hhead; exact (boundary_moves hr t).after hhead
  · next t h => rw [h] at hhead; exact .same hhead

theorem rejudgePause_moves (s : State) : Moves s (rejudgePause r s) := by
  unfold rejudgePause
  split
  · exact boundary_moves hr s
  · exact .refl _

theorem prnFeed_moves (n : Nat) (s : State) : Moves s (prnFeed r n s).1 := by
  unfold prnFeed
  repeat' split
  all_goals first | exact .refl _ | exact (boundary_moves hr _).after rfl

end

/-! ### Bound actions (R191) -/

theorem startCapture_moves (tag : Byte) (code price : Nat) (desc : Text) (s : State) :
    Moves s (startCapture tag code price desc s).1 := by
  unfold startCapture
  split
  · exact .refl _
  · next hs =>
    repeat' split
    all_goals first
      | exact .refl _
      | exact .one (.capture _ (by simpa [State.view] using ‹¬ s.wgt.chanP.op.isSome = true›) (Classical.not_not.mp hs))

theorem armReader_view (s : State) : (armReader s).view = s.view := by
  unfold armReader; split <;> rfl

theorem boundAction_moves (a : BindAction) (s : State) : Moves s (boundAction a s).1 := by
  cases a with
  | kick p => exact kick_moves raiseQuiet_calm _ p s
  | capture price => exact startCapture_moves _ _ _ _ s
  | startFeed n => exact prnFeed_moves raiseQuiet_calm n s
  | armReader => exact .same (armReader_view s)

theorem boundCancel_moves (a : BindAction) (s : State) : Moves s (boundCancel a s) :=
  .of_ite (fun _ => cancelEntry_moves raiseQuiet_calm _ s) fun _ => .refl _

theorem fireOne_moves (slot : Nat) (b : Binding) (s : State) : Moves s (fireOne slot b s) := by
  have hempty : Moves s (if b.once then { s with rpt := s.rpt.setBinding none slot } else s) :=
    .of_ite (fun _ => .same (by unfold Report.setBinding; split <;> rfl)) fun _ => .refl _
  have hact := Moves.snoc (boundAction_moves b.action _) (.snoc (boundCancel_moves b.action _)
    (.snoc (wake_moves raiseQuiet_calm 0#8 .wakeRequest _) hempty))
  exact .of_ite (fun _ => hact) fun _ => .snoc (raiseQuiet_calm _ _) hact

theorem fireSlot_moves (code slot : Nat) (s : State) : Moves s (fireSlot code slot s) := by
  unfold fireSlot
  split
  · exact .of_ite (fun _ => fireOne_moves _ _ s) fun _ => .refl _
  · exact .refl _

/-- A raised notice, with the actions bound to it, changes the view by moves alone (R186, R191). -/
theorem raiseLoud_calm : Calm raiseLoud := fun n _ =>
  .snoc (raiseQuiet_calm n _) (.snoc (fireSlot_moves _ 4 _) (.snoc (fireSlot_moves _ 3 _)
    (.snoc (fireSlot_moves _ 2 _) (fireSlot_moves _ 1 _))))

end Sys2Proof.Machine
end

