-- ==== Sys2Proof/Proofs/Invariants/Kicks.lean ====
section
/-! PROOFS. The operations of the drawers change the view by effects alone, on a state whose drawers are safe where that
is asked for (chapter 7). -/

namespace Sys2Proof.Machine

/-- The view comes to that of the other state by effects, from a state that meets the drawers' invariant where it is
asked for. -/
def Effects (k : Option (Port → Lag)) (s t : State) : Prop :=
  s.view.heldAt k → Chain (Effect k) s.view t.view

namespace Effects
variable {k : Option (Port → Lag)} {s t u : State}

theorem same (h : t.view = s.view) : Effects k s t := fun _ => h ▸ .refl

theorem refl (s : State) : Effects k s s := same rfl

theorem heldAt (h : Effects k s t) (hs : s.view.heldAt k) : t.view.heldAt k :=
  chain_keeps (Q := fun v => v.heldAt k) Effect.keeps_heldAt (h hs) hs

theorem trans (h : Effects k s t) (h' : Effects k t u) : Effects k s u := fun hs => (h hs).trans (h' (h.heldAt hs))

/-- Effects to a state from one that effects lead to, the last operation first. -/
theorem snoc (h : Effects k t u) (h' : Effects k s t) : Effects k s u := h'.trans h

theorem after (h : Effects k t u) (ht : t.view = s.view) : Effects k s u := (same ht).trans h

theorem of_effect {w : View} (h : Effect k s.view w) (hw : t.view = w) : Effects k s t := fun _ => hw ▸ .single h

theorem of_moves (h : Moves s t) : Effects k s t := fun _ =>
  Chain.mono (fun h => Effect.move h) h

/-- What the invariant says may be used. -/
theorem of_held (h : s.view.heldAt k → Effects k s t) : Effects k s t := fun hs => h hs hs

theorem of_ite {c : Prop} [Decidable c] (h : c → Effects k s t) (h' : ¬ c → Effects k s u) :
    Effects k s (if c then t else u) := by
  split
  · exact h ‹_›
  · exact h' ‹_›

/-- A port changed in a way that keeps its invariant. -/
theorem of_port {p : Port} {q : PortState}
    (h : ∀ lag, k = some lag → s.view.portHeld (lag p) p → (s.view.setPort p q.view).portHeld (lag p) p) :
    Effects k s (s.setPort p q) :=
  of_effect (.port p q.view h) (view_setPort ..)

/-! What effects leave -/

theorem keeps_ended (h : Effects k s t) (hh : s.view.heldAt k) (hs : s.txn.state = .settled ∨ s.txn.state = .idle) :
    t.txn.state = .settled ∨ t.txn.state = .idle :=
  chain_keeps (Q := fun v => v.sale = .settled ∨ v.sale = .idle) Effect.keeps_ended (h hh) hs

theorem keeps_voided (h : Effects k s t) (hh : s.view.heldAt k) (hs : s.txn.state = .voided) : t.txn.state = .voided :=
  chain_keeps (Q := fun v => v.sale = .voided) Effect.keeps_voided (h hh) hs

theorem keeps_unentitled (h : Effects k s t) (hh : s.view.heldAt k) (hs : s.txn.entitlement = none) :
    t.txn.entitlement = none :=
  chain_keeps (Q := fun v => v.entitlement = none) Effect.keeps_unentitled (h hh) hs

end Effects

/-! ### A port off the queue -/

/-- Where the invariant is asked for, a port is not UNKNOWN and waits for no grant. -/
def Off (k : Option (Port → Lag)) (p : Port) (s : State) : Prop :=
  k ≠ none → (s.port p).mode ≠ .unknown ∧ Requester.port p ∉ s.dsa.queue

/-- A port that no bound action changes until it is changed by its own operation. -/
def Still (k : Option (Port → Lag)) (p : Port) (q : PortView) (s : State) : Prop :=
  k ≠ none → s.view.port p = q ∧ Requester.port p ∉ s.dsa.queue

section
variable {k : Option (Port → Lag)} {s t : State} {p : Port}

theorem not_waiting_of_held {lag : Port → Lag} (h : s.view.held lag) (hm : (s.port p).mode ≠ .grantWait) :
    Requester.port p ∉ s.dsa.queue := fun hq => by
  obtain ⟨-, hports, -⟩ := h
  have hwait := (hports p).2.1.1 hq
  rw [view_port] at hwait
  exact hm hwait

theorem off_of_mode (h : s.view.heldAt k) (hg : (s.port p).mode ≠ .grantWait) (hu : (s.port p).mode ≠ .unknown) :
    Off k p s := fun hk => by
  obtain ⟨lag, rfl⟩ := Option.ne_none_iff_exists'.mp hk
  exact ⟨hu, not_waiting_of_held h hg⟩

/-- Moves leave a port off the queue as it is, where it is not CLOSED or its PRESENT is off. -/
theorem Still.of_moves {q : PortView} (h : Moves s t) (hs : Still k p q s)
    (hq : k ≠ none → q.mode ≠ .closed ∨ s.set.present p = false) : Still k p q t := fun hk => by
  obtain ⟨hport, hwait⟩ := hs hk
  obtain ⟨hport', hwait', -⟩ := h.keeps_steady (b := s.set.present p) ⟨hport, hwait, view_presence .., hq hk⟩
  exact ⟨hport', hwait'⟩

theorem Still.mode {q : PortView} (h : Still k p q s) (hk : k ≠ none) : (s.port p).mode = q.mode := by
  have hport := (h hk).1
  rw [view_port] at hport
  rw [← hport]; rfl

/-- Where nothing is asked, the port may be anything. -/
theorem Effects.of_none (h : k ≠ none → Effects k s t) (h' : k = none → Effects k s t) : Effects k s t := by
  by_cases hk : k = none
  · exact h' hk
  · exact h hk

/-- A port off the queue that comes to rest. -/
theorem Effects.stop {q : PortState} (hoff : k ≠ none → Requester.port p ∉ s.dsa.queue)
    (hon : k ≠ none → q.on = false ∨ q.on = (s.port p).on ∧ (s.port p).mode ≠ .kicking) (hm : q.mode ≠ .kicking)
    (hp : q.present = (s.port p).present) (hl : q.leaving = (s.port p).leaving)
    (hu : k ≠ none → (s.port p).mode ≠ .unknown ∨ q.mode = .unknown ∨ (s.port p).present = true) : Effects k s (s.setPort p q) :=
  .of_port fun lag hk h => by
    have hne : k ≠ none := by simp [hk]
    refine View.portHeld_stop h (hoff hne) ?_ hm ?_ ?_ ?_ <;> rw [view_port]
    · exact hon hne
    · exact hp
    · exact hl
    · exact hu hne

/-- A port whose PRESENT was turned off during its attempt becomes UNKNOWN, and absent, once the attempt has ended
(R140). -/
theorem settle_effects (hoff : k ≠ none → (s.port p).leaving = true → Requester.port p ∉ s.dsa.queue)
    (hon : k ≠ none → (s.port p).leaving = true → (s.port p).on = false) :
    Effects k s (modPort p PortState.settle s) := by
  cases hl : (s.port p).leaving with
  | false => exact .same (view_modPort_same (by simp [PortState.settle, hl]))
  | true =>
    refine .of_port fun lag hk h => ?_
    have hne : k ≠ none := by simp [hk]
    obtain ⟨-, -, hleave, -⟩ := h
    rw [view_port] at hleave
    refine View.portHeld_rest ?_ ?_ (hoff hne hl) ⟨?_, fun _ => ⟨?_, fun _ => ?_⟩⟩ <;>
      simp only [View.port_setPort, View.presence_setPort, PortState.settle, hl, if_true]
    · exact hon hne hl
    · simp [PortState.view]
    · simp [PortState.view]
    · rw [hleave hl]; rfl
    · rfl

end

/-! ### Openings (R134 to R141) -/

theorem endPermit_port (x : PermitKind) (s : State) (p : Port) : (endPermit x s).port p = s.port p := by
  cases x <;> cases p <;> rfl

theorem endPermit_waits (x : PermitKind) (s : State) : (endPermit x s).dsa.queue = s.dsa.queue := by cases x <;> rfl

/-- The first half of the end of a pulse: the solenoid is off. -/
def stopPulse (p : Port) (s : State) : State :=
  modPort p (fun q => { q with mode := .waitOpen, wait := 0, on := false, broken := false }) s

/-- The second half of the end of a pulse: its grant is returned and its action ends. -/
def endPulse (r : Raise) (p : Port) (g : Nat) (s : State) : State :=
  disturbEnd r (.pulse p) g (returnGrant r (.port p) s)

theorem leaveKicking_eq (r : Raise) (p : Port) (s : State) :
    leaveKicking r p s = endPulse r p s.set.drawerGuard (stopPulse p s) := rfl

section
variable {k : Option (Port → Lag)} {r : Raise} (hr : Calm r) {s : State} {p : Port}
include hr

theorem openUnderKick_effects (hoff : Off k p s) : Effects k s (openUnderKick r p s) := by
  have hopen : Effects k (endPermit (s.port p).kick s) ((endPermit (s.port p).kick s).setPort p (s.port p).opened) := by
    refine .stop (fun hk => ?_) (fun _ => .inl rfl) (by simp [PortState.opened]) ?_ ?_ fun hk => ?_
    · rw [endPermit_waits]; exact (hoff hk).2
    · rw [endPermit_port]; rfl
    · rw [endPermit_port]; rfl
    · rw [endPermit_port]; exact .inl (hoff hk).1
  have hstill : Still k p (s.port p).opened.view ((endPermit (s.port p).kick s).setPort p (s.port p).opened) := fun hk => by
    refine ⟨by rw [view_setPort, View.port_setPort], ?_⟩
    have hq := (hoff hk).2
    rw [← endPermit_waits (s.port p).kick s] at hq
    cases p <;> exact hq
  have hnotices t := (hr (.drawerOpened (s.port p).tag p (s.port p).kick (s.port p).attempt) t).trans
    (permitEnded_moves hr (s.port p).kick _)
  have hafter := hstill.of_moves (hnotices _) fun _ => .inl (by simp [PortState.opened, PortState.view])
  refine .snoc (.of_moves (judgeEntry_moves hr _)) (.snoc (settle_effects (fun hk _ => (hafter hk).2) fun hk _ => ?_)
    (.snoc (.of_moves (hnotices _)) (.snoc hopen (.of_moves (endPermit_moves _ s)))))
  have hport := (hafter hk).1
  rw [view_port] at hport
  exact congrArg PortView.on hport

theorem closePort_effects (hm : (s.port p).mode = .opened ∨ (s.port p).mode = .openOverdue) :
    Effects k s (closePort r p s) :=
  .of_held fun hh => .snoc (.of_moves (hr _ _)) (.stop
    (fun hk => (off_of_mode hh (by rcases hm with h | h <;> simp [h]) (by rcases hm with h | h <;> simp [h]) hk).2)
    (fun _ => .inr ⟨rfl, by rcases hm with h | h <;> simp [h]⟩) (by simp) rfl rfl
    fun _ => .inl (by rcases hm with h | h <;> simp [h]))

theorem forcedOpen_effects (hm : (s.port p).mode = .closed ∨ (s.port p).mode = .fault) :
    Effects k s (forcedOpen r p s) := by
  refine .snoc (.of_moves (wake_moves hr _ _ _)) (.snoc (.of_moves (hr.after _ rfl)) ?_)
  rcases hm with h | h
  · refine .of_held fun hh => .stop (fun hk => (off_of_mode hh (by simp [h]) (by simp [h]) hk).2) (fun _ => .inl ?_) ?_
      ?_ ?_ fun _ => .inl (by simp [h]) <;> simp [h, PortState.opened]
  · exact .same (view_modPort_same (by simp [h]))

theorem leftOpen_effects : Effects k s (leftOpen r p s) :=
  .of_ite (fun h => .snoc (.of_moves (hr _ _)) (.of_held fun hh => .stop
    (fun hk => (off_of_mode hh (by simp [h]) (by simp [h]) hk).2) (fun _ => .inr ⟨rfl, by simp [h]⟩) (by simp) rfl rfl
    fun _ => .inl (by simp [h]))) fun _ => .refl _

theorem judgeLeftOpen_effects : Effects k s (judgeLeftOpen r p s) :=
  .of_ite (fun _ => leftOpen_effects hr) fun _ => .refl _

/-! ### Attempts (R135 to R139) -/

/-- A retry begins its attempt. -/
theorem retry_effects (hm : (s.port p).mode = .closed) : Effects k s (startAttempt r p s) :=
  .snoc (.of_moves (scan_moves hr _))
    (.of_effect (.retry p (by rw [view_port]; exact hm)) (by cases p <;> rfl))

omit hr in
theorem releaseLoad_port (q : Requester) (s : State) (p : Port) : (releaseLoad q s).port p = s.port p := by
  unfold releaseLoad settleCap
  split <;> cases p <;> rfl

omit hr in
theorem releaseLoad_waits (q : Requester) (s : State) : (releaseLoad q s).dsa.queue = s.dsa.queue := by
  unfold releaseLoad settleCap
  split <;> rfl

omit hr in
theorem releaseLoad_effects {q : Requester} (h : k ≠ none → ∀ p, q = .port p → (s.port p).mode ≠ .kicking) :
    Effects k s (releaseLoad q s) :=
  .of_effect (.release q fun hk p hq => by rw [view_port]; exact h hk p hq) (view_settleCap _)

theorem returnGrant_effects {q : Requester} (h : ∀ p, q ≠ .port p) : Effects k s (returnGrant r q s) :=
  .snoc (.of_moves (scan_moves hr _)) (releaseLoad_effects fun _ p hq => absurd hq (h p))

/-- A notice raised of a port at rest, then the end of its attempt: where PRESENT was turned off no bound action can have
begun another (R140). -/
theorem noticeSettle_effects (n : Notice) (hoff : k ≠ none → Requester.port p ∉ s.dsa.queue)
    (hon : (s.port p).on = false) : Effects k s (modPort p PortState.settle (r n s)) := by
  refine .of_held fun hh => .snoc ?_ (.of_moves (hr n s))
  have hstill (hk : k ≠ none) (hl : ((r n s).port p).leaving = true) :
      (r n s).view.port p = (s.port p).view ∧ Requester.port p ∉ (r n s).dsa.queue := by
    refine Still.of_moves (hr n s) (fun hk => ⟨view_port s p, hoff hk⟩) (fun _ => .inr ?_) hk
    obtain ⟨lag, rfl⟩ := Option.ne_none_iff_exists'.mp hk
    have hleave := (hh.2.1 p).2.2.1
    rw [view_presence] at hleave
    refine hleave ?_
    rw [← (hr n s).keeps_leaving, view_port]
    exact hl
  refine settle_effects (fun hk hl => (hstill hk hl).2) fun hk hl => ?_
  have hport := (hstill hk hl).1
  rw [view_port] at hport
  exact (congrArg PortView.on hport).trans hon

theorem failAttempt_effects (reason : FailReason) (hoff : Off k p s) : Effects k s (failAttempt r p reason s) := by
  have stop {q : PortState} (hon : q.on = false) (hm : q.mode ≠ .kicking) (hp : q.present = (s.port p).present)
      (hl : q.leaving = (s.port p).leaving) : Effects k s (s.setPort p q) :=
    .stop (fun hk => (hoff hk).2) (fun _ => .inl hon) hm hp hl fun hk => .inl (hoff hk).1
  refine .of_ite (fun _ => ?ended) fun _ => .of_ite (fun _ => ?again) fun _ => ?fault
  case ended =>
    refine .snoc (.of_moves (judgeEntry_moves hr _)) (.snoc (noticeSettle_effects hr _ (fun hk => ?_) ?_)
      (stop rfl (by simp) rfl rfl))
    · rw [State.setPort_dsa]; exact (hoff hk).2
    · rw [State.setPort_port]
  case again => exact .snoc (.of_moves (hr _ _)) (stop rfl (by simp) rfl rfl)
  case fault =>
    exact .snoc (.of_moves (judgeEntry_moves hr _)) (.snoc (.of_moves (permitEnded_moves hr _ _))
      (.snoc (.of_moves (hr _ _)) (.snoc (.of_moves (hr _ _)) (.snoc (.of_moves (endPermit_moves _ _))
        (stop rfl (by simp) rfl rfl)))))

/-! ### The pulse (R136 to R138) -/

omit hr in
theorem stopPulse_port : (stopPulse p s).port p = { s.port p with
    mode := .waitOpen, wait := 0, on := false, broken := false } := modPort_port ..

omit hr in
theorem stopPulse_effects (hm : (s.port p).mode = .kicking) : Effects k s (stopPulse p s) :=
  .of_held fun hh => .stop (fun hk => (off_of_mode hh (by simp [hm]) (by simp [hm]) hk).2) (fun _ => .inl rfl) (by simp)
    rfl rfl fun _ => .inl (by simp [hm])

theorem endPulse_effects (hm : (s.port p).mode = .waitOpen) (g : Nat) : Effects k s (endPulse r p g s) := by
  refine .snoc (.of_moves (disturbEnd_moves hr _ _ _)) (.snoc (.of_moves (scan_moves hr _))
    (releaseLoad_effects fun _ o ho => ?_))
  obtain rfl := Requester.port.inj ho
  simp [hm]

/-- After a pulse the port waits for its opening, whatever bound actions its end has run. -/
theorem endPulse_off (hh : s.view.heldAt k) (hm : (s.port p).mode = .waitOpen) (g : Nat) :
    Off k p (endPulse r p g s) := by
  have hmoves := (scan_moves hr (releaseLoad (.port p) s)).trans (disturbEnd_moves hr (.pulse p) g _)
  have hstill : Still k p (s.port p).view (endPulse r p g s) := by
    refine Still.of_moves hmoves (fun hk => ⟨?_, ?_⟩) fun _ => .inl (by simp [PortState.view, hm])
    · rw [view_port, releaseLoad_port]
    · rw [releaseLoad_waits]
      exact (off_of_mode hh (by simp [hm]) (by simp [hm]) hk).2
  exact fun hk => ⟨by rw [hstill.mode hk]; simp [PortState.view, hm], (hstill hk).2⟩

theorem leaveKicking_effects (hm : (s.port p).mode = .kicking) : Effects k s (leaveKicking r p s) :=
  leaveKicking_eq r p s ▸ .snoc (endPulse_effects hr (by rw [stopPulse_port]) _) (stopPulse_effects hm)

theorem leaveKicking_off (hh : s.view.heldAt k) (hm : (s.port p).mode = .kicking) : Off k p (leaveKicking r p s) :=
  leaveKicking_eq r p s ▸ endPulse_off hr ((stopPulse_effects hm).heldAt hh) (by rw [stopPulse_port]) _

theorem openRemembered_effects (hoff : Off k p s) : Effects k s (openRemembered r p s) :=
  have hopen := openUnderKick_effects hr hoff
  .of_ite (fun h => .snoc (closePort_effects hr (.inl h.1)) hopen) fun _ => hopen

theorem pulseEnd_effects (hm : (s.port p).mode = .kicking) : Effects k s (pulseEnd r p s) :=
  .of_held fun hh =>
    .of_ite (fun _ => .snoc (openRemembered_effects hr (leaveKicking_off hr hh hm)) (leaveKicking_effects hr hm))
      fun _ => leaveKicking_effects hr hm

theorem overcurrentFail_effects (hm : (s.port p).mode = .kicking) : Effects k s (overcurrentFail r p s) :=
  .of_held fun hh =>
    .of_ite (fun _ => .snoc (openRemembered_effects hr (leaveKicking_off hr hh hm)) (leaveKicking_effects hr hm))
      fun _ => .snoc (failAttempt_effects hr _ (leaveKicking_off hr hh hm)) (leaveKicking_effects hr hm)

/-! ### Grant waits (R135, R140) -/

/-- The withdrawal of a port's request takes it off the queue, and leaves the port as it was. -/
theorem withdrawPort_effects : Effects k s (withdraw r (.port p) s) := by
  have herase : Effects k s { s with dsa.queue := s.dsa.queue.erase (.port p) } := .of_effect (.withdraw p) rfl
  exact .of_ite (fun _ => .of_ite (fun _ => .snoc (.of_moves (scan_moves hr _)) herase) fun _ => herase)
    fun _ => .refl _

theorem withdrawPort_still (hh : s.view.heldAt k) (hm : (s.port p).mode ≠ .closed ∨ s.set.present p = false) :
    Still k p (s.port p).view (withdraw r (.port p) s) := by
  have herase : Still k p (s.port p).view { s with dsa.queue := s.dsa.queue.erase (.port p) } := fun hk => by
    obtain ⟨lag, rfl⟩ := Option.ne_none_iff_exists'.mp hk
    have honce : s.dsa.queue.count (.port p) ≤ 1 := (hh.2.1 p).2.1.2
    refine ⟨view_port s p, fun hmem => ?_⟩
    have hcount := List.count_pos_iff.mpr hmem
    rw [List.count_erase_self] at hcount
    omega
  unfold withdraw
  split
  · split
    · exact herase.of_moves (scan_moves hr _) fun _ => hm
    · exact herase
  · next hnot => exact fun _ => ⟨view_port s p, hnot⟩

theorem withdrawPort_off (hh : s.view.heldAt k) (hm : (s.port p).mode = .grantWait) :
    Off k p (withdraw r (.port p) s) := fun hk => by
  have hstill := withdrawPort_still hr hh (p := p) (.inl (by simp [hm]))
  exact ⟨by rw [hstill.mode hk]; simp [PortState.view, hm], (hstill hk).2⟩

theorem grantWaitEnd_effects (hm : (s.port p).mode = .grantWait) : Effects k s (grantWaitEnd r p s) :=
  .of_held fun hh => .snoc (failAttempt_effects hr _ (withdrawPort_off hr hh hm)) (withdrawPort_effects hr)

theorem abandonGrantWait_effects (hm : (s.port p).mode = .grantWait) : Effects k s (abandonGrantWait r p s) := by
  refine .of_held fun hh => .snoc (.of_moves (hr _ _)) (.snoc (.stop (fun hk => ?_) (fun hk => ?_) ?_ rfl rfl fun hk => ?_)
    (withdrawPort_effects hr (p := p)))
  · exact (withdrawPort_off hr hh hm hk).2
  · refine .inr ⟨rfl, ?_⟩
    rw [(withdrawPort_still hr hh (p := p) (.inl (by simp [hm]))).mode hk]
    simp [PortState.view, hm]
  · simp
  · exact .inl (withdrawPort_off hr hh hm hk).1

/-! ### The end of a permit (R140) -/

theorem cancelKick_effects : Effects k s (cancelKick r p s) := by
  refine .of_ite (fun _ => ?_) fun _ => .refl _
  split
  · next hm => exact .snoc (.of_moves (judgeEntry_moves hr _)) (abandonGrantWait_effects hr hm)
  · exact .same (view_modPort_same rfl)
  · exact .same (view_modPort_same rfl)
  · exact .snoc (.of_moves (judgeEntry_moves hr _)) (.same (view_modPort_same rfl))

theorem removeAbsent_moves (tag : Byte) (x : PermitKind) : Moves s (removeAbsent r tag p x s) :=
  .of_ite (fun _ => .refl _) fun _ => .snoc (permitEnded_moves hr _ _) (.snoc (hr _ _)
    (.snoc (.same (view_modPort_same rfl)) (endPermit_moves _ _)))

/-! ### Sense events (R130, R131, R141) -/

omit hr in
/-- A present port takes its state from its sense (R131). -/
theorem takeSense_effects (hm : (s.port p).mode = .unknown) (hp : (s.port p).present = true) :
    Effects k s (takeSense p s) := by
  have hoff (hh : s.view.heldAt k) (hk : k ≠ none) : Requester.port p ∉ s.dsa.queue := by
    obtain ⟨lag, rfl⟩ := Option.ne_none_iff_exists'.mp hk
    exact not_waiting_of_held hh (by simp [hm])
  refine .of_held fun hh => ?_
  unfold takeSense
  split
  · exact .stop (hoff hh) (fun _ => .inl rfl) (by simp [PortState.opened]) rfl rfl fun _ => .inr (.inr hp)
  · exact .stop (hoff hh) (fun _ => .inr ⟨rfl, by simp [hm]⟩) (by simp) rfl rfl fun _ => .inr (.inr hp)
  · exact .refl _

theorem senseEvent_effects (isOpen : Bool) (hp : (s.port p).present = true) :
    Effects k s (senseEvent r p isOpen s) := by
  unfold senseEvent
  split <;> rename_i hm
  · exact takeSense_effects hm hp
  · refine .of_ite (fun _ => .refl _) fun _ => .of_ite (fun _ => .of_held fun hh => ?_) fun _ =>
      forcedOpen_effects hr (.inl hm)
    exact openUnderKick_effects hr (off_of_mode hh (by simp [hm]) (by simp [hm]))
  · refine .of_ite (fun _ => .of_held fun hh => ?_) fun _ => .refl _
    exact .snoc (openUnderKick_effects hr (withdrawPort_off hr hh hm)) (withdrawPort_effects hr)
  · exact .of_ite (fun _ => .same (view_modPort_same rfl)) fun _ => .refl _
  · refine .of_ite (fun _ => .of_held fun hh => ?_) fun _ => .refl _
    exact openUnderKick_effects hr (off_of_mode hh (by simp [hm]) (by simp [hm]))
  · exact .of_ite (fun _ => .refl _) fun _ => closePort_effects hr (.inl hm)
  · exact .of_ite (fun _ => .refl _) fun _ => closePort_effects hr (.inr hm)
  · exact .of_ite (fun _ => forcedOpen_effects hr (.inr hm)) fun _ => .refl _

theorem senseDebounced_effects : Effects k s (senseDebounced r p s) := by
  refine .of_ite (fun _ => .refl _) fun _ => ?_
  have hheld : (s.setPort p { s.port p with held := some (s.port p).level, deb := none }).view = s.view :=
    view_modPort_same (f := fun q => { q with held := some q.level, deb := none }) rfl
  split
  · next o hp ho =>
    refine .of_ite (fun _ => .of_ite (fun hm => ?_) fun _ => .same hheld) fun _ => ?_
    · exact (takeSense_effects (by simpa using hm) (by simpa using hp)).after hheld
    · exact (senseEvent_effects hr o (by simpa using hp)).after hheld
  · exact .same hheld

theorem polarityChanged_effects : Effects k s (polarityChanged r p s) := by
  refine .of_ite (fun _ => .refl _) fun hp => ?_
  have hp : (s.port p).present = true := by simpa using hp
  have unknown {q : PortState} (hh : s.view.heldAt k)
      (hm : (s.port p).mode = .closed ∨ (s.port p).mode = .opened ∨ (s.port p).mode = .openOverdue)
      (hq : q.view = { (s.port p).view with mode := .unknown }) : Effects k s (s.setPort p q) := by
    have hmode : (s.port p).mode ≠ .unknown ∧ (s.port p).mode ≠ .grantWait ∧ (s.port p).mode ≠ .kicking := by
      rcases hm with h | h | h <;> simp [h]
    refine .stop (fun hk => (off_of_mode hh hmode.2.1 hmode.1 hk).2) (fun _ => .inr ⟨?_, hmode.2.2⟩) ?_ ?_ ?_
      fun _ => .inl hmode.1
    · exact congrArg PortView.on hq
    · rw [show q.mode = .unknown from congrArg PortView.mode hq]; simp
    · exact congrArg PortView.present hq
    · exact congrArg PortView.leaving hq
  split <;> rename_i hm
  · exact .of_held fun hh => unknown hh (.inr (.inl hm)) rfl
  · exact .of_held fun hh => unknown hh (.inr (.inr hm)) rfl
  · refine .of_ite (fun _ => ?_) fun _ => .of_held fun hh => unknown hh (.inl hm) rfl
    split
    · exact senseEvent_effects hr _ hp
    · exact .refl _
  · exact senseEvent_effects hr _ hp
  · exact .refl _

end

end Sys2Proof.Machine
end

