-- ==== Sys2Proof/Proofs/Invariants/Events.lean ====
section
/-! PROOFS. The operations and the events of the weighing engine, the bagging monitor, the card reader and the print engine
change the view by effects alone (chapters 2 to 6, 8 and 9). -/

namespace Sys2Proof.Machine

section
variable {k : Option (Port → Lag)} {r : Raise} (hr : Calm r)
include hr

/-! ### Aborts, the end of a dot line and the cut (R158 to R161, R172) -/

theorem abortAtOnce_moves (n : Nat) (reason : AbortReason) (s : State) : Moves s (abortAtOnce r n reason s) :=
  .snoc (judgeEntry_moves hr _) (.snoc (judgeStart_moves hr _) (jobLeaves_moves hr n reason _ s))

theorem abortJob_moves (n : Nat) (reason : AbortReason) (s : State) : Moves s (abortJob r n reason s) := by
  unfold abortJob
  split
  · exact abortAtOnce_moves hr n reason s
  · exact abortAtOnce_moves hr n reason s
  · exact abortAtOnce_moves hr n reason s
  · refine .of_ite (fun _ => ?_) fun _ => .same rfl
    dsimp only
    split <;> exact .same rfl
  · exact (abortAtOnce_moves hr n reason _).after rfl
  · exact (abortAtOnce_moves hr n reason _).after rfl
  · exact (boundary_moves hr _).after rfl
  · exact .refl _
  · exact .refl _

theorem stallExpired_moves (s : State) : Moves s (stallExpired r s) := by
  unfold stallExpired
  split
  · exact abortJob_moves hr _ _ s
  · exact .refl _

theorem judgeStall_moves (s : State) : Moves s (judgeStall r s) := by
  unfold judgeStall
  split
  · exact .of_ite (fun _ => abortJob_moves hr _ _ s) fun _ => .refl _
  · exact .refl _

theorem endUnderrun_moves (s : State) : Moves s (endUnderrun r s) :=
  .of_ite (fun _ => (boundary_moves hr _).after (shareMode_view _ _)) fun _ => .refl _

omit hr in
theorem countLine_view (w : Work) (g : Seg) (s : State) : (countLine w g s).view = s.view := by
  unfold countLine; split <;> rfl

theorem lineEnd_effects (mv : Nat) (s : State) : Effects k s (lineEnd r mv s) := by
  unfold lineEnd
  dsimp only
  split
  · next w _ _ =>
    have hreleased (t : State) g (h : t.view = s.view) : Effects k s (disturbEnd r .line g (releaseLoad .line t)) :=
      .snoc (.of_moves (disturbEnd_moves hr _ _ _)) ((releaseLoad_effects (by simp)).after h)
    have hreleased g := hreleased { s with dsa.mv := mv, pen.line := none } g rfl
    generalize hx : disturbEnd r .line _ _ = x
    refine .trans (t := x) (hx ▸ hreleased _) (.of_moves ?_)
    have acted (c : Bool) (t : State) : Moves t (if c = true then endFeedAction r t else t) :=
      .of_ite (fun _ => endFeedAction_moves hr t) fun _ => .refl t
    have counted (c : Bool) (g : Seg) (t : State) : Moves t (if c = true then countLine w g t else t) :=
      .of_ite (fun _ => .same (countLine_view w g t)) fun _ => .refl t
    split
    · exact boundary_moves hr x
    · next g _ _ =>
      have hacted := acted (decide (g.height ≤ w.row + 1) || (x.turned w).isSome) x
      generalize (if decide (g.height ≤ w.row + 1) || (x.turned w).isSome then endFeedAction r x else x) = y at hacted ⊢
      have hcounted := counted (decide (g.height ≤ w.row + 1) && !(x.turned w).isSome) g y
      generalize (if decide (g.height ≤ w.row + 1) && !(x.turned w).isSome then countLine w g y else y) = z at hcounted ⊢
      refine hacted.trans (hcounted.trans ?_)
      refine .of_ite (fun _ => .of_ite (fun _ => ?_) fun _ => (boundary_moves hr _).after rfl) fun _ =>
        (boundary_moves hr _).after rfl
      exact (askGrant_moves hr (by simp) _).after rfl
  · exact .same rfl

theorem cutterStops_effects (s : State) : Effects k s (cutterStops r s) :=
  .snoc (.of_moves (disturbEnd_moves hr _ _ _)) ((returnGrant_effects hr (by simp)).after rfl)

theorem cutDone_effects (s : State) : Effects k s (cutDone r s) := by
  refine (cutterStops_effects hr s).trans (.of_moves ?_)
  unfold cutDone
  dsimp only
  split
  · split
    · exact .snoc (boundary_moves hr _) (.snoc (.same rfl) ((jobLeaves_moves hr _ _ _ _).after rfl))
    · exact (boundary_moves hr _).after rfl
  · exact .refl _

theorem cutJam_effects (s : State) : Effects k s (cutJam r s) := by
  refine (cutterStops_effects hr s).trans (.of_moves ?_)
  unfold cutJam
  dsimp only
  refine .snoc (judgeEntry_moves hr _) (.snoc (judgeStart_moves hr _) (.trans (hr.after (s := cutterStops r s) .cutterJam (t := { cutterStops r s with rpt.latched.cutterJam := true }) rfl) ?_))
  split
  · exact (jobLeaves_moves hr _ _ _ _).after rfl
  · exact (jobLeaves_moves hr _ _ _ _).after rfl
  · exact .same rfl

/-! ### Sensors of the printer and the supply (R165, R166, R180) -/

theorem sensorChange_moves (x : PrintSensor) (active : Bool) (s : State) : Moves s (sensorChange r x active s) := by
  cases x with
  | paperLow => exact .of_ite (fun _ => .refl _) fun _ => .of_ite (fun _ => hr.after _ rfl) fun _ => .same rfl
  | paperOut =>
    exact .of_ite (fun _ => .refl _) fun _ => .snoc (rejudgePause_moves hr _)
      (.of_ite (fun _ => hr.after _ rfl) fun _ => .same rfl)
  | cover =>
    exact .of_ite (fun _ => .refl _) fun _ => .snoc (rejudgePause_moves hr _)
      (.of_ite (fun _ => hr.after _ rfl) fun _ => .same rfl)

theorem headReading_moves (celsius : Int) (s : State) : Moves s (headReading r celsius s) := by
  have htheta : (takeTheta celsius s).view = s.view := by unfold takeTheta; split <;> rfl
  exact .of_ite (fun _ => .of_ite (fun _ => .same htheta) fun _ => .snoc (rejudgePause_moves hr _)
    (.of_ite (fun _ => hr.after _ htheta) fun _ => .same htheta)) fun _ => .refl _

theorem supplyLowStart_moves (mv : Nat) (s : State) : Moves s (supplyLowStart r mv s) :=
  .of_ite (fun _ => .refl _) fun _ => (rejudgePause_moves hr _).after rfl

theorem supplyLowEnd_moves (mv : Nat) (s : State) : Moves s (supplyLowEnd r mv s) :=
  .of_ite (fun _ => .snoc (rejudgePause_moves hr _) ((scan_moves hr _).after rfl)) fun _ => .refl _

/-! ### Ends of operations (R39 to R57) -/

omit hr in
theorem freeSlot_effects (ch : Channel) (s : State) : Effects k s (freeSlot ch s) := by
  cases ch with
  | p => exact .of_effect .freeOp rfl
  | b => exact .same rfl

theorem cancelHolder_effects (ch : Channel) (o : Op) (s : State) : Effects k s (cancelHolder r ch o s) := by
  unfold cancelHolder
  split <;> exact .snoc (.of_moves (hr _ _)) (freeSlot_effects ch s)

theorem cancelOp_effects (ch : Channel) (s : State) : Effects k s (cancelOp r ch s).1 := by
  unfold cancelOp
  repeat' split
  all_goals first | exact .refl _ | exact cancelHolder_effects hr ch _ s

theorem expireOp_effects (ch : Channel) (s : State) : Effects k s (expireOp r ch s) := by
  unfold expireOp
  repeat' split
  all_goals first | exact .refl _ | exact .snoc (.of_moves (hr _ _)) (freeSlot_effects ch s)

theorem permitLost_effects (ch : Channel) (s : State) : Effects k s (permitLost r ch s) := by
  unfold permitLost
  repeat' split
  all_goals first | exact .refl _ | exact .snoc (.of_moves (hr _ _)) (freeSlot_effects ch s)

/-! ### Initial zero, SCALE_ZERO, tracking and calibration (R38 to R46) -/

theorem startupStep_moves (s : State) : Moves s (startupStep r s) :=
  .snoc (judgeStart_moves hr _) (judgeStarted_moves hr s)

theorem endAttempt_moves (ch : Channel) (res : InitResult) (s : State) : Moves s (endAttempt r ch res s) := by
  have hset : (s.setChan ch { s.chan ch with init := .ended res }).view = s.view := view_setChan rfl
  refine .of_ite (fun _ => ?_) fun _ => .same hset
  split <;> exact hr.after _ hset

theorem beginAttempt_moves (ch : Channel) (s : State) : Moves s (beginAttempt r ch s) :=
  .of_ite (fun _ => .same (view_setChan rfl)) fun _ => endAttempt_moves hr ch _ s

omit hr in
theorem setZero_view (ch : Channel) (zc zw : Int) (s : State) : (setZero ch zc zw s).view = s.view := by
  cases ch <;> rfl

theorem judgeAttempt_moves (ch : Channel) (s : State) : Moves s (judgeAttempt r ch s) := by
  unfold judgeAttempt
  split
  · exact .of_ite (fun _ => (endAttempt_moves hr ch _ _).after (setZero_view ..)) fun _ => endAttempt_moves hr ch _ s
  · exact .refl _

omit hr in
theorem endSuspension_view (ch : Channel) (s : State) : (endSuspension ch s).view = s.view := by
  cases ch <;> unfold endSuspension <;> dsimp only <;> split <;> rfl

theorem judgeZero_effects (ch : Channel) (tag : Byte) (s : State) : Effects k s (judgeZero r ch tag s) := by
  refine .of_ite (fun _ => ?_) fun _ => .snoc (.of_moves (hr _ _)) (freeSlot_effects ch s)
  exact .snoc (.of_moves (hr _ _)) ((freeSlot_effects ch _).after ((endSuspension_view ..).trans (setZero_view ..)))

omit hr in
theorem trackZero_view (ch : Channel) (s : State) : (trackZero ch s).view = s.view := by
  unfold trackZero
  dsimp only
  repeat' split
  all_goals cases ch <;> rfl

omit hr in
theorem calWrite_view (ch : Channel) (c0 : Int) (n : Nat) (s : State) : (calWrite ch c0 n s).view = s.view := by
  cases ch with
  | p =>
    have hop : ∀ o : Option Op, (o.map fun o => { o with writing := true }).map Op.kind = o.map Op.kind := fun o => by
      cases o <;> rfl
    exact ((view_setChan (ch := .p) (hop _)).trans (invalidateZero_view .p _)).trans rfl
  | b => rfl

theorem judgeCal_effects (ch : Channel) (o : Op) (s : State) : Effects k s (judgeCal r ch o s).1 := by
  unfold judgeCal
  dsimp only
  repeat' split
  · exact .same (calWrite_view ..)
  · exact .snoc (.of_moves (hr _ _)) ((freeSlot_effects ch _).after (view_setChan rfl))
  · exact .snoc (.of_moves (hr _ _)) (freeSlot_effects ch s)
  · exact .same (calWrite_view ..)
  · exact .refl _

theorem judgeZeroOps_effects (ch : Channel) (waiting : Option Op) (s : State) :
    Effects k s (judgeZeroOps r ch waiting s).1 := by
  unfold judgeZeroOps
  repeat' split
  all_goals first | exact .refl _ | exact judgeZero_effects hr ch _ s | exact judgeCal_effects hr ch _ s

/-! ### The expectation list and the capture (R49, R53 to R55, R73 to R76) -/

omit hr in
theorem appendEntry_view (e : Entry) (s : State) : (appendEntry e s).view = s.view.append e.slot := by
  unfold appendEntry View.append
  rw [show s.view.entries.length = s.bag.entries.length from List.length_map _]
  split
  · simp [setBagStatus, modItem, State.view, View.setBag]
  · rfl

omit hr in
theorem within_of_limits {l : List Item} {n : Nat} (h : withinLimits l n = true) : total l + n ≤ 99999999 := by
  simp only [withinLimits, Bool.and_eq_true, decide_eq_true_eq] at h
  exact h.1

/-- A candidate of the capture in flight becomes the next item, or is refused (R92). -/
theorem judgeCandidate_effects (tag : Byte) (code : Nat) (desc : Text) {w : WeighRecord} {s : State}
    (hslot : w.slot = s.nextSlot) (hop : ∃ o, s.view.op = some o ∧ o.isCapture = true) :
    Effects k s (judgeCandidate r tag code desc w s) := by
  refine .of_ite (fun _ => .snoc (.of_moves (hr _ _)) (freeSlot_effects .p s)) fun hroom => .of_ite (fun hlimit => ?_)
    fun _ => .snoc (.of_moves (hr _ _)) (freeSlot_effects .p s)
  have hitem : Effects k s (appendEntry (Entry.new w.slot false w.gross 0)
      (addItem (Item.new w.slot code 1 w.price w.amount desc (some w)) s)) :=
    .of_effect (.expectItem (Item.new w.slot code 1 w.price w.amount desc (some w)) hslot (Nat.not_le.mp hroom)
      (within_of_limits hlimit) (.inr hop)) (appendEntry_view ..)
  refine .snoc (.of_moves (hr _ _)) (.snoc (freeSlot_effects .p _) (hitem.trans (.same ?_)))
  dsimp only
  split <;> rfl

theorem judgeTare_effects (tag : Byte) (s : State) : Effects k s (judgeTare r tag s) := by
  have hfree (t : State) (n : Notice) (h : t.view = s.view) : Effects k s (r n (freeSlot .p t)) :=
    .snoc (.of_moves (hr _ _)) ((freeSlot_effects .p t).after h)
  exact .of_ite (fun _ => hfree s _ rfl) fun _ => .of_ite (fun _ => hfree _ _ rfl) fun _ => hfree s _ rfl

/-- The tare or the capture that waits on P, where a capture is still in flight (R48, R53). -/
theorem judgePOps_effects (waiting : Option Op) (s : State)
    (hop : ∀ o, waiting = some o → o.kind.isCapture = true → s.view.op = some o.kind) :
    Effects k s (judgePOps r waiting s) := by
  unfold judgePOps
  split
  · exact .refl _
  · next o =>
    split
    · exact judgeTare_effects hr _ s
    · next price code desc hkind =>
      split
      · refine judgeCandidate_effects hr _ _ _ rfl ⟨o.kind, hop o rfl (by rw [hkind]; rfl), by rw [hkind]; rfl⟩
      · exact .refl _
    · exact .refl _

/-! ### The bagging monitor (R68 to R80) -/

omit hr in
/-- An entry leaves the list with its item's status. -/
theorem unexpect_effects (slot : Nat) {f : Item → Item}
    (hf : ∀ it, (f it).slot = it.slot ∧ (f it).amount = it.amount ∧ (f it).void = it.void) (s : State) :
    Effects k s (modItem slot f (dropEntry slot s)) := by
  refine .of_effect (.unexpect slot f hf) ?_
  simp [modItem, dropEntry, State.view, List.filter_map]
  rfl

theorem bagStable_effects (s : State) : Effects k s (bagStable r s) := by
  unfold bagStable
  split
  · exact .refl _
  · split
    · exact .same rfl
    · refine .of_ite (fun _ => ?_) fun _ => .refl _
      unfold judgeSettle
      dsimp only
      split
      · refine .snoc (.of_moves (hr _ _)) (.snoc (.same rfl) ((unexpect_effects _ (fun it => ?_) _).after rfl))
        split <;> exact ⟨rfl, rfl, rfl⟩
      · exact .of_moves (hr.after _ rfl)

theorem entryOverdue_effects (slot : Nat) (s : State) : Effects k s (entryOverdue r slot s) := by
  unfold entryOverdue
  split
  · exact .refl _
  · refine .snoc (.of_moves (hr _ _)) (.of_effect (.overdue slot) ?_)
    have hslots : ∀ f : Entry → Entry, (∀ e, (f e).slot = e.slot) →
        (s.bag.entries.map f).map Entry.slot = s.bag.entries.map Entry.slot := fun f hf => by simp [hf]
    simp only [setBagStatus, modItem, State.view, View.setBag]
    rw [hslots _ fun e => by split <;> rfl]

theorem judgeOverdue_effects (s : State) : Effects k s (judgeOverdue r s) := by
  unfold judgeOverdue
  generalize s.bag.entries.filter _ = l
  induction l generalizing s with
  | nil => exact .refl _
  | cons e l ih => exact .snoc (ih _) (entryOverdue_effects hr e.slot s)

/-! ### A reading (R22 to R34) -/

theorem powerStable_moves (s : State) : Moves s (powerStable r s) := by
  refine .of_ite (fun _ => ?_) fun _ => .refl _
  split
  · exact .same rfl
  · exact .of_ite (fun _ => wake_moves hr _ _ s) fun _ => .refl _

theorem noticeRange_moves (ch : Channel) (before : RangeFlag) (s : State) : Moves s (noticeRange r ch before s) :=
  .of_ite (fun _ => .refl _) fun _ => hr _ _

theorem overrangeReading_moves (ch : Channel) (flag : RangeFlag) (s : State) :
    Moves s (overrangeReading r ch flag s) :=
  .snoc (restartWindows_moves hr ch _) ((noticeRange_moves hr ch _ _).after (view_setChan rfl))

theorem weighReading_moves (ch : Channel) (v : Int) (s : State) : Moves s (weighReading r ch v s) :=
  (noticeRange_moves hr ch _ _).after (view_setChan rfl)

theorem stabilityReading_moves (ch : Channel) (s : State) : Moves s (stabilityReading r ch s).1 := by
  have hset {c : Chan} (hc : c.op = (s.chan ch).op) : (s.setChan ch c).view = s.view := view_setChan (by rw [hc])
  unfold stabilityReading
  dsimp only
  split
  · exact .same (by cases ch <;> rfl)
  · exact (leaveStable_moves hr ch _).after (hset rfl)

omit hr in
theorem rearm_view (s : State) : (rearm s).view = s.view := by unfold rearm; split <;> rfl

omit hr in
/-- Nothing of the zero operations is waiting where a capture is. -/
theorem judgeZeroOps_of_capture {ch : Channel} {o : Op} (ho : o.kind.isCapture = true) (s : State) :
    judgeZeroOps r ch (some o) s = (s, false) := by
  unfold judgeZeroOps
  cases hk : o.kind <;> simp [hk, OpKind.isCapture] at ho ⊢

/-- The receivers of a reading of P find the capture that waited at the reading still in flight. -/
theorem receivers_effects (ch : Channel) (waiting : Option Op) (stable event : Bool) (s : State)
    (hop : ch = .p → ∀ o, waiting = some o → o.kind.isCapture = true → s.view.op = some o.kind) :
    Effects k s (receivers r ch waiting stable event s) := by
  cases ch with
  | p =>
    refine .trans (t := if stable = true then judgePOps r waiting (rearm s) else rearm s) ?_ ?_
    · refine .of_ite (fun _ => ?_) fun _ => .same (rearm_view s)
      exact (judgePOps_effects hr waiting _ (by rw [rearm_view]; exact hop rfl)).after (rearm_view s)
    · exact .of_ite (fun _ => .of_moves (powerStable_moves hr _)) fun _ => .refl _
  | b => exact .of_ite (fun _ => bagStable_effects hr s) fun _ => .refl _

theorem valueReading_effects (ch : Channel) (v : Int) (s : State) : Effects k s (valueReading r ch v s) := by
  have hread := (weighReading_moves hr ch v s).trans (stabilityReading_moves hr ch _)
  unfold valueReading
  generalize stabilityReading r ch (weighReading r ch v s) = x at hread ⊢
  obtain ⟨t, event⟩ := x
  dsimp only at hread ⊢
  have htracked : Moves s (if event = true then judgeAttempt r ch (trackZero ch t) else trackZero ch t) :=
    hread.trans (.of_ite (fun _ => (judgeAttempt_moves hr ch _).after (trackZero_view ch t)) fun _ =>
      .same (trackZero_view ch t))
  generalize (if event = true then judgeAttempt r ch (trackZero ch t) else trackZero ch t) = u at htracked ⊢
  have hzero : Effects k u (if (t.chan ch).stable = true then judgeZeroOps r ch (s.chan ch).op u else (u, false)).1 := by
    split
    · exact judgeZeroOps_effects hr ch _ u
    · exact .refl _
  have hcapture : ch = .p → ∀ o, (s.chan ch).op = some o → o.kind.isCapture = true →
      (if (t.chan ch).stable = true then judgeZeroOps r ch (s.chan ch).op u else (u, false)).1.view.op =
        some o.kind := by
    rintro rfl o ho hcap
    have hop : u.view.op = some o.kind :=
      htracked.keeps_op (show s.wgt.chanP.op.map Op.kind = _ by rw [show s.wgt.chanP.op = some o from ho]; rfl)
    rw [ho, judgeZeroOps_of_capture hcap]
    split <;> exact hop
  generalize (if (t.chan ch).stable = true then judgeZeroOps r ch (s.chan ch).op u else (u, false)) = x at hzero hcapture ⊢
  obtain ⟨y, wrote⟩ := x
  dsimp only at hzero hcapture ⊢
  have hnotice (z : State) : Moves z (if event = true then r (.scaleStable ch (z.chan ch).d) z else z) :=
    .of_ite (fun _ => hr _ _) fun _ => .refl _
  have hrestart (z : State) : Moves z (if wrote = true then restartStability r ch z else z) :=
    .of_ite (fun _ => restartStability_moves hr ch z) fun _ => .refl _
  have hstarted (z : State) : Moves z (if (event && !z.sst.started) = true then startupStep r z else z) :=
    .of_ite (fun _ => startupStep_moves hr z) fun _ => .refl _
  exact .snoc (.of_moves (hstarted _)) (.snoc (.of_moves (hrestart _)) (.snoc (.of_moves (hnotice _))
    (.snoc (receivers_effects hr ch _ _ event y hcapture) (.snoc hzero (.of_moves htracked)))))

theorem readBlock_effects (ch : Channel) (b : Samples) (s : State) : Effects k s (readBlock r ch b s) := by
  refine .of_ite (fun _ => ?_) fun _ => .refl _
  split
  · exact .of_moves (overrangeReading_moves hr ch _ s)
  · exact valueReading_effects hr ch _ s

/-! ### The channels' timers (R21, R38, R65) -/

theorem warmupEnd_moves (s : State) : Moves s (warmupEnd r s) :=
  .of_ite (fun _ => .snoc (startupStep_moves hr _) (.snoc (beginAttempt_moves hr .b _) (.snoc (beginAttempt_moves hr .p _)
    (.snoc (restartWindows_moves hr .b _) ((restartWindows_moves hr .p _).after rfl))))) fun _ => .refl _

theorem initialZeroEnd_moves (ch : Channel) (s : State) : Moves s (initialZeroEnd r ch s) := by
  unfold initialZeroEnd
  split
  · exact .snoc (startupStep_moves hr _) (endAttempt_moves hr ch _ s)
  · exact .refl _

omit hr in
theorem streamPeriodEnd_moves (s : State) : Moves s (streamPeriodEnd s) := by
  unfold streamPeriodEnd
  split
  · exact .refl _
  · exact .of_ite (fun _ => .same rfl) fun _ => (arbitrate_moves _).after rfl

/-! ### The card reader (R108 to R124) -/

theorem judgeHold_moves (c : CardSlot) (s : State) : Moves s (judgeHold r c s) := by
  unfold judgeHold
  split
  · exact .of_ite (fun _ => wipeCard_moves hr c _ s) fun _ => .refl _
  · exact .refl _

theorem cardHoldExpiry_moves (c : CardSlot) (s : State) : Moves s (cardHoldExpiry r c s) := by
  unfold cardHoldExpiry
  split
  · exact .of_ite (fun _ => .refl _) fun _ => wipeCard_moves hr c _ s
  · exact .refl _

theorem storeSwipe_effects {c : CardRec} (hc : c.bound = false) (s : State) : Effects k s (storeSwipe r c s) := by
  have stored (o : CardSlot) : Effects k s (s.setCard o (some c)) :=
    .of_effect (.store o) (by rw [view_setCard, Option.map_some, hc])
  unfold storeSwipe
  split
  · exact .snoc (.of_moves (hr _ _)) (stored .one)
  · exact .snoc (.of_moves (hr _ _)) (stored .two)
  · exact .of_moves (hr _ _)

theorem decodeEnd_effects (s : State) : Effects k s (decodeEnd r s) := by
  refine .of_ite (fun _ => ?_) fun _ => .refl _
  unfold decodeSwipe judgeSwipe
  refine .trans (t := readerTo (if s.crd.disarm then .disarmed else .armed) s) (.same rfl) ?_
  generalize readerTo _ s = x
  refine .of_ite (fun _ => ?_) fun _ => .of_moves (hr _ _)
  split
  · exact storeSwipe_effects hr rfl _
  · exact .of_moves (hr _ _)

theorem swipeStart_moves (h : Head) (s : State) : Moves s (swipeStart r h s) := by
  unfold swipeStart
  split
  · next tr _ _ => cases tr <;> exact (wake_moves hr _ _ _).after rfl
  · exact .refl _

omit hr in
theorem judgeSwipeEnd_view (s : State) : (judgeSwipeEnd s).view = s.view := by
  unfold judgeSwipeEnd; split <;> rfl

omit hr in
theorem setTrack_view (tr : Track) (t : TrackCap) (s : State) : (setTrack tr t s).view = s.view := by cases tr <;> rfl

omit hr in
theorem trackTransition_view (h : Head) (dt : Nat) (s : State) : (trackTransition h dt s).view = s.view := by
  unfold trackTransition
  split
  · rw [judgeSwipeEnd_view, setTrack_view]
  · rfl

omit hr in
theorem trackIdleEnd_view (tr : Track) (s : State) : (trackIdleEnd tr s).view = s.view := by
  unfold trackIdleEnd
  split
  · rw [judgeSwipeEnd_view, setTrack_view]
  · rfl

omit hr in
theorem swipeTimeLimit_view (s : State) : (swipeTimeLimit s).view = s.view := by
  unfold swipeTimeLimit; split <;> rfl

end

end Sys2Proof.Machine
end

