-- ==== Sys2Proof/Proofs/Invariants/Timers.lean ====
section
/-! PROOFS. The events that reach the block from its inputs, its timers and its store change the view by effects alone,
and PRESENT as it changes keeps the drawers' invariant (chapters 1, 2, 7, 9 and 11). -/

namespace Sys2Proof.Machine

/-- In KICKING the solenoid may be switched, where its on-time is within its bound or counts on. -/
theorem View.portHeld_pulsing {v : View} {x : Lag} {p : Port} {q : PortView} (h : v.portHeld x p)
    (hq : q = { v.port p with on := q.on }) (hm : (v.port p).mode = .kicking) (hx : x ≠ .ticked ∨ q.on = true) :
    (v.setPort p q).portHeld x p := by
  obtain ⟨⟨-, hkick⟩, hqueued, hplaced⟩ := h
  obtain ⟨hload, htime⟩ := hkick hm
  rw [View.portHeld, View.pulsed, View.queuedOnce, View.placed, View.port_setPort, View.presence_setPort]
  refine ⟨⟨fun _ => by rw [hq]; exact hm, fun _ => ⟨hload, ?_⟩⟩, ?_, ?_⟩
  · have honMs : q.onMs = (v.port p).onMs := by rw [hq]
    have honTime : q.onTime = (v.port p).onTime := by rw [hq]
    rw [honMs, honTime]
    refine Nat.le_trans htime (Nat.add_le_add_left ?_ _)
    rcases hx with hx | hx
    · simp [hx]
    · split <;> split <;> simp_all
  · rw [hq]; exact hqueued
  · rw [hq]; exact hplaced

section
variable {k : Option (Port → Lag)} {r : Raise} (hr : Calm r) {s : State} {p : Port}
include hr

/-! ### Events of an attempt (R130, R135 to R141) -/

omit hr in
theorem senseLevel_view (p : Port) (high : Bool) (s : State) : (senseLevel p high s).view = s.view := by
  unfold senseLevel
  split
  · rfl
  · exact view_modPort_same rfl

theorem grantWaitTimeout_effects (p : Port) (s : State) : Effects k s (grantWaitTimeout r p s) :=
  .of_ite (fun h => grantWaitEnd_effects hr h) fun _ => .refl _

theorem pulseOnTimeEnd_effects (p : Port) (s : State) : Effects k s (pulseOnTimeEnd r p s) :=
  .of_ite (fun h => pulseEnd_effects hr h.1) fun _ => .refl _

/-- A broken solenoid keeps its on-time, which the trip does not move. -/
theorem comparatorTrip_effects (p : Port) (s : State) (hk : ∀ lag, k = some lag → lag p = .none) :
    Effects k s (comparatorTrip r p s) := by
  refine .of_ite (fun h => ?_) fun _ => .refl _
  have hbreak : Effects k s (modPort p (fun q => { q with on := false, broken := true, wait := 0, trips := q.trips + 1 }) s) :=
    .of_port fun lag hlag hport => View.portHeld_pulsing hport (by rw [view_port]; rfl) (by rw [view_port]; exact h.1)
      (.inl (by simp [hk lag hlag]))
  refine .trans hbreak (.of_ite (fun _ => .same rfl) fun _ => .after (overcurrentFail_effects hr ?_) rfl)
  cases p <;> exact h.1

theorem breakEnd_effects (p : Port) (clear : Bool) (s : State) : Effects k s (breakEnd r p clear s) :=
  .of_ite (fun h => .of_ite (fun _ => .of_port fun _ _ hport =>
    View.portHeld_pulsing hport (by rw [view_port]; rfl) (by rw [view_port]; exact h.1) (.inr rfl)) fun _ =>
    overcurrentFail_effects hr h.1) fun _ => .refl _

theorem openWaitTimeout_effects (p : Port) (s : State) : Effects k s (openWaitTimeout r p s) :=
  .of_ite (fun h => .of_held fun hh => failAttempt_effects hr _ (off_of_mode hh (by simp [h]) (by simp [h])))
    fun _ => .refl _

theorem retryWaitEnd_effects (p : Port) (s : State) : Effects k s (retryWaitEnd r p s) :=
  .of_ite (fun h => retry_effects hr h.1) fun _ => .refl _

theorem leftOpenExpiry_effects (p : Port) (s : State) : Effects k s (leftOpenExpiry r p s) :=
  .of_ite (fun _ => (leftOpen_effects hr).after (view_modPort_same rfl)) fun _ => .refl _

/-! ### Events of the link, the store, the scale and the engine -/

theorem discard_moves (cause : RxCause) (s : State) : Moves s (discard r cause s) :=
  .of_ite (fun _ => .refl _) fun _ => hr.after _ rfl

theorem rxStall_moves (s : State) : Moves s (rxStall r s) :=
  .of_ite (fun _ => (discard_moves hr _ _).after rfl) fun _ => .refl _

theorem timeoutOf_effects (ch : Channel) (f : OpKind → Bool) (s : State) : Effects k s (timeoutOf r ch f s) := by
  unfold timeoutOf
  split
  · exact .of_ite (fun _ => expireOp_effects hr ch s) fun _ => .refl _
  · exact .refl _

theorem calEnChange_effects (active : Bool) (s : State) : Effects k s (calEnChange r active s) :=
  .of_ite (fun _ => .same rfl) fun _ => .snoc (permitLost_effects hr .b _) ((permitLost_effects hr .p _).after rfl)

theorem calibrationWritten_effects (s : State) : Effects k s (calibrationWritten r s) := by
  unfold calibrationWritten
  split
  · next ch _ _ _ _ _ =>
    dsimp only
    split
    · exact .snoc (.of_moves (hr _ _)) ((freeSlot_effects ch _).after (by cases ch <;> rfl))
    · exact .same (by cases ch <;> rfl)
  · exact .refl _

theorem homeMade_effects (s : State) : Effects k s (homeMade r s) :=
  .of_ite (fun _ => (cutDone_effects hr _).after rfl) fun _ => .same rfl

theorem jamTimeout_effects (s : State) : Effects k s (jamTimeout r s) :=
  .of_ite (fun _ => cutJam_effects hr s) fun _ => .refl _

theorem idleTimerExpiry_moves (s : State) : Moves s (idleTimerExpiry r s) :=
  .of_ite (fun _ => idleExpired_moves hr s) fun _ => .refl _

end

end Sys2Proof.Machine
end

