-- ==== Sys2Proof/Proofs/Invariants/Presence.lean ====
section
/-! PROOFS. A changed PRESENT keeps the drawers' invariant (R129, R140). -/

namespace Sys2Proof.Machine

/-- A port whose PRESENT is being changed. -/
def moving (p : Port) : Port → Lag := fun o => if o = p then .moved else .none

theorem moving_same (p : Port) : moving p p = .moved := if_pos rfl

theorem moving_other {p o : Port} (h : o ≠ p) : moving p o = .none := if_neg h

namespace View

/-- PRESENT of a port written. -/
def setPresence (v : View) (p : Port) (n : Nat) : View :=
  { v with presentD1 := if p = .d1 then n else v.presentD1, presentD2 := if p = .d2 then n else v.presentD2 }

variable {v : View} {p : Port}

theorem port_setPresence (o : Port) (n : Nat) : (v.setPresence p n).port o = v.port o := by cases o <;> rfl

theorem presence_setPresence (n : Nat) : (v.setPresence p n).presence p = (n != 0) := by cases p <;> rfl

theorem presence_setPresence_other {o : Port} (n : Nat) (h : o ≠ p) :
    (v.setPresence p n).presence o = v.presence o := by
  cases p <;> cases o <;> first | rfl | contradiction

/-- The other port's invariant does not read the PRESENT written. -/
theorem portHeld_setPresence_other {x : Lag} {o : Port} (n : Nat) (h : o ≠ p) (hv : v.portHeld x o) :
    (v.setPresence p n).portHeld x o :=
  portHeld_congr (port_setPresence o n) (fun h _ => h) (Nat.le_refl _) (presence_setPresence_other n h) hv

theorem legal_setPresence {n : Nat} (hn : n ≤ 1) (h : v.presentD1 ≤ 1 ∧ v.presentD2 ≤ 1) :
    (v.setPresence p n).presentD1 ≤ 1 ∧ (v.setPresence p n).presentD2 ≤ 1 := by
  cases p <;> simp [setPresence, hn, h]

/-- Where no millisecond is passing, the on-time is within its bound. -/
theorem pulsed_of_ne {x y : Lag} (hx : x ≠ .ticked) (h : v.pulsed x p) : v.pulsed y p :=
  ⟨h.1, fun hm => ⟨(h.2 hm).1, Nat.le_trans (h.2 hm).2 (by simp [hx])⟩⟩

theorem held_setPresence_off (h : v.held fun _ => .none) : (v.setPresence p 0).held (moving p) := by
  obtain ⟨hpermit, hports, hlegal, hstored⟩ := h
  refine ⟨hpermit, fun o => ?_, legal_setPresence (Nat.zero_le _) hlegal, hstored⟩
  by_cases ho : o = p
  · subst ho
    obtain ⟨hpulsed, hqueued, -⟩ := hports o
    have hpulsed := pulsed_of_ne (y := .moved) (by simp) hpulsed
    rw [moving_same, portHeld, pulsed, queuedOnce, placed, port_setPresence, presence_setPresence]
    exact ⟨hpulsed, hqueued, fun _ => rfl, fun h => absurd rfl h⟩
  · rw [moving_other ho]
    exact portHeld_setPresence_other 0 ho (hports o)

/-- PRESENT turned on: the port is present, whatever it was before. -/
theorem held_setPresence_on {q : PortView} (h : v.held fun _ => .none)
    (hq : q = { v.port p with present := true, leaving := false }) : ((v.setPresence p 1).setPort p q).held fun _ => .none := by
  obtain ⟨hpermit, hports, hlegal, hstored⟩ := h
  refine ⟨hpermit, fun o => ?_, legal_setPresence (Nat.le_refl _) hlegal, hstored⟩
  by_cases ho : o = p
  · subst ho hq
    obtain ⟨hpulsed, hqueued, -⟩ := hports o
    rw [portHeld, pulsed, queuedOnce, placed, port_setPort, presence_setPort, presence_setPresence]
    exact ⟨hpulsed, hqueued, fun h => absurd h (by simp), fun _ => ⟨rfl, fun h => absurd h (by simp)⟩⟩
  · exact portHeld_setPort_other _ ho (portHeld_setPresence_other 1 ho (hports o))

/-- The change of PRESENT has ended. -/
theorem held_of_moving (h : v.held (moving p)) (hpres : (v.port p).present = (v.presence p || (v.port p).leaving))
    (hmode : (v.port p).present = false → (v.port p).mode = .unknown) : v.held fun _ => .none := by
  obtain ⟨hpermit, hports, hlegal⟩ := h
  refine ⟨hpermit, fun o => ?_, hlegal⟩
  obtain ⟨hpulsed, hqueued, hplaced⟩ := hports o
  by_cases ho : o = p
  · subst ho
    rw [moving_same] at hpulsed hplaced
    exact ⟨pulsed_of_ne (by simp) hpulsed, hqueued, hplaced.1, fun _ => ⟨hpres, hmode⟩⟩
  · rw [moving_other ho] at hpulsed hplaced
    exact ⟨hpulsed, hqueued, hplaced⟩

end View

section
variable {r : Raise} (hr : Calm r) {s : State} {p : Port} {q : PortView}

/-- The port becomes UNKNOWN and absent, off the queue and at rest. -/
theorem absentNow_held (h : s.view.held (moving p)) (hs : s.view.steady p q false) (hon : q.on = false) :
    (modPort p PortState.absentNow s).view.held fun _ => .none := by
  obtain ⟨rfl, hwait, hpres, -⟩ := hs
  have heffect : Effects (some (moving p)) s (modPort p PortState.absentNow s) := .of_port fun lag _ hport => by
    refine View.portHeld_rest ?_ ?_ hwait ⟨?_, fun _ => ⟨?_, fun _ => ?_⟩⟩ <;>
      simp only [View.port_setPort, View.presence_setPort, PortState.absentNow]
    · rw [view_port] at hon; exact hon
    · simp [PortState.view]
    · simp [PortState.view]
    · rw [hpres]; rfl
    · rfl
  refine View.held_of_moving (p := p) (heffect.heldAt h) ?_ fun _ => ?_ <;> rw [view_modPort, View.port_setPort]
  · rw [View.presence_setPort, hpres]; rfl
  · rfl

theorem steady_of_idle (h : s.view.held (moving p)) (hm : (s.port p).mode ≠ .grantWait) (hp : s.set.present p = false) :
    s.view.steady p (s.port p).view false :=
  ⟨view_port s p, not_waiting_of_held h hm, by rw [view_presence, hp], .inr rfl⟩

theorem off_of_pulsed {lag : Port → Lag} (h : s.view.held lag) (hm : (s.port p).mode ≠ .kicking) :
    (s.port p).on = false := by
  have hon := (h.2.1 p).1.1
  rw [view_port] at hon
  exact Bool.eq_false_iff.mpr fun h => hm (hon h)

include hr

theorem withdrawPort_steady {lag : Port → Lag} (h : s.view.held lag) (hp : s.set.present p = false) :
    (withdraw r (.port p) s).view.steady p (s.port p).view false := by
  have hpres : s.view.presence p = false := by rw [view_presence, hp]
  have herase : { s with dsa.queue := s.dsa.queue.erase (.port p) }.view.steady p (s.port p).view false := by
    have honce : s.dsa.queue.count (.port p) ≤ 1 := (h.2.1 p).2.1.2
    refine ⟨view_port s p, fun hmem => ?_, hpres, .inr rfl⟩
    have hcount := List.count_pos_iff.mpr hmem
    simp only [State.view, List.count_erase_self] at hcount
    omega
  unfold withdraw
  split
  · split
    · exact (scan_moves hr _).keeps_steady herase
    · exact herase
  · next hnot => exact ⟨view_port s p, hnot, hpres, .inr rfl⟩

theorem abandonGrantWait_steady {lag : Port → Lag} (h : s.view.held lag) (hp : s.set.present p = false) :
    (abandonGrantWait r p s).view.steady p { (s.port p).view with mode := .closed } false := by
  obtain ⟨hport, hwait, hpres, -⟩ := withdrawPort_steady hr (p := p) h hp
  refine (hr _ _).keeps_steady ⟨?_, ?_, ?_, .inr rfl⟩
  · rw [view_port] at hport
    rw [view_setPort, View.port_setPort, ← hport]
    rfl
  · rw [view_setPort]; exact hwait
  · rw [view_setPort, View.presence_setPort]; exact hpres

/-- A port whose PRESENT is turned off is absent at once, or after its attempt. -/
theorem presentOff_held (h : s.view.held (moving p)) (hp : s.set.present p = false)
    (hu : (s.port p).mode ≠ .unknown → (s.port p).present = true) : (presentOff r p s).view.held fun _ => .none := by
  have hmoves (tag : Byte) (x : PermitKind) (t : State) := removeAbsent_moves hr (p := p) (s := t) tag x
  have absent {t : State} {q : PortView} (ht : t.view.held (moving p)) (hs : t.view.steady p q false) (hon : q.on = false) :
      (judgeEntry r (modPort p PortState.absentNow t)).view.held fun _ => .none :=
    (judgeEntry_moves hr _).keeps_held (absentNow_held ht hs hon)
  have atOnce (hm : (s.port p).mode ≠ .grantWait ∧ (s.port p).mode ≠ .kicking) :
      (modPort p PortState.absentNow s).view.held fun _ => .none :=
    absentNow_held h (steady_of_idle h hm.1 hp) (off_of_pulsed h hm.2)
  have later (hm : (s.port p).mode = .kicking ∨ (s.port p).mode = .waitOpen) :
      (removeAbsent r (s.port p).tag p (s.port p).kick (modPort p (fun q => { q with leaving := true }) s)).view.held
        fun _ => .none := by
    have hidle : (s.port p).mode ≠ .grantWait ∧ (s.port p).mode ≠ .unknown := by rcases hm with hm | hm <;> simp [hm]
    obtain ⟨hport, hwait, hpres, -⟩ := steady_of_idle h hidle.1 hp
    have hmark : Effects (some (moving p)) s (modPort p (fun q => { q with leaving := true }) s) := .of_port fun lag hk hq => by
      obtain rfl := Option.some.inj hk
      obtain ⟨hpulsed, hqueued, -⟩ := hq
      rw [moving_same] at hpulsed ⊢
      rw [View.pulsed, view_port] at hpulsed
      rw [View.queuedOnce, view_port] at hqueued
      rw [View.portHeld, View.pulsed, View.queuedOnce, View.placed, View.port_setPort, View.presence_setPort]
      exact ⟨hpulsed, hqueued, fun _ => hpres, fun h => absurd rfl h⟩
    have hsteady : (modPort p (fun q => { q with leaving := true }) s).view.steady p
        { (s.port p).view with leaving := true } false :=
      ⟨by rw [view_modPort, View.port_setPort]; rfl, by rw [view_modPort]; exact hwait,
        by rw [view_modPort, View.presence_setPort]; exact hpres, .inr rfl⟩
    obtain ⟨hport', -, hpres', -⟩ := (hmoves (s.port p).tag (s.port p).kick _).keeps_steady hsteady
    refine View.held_of_moving (p := p) ((hmoves _ _ _).keeps_held (hmark.heldAt h)) ?_ fun hf => ?_
    · rw [hport', hpres']; exact hu hidle.2
    · rw [hport'] at hf; exact absurd hf (by simp [PortState.view, hu hidle.2])
  unfold presentOff
  dsimp only
  split <;> rename_i hm
  · exact absent ((hmoves _ _ _).keeps_held ((abandonGrantWait_effects (k := some (moving p)) hr hm).heldAt h))
      ((hmoves _ _ _).keeps_steady (abandonGrantWait_steady hr h hp)) (off_of_pulsed h (by simp [hm]))
  · exact later (.inl hm)
  · exact later (.inr hm)
  · split
    · have hstop := (hmoves (s.port p).tag (s.port p).kick _).after (s := s)
        (view_modPort_same (p := p) (f := fun q => { q with retry := false, attempt := 0, wait := 0 }) rfl)
      exact absent (hstop.keeps_held h) (hstop.keeps_steady (steady_of_idle h (by simp [hm]) hp))
        (off_of_pulsed h (by simp [hm]))
    · exact atOnce (by simp [hm])
  · exact atOnce ⟨by assumption, by assumption⟩

omit hr in
/-- A port whose PRESENT is turned on is present, and takes its state from its sense. -/
theorem presentOn_held (h : s.view.held fun _ => .none) (hp : s.view.presence p = false) {t : State}
    (ht : t.view = s.view.setPresence p 1) : (presentOn p t).view.held fun _ => .none := by
  have hport : (t.port p).view = s.view.port p := by rw [← view_port, ht, View.port_setPresence]
  obtain ⟨-, hports, -⟩ := id h
  obtain ⟨hpres, hmode⟩ := (hports p).2.2.2 (by simp)
  rw [hp, Bool.false_or] at hpres
  have on {f : PortState → PortState} (hf : (f (t.port p)).view = { s.view.port p with present := true, leaving := false }) :
      (modPort p f t).view.held fun _ => .none := by
    rw [view_modPort, ht, hf]
    exact View.held_setPresence_on h rfl
  unfold presentOn
  split
  · next hl =>
    refine on ?_
    rw [← hport] at hpres ⊢
    simpa [PortState.view, hl] using hpres
  · next hl =>
    have hleave : (s.view.port p).leaving = false := by rw [← hport]; exact Bool.eq_false_iff.mpr hl
    have hgone : (s.view.port p).mode = .unknown := hmode (by rw [hpres, hleave])
    have hheld := on (f := fun q => { q with present := true }) (by rw [← hleave, ← hport]; rfl)
    dsimp only
    split
    · refine (takeSense_effects (k := some fun _ => .none) ?_ ?_).heldAt hheld
      · rw [modPort_port, ← hgone, ← hport]; rfl
      · rw [modPort_port]
    · exact hheld

/-- A changed PRESENT keeps the drawers' invariant. -/
theorem presentChanged_held (h : s.view.held fun _ => .none) {n : Nat} (hn : n ≤ 1) (hne : s.view.presence p ≠ (n != 0))
    {t : State} (ht : t.view = s.view.setPresence p n) : (presentChanged r p t).view.held fun _ => .none := by
  have hport : (t.port p).view = s.view.port p := by rw [← view_port, ht, View.port_setPresence]
  have hpres : t.set.present p = (n != 0) := by rw [← view_presence, ht, View.presence_setPresence]
  obtain rfl | rfl : n = 0 ∨ n = 1 := by omega
  · have hlast := (h.2.1 p).2.2.2 (by simp)
    rw [← hport] at hlast
    rw [presentChanged, if_neg (by simp [hpres])]
    refine presentOff_held hr (ht ▸ View.held_setPresence_off h) hpres fun hm => ?_
    exact Bool.of_not_eq_false fun hf => hm (hlast.2 hf)
  · rw [presentChanged, if_pos (by simp [hpres])]
    exact presentOn_held h (by simpa using hne) ht

/-- The effects of a changed PRESENT on everything else. -/
theorem presentChanged_effects (p : Port) (s : State) : Effects none s (presentChanged r p s) := by
  have hport : ∀ {f : PortState → PortState} {t : State}, Effects none t (modPort p f t) :=
    .of_port fun lag hk => by simp at hk
  have hsense (t : State) : Effects none t (takeSense p t) := by
    unfold takeSense
    split
    · exact hport
    · exact hport
    · exact .refl _
  have hlast (tag : Byte) (x : PermitKind) (t : State) :
      Effects none t (judgeEntry r (modPort p PortState.absentNow (removeAbsent r tag p x t))) :=
    .snoc (.of_moves (judgeEntry_moves hr _)) (.snoc hport (.of_moves (removeAbsent_moves hr _ _)))
  refine .of_ite (fun _ => .of_ite (fun _ => hport) fun _ => .trans hport (.of_ite (fun _ => hsense _) fun _ => .refl _))
    fun _ => ?_
  unfold presentOff
  dsimp only
  split
  · next hm => exact .snoc (hlast _ _ _) (abandonGrantWait_effects hr hm)
  · exact .snoc (.of_moves (removeAbsent_moves hr _ _)) hport
  · exact .snoc (.of_moves (removeAbsent_moves hr _ _)) hport
  · exact .of_ite (fun _ => .snoc (hlast _ _ _) hport) fun _ => hport
  · exact hport

end

end Sys2Proof.Machine
end

