-- ==== Sys2Proof/Proofs/Invariants/Deals.lean ====
section
/-! PROOFS. The immediate action of each request changes the view by deals (chapters 1 to 11). -/

namespace Sys2Proof.Machine

/-- The view comes to that of the other state by deals, from a state that meets the drawers' invariant where it is asked
for. -/
def Deals (k : Option (Port → Lag)) (s t : State) : Prop :=
  s.view.heldAt k → Chain (Deal k) s.view t.view

namespace Deals
variable {k : Option (Port → Lag)} {s t u : State}

theorem same (h : t.view = s.view) : Deals k s t := fun _ => h ▸ .refl

theorem refl (s : State) : Deals k s s := same rfl

theorem heldAt (h : Deals k s t) (hs : s.view.heldAt k) : t.view.heldAt k :=
  chain_keeps (Q := fun v => v.heldAt k) Deal.keeps_heldAt (h hs) hs

theorem trans (h : Deals k s t) (h' : Deals k t u) : Deals k s u := fun hs => (h hs).trans (h' (h.heldAt hs))

/-- Deals to a state from one that deals lead to, the last operation first. -/
theorem snoc (h : Deals k t u) (h' : Deals k s t) : Deals k s u := h'.trans h

theorem after (h : Deals k t u) (ht : t.view = s.view) : Deals k s u := (same ht).trans h

theorem of_deal {w : View} (h : Deal k s.view w) (hw : t.view = w) : Deals k s t := fun _ => hw ▸ .single h

theorem of_effects (h : Effects k s t) : Deals k s t := fun hs =>
  Chain.mono (fun h => Deal.effect h) (h hs)

theorem of_moves (h : Moves s t) : Deals k s t := of_effects (.of_moves h)

/-- What the invariant says may be used. -/
theorem of_held (h : s.view.heldAt k → Deals k s t) : Deals k s t := fun hs => h hs hs

theorem of_ite {c : Prop} [Decidable c] (h : c → Deals k s t) (h' : ¬ c → Deals k s u) :
    Deals k s (if c then t else u) := by
  split
  · exact h ‹_›
  · exact h' ‹_›

/-- A choice between two answers. -/
theorem of_ite_answer {c : Prop} [Decidable c] {x y : State × Answer} (h : c → Deals k s x.1)
    (h' : ¬ c → Deals k s y.1) : Deals k s (if c then x else y).1 := by
  split
  · exact h ‹_›
  · exact h' ‹_›

end Deals

/-- An action that changes the view by deals. -/
def Fair (act : Act) : Prop := ∀ {k : Option (Port → Lag)} {r : Raise}, Calm r → ∀ s, Deals k s (act r s).1

/-! ### Chapters 1, 10 and 11: the lane, its power, notices, routes and bindings -/

theorem actIdent_fair : Fair actIdent := fun _ _ => .refl _

theorem actLaneReset_fair : Fair actLaneReset := fun _ _ => .same rfl

theorem powerReply_fst (x : State × Status) : (powerReply x).1 = x.1 := by unfold powerReply; split <;> rfl

theorem actStandby_fair (tag : Byte) : Fair (actStandby tag) := fun hr s =>
  .of_moves (by rw [actStandby, powerReply_fst]; exact askEntry_moves hr ..)

theorem actDormant_fair (tag : Byte) : Fair (actDormant tag) := fun hr s =>
  .of_moves (by rw [actDormant, powerReply_fst]; exact askEntry_moves hr ..)

theorem actWake_fair : Fair actWake := fun hr s => .of_moves (cancelEntry_moves hr _ s)

theorem actCondFetch_fair (mask : BitVec 16) : Fair (actCondFetch mask) := fun _ _ =>
  .of_ite_answer (fun _ => .refl _) fun _ => .same rfl

theorem actNoteFetch_fair : Fair actNoteFetch := fun _ s => by
  unfold actNoteFetch
  split
  · exact .refl _
  · next q rest hq =>
    refine .of_moves (.of_move (.notices rest.length (.inr ?_)) rfl)
    simp [State.view, hq]

theorem place_length (t : Report) (a : Queued) (l : List Queued) : (t.place a l).length = l.length + 1 := by
  induction l with
  | nil => rfl
  | cons b l ih => rw [Report.place]; split <;> simp [ih]

theorem foldr_place_length (t : Report) (l kept : List Queued) :
    (l.foldr t.place kept).length = l.length + kept.length := by
  induction l with
  | nil => simp
  | cons a l ih => rw [List.foldr_cons, place_length, ih, List.length_cons]; omega

theorem filter_partition_length (l : List Queued) (code : Nat) :
    (l.filter fun q => q.notice.code == code).length + (l.filter fun q => q.notice.code != code).length = l.length := by
  induction l with
  | nil => rfl
  | cons a l ih =>
    rw [List.filter_cons, List.filter_cons, bne]
    cases a.notice.code == code <;>
      simp only [Bool.not_true, Bool.not_false, Bool.false_eq_true, if_true, if_false, List.length_cons] <;> omega

/-- A route leaves no more notices than there were. -/
theorem route_length (t : Report) (code prio : Nat) : (t.route code prio).queue.length ≤ t.queue.length := by
  have h := filter_partition_length t.queue code
  unfold Report.route
  dsimp only
  split
  · omega
  · rw [foldr_place_length]; omega

theorem actRoute_fair (code priority : Byte) : Fair (actRoute code priority) := fun _ s =>
  .of_ite_answer (fun _ => .refl _) fun _ => .of_ite_answer (fun _ => .refl _) fun _ =>
    .of_moves (.of_move (.notices _ (.inr (route_length s.rpt code.toNat priority.toNat))) rfl)

theorem setBinding_view (s : State) (b : Option Binding) (slot : Nat) :
    { s with rpt := s.rpt.setBinding b slot }.view = s.view := by
  unfold Report.setBinding; split <;> rfl

theorem actBind_fair (slot mode trigger action : Byte) (argument : BitVec 32) :
    Fair (actBind slot mode trigger action argument) := fun _ s => by
  unfold actBind
  repeat' split
  all_goals first | exact .refl _ | exact .same (setBinding_view ..)

theorem actSetGet_fair (number : Byte) : Fair (actSetGet number) := fun _ _ => by
  unfold actSetGet; split <;> exact .refl _

theorem actSetSave_fair : Fair actSetSave := fun _ _ => .same rfl

/-! ### Chapters 2, 3 and 4: the scale and the bagging monitor -/

theorem takeSlot_effects {k : Option (Port → Lag)} (ch : Channel) {o : OpKind} (h : o.isCapture = false) (tag : Byte)
    (limit : Nat) (s : State) : Effects k s (takeSlot ch o tag limit s) := by
  cases ch with
  | p => exact .of_effect (.takeOp o h) rfl
  | b => exact .same rfl

theorem actRead_fair (channel : Byte) : Fair (actRead channel) := fun _ _ => by
  unfold actRead; split <;> exact .refl _

theorem actZero_fair (tag channel : Byte) : Fair (actZero tag channel) := fun _ s => by
  unfold actZero
  repeat' split
  all_goals first | exact .refl _ | exact .of_effects (takeSlot_effects _ rfl _ _ s)

theorem actTare_fair (tag : Byte) : Fair (actTare tag) := fun _ s => by
  unfold actTare
  dsimp only
  repeat' split
  all_goals first | exact .refl _ | exact .of_effects (takeSlot_effects _ rfl _ _ s)

theorem actTarePreset_fair (grams : BitVec 16) : Fair (actTarePreset grams) := fun _ _ => by
  unfold actTarePreset
  dsimp only
  repeat' split
  all_goals exact .refl _

theorem actTareClear_fair : Fair actTareClear := fun _ _ => .of_ite_answer (fun _ => .refl _) fun _ => .same rfl

theorem actCancel_fair : Fair actCancel := fun hr s =>
  .of_effects (.snoc (cancelOp_effects hr .b _) (cancelOp_effects hr .p s))

theorem actStream_fair (channel : Byte) (period : BitVec 16) : Fair (actStream channel period) := fun _ s => by
  unfold actStream
  split
  · exact .same rfl
  · split
    · exact .refl _
    · exact .same rfl

theorem actCalZero_fair (tag channel : Byte) : Fair (actCalZero tag channel) := fun _ s => by
  unfold actCalZero
  repeat' split
  all_goals first | exact .refl _ | exact .of_effects (takeSlot_effects _ rfl _ _ s)

theorem actCalSpan_fair (tag channel : Byte) (grams : BitVec 16) : Fair (actCalSpan tag channel grams) := fun _ s => by
  unfold actCalSpan
  dsimp only
  repeat' split
  all_goals first | exact .refl _ | exact .of_effects (takeSlot_effects _ rfl _ _ s)

theorem actSkip_fair (slot : Byte) : Fair (actSkip slot) := fun _ s => by
  refine .of_ite_answer (fun _ => .refl _) fun _ => ?_
  split
  · exact .refl _
  · next e _ => exact .of_effects (unexpect_effects e.slot (f := fun it => { it with bag := .skipped })
      (fun _ => ⟨rfl, rfl, rfl⟩) s)

theorem actClearHold_fair : Fair actClearHold := fun _ _ => .of_ite_answer (fun _ => .same rfl) fun _ => .refl _

theorem actBagStatus_fair : Fair actBagStatus := fun _ _ => .refl _

/-! ### Chapter 5: the sale -/

theorem rejudgeCards_view (s : State) : (rejudgeCards s).view = s.view := by
  simp [rejudgeCards, State.view, Option.map_map]
  exact ⟨by cases s.crd.one <;> rfl, by cases s.crd.two <;> rfl⟩

theorem askWrite_view (w : StoreWrite) (s : State) : (askWrite w s).view = s.view := rfl

theorem beginSale_view (id date time : Nat) (s : State) :
    (beginSale id date time s).view = { s.view with sale := .opened, items := [], tenders := [] } := by
  rw [beginSale, askWrite_view, rejudgeCards_view]; rfl

theorem actBegin_fair (id date : BitVec 32) (time : BitVec 16) : Fair (actBegin id date time) := fun _ s => by
  refine .of_ite_answer (fun _ => .refl _) fun hidle => .of_ite_answer (fun _ => .refl _) fun hnone =>
    .of_ite_answer (fun _ => .refl _) fun _ => .of_ite_answer (fun _ => .refl _) fun _ => ?_
  exact .of_deal (.beginSale (Classical.not_not.mp hidle) (by simpa [State.view] using hnone)) (beginSale_view ..)

theorem actItem_fair (code : BitVec 32) (quantity : BitVec 16) (price : BitVec 32) (weight tol : BitVec 16) (desc : Text) :
    Fair (actItem code quantity price weight tol desc) := fun _ s => by
  refine .of_ite_answer (fun _ => .refl _) fun hopen => .of_ite_answer (fun _ => .refl _) fun _ =>
    .of_ite_answer (fun _ => .refl _) fun _ => .of_ite_answer (fun _ => .refl _) fun _ =>
    .of_ite_answer (fun _ => .refl _) fun hroom => .of_ite_answer (fun _ => .refl _) fun hlimit => .of_effects ?_
  have hroom : s.view.items.length < 64 := Nat.not_le.mp hroom
  have hlimit : total s.view.items + quantity.toNat * price.toNat ≤ 99999999 := by
    rw [not_or, Bool.not_eq_true, Bool.not_eq_false'] at hlimit
    exact within_of_limits hlimit.2
  refine .of_ite (fun _ => ?_) fun _ => ?_
  · exact .of_effect (.addItem (Item.new s.nextSlot code.toNat quantity.toNat price.toNat _ desc none) rfl hroom hlimit)
      rfl
  · exact .of_effect (.expectItem (Item.new s.nextSlot code.toNat quantity.toNat price.toNat _ desc none) rfl hroom hlimit
      (.inl (Classical.not_not.mp hopen))) (appendEntry_view ..)

theorem actWeigh_fair (tag : Byte) (code price : BitVec 32) (desc : Text) : Fair (actWeigh tag code price desc) :=
  fun _ s => .of_moves (startCapture_moves tag code.toNat price.toNat desc s)

theorem findItem_mem {slot : Nat} {l : List Item} {it : Item} (h : findItem slot l = some it) : it ∈ l := by
  exact List.mem_of_find?_eq_some h

theorem bagVoidItem_effects {k : Option (Port → Lag)} {it : Item} {s : State} (hs : s.txn.state = .opened)
    (hit : ∃ x ∈ s.txn.items, x.slot = it.slot ∧ x.bag = it.bag) : Effects k s (bagVoidItem it s) := by
  unfold bagVoidItem
  split <;> rename_i hbag
  · exact unexpect_effects it.slot (f := fun it => { it with bag := .none }) (fun _ => ⟨rfl, rfl, rfl⟩) s
  · exact unexpect_effects it.slot (f := fun it => { it with bag := .none }) (fun _ => ⟨rfl, rfl, rfl⟩) s
  · split
    · exact .of_effect (.expectRemoval it.slot hs (by rw [hbag] at hit; exact hit)) (appendEntry_view ..)
    · exact .refl _
  · exact .refl _

theorem actVoidItem_fair (slot : Byte) : Fair (actVoidItem slot) := fun _ s => by
  refine .of_ite_answer (fun _ => .refl _) fun hopen => .of_ite_answer (fun _ => .refl _) fun _ => ?_
  split
  · exact .refl _
  · next it hit =>
    refine .of_ite_answer (fun _ => .refl _) fun _ => .of_effects ?_
    refine .snoc (bagVoidItem_effects (Classical.not_not.mp hopen) ⟨{ it with void := true }, ?_, rfl, rfl⟩)
      (.of_effect (.voidItem it.slot) rfl)
    exact List.mem_map.mpr ⟨it, findItem_mem hit, by simp⟩

theorem actItemGet_fair (slot : Byte) : Fair (actItemGet slot) := fun _ _ => by
  unfold actItemGet
  dsimp only
  repeat' split
  all_goals exact .refl _

theorem actTotal_fair (override : Byte) : Fair (actTotal override) := fun _ s => by
  unfold actTotal
  dsimp only
  split
  · exact .refl _
  · next hopen =>
    repeat' split
    all_goals first | exact .refl _ | skip
    rename_i hop _ _
    exact .of_deal (.total (Classical.not_not.mp hopen) (by simpa [State.view] using hop)) rfl

theorem actReopen_fair : Fair actReopen := fun _ s =>
  .of_ite_answer (fun _ => .refl _) fun h => by
    simp only [not_or, Classical.not_not, Bool.not_eq_true', Bool.not_eq_false, List.isEmpty_iff] at h
    exact .of_deal (.reopen h.1 h.2) rfl

theorem takeTender_deals {k : Option (Port → Lag)} (x : TenderKind) (amount : Nat) (card : Option CardSlot) {s : State}
    (hs : s.txn.state = .tender) : Deals k s (takeTender x amount card s) := by
  unfold takeTender
  cases card with
  | none => exact .of_deal (.tender _ hs) rfl
  | some c =>
    have htaken : Deals k s { s with txn.tenders := s.txn.tenders ++ [⟨x, amount, some c⟩] } :=
      .of_deal (.tender ⟨x, amount, some c⟩ hs) rfl
    refine htaken.trans (.of_deal (.bind c hs ⟨⟨x, amount, some c⟩, ?_, rfl⟩) ?_)
    · simp [State.view]
    · unfold bindCard; rw [view_setCard, view_card, Option.map_map, Option.map_map]; rfl

theorem takeTender_state (x : TenderKind) (amount : Nat) (card : Option CardSlot) (s : State) :
    (takeTender x amount card s).txn.state = s.txn.state := by
  cases card with
  | none => rfl
  | some c => cases c <;> rfl

/-- The kick of a settlement (R99). -/
theorem settleSale_deals {k : Option (Port → Lag)} {r : Raise} (hr : Calm r) {s : State} (hs : s.txn.state = .tender) :
    Deals k s (settleSale r s).1 := by
  have hsettled : Deals k s (bagOff { s with
      txn.state := .settled
      txn.change := tenderSum s.txn.tenders - total s.txn.items }) := .of_deal (.settle hs) rfl
  unfold settleSale
  dsimp only
  refine .snoc (.of_moves (judgeStart_moves hr _)) (hsettled.trans ?_)
  have hstate : (bagOff { s with
      txn.state := .settled
      txn.change := tenderSum s.txn.tenders - total s.txn.items }).view.sale = .settled := rfl
  generalize bagOff { s with
      txn.state := .settled
      txn.change := tenderSum s.txn.tenders - total s.txn.items } = x at hstate
  have hkick (c : Bool) (p : Port) (y : State) :
      Moves y (if c = true then ((kick r 0#8 p y).1, (kick r 0#8 p y).2.code) else (y, 0xFF#8)).1 := by
    split
    · exact kick_moves hr _ p y
    · exact .refl y
  split
  · exact .snoc (.of_moves (hkick _ _ _)) (.of_deal (.earn _ hstate) rfl)
  · exact .of_moves (hkick _ _ _)

theorem acceptTender_deals {k : Option (Port → Lag)} {r : Raise} (hr : Calm r) (x : TenderKind) (amount : Nat)
    (card : Option CardSlot) {s : State} (hs : s.txn.state = .tender) :
    Deals k s (acceptTender r x amount card s).1 := by
  have htaken : Deals k s (takeTender x amount card s) := takeTender_deals x amount card hs
  refine .of_ite_answer (fun _ => ?_) fun _ => htaken
  exact .snoc (settleSale_deals hr ((takeTender_state x amount card s).trans hs)) htaken

theorem actTender_fair (kind : Byte) (amount : BitVec 32) (slot : Byte) : Fair (actTender kind amount slot) :=
  fun hr s => by
    refine .of_ite_answer (fun _ => .refl _) fun hs => .of_ite_answer (fun _ => .refl _) fun _ => ?_
    split
    · exact .refl _
    · refine .of_ite_answer (fun _ => .refl _) fun _ => ?_
      split
      · exact .refl _
      · exact acceptTender_deals hr _ _ _ (Classical.not_not.mp hs)

/-! ### The end of a sale (R103 to R105) -/

/-- What a void leaves of the operation in flight on P. -/
def voidedOp : Option OpKind → Option OpKind
  | some (.capture _ _ _) => none
  | some .tare => none
  | o => o

theorem voidedOp_waits_not {o : Option OpKind} {x : OpKind} (h : voidedOp o = some x) : x.isCapture = false := by
  unfold voidedOp at h
  split at h
  · simp at h
  · simp at h
  · next hcap _ => cases x <;> first | rfl | exact absurd h (hcap _ _ _)

/-- The sale is voided, and the operation of the sale on P ended. -/
theorem cancelForVoid_deals {k : Option (Port → Lag)} {r : Raise} (hr : Calm r) {s : State}
    (hs : s.txn.state = .opened ∨ s.txn.state = .tender ∧ s.txn.tenders = []) :
    Deals k s (cancelForVoid r { s with txn.state := .voided }) := by
  have hvoid {t : State} (ht : t.view = { s.view with sale := .voided, op := voidedOp s.view.op }) : Deals k s t :=
    .of_deal (.void _ hs fun _ => voidedOp_waits_not) ht
  have kept {o : Option OpKind} (ho : s.view.op = o) (hv : voidedOp o = o) : Deals k s { s with txn.state := .voided } :=
    hvoid (by rw [ho, hv, ← ho]; rfl)
  have ended {o : OpKind} (ho : s.view.op = some o) (hv : voidedOp (some o) = none) (n : Notice) :
      Deals k s (r n (freeSlot .p { s with txn.state := .voided })) :=
    .snoc (.of_moves (hr _ _)) (hvoid (by rw [ho, hv]; rfl))
  unfold cancelForVoid
  split <;> rename_i hop
  · next o =>
    have hview : s.view.op = some o.kind := by rw [State.view]; exact congrArg (Option.map Op.kind) hop
    split <;> rename_i hkind
    · unfold cancelHolder
      rw [hkind] at hview ⊢
      exact ended hview rfl _
    · unfold cancelHolder
      rw [hkind] at hview ⊢
      exact ended hview rfl _
    · next hcap => exact kept hview (by cases h : o.kind <;> first | rfl | simp_all)
  · exact kept (show s.view.op = none by rw [State.view]; exact congrArg (Option.map Op.kind) hop) rfl

theorem abortReceipt_moves {r : Raise} (hr : Calm r) (s : State) : Moves s (abortReceipt r s) := by
  unfold abortReceipt
  split
  · exact abortJob_moves hr _ _ s
  · exact .refl _

theorem cancelForVoid_effects {k : Option (Port → Lag)} {r : Raise} (hr : Calm r) (s : State) :
    Effects k s (cancelForVoid r s) := by
  unfold cancelForVoid
  repeat' split
  all_goals first | exact .refl _ | exact cancelHolder_effects hr .p _ s

/-- The sale stays voided until its lists are emptied (R105). -/
theorem voidSale_deals {k : Option (Port → Lag)} {r : Raise} (hr : Calm r) (tag : Byte) {s : State}
    (hs : s.txn.state = .opened ∨ s.txn.state = .tender ∧ s.txn.tenders = []) : Deals k s (voidSale r tag s) := by
  unfold voidSale
  dsimp only
  have hcancel := cancelForVoid_deals (k := k) hr hs
  have hvoided : (cancelForVoid r { s with txn.state := .voided }).txn.state = .voided :=
    (cancelForVoid_effects (k := none) hr _).keeps_voided trivial rfl
  generalize cancelForVoid r { s with txn.state := .voided } = x at hcancel hvoided
  have hwiped : Moves (clearTare (bagOff x)) (abortReceipt r (wipeAll r false .void (clearTare (bagOff x)))) :=
    .snoc (abortReceipt_moves hr _) (wipeAll_moves hr _ _ _)
  have hstate := hwiped.keeps_voided hvoided
  refine hcancel.trans (.trans (.of_effects (.of_effect .clearEntries rfl)) (.trans (.of_moves hwiped) ?_))
  refine .snoc (.of_moves (hr _ _)) (.of_deal (.closeVoid hstate) (emptySale_view _))

theorem actVoid_fair (tag : Byte) : Fair (actVoid tag) := fun hr s => by
  unfold actVoid
  split <;> rename_i hs
  · exact voidSale_deals hr tag (.inl hs)
  · exact .of_ite_answer (fun h => voidSale_deals hr tag (.inr ⟨hs, List.isEmpty_iff.mp h⟩)) fun _ => .refl _
  · exact .refl _

theorem actClose_fair (tag : Byte) : Fair (actClose tag) := fun {k r} hr s => by
  refine .of_ite_answer (fun _ => .refl _) fun hs => .of_ite_answer (fun _ => .refl _) fun _ => .of_held fun hh => ?_
  have hsettled : s.txn.state = .settled := Classical.not_not.mp hs
  have hcancel : Effects k s (cancelEntitlement r s) ∧ (cancelEntitlement r s).txn.entitlement = none := by
    unfold cancelEntitlement
    split
    · exact ⟨.refl _, by assumption⟩
    · next p _ =>
      have hgone : Effects k s { s with txn.entitlement := none } := .of_moves (.one .endEntitlement)
      exact ⟨.snoc (cancelKick_effects hr) hgone, (cancelKick_effects hr).keeps_unentitled (hgone.heldAt hh) rfl⟩
  refine .snoc (.of_moves (.after (closeEffects_moves hr _ _ _ ?_ ?_) (t := rebindReceipt (takeSnapshot false
    (cancelEntitlement r s))) rfl)) (.of_effects hcancel.1)
  · exact hcancel.1.keeps_ended hh (.inl hsettled)
  · exact hcancel.2

theorem actTxnStatus_fair : Fair actTxnStatus := fun _ _ => .refl _

/-! ### Chapter 6: the card reader -/

theorem disarmReader_view (s : State) : (disarmReader s).view = s.view := by
  unfold disarmReader; split <;> rfl

theorem actArm_fair (value : Byte) : Fair (actArm value) := fun _ s =>
  .of_ite_answer (fun _ => .same (disarmReader_view s)) fun _ =>
    .of_ite_answer (fun _ => .same (armReader_view s)) fun _ => .refl _

theorem actSummary_fair (slot : Byte) : Fair (actSummary slot) := fun _ _ => by
  unfold actSummary
  repeat' split
  all_goals exact .refl _

theorem actRelease_fair (slot : Byte) : Fair (actRelease slot) := fun _ s => by
  unfold actRelease
  split
  · exact .refl _
  · next c _ =>
    split
    · exact .refl _
    · next x hx =>
      refine .of_ite_answer (fun _ => .refl _) fun _ => .same ?_
      show (s.setCard c _).view = _
      rw [view_setCard]
      cases c <;> (simp only [State.card] at hx; simp [View.setCard, State.view, hx])

theorem actDiscard_fair (slot : Byte) : Fair (actDiscard slot) := fun hr s => by
  unfold actDiscard
  repeat' split
  all_goals first | exact .refl _ | exact .of_moves (wipeCard_moves hr _ _ s)

/-! ### Chapter 7: the drawers -/

theorem kickReply_fst (p : Port) (st : Status) (s : State) : (kickReply p st s).1 = s := by
  unfold kickReply; split <;> rfl

theorem actKick_fair (tag port : Byte) : Fair (actKick tag port) := fun hr s => by
  unfold actKick
  split
  · exact .refl _
  · exact .of_moves (by dsimp only; rw [kickReply_fst]; exact kick_moves hr _ _ s)

theorem noSaleRefusal_none {p : Port} {s : State} (h : noSaleRefusal p s = none) :
    s.txn.state = .idle ∧ s.set.present p = true := by
  unfold noSaleRefusal at h
  split at h
  · simp at h
  · next hs =>
    split at h
    · simp at h
    · next hp => exact ⟨Classical.not_not.mp (not_or.mp hs).1, by simpa using hp⟩

theorem actNoSale_fair (tag port : Byte) : Fair (actNoSale tag port) := fun hr s => by
  unfold actNoSale
  split
  · exact .refl _
  · next p _ =>
    split
    · exact .refl _
    · next h =>
      obtain ⟨hidle, hpres⟩ := noSaleRefusal_none h
      rw [kickReply_fst]
      refine .snoc (.of_moves (kickAccepted_moves hr tag ?_)) (.of_deal (.noSale p hidle) rfl)
      exact hpres

theorem actDrawerStatus_fair : Fair actDrawerStatus := fun _ _ => .refl _

theorem clearFault_effects {k : Option (Port → Lag)} {p : Port} {s : State} (hm : (s.port p).mode = .fault) :
    Effects k s (clearFault p s) := by
  have hclosed : Effects k s (modPort p (fun q => { q with mode := .closed, attempt := 0, retry := false, kick := .none }) s) :=
    .of_held fun hh => .stop (fun hk => (off_of_mode hh (by simp [hm]) (by simp [hm]) hk).2)
      (fun _ => .inr ⟨rfl, by simp [hm]⟩) (by simp) rfl rfl fun _ => .inl (by simp [hm])
  refine hclosed.trans (.of_ite (fun _ => .of_held fun hh => ?_) fun _ => .refl _)
  exact .stop (fun hk => (off_of_mode hh (by simp) (by simp) hk).2) (fun _ => .inl rfl) (by simp [PortState.opened]) rfl
    rfl fun _ => .inl (by simp)

theorem actDrawerClear_fair (port : Byte) : Fair (actDrawerClear port) := fun _ s => by
  unfold actDrawerClear
  split
  · exact .refl _
  · exact .of_ite_answer (fun h => .of_effects (clearFault_effects h)) fun _ => .refl _

/-! ### Chapters 8 and 9: jobs and the print engine -/

theorem actJobOpen_fair (tag role : Byte) : Fair (actJobOpen tag role) := fun _ _ => by
  unfold actJobOpen
  repeat' split
  all_goals exact .refl _

theorem actJobData_fair (job : Byte) (bytes : List Byte) : Fair (actJobData job bytes) := fun hr s => by
  unfold actJobData
  split
  · exact .refl _
  · refine .of_ite_answer (fun _ => .refl _) fun _ => ?_
    split
    · exact .refl _
    · refine .of_ite_answer (fun _ => .refl _) fun _ => .of_moves (.snoc (judgeStart_moves hr _) ?_)
      exact .of_ite (fun _ => (endUnderrun_moves hr _).after rfl) fun _ => .same rfl

theorem actJobClose_fair (job : Byte) : Fair (actJobClose job) := fun hr s => by
  unfold actJobClose
  split
  · exact .refl _
  · refine .of_ite_answer (fun _ => .refl _) fun _ => .of_moves (.of_ite (fun _ => ?_) fun _ => ?_)
    · exact (rejudgePause_moves hr _).after rfl
    · exact (judgeStart_moves hr _).after rfl

theorem actJobAbort_fair (job : Byte) : Fair (actJobAbort job) := fun hr s => by
  unfold actJobAbort
  split
  · exact .refl _
  · exact .of_ite_answer (fun _ => .refl _) fun _ => .of_moves (abortJob_moves hr _ _ s)

theorem actJobResume_fair : Fair actJobResume := fun hr _ =>
  .of_ite_answer (fun _ => .refl _) fun _ => .of_ite_answer (fun _ => .refl _) fun _ =>
    .of_moves ((boundary_moves hr _).after rfl)

theorem actJobStatus_fair (job : Byte) : Fair (actJobStatus job) := fun _ _ => by
  unfold actJobStatus
  repeat' split
  all_goals exact .refl _

theorem actPrnClear_fair : Fair actPrnClear := fun hr _ =>
  .of_ite_answer (fun _ => .refl _) fun _ => .of_moves ((boundary_moves hr _).after rfl)

theorem actPrnFeed_fair (lines : Byte) : Fair (actPrnFeed lines) := fun hr s => .of_moves (prnFeed_moves hr lines.toNat s)

/-! ### SET_PUT (R193) -/

theorem put_get (t : Settings) (n : Nat) : t.put (t.get n) n = t := by
  unfold Settings.put Settings.get; split <;> rfl

/-- The settings that the view does not show. -/
theorem put_view {n : Nat} (h : n ≠ 19 ∧ n ≠ 20 ∧ n ≠ 30) (v : Nat) (s : State) :
    { s with set := s.set.put v n }.view = s.view := by
  unfold Settings.put; split <;> first | rfl | omega

theorem capacityChanged_deals {k : Option (Port → Lag)} {r : Raise} (hr : Calm r) {s t : State} {c : Nat}
    (ht : t.view = { s.view with capacity := c }) : Deals k s (capacityChanged r t) := by
  have hsettled : Deals k s (settleCap t) := .of_deal (.capacity c) (by rw [view_settleCap, ht])
  exact hsettled.trans (.of_ite (fun _ => .of_moves (scan_moves hr _)) fun _ => .refl _)

/-- What a setting other than PRESENT and SUPPLY_CAPACITY does. -/
theorem settingChanged_effects {k : Option (Port → Lag)} {r : Raise} (hr : Calm r) {n : Nat}
    (h : n ≠ 19 ∧ n ≠ 20 ∧ n ≠ 30) (s : State) : Effects k s (settingChanged r n s) := by
  have htrack (ch : Channel) : (trackOff ch s).view = s.view := by
    unfold trackOff
    split
    · rfl
    · exact view_setChan rfl
  unfold settingChanged
  split
  · exact .of_moves ((restartWindows_moves hr _ _).after rfl)
  · exact .of_moves ((restartWindows_moves hr _ _).after rfl)
  · exact .of_moves (restartStability_moves hr _ _)
  · exact .of_moves (restartStability_moves hr _ _)
  · exact .same (htrack .p)
  · exact .same (htrack .b)
  · exact judgeOverdue_effects hr s
  · exact .of_moves (.snoc (judgeHold_moves hr .two _) (judgeHold_moves hr .one s))
  · omega
  · omega
  · exact polarityChanged_effects hr
  · exact polarityChanged_effects hr
  · exact .snoc (judgeLeftOpen_effects hr) (judgeLeftOpen_effects hr)
  · exact .of_moves (judgeStart_moves hr s)
  · exact .of_moves (judgeStall_moves hr s)
  · omega
  · exact .refl _

theorem actSetPut_eq {number : Byte} {value : BitVec 32} {s : State} {v : Nat} (r : Raise)
    (h : s.set.taken number.toNat value.toNat = some v) : (actSetPut number value r s).1 =
      if s.set.get number.toNat = v then s
      else settingChanged r number.toNat { s with set := s.set.put v number.toNat } := by
  unfold actSetPut
  rw [h]
  dsimp only
  split
  · next hv => rw [← hv, put_get]
  · rfl

/-- SET_PUT of a setting other than PRESENT changes the view by deals. -/
theorem actSetPut_deals {k : Option (Port → Lag)} {r : Raise} (hr : Calm r) (number : Byte) (value : BitVec 32) (s : State)
    (h : number.toNat ≠ 19 ∧ number.toNat ≠ 20) : Deals k s (actSetPut number value r s).1 := by
  cases htaken : s.set.taken number.toNat value.toNat with
  | none => exact .same (by rw [actSetPut, htaken]; rfl)
  | some v =>
    rw [actSetPut_eq r htaken]
    refine .of_ite (fun _ => .refl _) fun _ => ?_
    by_cases hcap : number.toNat = 30
    · rw [hcap]
      exact capacityChanged_deals hr rfl
    · exact .of_effects ((settingChanged_effects hr ⟨h.1, h.2, hcap⟩ _).after (put_view ⟨h.1, h.2, hcap⟩ v s))

end Sys2Proof.Machine
end

