-- ==== Sys2Proof/Proofs/Invariants/Steps.lean ====
section
/-! PROOFS. Every command, and every step, keeps the six invariants of a safe run. -/

namespace Sys2Proof.Machine

/-- A run from one state to another that keeps every invariant: the view comes by exchanges, and the drawers stay
safe. -/
def Safe (s t : State) : Prop :=
  Chain Exchange s.view t.view ∧ (s.drawersSafe → t.drawersSafe)

namespace Safe
variable {s t u : State}

theorem same (h : t.view = s.view) : Safe s t :=
  ⟨h ▸ .refl, by rw [drawersSafe_iff, drawersSafe_iff, h]; exact id⟩

theorem refl (s : State) : Safe s s := same rfl

theorem trans (h : Safe s t) (h' : Safe t u) : Safe s u := ⟨h.1.trans h'.1, h'.2 ∘ h.2⟩

/-- A safe run from one that leads to its start, the last operation first. -/
theorem snoc (h : Safe t u) (h' : Safe s t) : Safe s u := h'.trans h

theorem after (h : Safe t u) (ht : t.view = s.view) : Safe s u := (same ht).trans h

theorem of_deals (h : ∀ k, (∀ lag, k = some lag → lag = fun _ => .none) → Deals k s t) : Safe s t := by
  refine ⟨Chain.mono (fun h => .deal h) (h none (by simp) trivial), ?_⟩
  rw [drawersSafe_iff, drawersSafe_iff]
  exact (h (some fun _ => .none) (by simp)).heldAt

theorem of_effects (h : ∀ k, Effects k s t) : Safe s t := of_deals fun k _ => .of_effects (h k)

theorem of_moves (h : Moves s t) : Safe s t := of_effects fun _ => .of_moves h

/-- An exchange of the link, which the drawers' invariant does not read. -/
theorem of_exchange {w : View} (h : Exchange s.view w) (hw : t.view = w)
    (hd : s.view.held (fun _ => .none) → w.held fun _ => .none) : Safe s t :=
  ⟨hw ▸ .single h, by rw [drawersSafe_iff, drawersSafe_iff, hw]; exact hd⟩

theorem of_ite {c : Prop} [Decidable c] (h : c → Safe s t) (h' : ¬ c → Safe s u) : Safe s (if c then t else u) := by
  split
  · exact h ‹_›
  · exact h' ‹_›

/-! What a safe run keeps -/

theorem keeps_bounded (h : Safe s t) (hs : s.bounded) : t.bounded :=
  (bounded_iff t).mpr (chain_keeps (Q := fun v => v.bounded) Exchange.keeps_bounded h.1 ((bounded_iff s).mp hs))

theorem keeps_supplied (h : Safe s t) (hs : s.supplied) : t.supplied :=
  (supplied_iff t).mpr (chain_keeps (Q := fun v => v.supplied) Exchange.keeps_supplied h.1 ((supplied_iff s).mp hs))

theorem keeps_saleBounded (h : Safe s t) (hs : s.saleBounded) : t.saleBounded :=
  (saleBounded_iff t).mpr (chain_keeps (Q := fun v => v.saleBounded) Exchange.keeps_saleBounded h.1 ((saleBounded_iff s).mp hs))

theorem keeps_expecting (h : Safe s t) (hs : s.expecting) : t.expecting :=
  (expecting_iff t).mpr (chain_keeps (Q := fun v => v.expecting) Exchange.keeps_expecting h.1 ((expecting_iff s).mp hs))

theorem keeps_cardsBound (h : Safe s t) (hs : s.cardsBound) : t.cardsBound :=
  (cardsBound_iff t).mpr (chain_keeps (Q := fun v => v.cardsBound) Exchange.keeps_cardsBound h.1 ((cardsBound_iff s).mp hs))

end Safe

/-! ### The immediate actions -/

section
variable {r : Raise} (hr : Calm r)
include hr

omit hr in
theorem nearest_offOn (v : Nat) : SettingValues.offOn.take v ≤ 1 := by
  simp only [SettingValues.offOn, SettingValues.take, nearestListed, List.foldl_cons, List.foldl_nil]
  split <;> omega

omit hr in
/-- PRESENT takes 0 or 1. -/
theorem taken_present_le {t : Settings} {n v x : Nat} (hn : n = 19 ∨ n = 20) (h : t.taken n v = some x) : x ≤ 1 := by
  have hx : SettingValues.offOn.take v = x := by
    rcases hn with rfl | rfl <;> simpa [Settings.taken, settingValues] using h
  exact hx ▸ nearest_offOn v

omit hr in
/-- A setting of 0 or 1 is known by whether it is 0. -/
theorem eq_of_bne_zero_eq {m n : Nat} (hm : m ≤ 1) (hn : n ≤ 1) (h : (m != 0) = (n != 0)) : m = n := by
  have hzero : m ≠ 0 ↔ n ≠ 0 := by rw [← bne_iff_ne, h, bne_iff_ne]
  omega

/-- SET_PUT of PRESENT. -/
theorem actSetPut_present {p : Port} {number : Byte} (value : BitVec 32) (s : State)
    (hn : number.toNat = (match p with | .d1 => 19 | .d2 => 20)) :
    Safe s (actSetPut number value r s).1 ∧ (actSetPut number value r s).1.view.executing = s.view.executing := by
  cases htaken : s.set.taken number.toNat value.toNat with
  | none =>
    have hsame : (actSetPut number value r s).1 = s := by rw [actSetPut, htaken]; rfl
    rw [hsame]
    exact ⟨.refl s, rfl⟩
  | some n =>
    rw [actSetPut_eq r htaken]
    split
    · exact ⟨.refl s, rfl⟩
    · next hne =>
      have hle : n ≤ 1 := taken_present_le (by cases p <;> simp [hn]) htaken
      have hput : { s with set := s.set.put n number.toNat }.view = s.view.setPresence p n := by
        rw [hn]; cases p <;> rfl
      have hchanged : settingChanged r number.toNat { s with set := s.set.put n number.toNat } =
          presentChanged r p { s with set := s.set.put n number.toNat } := by
        rw [hn]; cases p <;> rfl
      have hold : s.view.held (fun _ => .none) → s.view.presence p ≠ (n != 0) := fun hh heq => by
        obtain ⟨-, -, ⟨hd1, hd2⟩, -⟩ := hh
        rw [hn] at hne
        cases p with
        | d1 =>
          have hd1 : s.set.presentD1 ≤ 1 := hd1
          have heq : (s.set.presentD1 != 0) = (n != 0) := heq
          have hne : s.set.presentD1 ≠ n := hne
          exact hne (eq_of_bne_zero_eq hd1 hle heq)
        | d2 =>
          have hd2 : s.set.presentD2 ≤ 1 := hd2
          have heq : (s.set.presentD2 != 0) = (n != 0) := heq
          have hne : s.set.presentD2 ≠ n := hne
          exact hne (eq_of_bne_zero_eq hd2 hle heq)
      rw [hchanged]
      have heffects := presentChanged_effects hr p { s with set := s.set.put n number.toNat } trivial
      refine ⟨⟨.trans (.single (hput ▸ .presence _ _)) (Chain.mono (fun h => .deal (.effect h)) heffects),
        fun h => ?_⟩, ?_⟩
      · rw [drawersSafe_iff] at h ⊢
        exact presentChanged_held hr h hle (hold h) hput
      · refine (chain_keeps (Q := fun v => v.executing = s.view.executing)
          (fun h hv => (Deal.keeps_executing (.effect h)).trans hv) heffects ?_)
        rw [hput]; rfl

/-- What a fair action does. -/
theorem Fair.safe {act : Act} (h : Fair act) (s : State) :
    Safe s (act r s).1 ∧ (act r s).1.view.executing = s.view.executing :=
  ⟨.of_deals fun _ _ => h hr s, chain_keeps (Q := fun v => v.executing = s.view.executing)
    (fun h hv => (Deal.keeps_executing h).trans hv) (h (k := none) hr s trivial) rfl⟩

/-- Every request's action keeps the invariants, and the request in execution. -/
theorem requestAction_safe (i : Instr) (s : State) :
    Safe s (requestAction i r s).1 ∧ (requestAction i r s).1.view.executing = s.view.executing := by
  cases i with
  | ident => exact Fair.safe hr actIdent_fair s
  | laneReset => exact Fair.safe hr actLaneReset_fair s
  | condFetch => exact Fair.safe hr (actCondFetch_fair _) s
  | noteFetch => exact Fair.safe hr actNoteFetch_fair s
  | pwrStandby => exact Fair.safe hr (actStandby_fair _) s
  | pwrDormant => exact Fair.safe hr (actDormant_fair _) s
  | pwrWake => exact Fair.safe hr actWake_fair s
  | setGet => exact Fair.safe hr (actSetGet_fair _) s
  | setPut _ number value =>
    by_cases h19 : number.toNat = 19
    · exact actSetPut_present hr (p := .d1) value s h19
    · by_cases h20 : number.toNat = 20
      · exact actSetPut_present hr (p := .d2) value s h20
      · exact ⟨.of_deals fun _ _ => actSetPut_deals hr number value s ⟨h19, h20⟩,
          chain_keeps (Q := fun v => v.executing = s.view.executing) (fun h hv => (Deal.keeps_executing h).trans hv)
            (actSetPut_deals (k := none) hr number value s ⟨h19, h20⟩ trivial) rfl⟩
  | setSave => exact Fair.safe hr actSetSave_fair s
  | evtRoute => exact Fair.safe hr (actRoute_fair _ _) s
  | evtBind => exact Fair.safe hr (actBind_fair _ _ _ _ _) s
  | scaleRead => exact Fair.safe hr (actRead_fair _) s
  | scaleZero => exact Fair.safe hr (actZero_fair _ _) s
  | scaleTare => exact Fair.safe hr (actTare_fair _) s
  | scaleTarePreset => exact Fair.safe hr (actTarePreset_fair _) s
  | scaleTareClear => exact Fair.safe hr actTareClear_fair s
  | scaleCancel => exact Fair.safe hr actCancel_fair s
  | scaleStream => exact Fair.safe hr (actStream_fair _ _) s
  | calZero => exact Fair.safe hr (actCalZero_fair _ _) s
  | calSpan => exact Fair.safe hr (actCalSpan_fair _ _ _) s
  | bagSkip => exact Fair.safe hr (actSkip_fair _) s
  | bagClearHold => exact Fair.safe hr actClearHold_fair s
  | bagStatus => exact Fair.safe hr actBagStatus_fair s
  | txnBegin => exact Fair.safe hr (actBegin_fair _ _ _) s
  | txnItem => exact Fair.safe hr (actItem_fair _ _ _ _ _ _) s
  | txnWeigh => exact Fair.safe hr (actWeigh_fair _ _ _ _) s
  | txnVoidItem => exact Fair.safe hr (actVoidItem_fair _) s
  | txnTotal => exact Fair.safe hr (actTotal_fair _) s
  | txnReopen => exact Fair.safe hr actReopen_fair s
  | txnTender => exact Fair.safe hr (actTender_fair _ _ _) s
  | txnVoid => exact Fair.safe hr (actVoid_fair _) s
  | txnClose => exact Fair.safe hr (actClose_fair _) s
  | txnStatus => exact Fair.safe hr actTxnStatus_fair s
  | txnItemGet => exact Fair.safe hr (actItemGet_fair _) s
  | cardArm => exact Fair.safe hr (actArm_fair _) s
  | cardSummary => exact Fair.safe hr (actSummary_fair _) s
  | cardRelease => exact Fair.safe hr (actRelease_fair _) s
  | cardDiscard => exact Fair.safe hr (actDiscard_fair _) s
  | drawerKick => exact Fair.safe hr (actKick_fair _ _) s
  | drawerNosale => exact Fair.safe hr (actNoSale_fair _ _) s
  | drawerStatus => exact Fair.safe hr actDrawerStatus_fair s
  | drawerClear => exact Fair.safe hr (actDrawerClear_fair _) s
  | jobOpen => exact Fair.safe hr (actJobOpen_fair _ _) s
  | jobData => exact Fair.safe hr (actJobData_fair _ _) s
  | jobClose => exact Fair.safe hr (actJobClose_fair _) s
  | jobAbort => exact Fair.safe hr (actJobAbort_fair _) s
  | jobResume => exact Fair.safe hr actJobResume_fair s
  | jobStatus => exact Fair.safe hr (actJobStatus_fair _) s
  | prnClear => exact Fair.safe hr actPrnClear_fair s
  | prnFeed => exact Fair.safe hr (actPrnFeed_fair _) s
  | _ => exact ⟨.refl s, rfl⟩

/-! ### The link (R8 to R19) -/

omit hr in
/-- A request read from a body finds a reply place free (R6). -/
theorem readBody_places {places : Nat} {body : List Byte} {q : Request} (h : readBody places body = .ok q) : places < 8 := by
  unfold readBody at h
  dsimp only at h
  repeat' split at h
  all_goals first | simp at h; done | omega


omit hr in
theorem loadedChan_op (b : CalBlock) (d : Nat) : (loadedChan b d).op = none := by unfold loadedChan; split <;> rfl

omit hr in
theorem cut_block (t : Store) (n : Nat) : (t.cut n).block = t.block := by
  unfold Store.cut
  repeat' split
  all_goals rfl

omit hr in
theorem loaded_presenceLegal {t : Store} (h : t.block.presenceLegal) : t.loaded.presenceLegal := by
  unfold Store.loaded
  split
  · exact h
  · decide

omit hr in
theorem resetNow_exchange (kind : ResetKind) (s : State) : Exchange s.view (resetNow kind s).view := by
  have h := Exchange.reset (v := s.view) (s.sst.cut s.free).loaded.capacity (s.sst.cut s.free).loaded.presentD1
    (s.sst.cut s.free).loaded.presentD2 (s.sst.cut s.free).block.presentD1 (s.sst.cut s.free).block.presentD2
    (resetNow kind s).view.d1 (resetNow kind s).view.d2
  simpa [resetNow, State.view, Link.reset, Report.reset, Supply.reset, Store.startup, Txn.reset, Bag.reset, Card.reset,
    Weigh.reset, loadedChan_op] using h

omit hr in
theorem resetNow_drawersSafe (kind : ResetKind) {s : State} (h : s.drawersSafe) : (resetNow kind s).drawersSafe := by
  obtain ⟨-, -, -, hstored⟩ := h
  have hblock : (s.sst.cut s.free).block.presenceLegal := by rw [cut_block]; exact hstored
  have hloaded := loaded_presenceLegal hblock
  refine ⟨⟨fun h => absurd rfl h, fun h => absurd rfl h⟩, fun p => ?_, hloaded, hblock⟩
  cases p <;> simp [State.portSafe, resetNow, State.port, PortState.reset, Supply.reset]
omit hr in
/-- A reset leaves an empty sale, no load, and ports that are UNKNOWN (R19). -/
theorem resetNow_safe (kind : ResetKind) (s : State) : Safe s (resetNow kind s) :=
  ⟨.single (resetNow_exchange kind s), resetNow_drawersSafe kind⟩

omit hr in
theorem judgeReset_safe (s : State) : Safe s (judgeReset s) :=
  .of_ite (fun _ => resetNow_safe .soft s) fun _ => .refl _

omit hr in
/-- The refusal of a request takes a free reply place. -/
theorem placeReply_safe (x : Reply) {s : State} (h : s.link.placesInUse < 8) : Safe s (placeReply x s) :=
  .snoc (.of_moves (arbitrate_moves _)) (.of_exchange (.refuse (by rwa [view_places])) (by simp [State.view]) id)

omit hr in
theorem admitRequest_safe (q : Request) {s : State} (h : s.link.placesInUse < 8) : Safe s (admitRequest q s) :=
  .of_ite (fun hroom => .of_exchange (.enqueue hroom (by rwa [view_places])) (by simp [State.view]) id)
    fun _ => placeReply_safe _ h

omit hr in
/-- The reply of the request in execution joins the list in its place. -/
theorem finish_safe (q : Request) (st : Status) (data : List Byte) (baud : Option Nat) {s : State}
    (h : s.view.executing = true) : Safe s (finish q st data baud s) :=
  .snoc (judgeReset_safe _) (.snoc (.of_moves (arbitrate_moves _)) (.of_exchange (.answer h) (by simp [State.view]) id))

theorem wakeFor_moves (q : Request) (s : State) : Moves s (wakeFor r q s) :=
  .of_ite (fun _ => (wake_moves hr _ _ _).after rfl) fun _ => .same rfl

theorem cancelFor_moves (q : Request) (act : Act) (s : State) : Moves s (cancelFor r q act s) :=
  .of_ite (fun _ => cancelEntry_moves hr _ s) fun _ => .refl _

omit hr in
theorem Moves.keeps_executing {s t : State} (h : Moves s t) : t.view.executing = s.view.executing :=
  chain_keeps (Q := fun v => v.executing = s.view.executing)
    (fun h hv => (Deal.keeps_executing (k := none) (.effect (.move h))).trans hv) h rfl

/-- A request taken into execution runs its action, and is answered or held. -/
theorem execute_safe (q : Request) (i : Instr) {s t : State}
    (hstart : Safe t { s with link.inExec := some q }) : Safe t (execute r q (requestAction i) s) := by
  have hbefore : Moves { s with link.inExec := some q }
      (cancelFor r q (requestAction i) (wakeFor r q { s with link.inExec := some q })) :=
    (wakeFor_moves hr q _).trans (cancelFor_moves hr q _ _)
  obtain ⟨hact, hexec⟩ := requestAction_safe hr i
    (cancelFor r q (requestAction i) (wakeFor r q { s with link.inExec := some q }))
  rw [hbefore.keeps_executing] at hexec
  have hdone := hstart.trans ((Safe.of_moves hbefore).trans hact)
  unfold execute conclude
  split
  · exact hdone.trans (finish_safe q _ _ _ hexec)
  · exact hdone

/-- A request command's frame, received (R6 to R9). -/
theorem arrive_safe (i : Instr) (s : State) : Safe s (arrive r i (requestAction i) s) := by
  unfold arrive
  split
  · exact .refl _
  · next tag code payload _ =>
    refine .of_ite (fun _ => .refl _) fun _ => .of_ite (fun _ => .of_moves (discard_moves hr _ s)) fun _ =>
      .of_ite (fun _ => .of_moves (discard_moves hr _ s)) fun hplaces => ?_
    have hplaces : s.link.placesInUse < 8 := Nat.not_le.mp hplaces
    refine .of_ite (fun hfree => .of_ite (fun _ => execute_safe hr _ i ?_) fun _ => placeReply_safe _ hplaces)
      fun _ => admitRequest_safe _ hplaces
    have hnone : s.view.executing = false := by simp_all [State.view]
    exact .of_exchange (.start hnone (by rwa [view_places])) rfl id

/-- The request at the head of the queue (R9, R10, R18). -/
theorem requestExecute_safe (s : State) : Safe s (requestExecute r s) := by
  unfold requestExecute
  split
  · next q rest hnone hqueue =>
    have hwaiting : s.view.waiting = rest.length + 1 := by simp [State.view, hqueue]
    have hbounce (st : Status) : Safe s (placeReply (q.reply st [] none) { s with link.queue := rest }) :=
      .snoc (.of_moves (arbitrate_moves _)) (.of_exchange (.bounce rest.length hwaiting) (by simp [State.view]) id)
    refine .of_ite (fun _ => .snoc (judgeReset_safe _) (hbounce _)) fun _ => ?_
    split
    · exact hbounce _
    · exact execute_safe hr q _ (.of_exchange (.take rest.length (by simp [State.view, hnone]) hwaiting) rfl id)
  · exact .refl _

theorem rxCharacter_safe (c : Byte) (s : State) : Safe s (rxCharacter r c s) := by
  have hset (m : RxMode) (buf : List Byte) : Safe s (setRx m buf s) := .same rfl
  have hdiscard (m : RxMode) (buf : List Byte) (cause : RxCause) : Safe s (discard r cause (setRx m buf s)) :=
    .of_moves ((discard_moves hr cause _).after rfl)
  have happend (b : Byte) : Safe s (appendBody r b s) := .of_ite (fun _ => hdiscard _ _ _) fun _ => hset _ _
  unfold rxCharacter
  split
  · exact .refl _
  · exact .of_ite (fun _ => hset _ _) fun _ => .refl _
  · exact .of_ite (fun _ => .refl _) fun _ => .of_ite (fun _ => hset _ _) fun _ => hset _ _
  · refine .of_ite (fun _ => ?_) fun _ => .of_ite (fun _ => hset _ _) fun _ => happend _
    unfold closeBody
    dsimp only
    split
    · exact hdiscard _ _ _
    · next q hread => exact .after (admitRequest_safe q (readBody_places hread)) rfl
  · exact .of_ite (fun _ => hdiscard _ _ _) fun _ => happend _

omit hr in
theorem switchRate_view (baud : Option Nat) (s : State) : (switchRate baud s).view = s.view := by
  unfold switchRate
  split
  · rfl
  · split
    · rfl
    · dsimp only
      split <;> rfl

omit hr in
theorem frameSent_safe (s : State) : Safe s (frameSent s) := by
  unfold frameSent
  split
  · exact .refl _
  · exact .snoc (judgeReset_safe _) (.snoc (.of_moves ((arbitrate_moves _).after (switchRate_view _ _)))
      (.of_exchange .sent rfl id))

omit hr in
theorem finishHeld_safe (code : Byte) (s : State) : Safe s (finishHeld code s) := by
  unfold finishHeld
  split
  · next q hq => exact .of_ite (fun _ => finish_safe q _ _ _ (by simp [State.view, hq])) fun _ => .refl _
  · exact .refl _

omit hr in
theorem settingsWritten_safe (s : State) : Safe s (settingsWritten s) := by
  unfold settingsWritten
  split
  · exact .snoc (finishHeld_safe _ _) (.of_deals fun _ _ => .of_deal .stored rfl)
  · exact .refl _

omit hr in
theorem markerWritten_safe (s : State) : Safe s (markerWritten s) := by
  unfold markerWritten
  split
  · exact .of_ite (fun _ => (finishHeld_safe _ _).after rfl) fun _ => .same rfl
  · exact .refl _

/-! ### One millisecond (R5, R35 to R40, R77, R112, R124, R130 to R141, R158) -/

omit hr in
theorem tick_port (q : PortState) : q.tick.view =
    { q.view with onMs := if q.mode = .kicking ∧ q.on = true then q.onMs + 1 else q.onMs } := by
  unfold PortState.tick
  dsimp only
  split <;> rename_i hm <;> simp only [hm] <;> repeat' split
  all_goals simp_all [PortState.view]

omit hr in
theorem advance_view (s : State) : (advance s).view =
    { s.view with d1 := s.drw.d1.tick.view, d2 := s.drw.d2.tick.view } := by
  have hop : (s.wgt.chanP.op.map fun o => { o with age := o.age + 1 }).map Op.kind = s.wgt.chanP.op.map Op.kind := by
    rw [Option.map_map]; rfl
  have hcard (x : Option CardRec) : (x.map CardRec.tick).map CardRec.bound = x.map CardRec.bound := by
    rw [Option.map_map]
    congr 1
    funext c
    rw [Function.comp, CardRec.tick]
    split <;> rfl
  have hentries : s.bag.tick.entries.map Entry.slot = s.bag.entries.map Entry.slot := by
    unfold Bag.tick
    split
    · rfl
    · rw [List.map_map]; rfl
  unfold advance State.view
  simp only [Weigh.tick, Chan.tick, Card.tick, hop, hcard, hentries]

omit hr in
/-- A millisecond later each solenoid is within its on-time, or at its end. -/
theorem advance_held {s : State} (h : s.view.held fun _ => .none) : (advance s).view.held fun _ => .ticked := by
  obtain ⟨hpermit, hports, hlegal⟩ := h
  have hview := advance_view s
  have hport (p : Port) : (advance s).view.port p = { (s.view.port p) with
      onMs := if (s.view.port p).mode = .kicking ∧ (s.view.port p).on = true then (s.view.port p).onMs + 1
        else (s.view.port p).onMs } := by
    rw [hview]
    cases p <;> exact tick_port _
  refine ⟨by rw [hview]; exact hpermit, fun p => ?_, by rw [hview]; exact hlegal⟩
  obtain ⟨⟨hon, hkick⟩, hqueued, hplaced⟩ := hports p
  have hwaits : (advance s).view.waits = s.view.waits := by rw [hview]
  have hloads : (advance s).view.loads = s.view.loads := by rw [hview]
  have hpres : (advance s).view.presence p = s.view.presence p := by rw [hview]; cases p <;> rfl
  simp only [View.portHeld, View.pulsed, View.queuedOnce, View.placed, hport, hwaits, hloads, hpres]
  refine ⟨⟨hon, fun hm => ⟨(hkick hm).1, ?_⟩⟩, hqueued, hplaced.1, fun _ => hplaced.2 (by simp)⟩
  have htime : (s.view.port p).onMs ≤ (s.view.port p).onTime := by simpa using (hkick hm).2
  split <;> simp_all

/-- What a port's timers do as they run out. -/
theorem expireWait_effects {k : Option (Port → Lag)} (p : Port) (s : State) : Effects k s (expireWait r p s) := by
  unfold expireWait
  dsimp only
  split <;> rename_i hm
  · exact .of_ite (fun _ => grantWaitEnd_effects hr hm) fun _ => .refl _
  · exact .of_ite (fun _ => .of_held fun hh => failAttempt_effects hr _ (off_of_mode hh (by simp [hm]) (by simp [hm])))
      fun _ => .refl _
  · exact .of_ite (fun _ => retry_effects hr hm) fun _ => .refl _
  · exact .of_ite (fun _ => pulseEnd_effects hr hm) fun _ => .refl _
  · exact judgeLeftOpen_effects hr
  · exact .refl _
  · exact .refl _
  · exact .refl _

/-- One port has nothing suspended, the other what it had. -/
def settle (lag : Port → Lag) (p o : Port) : Lag := if o = p then .none else lag o

omit hr in
theorem settle_self (lag : Port → Lag) (p : Port) : settle lag p p = .none := if_pos rfl

omit hr in
theorem settle_other {lag : Port → Lag} {p o : Port} (h : o ≠ p) : settle lag p o = lag o := if_neg h

omit hr in
/-- A port that is within its on-time has nothing suspended. -/
theorem held_settle {v : View} {lag : Port → Lag} {p : Port} (h : v.held lag) (hl : lag p ≠ .moved)
    (ht : (v.port p).mode = .kicking → (v.port p).onMs ≤ (v.port p).onTime) : v.held (settle lag p) := by
  obtain ⟨hpermit, hports, hlegal⟩ := h
  refine ⟨hpermit, fun o => ?_, hlegal⟩
  obtain ⟨⟨hon, hkick⟩, hqueued, hplaced⟩ := hports o
  by_cases ho : o = p
  · subst ho
    rw [settle_self]
    exact ⟨⟨hon, fun hm => ⟨(hkick hm).1, by simpa using ht hm⟩⟩, hqueued, hplaced.1, fun _ => hplaced.2 hl⟩
  · rw [settle_other ho]
    exact ⟨⟨hon, hkick⟩, hqueued, hplaced⟩

/-- The end of a pulse leaves nothing suspended: the solenoid is off before any notice is raised. -/
theorem pulseEnd_held {lag : Port → Lag} {p : Port} {s : State} (h : s.view.held lag) (hl : lag p ≠ .moved)
    (hm : (s.port p).mode = .kicking) : (pulseEnd r p s).view.held (settle lag p) := by
  have hmode : ((stopPulse p s).port p).mode = .waitOpen := by rw [stopPulse_port]
  have hstop : (stopPulse p s).view.held (settle lag p) :=
    held_settle ((stopPulse_effects (k := some lag) hm).heldAt h) hl fun hk => by
      rw [view_port] at hk; exact absurd (hmode.symm.trans hk) (by simp)
  have hend : Effects (some (settle lag p)) (stopPulse p s) (pulseEnd r p s) := by
    rw [pulseEnd, leaveKicking_eq]
    refine .trans (endPulse_effects hr hmode _) (.of_ite (fun _ => ?_) fun _ => .refl _)
    exact openRemembered_effects hr (endPulse_off hr (k := some (settle lag p)) hstop hmode _)
  exact hend.heldAt hstop

theorem expireWait_held {lag : Port → Lag} {p : Port} {s : State} (h : s.view.held lag) (hl : lag p ≠ .moved) :
    (expireWait r p s).view.held (settle lag p) := by
  by_cases hend : (s.port p).mode = .kicking ∧ (s.port p).on = true ∧ (s.port p).onTime ≤ (s.port p).onMs
  · obtain ⟨hm, hon, htime⟩ := hend
    have heq : expireWait r p s = pulseEnd r p s := by simp [expireWait, hm, hon, htime]
    rw [heq]
    exact pulseEnd_held hr h hl hm
  · have hwithin : s.view.held (settle lag p) := held_settle h hl fun hm => by
      have hkick := ((h.2.1 p).1.2 hm).2
      rw [view_port] at hm hkick ⊢
      have hm : (s.port p).mode = .kicking := hm
      simp only [PortState.view] at hkick ⊢
      by_cases hon : (s.port p).on = true
      · simp only [hm, hon, true_and, Nat.not_le] at hend; exact Nat.le_of_lt hend
      · simpa [hon] using hkick
    exact (expireWait_effects hr (k := some (settle lag p)) p s).heldAt hwithin

theorem expirePort_effects {k : Option (Port → Lag)} (p : Port) (s : State) : Effects k s (expirePort r p s) :=
  .snoc (expireWait_effects hr p _) (.of_ite (fun _ => senseDebounced_effects hr) fun _ => .refl _)

theorem expirePort_held {lag : Port → Lag} (p : Port) {s : State} (h : s.view.held lag) (hl : lag p ≠ .moved) :
    (expirePort r p s).view.held (settle lag p) :=
  expireWait_held hr (Effects.heldAt (k := some lag)
    (.of_ite (fun _ => senseDebounced_effects hr) fun _ => .refl _) h) hl

/-- What expires before the ports. -/
def expireFirst (r : Raise) (s : State) : State :=
  let s := if 50 ≤ s.link.rx.quiet then rxStall r s else s
  let s := judgeOverdue r (expireScale r s)
  let s := if s.crd.state = .reading ∧ 2000 ≤ s.crd.swipeAge then swipeTimeLimit s else s
  judgeHold r .two (judgeHold r .one s)

omit hr in
theorem expire_eq (r : Raise) (s : State) :
    expire r s = expireLane r (expirePort r .d2 (expirePort r .d1 (expireFirst r s))) := rfl

theorem expireInit_moves (ch : Channel) (s : State) : Moves s (expireInit r ch s) := by
  unfold expireInit
  split
  · exact .of_ite (fun _ => initialZeroEnd_moves hr ch s) fun _ => .refl _
  · exact .refl _

theorem expireSlot_effects {k : Option (Port → Lag)} (ch : Channel) (s : State) : Effects k s (expireSlot r ch s) := by
  unfold expireSlot
  split
  · exact .of_ite (fun _ => expireOp_effects hr ch s) fun _ => .refl _
  · exact .refl _

theorem expireScale_effects {k : Option (Port → Lag)} (s : State) : Effects k s (expireScale r s) := by
  have hstream (t : State) : Moves t (match t.wgt.stream with
      | some x => if x.period ≤ x.age then streamPeriodEnd t else t
      | none => t) := by
    split
    · exact .of_ite (fun _ => streamPeriodEnd_moves t) fun _ => .refl _
    · exact .refl _
  refine .snoc (.of_moves (hstream _)) (.snoc (.of_ite (fun _ => .of_moves (guardEnd_moves hr _)) fun _ => .refl _)
    (.snoc (expireSlot_effects hr .b _) (.snoc (expireSlot_effects hr .p _) (.of_moves (.snoc (expireInit_moves hr .b _)
      (.snoc (expireInit_moves hr .p _) (.of_ite (fun _ => warmupEnd_moves hr s) fun _ => .refl _)))))))

theorem expireFirst_effects {k : Option (Port → Lag)} (s : State) : Effects k s (expireFirst r s) := by
  have hstall : Effects k s (if 50 ≤ s.link.rx.quiet then rxStall r s else s) :=
    .of_ite (fun _ => .of_moves (rxStall_moves hr s)) fun _ => .refl _
  have hswipe (t : State) :
      (if t.crd.state = .reading ∧ 2000 ≤ t.crd.swipeAge then swipeTimeLimit t else t).view = t.view := by
    split
    · exact swipeTimeLimit_view t
    · rfl
  exact .snoc (.of_moves (.snoc (judgeHold_moves hr .two _) (judgeHold_moves hr .one _))) (.snoc (.same (hswipe _))
    (.snoc (judgeOverdue_effects hr _) (.snoc (expireScale_effects hr _) hstall)))

theorem expireLane_effects {k : Option (Port → Lag)} (s : State) : Effects k s (expireLane r s) := by
  have hidle (t : State) : Moves t
      (if t.idleRuns && decide (60000 * t.set.idleStandby ≤ t.lpm.idle) then idleExpired r t else t) :=
    .of_ite (fun _ => idleExpired_moves hr t) fun _ => .refl t
  exact .snoc (.of_moves (hidle _)) (.snoc (.of_moves (judgeStall_moves hr _))
    (.of_ite (fun _ => jamTimeout_effects hr s) fun _ => .refl _))

theorem expire_effects {k : Option (Port → Lag)} (s : State) : Effects k s (expire r s) :=
  .snoc (expireLane_effects hr _) (.snoc (expirePort_effects hr .d2 _) (.snoc (expirePort_effects hr .d1 _)
    (expireFirst_effects hr s)))

/-- After the ports' expiries no solenoid is on beyond its on-time. -/
theorem expire_held {s : State} (h : s.view.held fun _ => .ticked) : (expire r s).view.held fun _ => .none := by
  have hports := expirePort_held hr .d2 (expirePort_held hr .d1
    ((expireFirst_effects hr (k := some fun _ => .ticked) s).heldAt h) (by simp)) (by simp [settle])
  have hlag : settle (settle (fun _ => .ticked) .d1) .d2 = fun _ => .none := by
    funext p
    cases p <;> rfl
  rw [hlag] at hports
  rw [expire_eq]
  exact (expireLane_effects hr (k := some fun _ => .none) _).heldAt hports

/-- One millisecond. -/
theorem elapse_safe (s : State) : Safe s (expire r (advance s)) := by
  refine ⟨.trans (.single (advance_view s ▸ .ports _ _)) (Chain.mono (fun h => .deal (.effect h))
    (expire_effects hr (k := none) (advance s) trivial)), ?_⟩
  rw [drawersSafe_iff, drawersSafe_iff]
  exact fun h => expire_held hr (advance_held h)

theorem tick_safe (s : State) : Safe s (tick r s) :=
  .of_ite (fun _ => requestExecute_safe hr s) fun _ => elapse_safe hr s

end

/-! ### Commands and steps -/

/-- What an event that is none of the requests does. -/
theorem exec_safe {i : Instr} {s t : State} (h : exec i s = .next t) : Safe s t := by
  have hr := raiseLoud_calm
  cases he : encodeRequest i with
  | some x =>
    obtain ⟨tag, code, payload⟩ := x
    rw [exec_request_eq he] at h
    injection h with h
    exact h ▸ arrive_safe hr i s
  | none =>
    cases i <;> first | (simp [encodeRequest] at he; done) | injection h with h; subst h
    case hardReset => exact resetNow_safe .hard s
    case rxCharacter c _ => exact rxCharacter_safe hr c s
    case rxStallTimeout => exact .of_moves (rxStall_moves hr s)
    case requestExecute => exact requestExecute_safe hr s
    case frameSent => exact frameSent_safe s
    case settingsBlockWritten => exact settingsWritten_safe s
    case markerWriteDone => exact markerWritten_safe s
    case calibrationWriteDone => exact .of_effects fun _ => calibrationWritten_effects hr s
    case reading ch block => exact .of_effects fun _ => readBlock_effects hr ch block s
    case converterWarmupEnd => exact .of_moves (warmupEnd_moves hr s)
    case initialZeroTimeout ch => exact .of_moves (initialZeroEnd_moves hr ch s)
    case zeroTimeout ch => exact .of_effects fun _ => timeoutOf_effects hr ch _ s
    case tareTimeout => exact .of_effects fun _ => timeoutOf_effects hr .p _ s
    case captureTimeoutExpiry => exact .of_effects fun _ => timeoutOf_effects hr .p _ s
    case calTimeout ch => exact .of_effects fun _ => timeoutOf_effects hr ch _ s
    case calEnChange active => exact .of_effects fun _ => calEnChange_effects hr active s
    case disturbanceGuardEnd => exact .of_moves (guardEnd_moves hr s)
    case streamPeriodEnd => exact .of_moves (streamPeriodEnd_moves s)
    case bagEntryOverdue slot => exact .of_effects fun _ => entryOverdue_effects hr _ s
    case swipeStart head => exact .of_moves (swipeStart_moves hr head s)
    case trackIdleEnd track => exact .same (trackIdleEnd_view track s)
    case swipeTimeLimit => exact .same (swipeTimeLimit_view s)
    case decodeEnd => exact .of_effects fun _ => decodeEnd_effects hr s
    case cardHoldExpiry slot => exact .of_moves (cardHoldExpiry_moves hr slot s)
    case senseInputLevelChange port high => exact .same (senseLevel_view port high s)
    case senseDebouncedChange port => exact .of_effects fun _ => senseDebounced_effects hr
    case grantWaitTimeout port => exact .of_effects fun _ => grantWaitTimeout_effects hr port s
    case pulseOnTimeEnd port => exact .of_effects fun _ => pulseOnTimeEnd_effects hr port s
    case overcurrentTrip port =>
      exact .of_deals fun _ hk => .of_effects (comparatorTrip_effects hr port s fun lag hlag => by rw [hk lag hlag])
    case overcurrentBreakEnd port clear => exact .of_effects fun _ => breakEnd_effects hr port clear s
    case openWaitTimeout port => exact .of_effects fun _ => openWaitTimeout_effects hr port s
    case retryWaitEnd port => exact .of_effects fun _ => retryWaitEnd_effects hr port s
    case leftOpenExpiry port => exact .of_effects fun _ => leftOpenExpiry_effects hr port s
    case printSensorChange sensor active => exact .of_moves (sensorChange_moves hr sensor active s)
    case headTempReading celsius => exact .of_moves (headReading_moves hr celsius s)
    case lineBoundary millivolts => exact .of_effects fun _ => lineEnd_effects hr _ s
    case cutterHomeMade => exact .of_effects fun _ => homeMade_effects hr s
    case cutJamTimeout => exact .of_effects fun _ => jamTimeout_effects hr s
    case stallLimitExpiry => exact .of_moves (stallExpired_moves hr s)
    case supplyLowStart millivolts => exact .of_moves (supplyLowStart_moves hr _ s)
    case supplyLowEnd millivolts => exact .of_moves (supplyLowEnd_moves hr _ s)
    case idleTimerExpiry => exact .of_moves (idleTimerExpiry_moves hr s)
    case trackTransition head interval => exact .same (trackTransition_view head _ s)
    case cutterHomeSwitchOpens => exact .same rfl

/-- A step, with a command or without, keeps the invariants. -/
theorem step_safe {s t : State} (h : step s = .next t) : Safe s t := by
  unfold step at h
  split at h
  · exact (exec_safe h).after rfl
  · injection h with h
    exact h ▸ tick_safe raiseLoud_calm s

/-- Settles O11, by what the exchanges of the link and the offers of the notice queue keep. -/
theorem stepKeepsBounds : Obligations.StepKeepsBounds := fun _ _ hs h => (step_safe h).keeps_bounded hs

/-- Settles O56: the arbiter grants within the capacity in force, and a lowered capacity waits for the loads. -/
theorem stepKeepsSupply : Obligations.StepKeepsSupply :=
  ⟨fun _ _ hs h => (step_safe h).keeps_supplied hs, fun _ _ _ hs h => (exec_safe h).keeps_supplied hs⟩

/-- Settles O57, by what the additions and the amendments of the item list keep. -/
theorem stepKeepsItemList : Obligations.StepKeepsItemList := fun _ _ hs h => (step_safe h).keeps_saleBounded hs

/-- Settles O58: an entry joins the list with its item PENDING, and leaves it as its item is matched, skipped or
voided. -/
theorem stepKeepsExpectations : Obligations.StepKeepsExpectations := fun _ _ hs h => (step_safe h).keeps_expecting hs

/-- Settles O59: a record is bound by a tender, and wiped before the list of tenders is emptied. -/
theorem stepKeepsCardsBound : Obligations.StepKeepsCardsBound := fun _ _ hs h => (step_safe h).keeps_cardsBound hs

/-- Settles O60: a millisecond may take a solenoid one past its on-time, which its port's expiry ends in the same
step. -/
theorem stepKeepsDrawersSafe : Obligations.StepKeepsDrawersSafe := fun _ _ hs h => (step_safe h).2 hs

end Sys2Proof.Machine
end

