-- ==== Sys2Proof/Proofs/Link/Commands.lean ====
section
/-! PROOFS. The queue of commands, the admission and the execution of requests, and the transmitter (chapter 1). -/

namespace Sys2Proof.Machine

/-- Settles O1, by unfolding the step on a queue with a command at its front. -/
theorem stepRunsFrontCommand : Obligations.StepRunsFrontCommand := fun _ _ _ => rfl

/-- Settles O12: each bound is a fact about the state right after reset. -/
theorem resetIsBounded : Obligations.ResetIsBounded := by
  refine ⟨by decide, by decide, by decide, ?_, ⟨by decide, fun p => ?_, by decide, by decide⟩, by decide⟩
  · intro c r h
    cases c <;> simp [State.card, State.reset, Card.reset] at h
  · cases p <;> decide

/-! ### Conditions and notices fetched (R189, R192) -/

/-- A request of the status set on a free link, whose action replies and leaves the link as it found it, answers that
reply in every power state. -/
theorem exec_answers_of_free {i : Instr} {tag code : Byte} {payload data : List Byte} {s t : State} {st : Status}
    (hw : i.wf = true) (he : encodeRequest i = some (tag, code, payload)) (h : s.linkFree)
    (hwake : wakesLane code = false) (hcancel : cancelsEntry code = false) (ht : t.link = s.link)
    (ha : ∀ q, requestAction i raiseLoud { s with link.inExec := some q, lpm.idle := 0 } =
      ({ t with link.inExec := some q, lpm.idle := 0 }, .reply st data none)) :
    exec i s = .next (t.answered tag code st data) := by
  have ⟨_, hexec, _, _, hsoft⟩ := h
  rw [exec_request_eq he]
  exact accept_answers_status hw he h hwake hcancel (ha _) (ht ▸ hsoft) (ht ▸ hexec)

/-- A request of the status set on a free link whose action refuses is refused, and nothing else happens (R11). -/
theorem refuses_of_free {i : Instr} {tag code : Byte} {payload : List Byte} {s : State} {st : Status} (hw : i.wf = true)
    (he : encodeRequest i = some (tag, code, payload)) (h : s.linkFree) (hwake : wakesLane code = false)
    (hcancel : cancelsEntry code = false)
    (ha : ∀ q, requestAction i raiseLoud { s with link.inExec := some q, lpm.idle := 0 } =
      refuse st { s with link.inExec := some q, lpm.idle := 0 }) : Refuses i tag code st s :=
  exec_answers_of_free hw he h hwake hcancel rfl ha

/-- Settles O13, by the two actions on a free link, which are in the status set. -/
theorem conditionsAndNoticesFetched : Obligations.ConditionsAndNoticesFetched := by
  refine ⟨fun tag mask s hs => ⟨fun hmask => ?cleared, fun hmask => ?refused⟩,
    fun tag s hs => ⟨fun hqueue => ?empty, fun q rest hqueue => ?fetched⟩⟩
  case cleared =>
    refine exec_answers_of_free rfl rfl hs rfl rfl rfl fun _ => ?_
    exact if_neg (Nat.not_le.mpr hmask)
  case refused => exact refuses_of_free rfl rfl hs rfl rfl fun _ => if_pos hmask
  case empty =>
    refine exec_answers_of_free rfl rfl hs rfl rfl rfl fun _ => ?_
    simp [requestAction, actNoteFetch, hqueue, answer]
  case fetched =>
    refine exec_answers_of_free rfl rfl hs rfl rfl rfl fun _ => ?_
    simp [requestAction, actNoteFetch, hqueue, answer]

/-! ### Routes (R187) -/

/-- Settles O15, by the checks of the action in their order. -/
theorem routeSet : Obligations.RouteSet := by
  refine fun tag code priority s hs => ⟨fun hcode hne hprio => ?set, fun hbad => ?range, fun hcode hprio => ?startup⟩
  case set =>
    refine exec_answers_of_ready rfl rfl hs rfl fun _ => ?_
    simp [requestAction, actRoute, hcode, hne, Nat.not_lt.mpr hprio, answer]
  case range =>
    refine refuses_of_ready rfl rfl hs fun _ => if_pos ?_
    rcases hbad with hbad | hbad <;> simp [hbad]
  case startup =>
    subst hcode
    refine refuses_of_ready rfl rfl hs fun _ => ?_
    simp [requestAction, actRoute, isNoticeCode, Nat.not_lt.mpr hprio]

/-! ### Status requests (R63, R83, R107, R143, R198) -/

theorem readout_length (s : State) (ch : Channel) : (s.readout ch).length = 10 := by
  cases ch <;> simp [State.readout, be16, be32, beInt32]

/-- Settles O32: the six requests are in the status set, and their actions leave the state as it was. -/
theorem statusAnswered : Obligations.StatusAnswered := by
  refine fun tag channel s hs => ⟨fun ch hch => ⟨?read, readout_length s ch⟩, fun hch => ?badChannel, ?bag, ?txn,
    ?drawer, ?ident⟩
  case read =>
    refine exec_answers_of_free rfl rfl hs rfl rfl rfl fun _ => ?_
    simp only [requestAction, actRead, hch, answer]
    rw [channel_ofByte_some hch]
    rfl
  case badChannel =>
    refine refuses_of_free rfl rfl hs rfl rfl fun _ => ?_
    simp only [requestAction, actRead, channel_ofByte_none hch]
  case bag => exact exec_answers_of_free rfl rfl hs rfl rfl rfl fun _ => rfl
  case txn => exact exec_answers_of_free rfl rfl hs rfl rfl rfl fun _ => rfl
  case drawer => exact exec_answers_of_free rfl rfl hs rfl rfl rfl fun _ => rfl
  case ident => exact exec_answers_of_free rfl rfl hs rfl rfl rfl fun _ => rfl

end Sys2Proof.Machine
end

