-- ==== Sys2Proof/Proofs/Link/Codec.lean ====
section
/-! PROOFS. The reading of a request frame inverts its writing (R10, Table 1-4). -/

namespace Sys2Proof

open Machine

/-! ### Integers of two and four bytes -/

theorem get16_be16 (m : BitVec 16) : get16 (u8 (m.toNat / 256)) (u8 m.toNat) = m := by
  apply BitVec.eq_of_toNat_eq
  have := m.isLt
  simp [get16, beNat, u8]
  omega

theorem get32_be32 (m : BitVec 32) :
    get32 (u8 (m.toNat / 16777216)) (u8 (m.toNat / 65536)) (u8 (m.toNat / 256)) (u8 m.toNat) = m := by
  apply BitVec.eq_of_toNat_eq
  have := m.isLt
  simp [get32, beNat, u8]
  omega

theorem be16_get16 (a b : Byte) : be16 (get16 a b).toNat = [a, b] := by
  have := a.isLt
  have := b.isLt
  simp only [be16, get16, beNat, u8, List.foldl_cons, List.foldl_nil, BitVec.toNat_ofNat, List.cons.injEq, and_true]
  constructor <;> apply BitVec.eq_of_toNat_eq <;> simp <;> omega

theorem be32_get32 (a b c d : Byte) : be32 (get32 a b c d).toNat = [a, b, c, d] := by
  have := a.isLt
  have := b.isLt
  have := c.isLt
  have := d.isLt
  simp only [be32, get32, beNat, u8, List.foldl_cons, List.foldl_nil, BitVec.toNat_ofNat, List.cons.injEq, and_true]
  refine ⟨?_, ?_, ?_, ?_⟩ <;> apply BitVec.eq_of_toNat_eq <;> simp <;> omega

/-- The count byte of a text of at most 255 characters. -/
theorem toNat_u8_length {d : List Byte} (h : d.length ≤ 255) : (u8 d.length).toNat = d.length := by
  simp [u8]; omega

theorem u8_length_eq {d : List Byte} {n : Byte} (h : d.length = n.toNat) : u8 d.length = n := by
  apply BitVec.eq_of_toNat_eq
  simp [u8, h]

/-! ### Reading what was written -/

/-- The payload that a command is framed with is read as that command. -/
theorem decode_of_encode {i : Instr} {tag code : Byte} {payload : List Byte} (hw : i.wf = true)
    (he : encodeRequest i = some (tag, code, payload)) : decodeRequest tag code payload = .ok i := by
  cases i with
  | txnItem _ _ _ _ _ _ d =>
    obtain ⟨rfl, rfl, rfl⟩ : _ ∧ _ ∧ _ := by simpa [encodeRequest] using he
    have hlen : d.length ≤ 240 := by simpa [Instr.wf] using hw
    simp [decodeRequest, bareRequest, byteRequest, fieldRequest, be16, be32, textField, get16_be16, get32_be32,
      toNat_u8_length (Nat.le_trans hlen (by omega)), hlen]
  | txnWeigh _ _ _ d =>
    obtain ⟨rfl, rfl, rfl⟩ : _ ∧ _ ∧ _ := by simpa [encodeRequest] using he
    have hlen : d.length ≤ 246 := by simpa [Instr.wf] using hw
    simp [decodeRequest, bareRequest, byteRequest, fieldRequest, be32, textField, get32_be32,
      toNat_u8_length (Nat.le_trans hlen (by omega)), hlen]
  | jobData _ _ e =>
    obtain ⟨rfl, rfl, rfl⟩ : _ ∧ _ ∧ _ := by simpa [encodeRequest] using he
    have hlen : 1 ≤ e.length ∧ e.length ≤ 254 := by simpa [Instr.wf] using hw
    simp [decodeRequest, bareRequest, byteRequest, fieldRequest, hlen]
  | _ =>
    first
    | (simp [encodeRequest] at he; done)
    | (obtain ⟨rfl, rfl, rfl⟩ : _ ∧ _ ∧ _ := by simpa [encodeRequest] using he
       simp [decodeRequest, bareRequest, byteRequest, fieldRequest, noPayload, onePayload, be16, be32, get16_be16,
         get32_be32])

/-! ### What is read was written -/

/-- A command is one that is framed with a code and payload. -/
abbrev Framed (i : Instr) (tag : Byte) (n : Nat) (payload : List Byte) : Prop :=
  i.wf = true ∧ ∀ code : Byte, code.toNat = n → encodeRequest i = some (tag, code, payload)

/-- One code is enough: the number gives the byte. -/
theorem framed_of_encode {i : Instr} {tag : Byte} {payload : List Byte} {n : Nat} (hn : n < 256) (hw : i.wf = true)
    (h : encodeRequest i = some (tag, BitVec.ofNat 8 n, payload)) : Framed i tag n payload := by
  refine ⟨hw, fun code hc => ?_⟩
  obtain rfl : code = BitVec.ofNat 8 n := BitVec.eq_of_toNat_eq (by simp; omega)
  exact h

theorem framed_of_bareRequest {tag : Byte} {n : Nat} {i : Instr} (h : bareRequest tag n = some i) :
    Framed i tag n [] := by
  unfold bareRequest at h
  split at h
  all_goals first | (cases h; done) | (cases h; exact framed_of_encode (by decide) rfl rfl)

theorem framed_of_byteRequest {tag : Byte} {n : Nat} {f : Byte → Instr} (h : byteRequest tag n = some f) (a : Byte) :
    Framed (f a) tag n [a] := by
  unfold byteRequest at h
  split at h
  all_goals first | (cases h; done) | (cases h; exact framed_of_encode (by decide) rfl rfl)

theorem framed_of_fieldRequest {tag : Byte} {n : Nat} {f : List Byte → Except Status Instr} {payload : List Byte}
    {i : Instr} (h : fieldRequest tag n = some f) (hf : f payload = .ok i) : Framed i tag n payload := by
  unfold fieldRequest at h
  split at h
  all_goals cases h
  case h_9 =>
    dsimp only at hf
    split at hf
    · split at hf
      next hlen =>
        cases hf
        exact framed_of_encode (by decide) (by simpa [Instr.wf] using hlen.2) (by
          simp [encodeRequest, be16_get16, be32_get32, textField, u8_length_eq hlen.1])
      next => cases hf
    · cases hf
  case h_10 =>
    dsimp only at hf
    split at hf
    · split at hf
      next hlen =>
        cases hf
        exact framed_of_encode (by decide) (by simpa [Instr.wf] using hlen.2) (by
          simp [encodeRequest, be32_get32, textField, u8_length_eq hlen.1])
      next => cases hf
    · cases hf
  case h_12 =>
    dsimp only at hf
    split at hf
    · split at hf
      next hlen => cases hf; exact framed_of_encode (by decide) (by simpa [Instr.wf] using hlen) rfl
      next => cases hf
    · cases hf
  all_goals
    dsimp only at hf
    split at hf
    next => cases hf; exact framed_of_encode (by decide) rfl (by simp [encodeRequest, be16_get16, be32_get32])
    next => cases hf

/-- A request frame that is read as a command carries that command. -/
theorem encode_of_decode {i : Instr} {tag code : Byte} {payload : List Byte}
    (h : decodeRequest tag code payload = .ok i) :
    i.wf = true ∧ encodeRequest i = some (tag, code, payload) := by
  have framed (hi : Framed i tag code.toNat payload) := And.intro hi.1 (hi.2 code rfl)
  unfold decodeRequest at h
  split at h
  next hbare =>
    unfold noPayload at h
    split at h
    · cases h; exact framed (framed_of_bareRequest hbare)
    · cases h
  next =>
    split at h
    next hbyte =>
      unfold onePayload at h
      split at h
      · cases h; exact framed (framed_of_byteRequest hbyte _)
      · cases h
    next =>
      split at h
      next hfield => exact framed (framed_of_fieldRequest hfield h)
      next => cases h

/-- Settles O3: the writing is read back, and what is read was written; the payload fits a frame. -/
theorem decodingInvertsEncoding : Obligations.DecodingInvertsEncoding := fun _ _ _ _ =>
  ⟨⟨encode_of_decode, fun h => decode_of_encode h.1 h.2⟩, encodeRequest_length⟩

end Sys2Proof
end

