-- ==== Sys2Proof/Proofs/Link/Admission.lean ====
section
/-! PROOFS. What becomes of a request that is received, taken from the queue or answered (R6 to R18). -/

namespace Sys2Proof.Machine

/-! ### Admission (R4, R6, R8, R13) -/

/-- A discard with no binding set: it is recorded and raised once (R7). -/
theorem discard_unbound {s : State} (h : s.unbound) (cause : RxCause) :
    discard raiseLoud cause s = if s.rpt.latched.frameError = none then
      raiseQuiet (.linkFrameError cause) { s with rpt.latched.frameError := some cause } else s := by
  unfold discard
  cases hf : s.rpt.latched.frameError with
  | none =>
    simp only [Option.isSome_none, Bool.false_eq_true, if_false, if_true]
    exact raiseLoud_unbound (by exact h) _
  | some c => simp

theorem exec_total (i : Instr) (s : State) : ∃ t, exec i s = .next t := by
  cases i <;> exact ⟨_, rfl⟩

/-- Settles O6, by the checks of the arrival in their order. -/
theorem requestAdmission : Obligations.RequestAdmission := by
  refine ⟨fun i tag code payload s he => ?_, fun tag job s hs => ?noElements, exec_total⟩
  · rw [exec_request_eq he]
    unfold arrive
    rw [he]
    dsimp only
    refine ⟨fun hrx hroom hlen hbusy hq => ?joins, fun hrx hroom hlen hq => ?full, fun hrx hroom hlen hu => ?overrun,
      fun hrx hlen hu => ?overlong, fun hrx => ?closed⟩
    case closed => rw [if_pos hrx]
    case overlong => rw [if_neg hrx, if_pos hlen, discard_unbound hu]
    case overrun => rw [if_neg hrx, if_neg (Nat.not_lt.mpr hlen), if_pos hroom, discard_unbound hu]
    case full =>
      have hbusy : (s.link.inExec.isNone && s.link.queue.isEmpty) = false := by
        cases hl : s.link.queue <;> simp_all
      rw [if_neg hrx, if_neg (Nat.not_lt.mpr hlen), if_neg (Nat.not_le.mpr hroom), hbusy]
      simp [admitRequest, Nat.not_lt.mpr hq, Request.reply]
    case joins =>
      have hbusy : (s.link.inExec.isNone && s.link.queue.isEmpty) = false := by
        rcases hbusy with h | h
        · cases hx : s.link.inExec with
          | none => exact absurd hx h
          | some _ => rfl
        · simp [h]
      rw [if_neg hrx, if_neg (Nat.not_lt.mpr hlen), if_neg (Nat.not_le.mpr hroom), hbusy]
      simp [admitRequest, hq]
  · obtain ⟨hrx, hexec, hq, hroom, -⟩ := hs
    rw [exec_request_eq (i := .jobData tag job []) rfl]
    simp [arrive, encodeRequest, hrx, hexec, hq, Nat.not_le.mpr hroom, Instr.wf, Request.reply]

/-! ### The request at the head of the queue (R9, R10, R18) -/

/-- A request that is framed, on a link with nothing in execution or waiting, is executed. -/
theorem arrive_free {i : Instr} {q : Request} {act : Act} {s : State} {r : Raise} (hw : i.wf = true)
    (he : encodeRequest i = some (q.tag, q.code, q.payload)) (hrx : s.link.rx.mode ≠ .closed)
    (hexec : s.link.inExec = none) (hq : s.link.queue = []) (hroom : s.link.placesInUse < 8) :
    arrive r i act s = execute r q act s := by
  simp [arrive, he, hrx, hexec, hq, hw, Nat.not_lt.mpr (encodeRequest_length hw he), Nat.not_le.mpr hroom]

/-- Settles O7, by the checks on the request that is taken. -/
theorem queuedRequestExecuted : Obligations.QueuedRequestExecuted := by
  refine ⟨fun q rest s hexec hq => ⟨fun hsoft => ?waiting, fun st hsoft hd => ?refused, fun i hsoft hd hrest hrx hroom =>
    ?executed⟩, fun s h => ?nothing⟩
  case waiting =>
    show Host.Outcome.next (requestExecute raiseLoud s) = _
    simp [requestExecute, hexec, hq, hsoft, Request.reply, judgeReset_placeReply]
  case refused =>
    show Host.Outcome.next (requestExecute raiseLoud s) = _
    simp [requestExecute, hexec, hq, hsoft, hd, Request.reply]
  case executed =>
    subst hrest
    obtain ⟨hw, he⟩ := encode_of_decode hd
    have hplaces : ({ s with link.queue := [] } : State).link.placesInUse < 8 := by
      simp [Link.placesInUse, hq, hexec] at hroom ⊢
      omega
    rw [exec_request_eq he, arrive_free (q := q) (s := { s with link.queue := [] }) hw he hrx hexec rfl hplaces]
    show Host.Outcome.next (requestExecute raiseLoud s) = _
    simp [requestExecute, hexec, hq, hsoft, hd]
  case nothing =>
    show Host.Outcome.next (requestExecute raiseLoud s) = _
    unfold requestExecute
    split
    · next hexec hq => simp [hexec, hq] at h
    · rfl

/-! ### The transmitter (R13, R14, R17) -/

theorem frameSent_none {s : State} (h : s.link.tx = none) : frameSent s = s := by simp [frameSent, h]

/-- A frame without a rate leaves the line to the arbiter. -/
theorem frameSent_plain {s : State} {f : TxFrame} (h : s.link.tx = some f) (hb : f.baud = none) :
    frameSent s = judgeReset (arbitrate { s with link.tx := none }) := by
  simp [frameSent, h, hb, switchRate]

theorem arbitrate_rate (s : State) : (arbitrate s).link.rate = s.link.rate := by
  rcases arbitrate_cases s with h | ⟨_, _, _, h⟩ | ⟨_, _, _, _, h⟩ | ⟨_, _, _, _, _, h⟩ <;> rw [h]

theorem switchRate_rate (v : Nat) (s : State) : (switchRate (some v) s).link.rate = v := by
  unfold switchRate
  dsimp only
  split
  · next h => exact h.symm
  · split <;> rfl

theorem switchRate_softReset (b : Option Nat) (s : State) : (switchRate b s).link.softReset = s.link.softReset := by
  unfold switchRate
  dsimp only
  repeat' split
  all_goals rfl

/-- Settles O8, by the choices of the arbiter in their order. -/
theorem nextFrameChosen : Obligations.NextFrameChosen := by
  refine fun s hsoft => ⟨fun htx => congrArg _ (frameSent_none htx), fun f htx hb => ?_, fun f v htx hb =>
    ⟨_, rfl, ?rate⟩⟩
  case rate =>
    show (frameSent s).link.rate = v
    rw [frameSent, htx]
    dsimp only
    rw [judgeReset_off, arbitrate_rate, hb, switchRate_rate]
    rw [arbitrate_softReset, switchRate_softReset]
    exact hsoft
  · have hexec : exec .frameSent s = .next (arbitrate { s with link.tx := none }) := by
      show Host.Outcome.next (frameSent s) = _
      rw [frameSent_plain htx hb, judgeReset_off]
      rw [arbitrate_softReset]
      exact hsoft
    rw [hexec]
    refine ⟨fun p rest hr => ?_, fun body hr hs => ?_, fun q rest hr hs hp hq => ?_, fun hr hs hn => ?_⟩
    · simp [arbitrate, hr]
    · simp [arbitrate, hr, hs, hsoft]
    · simp [arbitrate, hr, hs, hsoft, hp, hq]
    · rcases hn with hn | hn
      · simp [arbitrate, hr, hs, hsoft, hn]
      · by_cases hp : s.set.noticePush = 0 <;> simp [arbitrate, hr, hs, hsoft, hn, hp]

/-! ### The soft reset (R18) -/

/-- Settles O9: the action closes the receiver, and the last closing FLAG finds nothing left to send. -/
theorem softResetFollowsLastReply : Obligations.SoftResetFollowsLastReply := by
  refine ⟨fun tag s hs => ?asked, fun f s hsoft hq hexec hr htx hb => ?reset⟩
  case asked =>
    have hnone : s.link.inExec = none := hs.1.2.1
    show accept _ _ s = _
    rw [accept_ready (i := .laneReset tag) rfl rfl hs]
    simp only [actLaneReset, answer, conclude, finish, judgeReset_placeReply, Request.reply, ← hnone]
  case reset =>
    show Host.Outcome.next (frameSent s) = _
    rw [frameSent_plain htx hb]
    simp [arbitrate, hr, hsoft, judgeReset, hq, hexec]

end Sys2Proof.Machine
end

