-- ==== Sys2Proof/Proofs/Link/Receiver.lean ====
section
/-! PROOFS. The receiver, character by character, and a whole request frame (R1 to R8). -/

namespace Sys2Proof.Machine

/-! ### Offering a notice, case by case (R188) -/

section
variable {t : Report} {n : Notice}

theorem offerOnce_off (h : t.prioOf n.code = 0) : t.offerOnce n = (t, none) := if_pos h

theorem offerOnce_room (h : t.prioOf n.code ≠ 0) (hroom : t.queue.length < 16) :
    t.offerOnce n = (t.admitNotice n, none) := by
  rw [Report.offerOnce, if_neg h, if_pos hroom]

theorem offerOnce_displaces (h : t.prioOf n.code ≠ 0) (hfull : ¬ t.queue.length < 16) {l : Queued}
    (hl : t.queue.getLast? = some l) (hout : t.prio l < t.prioOf n.code ∨ n.code = 0x80) :
    t.offerOnce n = ({ t with queue := t.queue.dropLast }.admitNotice n, some l.notice.code) := by
  rw [Report.offerOnce, if_neg h, if_neg hfull, hl]
  exact if_pos hout

theorem offerOnce_lost (h : t.prioOf n.code ≠ 0) (hfull : ¬ t.queue.length < 16) {l : Queued}
    (hl : t.queue.getLast? = some l) (hout : ¬ (t.prio l < t.prioOf n.code ∨ n.code = 0x80)) :
    t.offerOnce n = (t, some n.code) := by
  rw [Report.offerOnce, if_neg h, if_neg hfull, hl]
  exact if_neg hout

/-- A full queue has a last notice. -/
theorem getLast_of_full (h : ¬ t.queue.length < 16) : ∃ l, t.queue.getLast? = some l := by
  cases hl : t.queue.getLast? with
  | some l => exact ⟨l, rfl⟩
  | none => simp [List.getLast?_eq_none_iff.mp hl] at h

end

/-! ### Updates that an offered notice does not read -/

theorem offerOnce_frameError (t : Report) (n : Notice) (c : Option RxCause) :
    { t with latched.frameError := c }.offerOnce n =
      ({ (t.offerOnce n).1 with latched.frameError := c }, (t.offerOnce n).2) := by
  by_cases hoff : t.prioOf n.code = 0
  · rw [offerOnce_off hoff]
    exact offerOnce_off hoff
  by_cases hroom : t.queue.length < 16
  · rw [offerOnce_room hoff hroom]
    exact offerOnce_room (t := { t with latched.frameError := c }) hoff hroom
  obtain ⟨l, hl⟩ := getLast_of_full hroom
  by_cases hout : t.prio l < t.prioOf n.code ∨ n.code = 0x80
  · rw [offerOnce_displaces hoff hroom hl hout]
    exact offerOnce_displaces (t := { t with latched.frameError := c }) hoff hroom hl hout
  · rw [offerOnce_lost hoff hroom hl hout]
    exact offerOnce_lost (t := { t with latched.frameError := c }) hoff hroom hl hout

theorem offer_frameError (t : Report) (n : Notice) (c : Option RxCause) :
    { t with latched.frameError := c }.offer n = { t.offer n with latched.frameError := c } := by
  unfold Report.offer
  rw [offerOnce_frameError]
  obtain ⟨u, lost⟩ := t.offerOnce n
  cases lost with
  | none => rfl
  | some l =>
    dsimp only
    split
    · rfl
    · exact congrArg Prod.fst
        (offerOnce_frameError { u with latched.noticeLost := some l } (.noticeLost l) c)

/-- The receiver and a recorded discard are left out by the arbiter. -/
theorem arbitrate_rx_frame (s : State) (x : Rx) (c : Option RxCause) :
    arbitrate { s with link.rx := x, rpt.latched.frameError := c } =
      { arbitrate s with link.rx := x, rpt.latched.frameError := c } := by
  unfold arbitrate
  simp only
  repeat' split
  all_goals rfl

theorem raiseQuiet_rx_frame (n : Notice) (s : State) (x : Rx) (c : Option RxCause) :
    raiseQuiet n { s with link.rx := x, rpt.latched.frameError := c } =
      { raiseQuiet n s with link.rx := x, rpt.latched.frameError := c } := by
  unfold raiseQuiet
  rw [← arbitrate_rx_frame]
  simp only [offer_frameError]

/-! ### A discard (R7) -/

/-- What a discard leaves of the receiver and the requests, and what it records and queues. -/
theorem discard_setRx {s : State} (h : s.unbound) (cause : RxCause) (m : RxMode) :
    (discard raiseLoud cause (setRx m [] s)).link.rx = { mode := m, buf := [], quiet := 0 } ∧
    (discard raiseLoud cause (setRx m [] s)).link.queue = s.link.queue ∧
    (discard raiseLoud cause (setRx m [] s)).rpt.latched.frameError =
      some (s.rpt.latched.frameError.getD cause) ∧
    (discard raiseLoud cause (setRx m [] s)).rpt.queue = (if s.rpt.latched.frameError = none then
      (raiseQuiet (.linkFrameError cause) s).rpt.queue else s.rpt.queue) := by
  rw [discard_unbound (s := setRx m [] s) h]
  by_cases hf : s.rpt.latched.frameError = none
  · have hraise := raiseQuiet_rx_frame (.linkFrameError cause) s { mode := m, buf := [], quiet := 0 } (some cause)
    rw [if_pos (by exact hf), if_pos hf, hf]
    refine ⟨congrArg (fun t => t.link.rx) hraise, ?_, congrArg (fun t => t.rpt.latched.frameError) hraise,
      congrArg (fun t => t.rpt.queue) hraise⟩
    exact (congrArg (fun t => t.link.queue) hraise).trans (raiseQuiet_requests _ s)
  · rw [if_neg (by exact hf), if_neg hf]
    obtain ⟨c, hc⟩ := Option.ne_none_iff_exists.mp hf
    rw [← hc]
    exact ⟨rfl, rfl, hc.symm, rfl⟩

/-! ### A closing FLAG (R6) -/

/-- The checks on a body of at least five bytes, in their order. -/
theorem readBody_cons (places : Nat) (a b c : Byte) {rest : List Byte} (h : 2 ≤ rest.length) :
    readBody places (a :: b :: c :: rest) =
      (if (a :: b :: c :: rest).drop ((a :: b :: c :: rest).length - 2) ≠
          be16 (crc16 ((a :: b :: c :: rest).take ((a :: b :: c :: rest).length - 2))).toNat then .error .crc
      else if a ≠ 0x01#8 then .error .kind
      else if 8 ≤ places then .error .overrun
      else .ok { tag := b, code := c, payload := rest.take (rest.length - 2) }) := by
  have htake : (a :: b :: c :: rest).take ((a :: b :: c :: rest).length - 2) =
      a :: b :: c :: rest.take (rest.length - 2) := by
    have : (a :: b :: c :: rest).length - 2 = rest.length - 2 + 3 := by simp; omega
    rw [this]; rfl
  have hlen : ¬ (a :: b :: c :: rest).length < 5 := by simp; omega
  unfold readBody
  simp only [htake, if_neg hlen]

/-- A body of at least five bytes: kind, tag, code, and at least two more. -/
theorem body_cons {body : List Byte} (h : 5 ≤ body.length) :
    ∃ a b c rest, body = a :: b :: c :: rest ∧ 2 ≤ rest.length := by
  match body, h with
  | a :: b :: c :: rest, h => exact ⟨a, b, c, rest, rfl, by simpa using h⟩

/-- The body of a framed request is read as that request (R2, R3, R6). -/
theorem readBody_request {places : Nat} (tag code : Byte) (payload : List Byte) (h : places < 8) :
    readBody places (requestHead tag code payload ++ be16 (crc16 (requestHead tag code payload)).toNat) =
      .ok { tag := tag, code := code, payload := payload } := by
  unfold requestHead
  rw [List.cons_append, List.cons_append, List.cons_append,
    readBody_cons places _ _ _ (by simp [be16])]
  have hlen : (0x01#8 :: tag :: code :: (payload ++
      be16 (crc16 (0x01#8 :: tag :: code :: payload)).toNat)).length - 2 =
      (0x01#8 :: tag :: code :: payload).length := by simp [be16]
  rw [hlen, ← List.cons_append, ← List.cons_append, ← List.cons_append, List.drop_left, List.take_left]
  simp [be16, Nat.not_le.mpr h]

theorem rxCharacter_flag {r : Raise} {s : State} (h : s.link.rx.mode = .body) :
    rxCharacter r 0x7E#8 s = closeBody r s.link.rx.buf s := by
  simp [rxCharacter, h, flagByte]

/-- A body that a check refuses is discarded with its cause. -/
theorem closeBody_error {body : List Byte} {s : State} {cause : RxCause}
    (h : readBody s.link.placesInUse body = .error cause) :
    closeBody raiseLoud body s = discard raiseLoud cause (setRx .gap [] s) := by
  have : readBody (setRx .gap [] s).link.placesInUse body = .error cause := h
  simp [closeBody, this]

theorem closeBody_ok {body : List Byte} {s : State} {q : Request} {r : Raise}
    (h : readBody s.link.placesInUse body = .ok q) : closeBody r body s = admitRequest q (setRx .gap [] s) := by
  have : readBody (setRx .gap [] s).link.placesInUse body = .ok q := h
  simp [closeBody, this]

/-- Settles O5, by the receiver's states. -/
theorem receiverHandlesCharacter : Obligations.ReceiverHandlesCharacter := by
  refine ⟨fun c stop s => ⟨rxCharacter raiseLoud c s, rfl, ?_⟩, fun stop body s hu hmode hbuf => ⟨fun cause hc =>
    ⟨rxCharacter raiseLoud 0x7E#8 s, rfl, ?_⟩, fun tag code payload hbody hroom => ?_⟩, fun s hu => ?stall⟩
  · have overlong (hu : s.unbound) := discard_setRx hu .overlong .seek
    refine ⟨fun h => ?_, fun h hc => ?_, fun h hc => ?_, fun h hc => ?_, fun h hc => ?_, fun h hc hc' => ?_,
      fun h hc => ?_, fun h hc hc' hl => ?_, fun h hc hl => ?_, fun hu h hc hc' hl => ?_, fun hu h hc hl => ?_,
      fun hu h hc => ?_⟩
    all_goals simp only [rxCharacter, h]
    · rw [if_neg (c := c = flagByte) hc]
    · rw [if_pos (c := c = flagByte) hc]; rfl
    · rw [if_pos (c := c = flagByte) hc]
    · rw [hc]; rfl
    · rw [if_neg (c := c = flagByte) hc, if_neg (c := c = escByte) hc']; rfl
    · rw [hc]; rfl
    · rw [if_neg (c := c = flagByte) hc, if_neg (c := c = escByte) hc', appendBody, if_neg (Nat.not_le.mpr hl)]; rfl
    · rw [if_neg (c := c = flagByte) hc, appendBody, if_neg (Nat.not_le.mpr hl)]; rfl
    · rw [if_neg (c := c = flagByte) hc, if_neg (c := c = escByte) hc', appendBody, if_pos hl]
      exact ⟨(overlong hu).1, (overlong hu).2.1, (overlong hu).2.2.1⟩
    · rw [if_neg (c := c = flagByte) hc, appendBody, if_pos hl]
      exact ⟨(overlong hu).1, (overlong hu).2.1, (overlong hu).2.2.1⟩
    · rw [if_pos (c := c = flagByte) hc]
      obtain ⟨h1, h2, h3, -⟩ := discard_setRx hu .badEscape .gap
      exact ⟨h1, h2, h3⟩
  · have herror : readBody s.link.placesInUse body = .error cause := by
      rcases hc with ⟨rfl, hshort⟩ | ⟨hlen, hc⟩
      · simp [readBody, hshort]
      · obtain ⟨a, b, c, rest, rfl, hrest⟩ := body_cons hlen
        rw [readBody_cons _ _ _ _ hrest]
        rcases hc with ⟨rfl, hcrc⟩ | ⟨hcrc, ⟨rfl, hkind⟩ | ⟨rfl, hkind, hfull⟩⟩
        · rw [if_pos hcrc]
        · rw [if_neg (not_not_intro hcrc), if_pos (by simpa using hkind)]
        · rw [if_neg (not_not_intro hcrc), if_neg (by simpa using hkind), if_pos hfull]
    rw [rxCharacter_flag hmode, hbuf, closeBody_error herror]
    exact discard_setRx hu cause .gap
  · show Host.Outcome.next (rxCharacter raiseLoud 0x7E#8 s) = _
    rw [rxCharacter_flag hmode, hbuf, hbody, closeBody_ok (readBody_request tag code payload hroom)]
    rfl
  case stall =>
    refine ⟨fun hin hf => ?_, fun hin hf => ?_, fun hin => ?_⟩
    all_goals
      show Host.Outcome.next (rxStall raiseLoud s) = _
      rw [rxStall, hin]
    · rw [if_pos rfl, discard_unbound (s := setRx .seek [] s) hu, if_pos (by exact hf)]
      rfl
    · rw [if_pos rfl, discard_unbound (s := setRx .seek [] s) hu, if_neg (by exact hf)]
      rfl
    · simp

/-! ### A whole frame (R2 to R6, R8) -/

theorem receive_cons (c : Byte) (rest : List Byte) (s : State) :
    receive (c :: rest) s = receive rest (rxCharacter raiseLoud c s) := rfl

/-- The characters that one byte is sent as add that byte to the body. -/
theorem receive_escapeByte {b : Byte} {buf rest : List Byte} (s : State) (h : buf.length < 260) :
    receive (escapeByte b ++ rest) (setRx .body buf s) = receive rest (setRx .body (buf ++ [b]) s) := by
  have hroom : ¬ 260 ≤ buf.length := Nat.not_le.mpr h
  unfold escapeByte
  split
  next hb =>
    rcases hb with rfl | rfl <;>
      simp [receive_cons, rxCharacter, setRx, appendBody, flagByte, escByte, hroom]
  next hb =>
    rw [not_or] at hb
    simp [receive_cons, rxCharacter, setRx, appendBody, hb, hroom]

/-- The characters that bytes are sent as add those bytes to the body. -/
theorem receive_escaped (l : List Byte) {buf rest : List Byte} (s : State) (h : buf.length + l.length ≤ 260) :
    receive (l.flatMap escapeByte ++ rest) (setRx .body buf s) = receive rest (setRx .body (buf ++ l) s) := by
  induction l generalizing buf with
  | nil => simp
  | cons b l ih =>
    simp only [List.length_cons] at h
    rw [List.flatMap_cons, List.append_assoc, receive_escapeByte s (by omega), ih (by simp; omega)]
    simp

/-- The opening FLAG and the kind byte begin a body. -/
theorem receive_opening {rest : List Byte} {s : State} (h : s.link.rx.mode = .seek ∨ s.link.rx.mode = .gap) :
    receive (flagByte :: 0x01#8 :: rest) s = receive rest (setRx .body [0x01#8] s) := by
  rcases h with h | h <;> simp [receive_cons, rxCharacter, h, flagByte, escByte] <;> rfl

/-- Settles O4: opening, bytes of the body, and the closing FLAG that admits the request. -/
theorem framedRequestReceived : Obligations.FramedRequestReceived := by
  intro tag code payload s hlen hmode hroom
  have hline : requestLine tag code payload = flagByte :: 0x01#8 :: ((tag :: code :: payload ++
      be16 (crc16 (requestHead tag code payload)).toNat).flatMap escapeByte ++ [flagByte]) := rfl
  have hbody : [0x01#8] ++ (tag :: code :: payload ++ be16 (crc16 (requestHead tag code payload)).toNat) =
      requestHead tag code payload ++ be16 (crc16 (requestHead tag code payload)).toNat := rfl
  rw [hline, receive_opening hmode, receive_escaped _ _ (by simp [be16]; omega), hbody, receive_cons]
  show Host.Outcome.next (rxCharacter raiseLoud 0x7E#8 _) = _
  rw [rxCharacter_flag rfl]
  exact congrArg _ (closeBody_ok (readBody_request tag code payload hroom))

end Sys2Proof.Machine
end

