-- ==== Sys2Proof/Proofs/Link/Notices.lean ====
section
/-! PROOFS. The order of the notice queue (R187, R188). -/

namespace Sys2Proof.Machine

/-! ### The order of two queued notices -/

theorem before_iff {t : Report} {a b : Queued} :
    t.before a b = true ↔ t.prio b < t.prio a ∨ t.prio a = t.prio b ∧ a.seq ≤ b.seq := by
  simp [Report.before]

theorem before_trans {t : Report} {a b c : Queued} (hab : t.before a b = true) (hbc : t.before b c = true) :
    t.before a c = true := by
  rw [before_iff] at *
  omega

theorem before_total {t : Report} {a b : Queued} (h : ¬ t.before a b = true) : t.before b a = true := by
  rw [before_iff] at *
  omega

/-! ### Admitting a notice -/

/-- Past the first element that fails, every element of a list that the property leads fails. -/
theorem dropWhile_fails {α : Type} {p : α → Bool} {l : List α} (h : l.Pairwise fun a b => p b = true → p a = true) :
    ∀ b ∈ l.dropWhile p, p b = false := by
  induction l with
  | nil => simp
  | cons a l ih =>
    obtain ⟨hhead, htail⟩ := List.pairwise_cons.mp h
    intro b hb
    cases ha : p a with
    | true => exact ih htail b (by simpa [ha] using hb)
    | false =>
      rw [List.dropWhile_cons_of_neg (by simp [ha])] at hb
      cases hpb : p b with
      | false => rfl
      | true =>
        rcases List.mem_cons.mp hb with rfl | hmem
        · rw [← hpb, ha]
        · rw [← ha, hhead b hmem hpb]

theorem admitNotice_perm (t : Report) (n : Notice) :
    (t.admitNotice n).queue.Perm ({ notice := n, seq := t.nextSeq } :: t.queue) := by
  unfold Report.admitNotice
  refine List.perm_middle.trans ?_
  rw [List.takeWhile_append_dropWhile]

theorem admitNotice_aged {t : Report} (h : t.aged) (n : Notice) : (t.admitNotice n).aged := by
  obtain ⟨hold, hdistinct⟩ := h
  have hperm := admitNotice_perm t n
  constructor
  · intro q hq
    rcases List.mem_cons.mp (hperm.mem_iff.mp hq) with rfl | hq
    · exact Nat.lt_succ_self _
    · exact Nat.lt_trans (hold q hq) (Nat.lt_succ_self _)
  · rw [hperm.pairwise_iff fun h => h.symm]
    exact List.pairwise_cons.mpr ⟨fun q hq => Nat.ne_of_gt (hold q hq), hdistinct⟩

/-- A notice is admitted behind those of its own or a higher priority, and before those of a lower one. -/
theorem admitNotice_ordered {t : Report} (h : t.ordered) (hage : t.aged) (n : Notice) : (t.admitNotice n).ordered := by
  let x : Queued := { notice := n, seq := t.nextSeq }
  let p : Queued → Bool := fun q => decide (t.prioOf n.code ≤ t.prio q)
  show (t.queue.takeWhile p ++ x :: t.queue.dropWhile p).Pairwise fun a b => t.before a b = true
  have hsplit : (t.queue.takeWhile p ++ t.queue.dropWhile p).Pairwise fun a b => t.before a b = true := by
    rwa [List.takeWhile_append_dropWhile]
  obtain ⟨hfront, hback, hacross⟩ := List.pairwise_append.mp hsplit
  have hlower : ∀ b ∈ t.queue.dropWhile p, t.prio b < t.prio x := by
    have hdown : t.queue.Pairwise fun a b => p b = true → p a = true :=
      h.imp fun hab => by
        rw [before_iff] at hab
        simp only [p, decide_eq_true_eq]
        omega
    intro b hb
    have hfail := dropWhile_fails hdown b hb
    simp only [p, decide_eq_false_iff_not, Nat.not_le] at hfail
    exact hfail
  refine List.pairwise_append.mpr ⟨hfront, List.pairwise_cons.mpr ⟨fun b hb => ?_, hback⟩, fun a ha b hb => ?_⟩
  · exact before_iff.mpr (.inl (hlower b hb))
  · rcases List.mem_cons.mp hb with rfl | hb
    · have hprio : t.prioOf n.code ≤ t.prio a := by simpa [p] using List.all_eq_true.mp List.all_takeWhile a ha
      have hseq : a.seq < t.nextSeq := hage.1 a ((List.takeWhile_sublist p).subset ha)
      have hx : t.prio x = t.prioOf n.code := rfl
      have hxs : x.seq = t.nextSeq := rfl
      exact before_iff.mpr (by omega)
    · exact hacross a ha b hb

/-! ### Offering a notice -/

/-- The queue stands in order, and its ages are distinct and below the next one. -/
abbrev InOrder (t : Report) : Prop := t.ordered ∧ t.aged

theorem inOrder_dropLast {t : Report} (h : InOrder t) : InOrder { t with queue := t.queue.dropLast } :=
  have hsub := List.dropLast_sublist t.queue
  ⟨h.1.sublist hsub, fun q hq => h.2.1 q (hsub.subset hq), h.2.2.sublist hsub⟩

theorem offerOnce_inOrder {t : Report} (h : InOrder t) (n : Notice) : InOrder (t.offerOnce n).1 := by
  by_cases hoff : t.prioOf n.code = 0
  · rwa [offerOnce_off hoff]
  by_cases hroom : t.queue.length < 16
  · rw [offerOnce_room hoff hroom]
    exact ⟨admitNotice_ordered h.1 h.2 n, admitNotice_aged h.2 n⟩
  obtain ⟨l, hl⟩ := getLast_of_full hroom
  by_cases hout : t.prio l < t.prioOf n.code ∨ n.code = 0x80
  · rw [offerOnce_displaces hoff hroom hl hout]
    have hshort := inOrder_dropLast h
    exact ⟨admitNotice_ordered hshort.1 hshort.2 n, admitNotice_aged hshort.2 n⟩
  · rwa [offerOnce_lost hoff hroom hl hout]

theorem offer_inOrder {t : Report} (h : InOrder t) (n : Notice) : InOrder (t.offer n) := by
  have hfirst := offerOnce_inOrder h n
  unfold Report.offer
  split
  next heq => rwa [heq] at hfirst
  next heq =>
    rw [heq] at hfirst
    split
    · exact hfirst
    · exact offerOnce_inOrder (by exact hfirst) _

/-! ### Placing a kind's notices again (R187) -/

theorem place_perm (t : Report) (a : Queued) (l : List Queued) : (t.place a l).Perm (a :: l) := by
  induction l with
  | nil => exact .refl _
  | cons b l ih =>
    rw [Report.place]
    split
    · exact .refl _
    · exact (ih.cons b).trans (.swap a b l)

theorem foldr_place_perm (t : Report) (moved kept : List Queued) :
    (moved.foldr t.place kept).Perm (moved ++ kept) := by
  induction moved with
  | nil => exact .refl _
  | cons a moved ih => exact (place_perm t a _).trans (ih.cons a)

theorem place_ordered {t : Report} {l : List Queued} (a : Queued) (h : l.Pairwise fun a b => t.before a b = true) :
    (t.place a l).Pairwise fun a b => t.before a b = true := by
  induction l with
  | nil => simp [Report.place]
  | cons b l ih =>
    obtain ⟨hb, hl⟩ := List.pairwise_cons.mp h
    rw [Report.place]
    split
    next hab =>
      refine List.pairwise_cons.mpr ⟨fun c hc => ?_, h⟩
      rcases List.mem_cons.mp hc with rfl | hc
      · exact hab
      · exact before_trans hab (hb c hc)
    next hab =>
      refine List.pairwise_cons.mpr ⟨fun c hc => ?_, ih hl⟩
      rcases List.mem_cons.mp ((place_perm t a l).mem_iff.mp hc) with rfl | hc
      · exact before_total hab
      · exact hb c hc

theorem foldr_place_ordered {t : Report} (moved : List Queued) {kept : List Queued}
    (h : kept.Pairwise fun a b => t.before a b = true) :
    (moved.foldr t.place kept).Pairwise fun a b => t.before a b = true := by
  induction moved with
  | nil => exact h
  | cons a moved ih => exact place_ordered a ih

/-- Placing a notice of a kind leaves the notices of the others as they stand. -/
theorem place_filter {t : Report} {a : Queued} {code : Nat} (ha : a.notice.code = code) (l : List Queued) :
    (t.place a l).filter (fun q => q.notice.code != code) = l.filter (fun q => q.notice.code != code) := by
  induction l with
  | nil => simp [Report.place, ha]
  | cons b l ih =>
    rw [Report.place]
    split
    · simp [ha]
    · rw [List.filter_cons, List.filter_cons, ih]

theorem foldr_place_filter {t : Report} {code : Nat} {moved : List Queued} (h : ∀ a ∈ moved, a.notice.code = code)
    (kept : List Queued) :
    (moved.foldr t.place kept).filter (fun q => q.notice.code != code) =
      kept.filter (fun q => q.notice.code != code) := by
  induction moved with
  | nil => rfl
  | cons a moved ih =>
    rw [List.foldr_cons, place_filter (h a (by simp)), ih fun b hb => h b (by simp [hb])]

theorem notice_code_ge (n : Notice) : 0x80 ≤ n.code := by
  cases n <;> simp [Notice.code]

/-- A kind's priority is that of no other kind. -/
theorem prio_setRoute_other {t : Report} {code prio : Nat} (hcode : isNoticeCode code = true) {q : Queued}
    (hq : q.notice.code ≠ code) : { t with routes := t.routes.set (code - 0x80) prio }.prio q = t.prio q := by
  have hge := notice_code_ge q.notice
  have hne : code - 0x80 ≠ q.notice.code - 0x80 := by
    simp only [isNoticeCode, Bool.and_eq_true, decide_eq_true_eq] at hcode
    omega
  simp [Report.prio, Report.prioOf, List.getD_eq_getElem?_getD, List.getElem?_set_ne hne]

/-- The other kinds' notices stay in order under the new routes. -/
theorem kept_ordered {t : Report} {code : Nat} (prio : Nat) (hcode : isNoticeCode code = true) (h : t.ordered) :
    (t.queue.filter fun q => q.notice.code != code).Pairwise fun a b =>
      { t with routes := t.routes.set (code - 0x80) prio }.before a b = true := by
  refine (h.filter _).imp_of_mem fun {a b} ha hb hab => ?_
  have hane : a.notice.code ≠ code := by simpa using (List.mem_filter.mp ha).2
  have hbne : b.notice.code ≠ code := by simpa using (List.mem_filter.mp hb).2
  rw [before_iff] at hab ⊢
  rwa [prio_setRoute_other hcode hane, prio_setRoute_other hcode hbne]

/-- Settles O14: an offer and a new route, each by what it does to the queue. -/
theorem noticeQueueKeepsOrder : Obligations.NoticeQueueKeepsOrder := by
  refine ⟨fun n t hord hage hlen => ?_, fun code prio t hcode hord hage _ => ?_⟩
  · have horder := offer_inOrder ⟨hord, hage⟩ n
    exact ⟨horder.1, horder.2, (offer_length t n).elim id fun h => Nat.le_trans h hlen⟩
  · have hkept := kept_ordered prio hcode hord
    have hmoved : ∀ a ∈ t.queue.filter (fun q => q.notice.code == code), a.notice.code = code := fun a ha => by
      simpa using (List.mem_filter.mp ha).2
    by_cases hprio : prio = 0
    · have hroute : t.route code prio = { t with
          routes := t.routes.set (code - 0x80) prio
          queue := t.queue.filter fun q => q.notice.code != code } := by simp [Report.route, hprio]
      rw [hroute]
      refine ⟨hkept, by simp, fun _ => ?_, fun h => absurd hprio h⟩
      rw [List.all_eq_true]
      exact fun q hq => (List.mem_filter.mp hq).2
    · have hroute : t.route code prio = { t with
          routes := t.routes.set (code - 0x80) prio
          queue := (t.queue.filter fun q => q.notice.code == code).foldr
            (Report.place { t with routes := t.routes.set (code - 0x80) prio })
            (t.queue.filter fun q => q.notice.code != code) } := by simp [Report.route, hprio]
      rw [hroute]
      refine ⟨foldr_place_ordered _ hkept, ?_, fun h => absurd h hprio, fun _ => ?_⟩
      · exact (foldr_place_filter hmoved _).trans (by simp)
      · refine (foldr_place_perm _ _ _).trans ?_
        exact List.filter_append_perm (fun q => q.notice.code == code) t.queue

end Sys2Proof.Machine
end

