-- ==== Sys2Proof/Proofs/Figures.lean ====
section
/-! PROOFS. Rounding, the strobe phases of a line and the legal values of the settings (R28, R61, R169 to R171,
R193). -/

namespace Sys2Proof.Machine

/-! ### Weights and prices (R28, R61) -/

/-- A quotient rounded half up is the nearest, a tie going up. -/
theorem roundHalfUp_bounds (n : Nat) {d : Nat} (hd : 0 < d) :
    2 * d * roundHalfUp n d ≤ 2 * n + d ∧ 2 * n + d < 2 * d * roundHalfUp n d + 2 * d := by
  unfold roundHalfUp
  have hdiv := Nat.div_add_mod (2 * n + d) (2 * d)
  have hmod := Nat.mod_lt (2 * n + d) (show 0 < 2 * d by omega)
  omega

/-- Settles O24: the division of the channel times a rounded quotient. -/
theorem weightsAndPricesRounded : Obligations.WeightsAndPricesRounded := by
  refine ⟨fun ch net => ⟨_, rfl, ?_⟩, fun net => ⟨rfl, rfl⟩, fun net unit => ?price⟩
  case price =>
    have h := roundHalfUp_bounds (net * unit) (show 0 < 1000 by omega)
    unfold capturePrice
    omega
  · have hd : 0 < 1000 * ch.division net := by
      unfold Channel.division
      cases ch with
      | p => dsimp only; split <;> omega
      | b => exact (by decide : 0 < 1000 * 10)
    obtain ⟨hnear, htie⟩ := roundHalfAway_nearest net (1000 * ch.division net) hd
    have hmul : 1000 * ch.toD net = ((1000 * ch.division net : Nat) : Int) *
        roundHalfAway net (1000 * ch.division net) := by
      have hcast : ((1000 * ch.division net : Nat) : Int) = 1000 * (ch.division net : Int) := by omega
      rw [Channel.toD, hcast, Int.mul_assoc, Int.mul_comm (ch.division net : Int)]
    rw [hmul]
    generalize ((1000 * ch.division net : Nat) : Int) * roundHalfAway net (1000 * ch.division net) = m at *
    omega

/-! ### Strobe phases (R169) -/

/-- A phase begun takes at least the dots it has. -/
theorem groupFrom_head {limit cur : Nat} (hcur : 0 < cur) (l : List Nat) :
    ∃ p rest, groupFrom limit cur l = p :: rest ∧ cur ≤ p := by
  induction l generalizing cur with
  | nil => exact ⟨cur, [], if_neg (by omega), Nat.le_refl _⟩
  | cons n l ih =>
    rw [groupFrom]
    split
    · exact ih hcur
    · split
      · obtain ⟨p, rest, heq, hp⟩ := ih (cur := cur + n) (by omega)
        exact ⟨p, rest, heq, by omega⟩
      · rw [if_neg (by omega)]
        exact ⟨cur, _, rfl, Nat.le_refl _⟩

theorem groupFrom_sum (limit cur : Nat) (l : List Nat) : (groupFrom limit cur l).sum = cur + l.sum := by
  induction l generalizing cur with
  | nil =>
    rw [groupFrom]
    split <;> simp [*]
  | cons n l ih =>
    rw [groupFrom]
    split
    next hn => simp [ih, hn]
    next =>
      split
      · rw [ih, List.sum_cons]; omega
      · split
        next hcur => rw [ih, List.sum_cons, hcur]; omega
        · rw [List.sum_cons, ih, List.sum_cons]

theorem groupFrom_length (limit cur : Nat) (l : List Nat) :
    (groupFrom limit cur l).length ≤ l.length + if cur = 0 then 0 else 1 := by
  induction l generalizing cur with
  | nil =>
    rw [groupFrom]
    split <;> simp
  | cons n l ih =>
    have hn := ih n
    have hcur := ih cur
    have hboth := ih (cur + n)
    rw [groupFrom]
    split
    · simp only [List.length_cons]; omega
    next hpos =>
      rw [if_neg hpos] at hn
      rw [if_neg (by omega)] at hboth
      split
      · split <;> simp only [List.length_cons] <;> omega
      · split <;> simp only [List.length_cons] <;> omega

/-- Where no block exceeds the limit no phase does, and no phase is without dots. -/
theorem groupFrom_bounds {limit cur : Nat} {l : List Nat} (hcur : cur ≤ limit) (hl : ∀ n ∈ l, n ≤ limit) :
    ∀ p ∈ groupFrom limit cur l, 1 ≤ p ∧ p ≤ limit := by
  induction l generalizing cur with
  | nil =>
    rw [groupFrom]
    split
    · simp
    · intro p hp
      rw [List.mem_singleton.mp hp]
      omega
  | cons n l ih =>
    have hn : n ≤ limit := hl n (by simp)
    have hrest : ∀ x ∈ l, x ≤ limit := fun x hx => hl x (by simp [hx])
    rw [groupFrom]
    split
    · exact ih hcur hrest
    · split
      · exact ih (by omega) hrest
      · split
        · exact ih hn hrest
        · intro p hp
          rcases List.mem_cons.mp hp with rfl | hp
          · omega
          · exact ih hn hrest p hp

/-- A phase ends only where the next block would exceed the limit. -/
theorem groupFrom_neighbours {limit cur p q : Nat} {l pre post : List Nat}
    (h : groupFrom limit cur l = pre ++ p :: q :: post) : limit < p + q := by
  induction l generalizing cur pre with
  | nil =>
    have hlen := congrArg List.length h
    rw [groupFrom, List.length_append, List.length_cons, List.length_cons] at hlen
    split at hlen <;> simp only [List.length_nil, List.length_singleton] at hlen <;> omega
  | cons n l ih =>
    rw [groupFrom] at h
    split at h
    · exact ih h
    · split at h
      · exact ih h
      · split at h
        · exact ih h
        · cases pre with
          | nil =>
            obtain ⟨first, rest, heq, hfirst⟩ := groupFrom_head (limit := limit) (cur := n) (by omega) l
            rw [heq] at h
            injection h with hp htail
            injection htail with hq
            omega
          | cons x pre =>
            injection h with _ htail
            exact ih htail

theorem clampNat_bounds {lo hi : Nat} (h : lo ≤ hi) (n : Nat) : lo ≤ clampNat lo hi n ∧ clampNat lo hi n ≤ hi := by
  unfold clampNat
  repeat' split
  all_goals omega

/-- Settles O55: the phases as the blocks are grouped, and the clamps. -/
theorem strobesFollowLimit : Obligations.StrobesFollowLimit := by
  refine ⟨fun limit counts hcounts => ⟨groupFrom_bounds (Nat.zero_le _) hcounts, ?_, ?_, fun pre p q post h => ?_⟩,
    fun darkness theta mv _ _ _ => ?_, fun _ _ => rfl⟩
  · rw [groupPhases, groupFrom_sum, Nat.zero_add]
  · exact groupFrom_length limit 0 counts
  · exact groupFrom_neighbours h
  · obtain ⟨htf, htf'⟩ := clampNat_bounds (show 512 ≤ 2048 by omega) (1024 + 16 * (25 - theta)).toNat
    obtain ⟨hvf, hvf'⟩ := clampNat_bounds (show 768 ≤ 1536 by omega)
      (if mv = 0 then Config.noVoltage else 576000000 * 1024 / (mv * mv))
    refine ⟨htf, htf', hvf, hvf', ?_⟩
    rintro rfl rfl
    show (200 + 50 * darkness) * 1024 * 1024 / 1048576 = _
    omega

/-! ### The legal values of a setting (R193) -/

/-- Every range of Table 11-3 ends on its step, which is 1 or 10. -/
theorem settingValues_range {n lo hi step : Nat} (h : settingValues n = some (.range lo hi step)) :
    lo ≤ hi ∧ (step = 1 ∨ step = 10) ∧ (hi - lo) % step = 0 := by
  unfold settingValues at h
  split at h
  all_goals cases h
  all_goals decide

/-- Every list of Table 11-3 rises. -/
theorem settingValues_listed {n : Nat} {l : List Nat} (h : settingValues n = some (.listed l)) :
    l ≠ [] ∧ l.Pairwise (· < ·) := by
  unfold settingValues at h
  split at h
  all_goals cases h
  all_goals decide

/-- A value is nearest to `v` among `l`, and the higher of two as near. -/
abbrev NearestIn (v k : Nat) (l : List Nat) : Prop :=
  ∀ x ∈ l, distNat v k ≤ distNat v x ∧ (distNat v k = distNat v x → x ≤ k)

theorem foldl_nearest (v : Nat) (best : Nat) (l seen : List Nat) (hmem : best ∈ seen) (hbest : NearestIn v best seen)
    (hup : l.Pairwise (· < ·)) (hlater : ∀ x ∈ seen, ∀ y ∈ l, x < y) :
    l.foldl (fun best y => if distNat v y ≤ distNat v best then y else best) best ∈ seen ++ l ∧
      NearestIn v (l.foldl (fun best y => if distNat v y ≤ distNat v best then y else best) best) (seen ++ l) := by
  induction l generalizing best seen with
  | nil => simpa using ⟨hmem, hbest⟩
  | cons y l ih =>
    obtain ⟨hy, hl⟩ := List.pairwise_cons.mp hup
    rw [List.foldl_cons, List.append_cons]
    refine ih _ (seen ++ [y]) ?_ ?_ hl ?_
    · split
      · simp
      · exact List.mem_append_left _ hmem
    · intro x hx
      rcases List.mem_append.mp hx with hx | hx
      · have hxy := hlater x hx y (by simp)
        have := hbest x hx
        split <;> omega
      · obtain rfl := List.mem_singleton.mp hx
        have := hlater best hmem x (by simp)
        split <;> omega
    · intro x hx z hz
      rcases List.mem_append.mp hx with hx | hx
      · exact hlater x hx z (by simp [hz])
      · obtain rfl := List.mem_singleton.mp hx
        exact hy z hz

theorem nearestListed_nearest (v : Nat) {l : List Nat} (hne : l ≠ []) (hup : l.Pairwise (· < ·)) :
    nearestListed v l ∈ l ∧ NearestIn v (nearestListed v l) l := by
  cases l with
  | nil => exact absurd rfl hne
  | cons x l =>
    obtain ⟨hx, hl⟩ := List.pairwise_cons.mp hup
    exact foldl_nearest v x l [x] (by simp) (by simp [NearestIn]) hl (by simpa using hx)

theorem nearestListed_self {k : Nat} {l : List Nat} (hup : l.Pairwise (· < ·)) (hk : k ∈ l) :
    nearestListed k l = k := by
  have hnear := (nearestListed_nearest k (List.ne_nil_of_mem hk) hup).2 k hk
  unfold distNat at hnear
  omega

/-- A value of a range: within it, on its step. -/
abbrev OnStep (lo hi step k : Nat) : Prop := lo ≤ k ∧ k ≤ hi ∧ (k - lo) % step = 0

theorem nearestStep_onStep {lo hi step : Nat} (hle : lo ≤ hi) (hstep : step = 1 ∨ step = 10)
    (hend : (hi - lo) % step = 0) (v : Nat) : OnStep lo hi step (nearestStep lo step (clampNat lo hi v)) := by
  obtain ⟨hlo, hhi⟩ := clampNat_bounds hle v
  unfold nearestStep
  rcases hstep with rfl | rfl <;> refine ⟨?_, ?_, ?_⟩ <;> omega

theorem nearestStep_nearest {lo hi step : Nat} (hle : lo ≤ hi) (hstep : step = 1 ∨ step = 10)
    (hend : (hi - lo) % step = 0) (v x : Nat) (hx : OnStep lo hi step x) :
    distNat v (nearestStep lo step (clampNat lo hi v)) ≤ distNat v x ∧
      (distNat v (nearestStep lo step (clampNat lo hi v)) = distNat v x →
        x ≤ nearestStep lo step (clampNat lo hi v)) := by
  obtain ⟨hxlo, hxhi, hxstep⟩ := hx
  unfold nearestStep distNat clampNat
  rcases hstep with rfl | rfl
  · split
    · omega
    · split <;> omega
  · split
    · omega
    · split <;> omega

theorem nearestStep_self {lo hi step k : Nat} (hstep : step = 1 ∨ step = 10) (hk : OnStep lo hi step k) :
    nearestStep lo step (clampNat lo hi k) = k := by
  obtain ⟨hlo, hhi, hon⟩ := hk
  unfold nearestStep clampNat
  rw [if_neg (by omega), if_neg (by omega)]
  rcases hstep with rfl | rfl <;> omega

/-- A value taken is taken as it is. -/
theorem take_take {n v : Nat} {x : SettingValues} (h : settingValues n = some x) : x.take (x.take v) = x.take v := by
  cases x with
  | range lo hi step =>
    obtain ⟨hle, hstep, hend⟩ := settingValues_range h
    exact nearestStep_self hstep (nearestStep_onStep hle hstep hend v)
  | listed l =>
    obtain ⟨hne, hup⟩ := settingValues_listed h
    exact nearestListed_self hup (nearestListed_nearest v hne hup).1

theorem take_window (v : Nat) : (SettingValues.range 6 120 1).take v = min 120 (max 6 v) := by
  simp only [SettingValues.take, nearestStep, clampNat]
  split
  · omega
  · split <;> omega

theorem taken_windowP (t : Settings) (v : Nat) : t.taken 5 v = some (max t.filterDepthP (min 120 (max 6 v))) := by
  rw [← take_window]; rfl

theorem taken_windowB (t : Settings) (v : Nat) : t.taken 6 v = some (max t.filterDepthB (min 120 (max 6 v))) := by
  rw [← take_window]; rfl

/-- The value taken for a setting that is no STABILITY_WINDOW. -/
theorem taken_plain {n v k : Nat} {t : Settings} (h5 : n ≠ 5) (h6 : n ≠ 6) (h : t.taken n v = some k) :
    ∃ x, settingValues n = some x ∧ k = x.take v := by
  unfold Settings.taken at h
  obtain ⟨x, hx, hk⟩ := Option.map_eq_some_iff.mp h
  rw [if_neg h5, if_neg h6] at hk
  exact ⟨x, hx, hk.symm⟩

theorem taken_taken {n v k : Nat} {t : Settings} (h : t.taken n v = some k) : t.taken n k = some k := by
  by_cases h5 : n = 5
  · subst h5
    rw [taken_windowP] at h ⊢
    injection h with h
    subst h
    congr 1
    omega
  by_cases h6 : n = 6
  · subst h6
    rw [taken_windowB] at h ⊢
    injection h with h
    subst h
    congr 1
    omega
  obtain ⟨x, hx, rfl⟩ := taken_plain h5 h6 h
  unfold Settings.taken
  rw [hx]
  simp only [Option.map_some, if_neg h5, if_neg h6, take_take hx]

theorem get_put {n : Nat} (h1 : 1 ≤ n) (h2 : n ≤ 32) (t : Settings) (v : Nat) : (t.put v n).get n = v := by
  unfold Settings.put
  split
  case h_33 =>
    simp only [imp_false] at *
    omega
  all_goals rfl

/-! ### SET_GET and SET_PUT (R193) -/

theorem plainSettings_range {n : Nat} (h : n ∈ plainSettings) : 1 ≤ n ∧ n ≤ 32 := by
  simp only [plainSettings, List.mem_cons, List.not_mem_nil, or_false] at h
  omega

/-- A change of a plain setting is the working copy's alone. -/
theorem settingChanged_plain {n : Nat} (h : n ∈ plainSettings) (r : Raise) (s : State) : settingChanged r n s = s := by
  simp only [plainSettings, List.mem_cons, List.not_mem_nil, or_false] at h
  unfold settingChanged
  split
  all_goals first | rfl | omega

theorem actSetPut_plain {number : Byte} {value : BitVec 32} {s : State} {v : Nat} (r : Raise)
    (hn : number.toNat ∈ plainSettings) (h : s.set.taken number.toNat value.toNat = some v) :
    actSetPut number value r s = ({ s with set := s.set.put v number.toNat },
      .reply (if v = value.toNat then .ok else .okClamped) (number :: be32 v)
        (if number = 1#8 then some v else none)) := by
  unfold actSetPut
  rw [h]
  simp only [settingChanged_plain hn, ite_self]

theorem setPut_refuses {tag number : Byte} {value : BitVec 32} {s : State} (hs : s.ready)
    (h : number = 0#8 ∨ 32 < number.toNat) : Refuses (.setPut tag number value) tag 0x11#8 .refusedRange s := by
  refine refuses_of_ready rfl rfl hs fun _ => ?_
  have hnone : settingValues number.toNat = none := settingValues_none (h.imp (fun h => by simp [h]) id)
  simp [requestAction, actSetPut, Settings.taken, hnone]

/-- Settles O17: the actions of the two requests, and the value taken for a range, a list and a window. -/
theorem settingReadAndWritten : Obligations.SettingReadAndWritten := by
  refine ⟨fun tag number s hs => ⟨fun h1 h2 => ?get, fun h => ?noGet⟩, fun tag number value s hs =>
    ⟨fun v hn hv => ⟨?put, ?stored⟩, setPut_refuses hs⟩, fun n v k t hk => ⟨taken_taken hk, ?range, ?list, ?winP, ?winB⟩⟩
  case get =>
    obtain ⟨x, hx⟩ := settingValues_some h1 h2
    refine exec_answers_of_ready rfl rfl hs rfl fun _ => ?_
    simp [requestAction, actSetGet, hx, answer]
  case noGet =>
    refine refuses_of_ready rfl rfl hs fun _ => ?_
    have hnone : settingValues number.toNat = none := settingValues_none (h.imp (fun h => by simp [h]) id)
    simp [requestAction, actSetGet, hnone]
  case put =>
    have hsoft : s.link.softReset = false := hs.1.2.2.2.2
    have hexec : s.link.inExec = none := hs.1.2.1
    show accept (.setPut tag number value) (actSetPut number value) s = _
    rw [accept_ready (i := .setPut tag number value) rfl rfl hs, actSetPut_plain _ hn (by exact hv)]
    dsimp only [conclude]
    rw [finish_plain (by exact hsoft), ← hexec]
    rfl
  case stored =>
    have ⟨h1, h2⟩ := plainSettings_range hn
    exact get_put h1 h2 _ _
  case range =>
    intro h5 h6 lo hi step hx
    obtain ⟨x, hx', rfl⟩ := taken_plain h5 h6 hk
    rw [hx] at hx'
    cases hx'
    obtain ⟨hle, hstep, hend⟩ := settingValues_range hx
    obtain ⟨h1, h2, h3⟩ := nearestStep_onStep hle hstep hend v
    exact ⟨h1, h2, h3, fun x hlo hhi hon => nearestStep_nearest hle hstep hend v x ⟨hlo, hhi, hon⟩⟩
  case list =>
    intro l hl
    have h5 : n ≠ 5 := by rintro rfl; cases hl
    have h6 : n ≠ 6 := by rintro rfl; cases hl
    obtain ⟨x, hx', rfl⟩ := taken_plain h5 h6 hk
    rw [hl] at hx'
    cases hx'
    obtain ⟨hne, hup⟩ := settingValues_listed hl
    exact nearestListed_nearest v hne hup
  case winP =>
    rintro rfl
    rw [taken_windowP] at hk
    exact (Option.some.inj hk).symm
  case winB =>
    rintro rfl
    rw [taken_windowB] at hk
    exact (Option.some.inj hk).symm

end Sys2Proof.Machine
end

