-- ==== Sys2Proof/Proofs/Scale/Operations.lean ====
section
/-! PROOFS. The operations of the channels: what they check, how they end, and the channels' timers (chapter 2, R39 to
R57, R64, R65). -/

namespace Sys2Proof.Machine

/-! ### A request on a ready lane whose action raises notices -/

/-- A request on a ready lane whose action replies answers that reply; the action may have moved the link on, but for
the request in execution and the soft reset. -/
theorem exec_answers_of_ready' {i : Instr} {tag code : Byte} {payload data : List Byte} {s t : State} {st : Status}
    (hw : i.wf = true) (he : encodeRequest i = some (tag, code, payload)) (h : s.ready)
    (hexec : t.link.inExec = s.link.inExec) (hsoft : t.link.softReset = s.link.softReset)
    (ha : ∀ q, requestAction i raiseLoud { s with link.inExec := some q, lpm.idle := 0 } =
      ({ t with link.inExec := some q, lpm.idle := 0 }, .reply st data none)) :
    exec i s = .next (t.answered tag code st data) := by
  have ⟨⟨_, hnone, _, _, hoff⟩, _⟩ := h
  rw [exec_request_eq he]
  exact accept_answers hw he h (ha _) (hsoft.trans hoff) (hexec.trans hnone)

/-- The channels stand in the weighing engine alone. -/
@[simp] theorem chan_of_wgt (s : State) (ch : Channel) (q l b t c d j e a m r u v w f) :
    State.chan ⟨q, l, s.wgt, b, t, c, d, j, e, a, m, r, u, v, w, f⟩ ch = s.chan ch := by cases ch <;> rfl

theorem takeSlot_executing (ch : Channel) (k : OpKind) (tag : Byte) (l : Nat) (s : State) (q : Option Request) (i : Nat) :
    takeSlot ch k tag l { s with link.inExec := q, lpm.idle := i } =
      { takeSlot ch k tag l s with link.inExec := q, lpm.idle := i } := by cases ch <;> rfl

/-- What an accepted operation answers: its slot is taken, with no data (R20, R39). -/
theorem exec_takes {i : Instr} {tag code : Byte} {payload : List Byte} {s : State} {ch : Channel} {k : OpKind}
    {limit : Nat} (hw : i.wf = true) (he : encodeRequest i = some (tag, code, payload)) (h : s.ready)
    (ha : ∀ q, requestAction i raiseLoud { s with link.inExec := some q, lpm.idle := 0 } =
      answer .pending [] (takeSlot ch k tag limit { s with link.inExec := some q, lpm.idle := 0 })) :
    exec i s = .next ((takeSlot ch k tag limit s).answered tag code .pending []) :=
  exec_answers_of_ready hw he h (takeSlot_link ..) fun q => by rw [ha q, takeSlot_executing]; rfl

/-- Settles O27, by the checks of each action in their order. -/
theorem operationChecked : Obligations.OperationChecked := by
  refine ⟨fun tag channel grams ch s hs hch hop => ⟨fun hcal htare => ?_, fun hp hcal hzero => ?_, fun hen => ?_,
    fun hen hlo hhi hcal => ?_⟩, fun tag channel grams s hs => ⟨fun h => ?range, fun ch hch => ⟨fun hen => ?permit,
    fun hen hg => ?_, fun hop => ?_, fun hop hen => ?_, fun hop h => ?_, fun hop hen hlo hhi hcal hz => ?_⟩,
    fun hop => ?_, fun hop h => ?_⟩⟩
  · refine exec_takes rfl rfl hs fun q => ?_
    have hno : ¬ (ch = .p ∧ 0 < s.wgt.tare) := fun h => absurd (htare h.1) (by omega)
    simp only [requestAction, actZero, hch, chan_of_wgt, hop, hcal]
    exact if_neg hno
  · subst hp
    refine exec_takes rfl rfl hs fun q => ?_
    simp only [State.chan] at hop hcal hzero
    simp [requestAction, actTare, hop, hcal, hzero, Settings.captureMs]
  · refine exec_takes rfl rfl hs fun q => ?_
    simp [requestAction, actCalZero, hch, hop, hen]
  · refine exec_takes rfl rfl hs fun q => ?_
    have hgrams : ¬ (grams.toNat < 100 ∨ ch.maxGrams < grams.toNat) := by omega
    rcases hcal with hcal | hcal <;> simp [requestAction, actCalSpan, hch, hop, hen, hgrams, hcal]
  case range =>
    have hnone := channel_ofByte_none h
    refine ⟨?_, ?_, ?_⟩ <;> refine refuses_of_ready rfl rfl hs fun q => ?_
    · simp [requestAction, actZero, hnone]
    · simp [requestAction, actCalZero, hnone]
    · simp [requestAction, actCalSpan, hnone]
  case permit =>
    constructor <;> refine refuses_of_ready rfl rfl hs fun q => ?_
    · simp [requestAction, actCalZero, hch, hen]
    · simp [requestAction, actCalSpan, hch, hen]
  all_goals refine refuses_of_ready rfl rfl hs fun q => ?_
  · simp [requestAction, actCalSpan, hch, hen, hg]
  · simp [requestAction, actZero, hch, hop]
  · simp [requestAction, actCalZero, hch, hop, hen]
  · rcases h with h | ⟨rfl, h⟩
    · simp [requestAction, actZero, hch, hop, h]
    · simp [requestAction, actZero, hch, hop, h]
  · have hgrams : ¬ (grams.toNat < 100 ∨ ch.maxGrams < grams.toNat) := by omega
    simp [requestAction, actCalSpan, hch, hop, hen, hgrams, hcal, hz]
  · simp [requestAction, actTare, hop]
  · rcases h with h | h <;> simp [requestAction, actTare, hop, h]

/-! ### The ends of operations (R40, R42, R48, R56, R57) -/

theorem raiseQuiet_wgt_frame (n : Notice) (s : State) (w : Weigh) :
    raiseQuiet n { s with wgt := w } = { raiseQuiet n s with wgt := w } := by
  unfold raiseQuiet arbitrate
  simp only
  repeat' split
  all_goals rfl

theorem freeSlot_unbound {s : State} (h : s.unbound) (ch : Channel) : (freeSlot ch s).unbound := setChan_unbound h _ _

/-- CAL_DONE shows the channel's values, which the freed slot leaves. -/
theorem calEnds_eq {s : State} (h : s.unbound) (ch : Channel) (tag : Byte) (span : Bool) (res : CalResult) :
    calEnds raiseLoud ch tag span res s =
      raiseQuiet (.calDone tag ch span res (s.chan ch).c0 (s.chan ch).k s.sst.count) (freeSlot ch s) := by
  unfold calEnds raiseCalDone
  rw [raiseLoud_unbound (freeSlot_unbound h ch)]
  cases ch <;> rfl

theorem cancelHolder_eq {s : State} (h : s.unbound) (ch : Channel) (o : Op) :
    cancelHolder raiseLoud ch o s = raiseQuiet (s.cancelNotice ch o) (freeSlot ch s) := by
  unfold cancelHolder State.cancelNotice
  cases o.kind with
  | zero => exact raiseLoud_unbound (freeSlot_unbound h ch) _
  | tare => exact raiseLoud_unbound (freeSlot_unbound h ch) _
  | capture => exact raiseLoud_unbound (freeSlot_unbound h ch) _
  | calZero => exact calEnds_eq h ch _ _ _
  | calSpan => exact calEnds_eq h ch _ _ _

/-- The notices by which SCALE_CANCEL ends the operation in flight on a channel (R57, R195). -/
def State.cancelled (s : State) (ch : Channel) : List Notice :=
  match (s.chan ch).op with
  | some o => if o.writing then [] else [s.cancelNotice ch o]
  | none => []

/-- The channel once SCALE_CANCEL has ended its operation. -/
def Chan.uncancelled (c : Chan) : Chan := { c with op := c.op.bind fun o => if o.writing then some o else none }

theorem uncancelled_eq {c : Chan} (h : (c.op.bind fun o => if o.writing then some o else none) = c.op) :
    c.uncancelled = c := by
  rw [Chan.uncancelled, h]

/-- Notices raised one after another, without bindings. -/
def raiseAll (l : List Notice) (s : State) : State := l.foldl (fun t n => raiseQuiet n t) s

theorem raiseAll_wgt_frame (l : List Notice) (s : State) (w : Weigh) :
    raiseAll l { s with wgt := w } = { raiseAll l s with wgt := w } := by
  induction l generalizing s with
  | nil => rfl
  | cons n l ih =>
    show raiseAll l (raiseQuiet n { s with wgt := w }) = _
    rw [raiseQuiet_wgt_frame, ih]
    rfl

theorem raiseAll_frame (l : List Notice) (s : State) (q : Option Request) (i : Nat) :
    raiseAll l { s with link.inExec := q, lpm.idle := i } = { raiseAll l s with link.inExec := q, lpm.idle := i } := by
  induction l generalizing s with
  | nil => rfl
  | cons n l ih =>
    show raiseAll l (raiseQuiet n { s with link.inExec := q, lpm.idle := i }) = _
    rw [raiseQuiet_frame, ih]
    rfl

theorem raiseAll_keeps (l : List Notice) {s : State} (h : s.unbound) :
    (raiseAll l s).unbound ∧ (raiseAll l s).wgt = s.wgt ∧ (raiseAll l s).sst = s.sst ∧
      (raiseAll l s).link.inExec = s.link.inExec ∧ (raiseAll l s).link.softReset = s.link.softReset := by
  induction l generalizing s with
  | nil => exact ⟨h, rfl, rfl, rfl, rfl⟩
  | cons n l ih =>
    obtain ⟨h1, h2, h3, h4, h5⟩ := ih (raiseQuiet_unbound h n)
    exact ⟨h1, h2.trans (raiseQuiet_wgt n s), h3.trans (raiseQuiet_sst n s), h4.trans (raiseQuiet_inExec n s),
      h5.trans (raiseQuiet_softReset n s)⟩

theorem cancelOp_eq {s : State} (h : s.unbound) (ch : Channel) :
    cancelOp raiseLoud ch s =
      (raiseAll (s.cancelled ch) (s.setChan ch (s.chan ch).uncancelled), (s.cancelled ch).length) := by
  have hsame (hop : (s.chan ch).uncancelled = s.chan ch) : s.setChan ch (s.chan ch).uncancelled = s := by
    rw [hop]; cases ch <;> rfl
  unfold cancelOp State.cancelled
  cases hop : (s.chan ch).op with
  | none => rw [hsame (uncancelled_eq (by simp [hop]))]; rfl
  | some o =>
    dsimp only
    split
    next hw => rw [hsame (uncancelled_eq (by simp [hop, hw]))]; rfl
    next hw =>
      have hfree : (s.chan ch).uncancelled = { s.chan ch with op := none } := by simp [Chan.uncancelled, hop, hw]
      rw [cancelHolder_eq h, hfree]
      rfl

/-- SCALE_CANCEL ends the operation of P, then that of B (R57). -/
theorem actCancel_eq {s : State} (h : s.unbound) :
    actCancel raiseLoud s = answer .ok [u8 (s.cancelled .p ++ s.cancelled .b).length]
      { raiseAll (s.cancelled .p ++ s.cancelled .b) s with
        wgt := { s.wgt with chanP := s.wgt.chanP.uncancelled, chanB := s.wgt.chanB.uncancelled } } := by
  have hp : raiseAll (s.cancelled .p) (s.setChan .p s.wgt.chanP.uncancelled) =
      { raiseAll (s.cancelled .p) s with wgt := { s.wgt with chanP := s.wgt.chanP.uncancelled } } :=
    raiseAll_wgt_frame _ _ _
  obtain ⟨hu, -, hsst, -⟩ := raiseAll_keeps (s.cancelled .p) h
  obtain ⟨t, ht⟩ : ∃ t, t = { raiseAll (s.cancelled .p) s with
    wgt := { s.wgt with chanP := s.wgt.chanP.uncancelled } } := ⟨_, rfl⟩
  have hb : t.cancelled .b = s.cancelled .b := by
    have hsst' : t.sst = s.sst := by rw [ht]; exact hsst
    have hchan : t.chan .b = s.chan .b := by rw [ht]; rfl
    simp [State.cancelled, State.cancelNotice, hchan, hsst']
  have hsecond : cancelOp raiseLoud .b t = (raiseAll (s.cancelled .b) (t.setChan .b (t.chan .b).uncancelled),
      (s.cancelled .b).length) := by
    rw [cancelOp_eq (by rw [ht]; exact hu), hb]
  have hframe : raiseAll (s.cancelled .b) (t.setChan .b (t.chan .b).uncancelled) =
      { raiseAll (s.cancelled .p ++ s.cancelled .b) s with
        wgt := { s.wgt with chanP := s.wgt.chanP.uncancelled, chanB := s.wgt.chanB.uncancelled } } := by
    rw [ht]
    refine (raiseAll_wgt_frame (s.cancelled .b) (raiseAll (s.cancelled .p) s)
      { s.wgt with chanP := s.wgt.chanP.uncancelled, chanB := s.wgt.chanB.uncancelled }).trans ?_
    simp [raiseAll]
  unfold actCancel
  rw [cancelOp_eq h]
  show (match cancelOp raiseLoud .b (raiseAll (s.cancelled .p) (s.setChan .p s.wgt.chanP.uncancelled)) with
    | (s', b) => answer .ok [u8 ((s.cancelled .p).length + b)] s') = _
  rw [hp, ← ht, hsecond, hframe, List.length_append]

/-- An operation that times out ends as its kind does (R40, R42, R48, R56). -/
theorem expireOp_some {s : State} (h : s.unbound) {ch : Channel} {o : Op} (hop : (s.chan ch).op = some o)
    (hw : o.writing = false) :
    expireOp raiseLoud ch s = raiseQuiet (match o.kind with
      | .zero => .zeroFailed o.tag ch .timeout 0
      | .tare => .tareFailed o.tag .timeout none
      | .capture _ _ _ => .weighFailed o.tag s.captureReasons
      | .calZero => .calDone o.tag ch false .timeout (s.chan ch).c0 (s.chan ch).k s.sst.count
      | .calSpan _ => .calDone o.tag ch true .timeout (s.chan ch).c0 (s.chan ch).k s.sst.count) (freeSlot ch s) := by
  unfold expireOp
  rw [hop]
  simp only [hw, Bool.false_eq_true, if_false]
  cases o.kind with
  | zero => exact raiseLoud_unbound (freeSlot_unbound h ch) _
  | tare => exact raiseLoud_unbound (freeSlot_unbound h ch) _
  | capture => exact raiseLoud_unbound (freeSlot_unbound h ch) _
  | calZero => exact calEnds_eq h ch _ _ _
  | calSpan => exact calEnds_eq h ch _ _ _

theorem timeoutOf_some {r : Raise} {ch : Channel} {kind : OpKind → Bool} {s : State} {o : Op}
    (hop : (s.chan ch).op = some o) (hk : kind o.kind = true) : timeoutOf r ch kind s = expireOp r ch s := by
  simp [timeoutOf, hop, hk]

theorem timeoutOf_none {r : Raise} {ch : Channel} {kind : OpKind → Bool} {s : State} (hop : (s.chan ch).op = none) :
    timeoutOf r ch kind s = s := by
  simp [timeoutOf, hop]

theorem permitLost_none {r : Raise} {ch : Channel} {s : State} (h : (s.chan ch).op = none) :
    permitLost r ch s = s := by
  rw [permitLost, h]

/-- Settles O29: the request's action, and each timer's operation. -/
theorem operationsEnded : Obligations.OperationsEnded := by
  refine ⟨fun tag s hs hu ended hended => ?cancel, fun ch s hu => ⟨fun o hop hw hk => ?zero, fun o hop hw hk => ?tare,
    fun o price code desc hop hw hk => ?capture, fun o hop hw hk => ?cal, fun o hop hw hk hb => ?lost, rfl,
    fun hop => ⟨congrArg _ (timeoutOf_none hop), congrArg _ (timeoutOf_none hop)⟩,
    fun hop => ⟨congrArg _ (timeoutOf_none (by exact hop)), congrArg _ (timeoutOf_none (by exact hop))⟩⟩⟩
  case cancel =>
    obtain rfl : ended = s.cancelled := funext hended
    obtain ⟨-, -, -, hexec, hsoft⟩ := raiseAll_keeps (s.cancelled .p ++ s.cancelled .b) hu
    refine exec_answers_of_ready' rfl rfl hs (t := { raiseAll (s.cancelled .p ++ s.cancelled .b) s with
      wgt := { s.wgt with chanP := s.wgt.chanP.uncancelled, chanB := s.wgt.chanB.uncancelled } })
      hexec hsoft fun q => ?_
    refine (actCancel_eq (s := { s with link.inExec := some q, lpm.idle := 0 }) hu).trans ?_
    have hframe := raiseAll_frame (s.cancelled .p ++ s.cancelled .b) s (some q) 0
    show answer .ok _ { raiseAll (s.cancelled .p ++ s.cancelled .b) { s with link.inExec := some q, lpm.idle := 0 } with
      wgt := _ } = _
    rw [hframe]
    rfl
  case zero =>
    show Host.Outcome.next (timeoutOf raiseLoud ch OpKind.isZero s) = _
    rw [timeoutOf_some hop (by rw [hk]; rfl), expireOp_some hu hop hw, hk]
  case tare =>
    show Host.Outcome.next (timeoutOf raiseLoud .p OpKind.isTare s) = _
    rw [timeoutOf_some (ch := .p) hop (by rw [hk]; rfl), expireOp_some (ch := .p) hu hop hw, hk]
  case capture =>
    show Host.Outcome.next (timeoutOf raiseLoud .p OpKind.isCapture s) = _
    rw [timeoutOf_some (ch := .p) hop (by rw [hk]; rfl), expireOp_some (ch := .p) hu hop hw, hk]
  case cal =>
    show Host.Outcome.next (timeoutOf raiseLoud ch OpKind.isCal s) = _
    rw [timeoutOf_some hop hk, expireOp_some hu hop hw]
    cases hkind : o.kind with
    | calZero => rfl
    | calSpan => rfl
    | zero | tare | capture => rw [hkind] at hk; cases hk
  case lost =>
    have hlost : permitLost raiseLoud .p { s with calEn := false } = raiseQuiet (.calDone o.tag .p o.kind.isSpan .permit
        s.wgt.chanP.c0 s.wgt.chanP.k s.sst.count) (freeSlot .p { s with calEn := false }) := by
      refine Eq.trans ?_ (calEnds_eq (s := { s with calEn := false }) hu .p o.tag o.kind.isSpan .permit)
      simp [permitLost, State.chan, hop, hk, hw]
    show Host.Outcome.next (permitLost raiseLoud .b (permitLost raiseLoud .p { s with calEn := false })) = _
    rw [hlost, permitLost_none]
    show (raiseQuiet _ (freeSlot .p { s with calEn := false })).wgt.chanB.op = none
    rw [raiseQuiet_wgt]
    exact hb

/-! ### The channels' timers and streaming (R21, R36, R38, R64, R65) -/

/-- A stability window of a channel that is not STABLE restarts with no event. -/
theorem restartStability_calm {r : Raise} {ch : Channel} {s : State} (h : (s.chan ch).stable = false) :
    restartStability r ch s = s.setChan ch { s.chan ch with stab := [] } := by
  unfold restartStability
  exact leaveStable_calm (by simpa using h)

/-- STARTUP is raised once both attempts have ended (R196, R197). -/
theorem judgeStarted_ends {s : State} (hu : s.unbound) (h : s.sst.started = false) {p b : InitResult}
    (hp : s.wgt.chanP.init = .ended p) (hb : s.wgt.chanB.init = .ended b) :
    judgeStarted raiseLoud s = raiseQuiet (.startup s.sst.kind s.sst.defaulted s.wgt.chanP.calValid
      s.wgt.chanB.calValid p b s.sst.interrupted s.sst.count (s.sense .d1) (s.sense .d2))
      { s with sst.started := true, lpm.idle := 0 } := by
  simp only [judgeStarted, h, Bool.false_eq_true, if_false, hp, hb, InitZero.result]
  exact raiseLoud_unbound (by exact hu) _

theorem judgeStarted_started {r : Raise} {s : State} (h : s.sst.started = true) : judgeStarted r s = s := by
  simp [judgeStarted, h]

/-- Start-up waits for the attempt on B. -/
theorem judgeStarted_runs {r : Raise} {s : State} {a : Nat} (hb : s.wgt.chanB.init = .running a) :
    judgeStarted r s = s := by
  simp only [judgeStarted, hb, InitZero.result]
  split
  · rfl
  · split
    next h => cases h
    · rfl

/-- Settles O30: the warm-up's end, the end of an attempt on P, and the last guard. -/
theorem scaleTimersExpire : Obligations.ScaleTimersExpire := by
  refine ⟨fun s hjob hp hb => ⟨fun hconv hcp hcb => ?warm, fun hconv => ?cold⟩, fun age s hu hjob hinit => ?attempt,
    fun s hp hb => ⟨fun hg ha => ?quiet, fun hg ha => ?acting, fun hg => ?noGuard⟩⟩
  case warm =>
    show Host.Outcome.next (warmupEnd raiseLoud s) = _
    unfold warmupEnd
    rw [if_pos hconv]
    dsimp only
    rw [restartWindows_calm raiseLoud .p _ (by exact hp), restartWindows_calm raiseLoud .b _ (by exact hb)]
    simp only [beginAttempt, State.chan, State.setChan, hcp, hcb, if_true, startupStep]
    rw [judgeStarted_runs rfl, judgeStart_empty (by exact hjob)]
  case cold =>
    show Host.Outcome.next (warmupEnd raiseLoud s) = _
    rw [warmupEnd, if_neg hconv]
  case attempt =>
    have hend : ∀ x : State, endAttempt raiseLoud .p .noStable s = x →
        exec (.initialZeroTimeout .p) s = .next (startupStep raiseLoud x) := fun x hx => by
      show Host.Outcome.next (initialZeroEnd raiseLoud .p s) = _
      simp [initialZeroEnd, State.chan, hinit, hx]
    refine ⟨fun b hst hb => ?_, fun a hst hb => ?_, fun hst => ?_⟩
    · rw [hend { s with wgt.chanP.init := .ended .noStable }
        (by simp [endAttempt, State.setChan, State.chan, hst]), startupStep,
        judgeStarted_ends (by exact hu) (by exact hst) rfl (by exact hb), judgeStart_empty (by simpa using hjob)]
      rfl
    · rw [hend { s with wgt.chanP.init := .ended .noStable }
        (by simp [endAttempt, State.setChan, State.chan, hst]), startupStep,
        judgeStarted_runs (by exact hb), judgeStart_empty (by exact hjob)]
    · rw [hend (raiseQuiet (.zeroFailed 0#8 .p .noStable 0) { s with wgt.chanP.init := .ended .noStable })
        (by
          simp only [endAttempt, State.setChan, State.chan, hst, if_true, InitResult.fail]
          exact raiseLoud_unbound (by exact hu) _), startupStep,
        judgeStarted_started (by simpa using hst), judgeStart_empty (by simpa using hjob)]
  case quiet =>
    show Host.Outcome.next (guardEnd raiseLoud s) = _
    have hquiet : ({ s with wgt.guard := none } : State).wgt.disturbed = false := by simp [Weigh.disturbed, ha]
    rw [guardEnd, if_pos hg, judgeQuiet, hquiet]
    simp only [Bool.false_eq_true, if_false]
    rw [restartStability_calm (ch := .p) (by exact hp), restartStability_calm (ch := .b) (by exact hb)]
    rfl
  case acting =>
    show Host.Outcome.next (guardEnd raiseLoud s) = _
    have hacting : ({ s with wgt.guard := none } : State).wgt.disturbed = true := by simp [Weigh.disturbed, ha]
    rw [guardEnd, if_pos hg, judgeQuiet, hacting, if_pos rfl]
  case noGuard =>
    show Host.Outcome.next (guardEnd raiseLoud s) = _
    simp [guardEnd, hg]

/-- The period taken: a multiple of 100 ms within 100 to 1,000 ms (R64). -/
theorem streamPeriod_nearest (n : Nat) :
    streamPeriod n % 100 = 0 ∧ 100 ≤ streamPeriod n ∧ streamPeriod n ≤ 1000 ∧ (n = 0 → streamPeriod n = 200) ∧
      (100 ≤ n → n ≤ 1000 → streamPeriod n ≤ n + 50 ∧ n < streamPeriod n + 50) ∧
      (n ≠ 0 → n < 100 → streamPeriod n = 100) ∧ (1000 < n → streamPeriod n = 1000) := by
  unfold streamPeriod clampNat
  split
  · omega
  · split
    · omega
    · split <;> omega

/-- Settles O31: the request's action, and the period's end. -/
theorem streamingFollowsReadout : Obligations.StreamingFollowsReadout := by
  refine ⟨fun tag channel period s hs => ⟨fun ch hch => ⟨streamPeriod period.toNat, ?_, ?_⟩, fun hoff => ⟨(Config.streamOffPeriod s.free).toNat, ?_⟩,
    fun h hne => ?_⟩, fun s => ⟨fun h => ?_, fun x h hlast => ?_, fun x h hlast => ?_⟩⟩
  · have hne : channel ≠ 0xFF#8 := by
      rw [channel_ofByte_some hch]; cases ch <;> decide
    refine exec_answers_of_ready rfl rfl hs rfl fun q => ?_
    simp [requestAction, actStream, hne, hch, answer]
  · obtain ⟨h1, h2, h3, h4, h5, h6, h7⟩ := streamPeriod_nearest period.toNat
    refine ⟨h1, h2, h3, fun h => h4 (by rw [h]; rfl), h5, fun h => h6 fun h0 => h (BitVec.eq_of_toNat_eq h0), h7⟩
  · refine exec_answers_of_ready rfl rfl hs rfl fun q => ?_
    simp only [requestAction, actStream, if_pos hoff]
    rfl
  · refine refuses_of_ready rfl rfl hs fun q => ?_
    simp [requestAction, actStream, hne, channel_ofByte_none h]
  all_goals
    show Host.Outcome.next (streamPeriodEnd s) = _
    unfold streamPeriodEnd
    rw [h]
  · dsimp only
    rw [if_pos hlast]
  · dsimp only
    rw [if_neg hlast]

end Sys2Proof.Machine
end

