-- ==== Sys2Proof/Proofs/Sale/Requests.lean ====
section
/-! PROOFS. The requests of the bagging monitor, of the sale and of the card store (chapters 4 to 6). -/

namespace Sys2Proof.Machine

/-- The ports stand in the drawer part of the state alone. -/
@[simp] theorem port_of_drw (s : State) (p : Port) (q l g b t c j e a m r u v w f) :
    State.port ⟨q, l, g, b, t, c, s.drw, j, e, a, m, r, u, v, w, f⟩ p = s.port p := by cases p <;> rfl

/-- The card slots stand in the card store alone. -/
@[simp] theorem card_of_crd (s : State) (c : CardSlot) (q l g b t d j e a m r u v w f) :
    State.card ⟨q, l, g, b, t, s.crd, d, j, e, a, m, r, u, v, w, f⟩ c = s.card c := by cases c <;> rfl

/-! ### The expectation list (R77, R81, R82) -/

/-- Changing the entry of a slot leaves the others, which have slots of their own. -/
theorem map_slot (pre post : List Entry) (e : Entry) (k : Nat) (f : Entry → Entry) (hk : e.slot = k)
    (h : ∀ x ∈ pre ++ post, x.slot ≠ k) :
    (pre ++ e :: post).map (fun x => if x.slot = k then f x else x) = pre ++ f e :: post := by
  have hother (l : List Entry) (hl : ∀ x ∈ l, x.slot ≠ k) : l.map (fun x => if x.slot = k then f x else x) = l :=
    (List.map_congr_left fun x hx => if_neg (hl x hx)).trans (List.map_id' l)
  rw [List.map_append, List.map_cons, hother pre fun x hx => h x (by simp [hx]), hother post fun x hx => h x (by simp [hx]),
    if_pos hk]

theorem entryOverdue_some {r : Raise} {slot : Nat} {s : State} {pre post : List Entry} {e : Entry}
    (hent : s.bag.entries = pre ++ e :: post) (hslot : e.slot = slot) (hnot : e.overdue = false)
    (hother : ∀ x ∈ pre ++ post, x.slot ≠ slot) :
    entryOverdue r slot s = r (.bagOverdue e.slot e.remove e.weight) { s with
      bag.entries := pre ++ { e with overdue := true, age := max e.age (1000 * s.set.bagTimeout) } :: post
      txn.items := s.txn.items.map fun (it : Item) => if it.slot = slot then { it with bag := .overdue } else it } := by
  have hfind : (s.bag.entries.find? fun e => e.slot == slot && !e.overdue) = some e := by
    rw [hent]
    refine find_append_cons _ _ _ _ (by simp [hslot, hnot]) fun x hx => ?_
    simp [hother x (by simp [hx])]
  simp only [entryOverdue, hfind]
  rw [hent, map_slot pre post e slot _ hslot hother]
  rfl

/-- Settles O36, by the actions of the two requests and the event. -/
theorem expectationEnded : Obligations.ExpectationEnded := by
  refine ⟨fun tag slot s hs => ⟨fun h => ?range, fun h0 h64 hnone => ?missing, fun pre e post h0 h64 hent hslot hother =>
    ?skipped, fun hw => ?cleared, fun hw => ?noHold⟩, fun slot s hu => ⟨fun pre e post hent hslot hnot hother => ?overdue,
    fun hall => ?already⟩⟩
  case range =>
    refine refuses_of_ready rfl rfl hs fun q => ?_
    simp only [requestAction, actSkip]
    exact if_pos (slot_outOfRange h)
  case missing =>
    refine refuses_of_ready rfl rfl hs fun q => ?_
    have hfind : (s.bag.entries.find? fun e => e.slot == slot.toNat) = none := by
      rw [List.find?_eq_none]
      exact fun x hx => by simpa using hnone x hx
    simp only [requestAction, actSkip, if_neg (slot_inRange h0 h64), hfind]
  case skipped =>
    refine exec_answers_of_ready rfl rfl hs rfl fun q => ?_
    have hfind : (s.bag.entries.find? fun e => e.slot == slot.toNat) = some e := by
      rw [hent]
      exact find_append_cons _ _ _ _ (by simp [hslot]) fun x hx => by simp [hother x (by simp [hx])]
    simp only [requestAction, actSkip, if_neg (slot_inRange h0 h64), hfind]
    simp only [hslot, setBagStatus, modItem, dropEntry, hent, filter_slot pre post e slot.toNat hslot hother, answer,
      flag8]
  case cleared =>
    refine exec_answers_of_ready rfl rfl hs rfl fun q => ?_
    simp only [requestAction, actClearHold, if_pos hw]
    rfl
  case noHold =>
    refine refuses_of_ready rfl rfl hs fun q => ?_
    simp only [requestAction, actClearHold, if_neg hw]
  case overdue =>
    show Host.Outcome.next (entryOverdue raiseLoud slot.toNat s) = _
    rw [entryOverdue_some hent hslot hnot hother, raiseLoud_unbound (by exact hu)]
  case already =>
    show Host.Outcome.next (entryOverdue raiseLoud slot.toNat s) = _
    have hfind : (s.bag.entries.find? fun e => e.slot == slot.toNat && !e.overdue) = none := by
      rw [List.find?_eq_none]
      intro x hx
      by_cases hslot : x.slot = slot.toNat
      · simp [hall x hx hslot]
      · simp [hslot]
    simp only [entryOverdue, hfind]

/-! ### TXN_BEGIN (R86) -/

/-- A date or time that is none fails its check. -/
theorem dateTimeOk_false {date time : Nat} (h : date / 100 % 100 = 0 ∨ 12 < date / 100 % 100 ∨ date % 100 = 0 ∨
    31 < date % 100 ∨ 23 < time / 100 ∨ 59 < time % 100) : dateTimeOk date time = false := by
  simp only [dateTimeOk, Bool.and_eq_false_iff, decide_eq_false_iff_not]
  omega

/-- Settles O37, by the checks of the action in their order. -/
theorem saleBegun : Obligations.SaleBegun := by
  refine fun tag id date time s hs => ⟨fun hidle hsale hjob hdate => ?begun, fun hidle => ?state, fun hidle hbusy => ?busy,
    fun hidle hsale hjob hdate => ?range⟩
  case begun =>
    refine ⟨{ beginSale id.toNat date.toNat time.toNat s with
      link.inExec := some { tag := tag, code := 0x40#8
                            payload := be32 id.toNat ++ be32 date.toNat ++ be16 time.toNat }
      lpm.idle := 0 }, ?_, rfl, rfl, rfl, rfl, fun c => by cases c <;> rfl, rfl, rfl, rfl, rfl⟩
    show accept (.txnBegin tag id date time) (actBegin id date time) s = _
    have hjob' : ∀ q, ({ s with link.inExec := some q, lpm.idle := 0 } : State).snapshotJob = false := fun _ => hjob
    rw [accept_ready (i := .txnBegin tag id date time) rfl rfl hs]
    simp only [actBegin, hidle, hsale, hjob', hdate]
    rfl
  all_goals refine refuses_of_ready rfl rfl hs fun q => ?_
  case state => simp [requestAction, actBegin, hidle]
  case busy =>
    rcases hbusy with hsale | hjob
    · obtain ⟨p, hp⟩ := Option.ne_none_iff_exists.mp hsale
      simp [requestAction, actBegin, hidle, ← hp]
    · have hjob' : ({ s with link.inExec := some q, lpm.idle := 0 } : State).snapshotJob = true := hjob
      simp only [requestAction, actBegin, hidle, hjob']
      simp
  case range =>
    have hjob' : ({ s with link.inExec := some q, lpm.idle := 0 } : State).snapshotJob = false := hjob
    simp only [requestAction, actBegin, hidle, hsale, hjob', dateTimeOk_false hdate]
    rfl

/-! ### Items (R73, R88, R90, R94) -/

/-- What an accepted item leaves: it is the last of the list, with its expectation where the list has room. -/
theorem takeItem_effects (code quantity price weight tol : Nat) (desc : Text) (s : State) :
    ∃ u b, takeItem code quantity price weight tol desc s = u ∧
      b = (if weight = 0 then BagStatus.none else if s.bag.entries.length < 8 then .pending else .unchecked) ∧
      u.txn.items.getLast? = some
        { Item.new (s.txn.items.length + 1) code quantity price (quantity * price) desc none with bag := b } ∧
      u.txn.items.length = s.txn.items.length + 1 ∧
      total u.txn.items = total s.txn.items + quantity * price ∧
      u.bag.entries = (if weight ≠ 0 ∧ s.bag.entries.length < 8 then
        s.bag.entries ++ [Entry.new (s.txn.items.length + 1) false weight tol] else s.bag.entries) ∧
      u.bag.rb = s.bag.rb ∧ u.wgt = s.wgt ∧ u.txn.tenders = s.txn.tenders ∧ u.crd = s.crd ∧ u.link = s.link := by
  refine ⟨_, _, rfl, rfl, ?_⟩
  unfold takeItem State.nextSlot
  by_cases hw : weight = 0
  · simp [hw, addItem, total_append, Item.new]
  · simp only [if_neg hw, appendEntry_eq]
    refine ⟨?_, ?_, ?_, ?_, rfl, rfl, rfl, rfl, rfl⟩
    · simp [addItem, Item.new, Entry.new]
      rfl
    · simp [addItem]
    · rw [total_map]
      · exact total_append _ _ rfl
      · intro x; split <;> rfl
      · intro x; split <;> rfl
    · simp [addItem, hw]
      rfl

theorem takeItem_executing (code quantity price weight tol : Nat) (desc : Text) (s : State) (q : Option Request) (i : Nat) :
    takeItem code quantity price weight tol desc { s with link.inExec := q, lpm.idle := i } =
      { takeItem code quantity price weight tol desc s with link.inExec := q, lpm.idle := i } := by
  unfold takeItem
  simp only [appendEntry_eq]
  split <;> rfl

/-- Settles O38: the checks of the two actions, and what an accepted item leaves. -/
theorem itemTaken : Obligations.ItemTaken := by
  refine ⟨fun tag code qty price weight tol desc s hs hlen hopen hhold hq hq' hp hroom hamount htotal hsub => ?_,
    fun tag slot s hs => ⟨fun h => ?range, fun it h0 h64 hst hfind => ?_, fun x it h0 h64 hst hsnap hfind => ?_,
    fun h0 h64 hst hsnap => ?_⟩⟩
  · obtain ⟨u, b, hu, hb, hlast, hcount, htot, hent, hrb, hwgt, hten, hcrd, hlink⟩ :=
      takeItem_effects code.toNat qty.toNat price.toNat weight.toNat tol.toNat desc s
    have hzero : weight.toNat = 0 ↔ weight = 0#16 := ⟨fun h => BitVec.eq_of_toNat_eq h, fun h => by rw [h]; rfl⟩
    have hnew : u.newBag = b := by rw [State.newBag, hlast]; rfl
    have hlimits : withinLimits s.txn.items (qty.toNat * price.toNat) = true := by simp [withinLimits, htotal, hsub]
    refine ⟨u, b, ?_, by rw [hb]; simp only [hzero], hlast, hcount, by rw [hent]; simp only [ne_eq, hzero], hrb, hwgt,
      hten, hcrd⟩
    refine exec_answers_of_ready (by simpa [Instr.wf] using hlen) rfl hs hlink fun r => ?_
    simp only [requestAction, actItem]
    rw [if_neg (not_not_intro hopen), if_neg hhold, if_neg (by omega), if_neg (by omega), if_neg (by omega),
      if_neg (by simp [hlimits]; omega), takeItem_executing, hu]
    show answer _ _ _ = _
    have hnew' : ({ u with link.inExec := some r, lpm.idle := 0 } : State).newBag = b := hnew
    rw [itemReply, hnew', htot]
    rfl
  case range =>
    refine refuses_of_ready rfl rfl hs fun q => ?_
    simp only [requestAction, actItemGet]
    exact if_pos (slot_outOfRange h)
  · refine exec_answers_of_ready rfl rfl hs rfl fun q => ?_
    simp only [requestAction, actItemGet, if_neg (slot_inRange h0 h64)]
    simp [hst, hfind, answer, flag8]
  · refine exec_answers_of_ready rfl rfl hs rfl fun q => ?_
    simp only [requestAction, actItemGet, if_neg (slot_inRange h0 h64)]
    simp [hst, hsnap, hfind, answer, flag8]
  · refine refuses_of_ready rfl rfl hs fun q => ?_
    simp only [requestAction, actItemGet, if_neg (slot_inRange h0 h64)]
    simp [hst, hsnap, findItem]

/-! ### TXN_WEIGH and TXN_VOID_ITEM (R91, R93) -/

/-- The item of a slot after its bag status is set. -/
theorem findItem_setBag {l : List Item} {k : Nat} {it : Item} (h : findItem k l = some it) (b : BagStatus) :
    findItem k (l.map fun x => if x.slot = k then { x with bag := b } else x) = some { it with bag := b } := by
  have hslot := findItem_slot h
  rw [findItem_map (f := fun x => if x.slot = k then { x with bag := b } else x) (fun x => by split <;> rfl) h,
    if_pos hslot]

theorem bagVoidItem_waiting {it : Item} (h : it.bag = .pending ∨ it.bag = .overdue) (s : State) :
    bagVoidItem it s = setBagStatus it.slot .none (dropEntry it.slot s) := by
  rcases h with h | h <;> simp [bagVoidItem, h]

theorem bagVoidItem_matched {it : Item} {w tol : Nat} (h : it.bag = .bagged) (hm : it.matched = some (w, tol))
    (s : State) : bagVoidItem it s = appendEntry (Entry.new it.slot true w tol) s := by
  simp [bagVoidItem, h, hm]

theorem bagVoidItem_idle {it : Item} (h1 : it.bag ≠ .pending) (h2 : it.bag ≠ .overdue)
    (h3 : it.bag = .bagged → it.matched = none) (s : State) : bagVoidItem it s = s := by
  unfold bagVoidItem
  split
  next h => exact absurd h h1
  next h => exact absurd h h2
  next h => rw [h3 h]
  next => rfl

/-- A change of one bag status keeps the slots. -/
theorem slots_setBag (l : List Item) (k : Nat) (b : BagStatus) :
    (l.map fun x => if x.slot = k then { x with bag := b } else x).map Item.slot = l.map Item.slot := by
  rw [List.map_map]
  refine List.map_congr_left fun x _ => ?_
  show (if x.slot = k then { x with bag := b } else x).slot = x.slot
  split <;> rfl

/-- What the void of an item leaves of the lists (R75, R76). -/
theorem bagVoidItem_outcome {it : Item} {s : State} (h : findItem it.slot s.txn.items = some it) :
    ∃ u b, bagVoidItem it s = u ∧ findItem it.slot u.txn.items = some { it with bag := b } ∧
      u.txn.items.map Item.slot = s.txn.items.map Item.slot ∧
      ((it.bag = .pending ∨ it.bag = .overdue) →
        b = .none ∧ u.bag.entries = s.bag.entries.filter fun e => e.slot != it.slot) ∧
      (∀ w tol, it.bag = .bagged → it.matched = some (w, tol) → s.bag.entries.length < 8 →
        b = .pending ∧ u.bag.entries = s.bag.entries ++ [Entry.new it.slot true w tol]) ∧
      (∀ m, it.bag = .bagged → it.matched = some m → 8 ≤ s.bag.entries.length →
        b = .unchecked ∧ u.bag.entries = s.bag.entries) ∧
      (it.bag ≠ .pending → it.bag ≠ .overdue → it.bag ≠ .bagged → b = it.bag ∧ u.bag.entries = s.bag.entries) ∧
      u.wgt = s.wgt ∧ u.bag.rb = s.bag.rb ∧ u.link = s.link := by
  by_cases hwait : it.bag = .pending ∨ it.bag = .overdue
  · refine ⟨_, .none, bagVoidItem_waiting hwait s, findItem_setBag h .none, slots_setBag _ _ _, fun _ => ⟨rfl, rfl⟩, ?_,
      ?_, ?_, rfl, rfl, rfl⟩
    all_goals rcases hwait with hb | hb <;> simp [hb]
  rw [not_or] at hwait
  by_cases hmatch : it.bag = .bagged ∧ it.matched ≠ none
  · obtain ⟨hb, hm⟩ := hmatch
    obtain ⟨⟨w, tol⟩, hm⟩ := Option.ne_none_iff_exists'.mp hm
    refine ⟨_, if s.bag.entries.length < 8 then .pending else .unchecked,
      (bagVoidItem_matched hb hm s).trans (appendEntry_eq _ s), findItem_setBag h _, slots_setBag _ _ _, ?_, ?_, ?_, ?_,
      rfl, rfl, rfl⟩
    · simp [hb]
    · intro w' tol' _ hm' hroom
      rw [hm] at hm'
      cases hm'
      exact ⟨if_pos hroom, if_pos hroom⟩
    · exact fun _ _ _ hfull => ⟨if_neg (Nat.not_lt.mpr hfull), if_neg (Nat.not_lt.mpr hfull)⟩
    · exact fun _ _ hn => absurd hb hn
  · have hnone (hb : it.bag = .bagged) : it.matched = none := Classical.not_not.mp fun hm => hmatch ⟨hb, hm⟩
    refine ⟨_, it.bag, bagVoidItem_idle hwait.1 hwait.2 hnone s, h, rfl, fun hw => absurd hw (not_or.mpr hwait), ?_, ?_,
      fun _ _ _ => ⟨rfl, rfl⟩, rfl, rfl, rfl⟩
    · exact fun w tol hb hm => by rw [hnone hb] at hm; cases hm
    · exact fun m hb hm => by rw [hnone hb] at hm; cases hm

theorem bagVoidItem_executing (it : Item) (s : State) (q : Option Request) (i : Nat) :
    bagVoidItem it { s with link.inExec := q, lpm.idle := i } =
      { bagVoidItem it s with link.inExec := q, lpm.idle := i } := by
  unfold bagVoidItem
  split
  · rfl
  · rfl
  · split
    · rw [appendEntry_eq, appendEntry_eq]
    · rfl
  · rfl

/-- Settles O39: the checks of the two actions, and what the void of an item leaves. -/
theorem weighAndVoidItem : Obligations.WeighAndVoidItem := by
  refine ⟨fun tag code price desc s hs hlen => ?_, fun tag slot it s hs hopen h0 h64 hfind => ⟨fun hvoid => ?_,
    fun hvoid => ?_⟩⟩
  · have hwf : (Instr.txnWeigh tag code price desc).wf = true := by simpa [Instr.wf] using hlen
    have hzero : price.toNat = 0 ↔ price = 0#32 := ⟨fun h => BitVec.eq_of_toNat_eq h, fun h => by rw [h]; rfl⟩
    refine ⟨fun hopen hhold hp hp' hcal hop => ?_, fun hopen => ?_, fun hopen hhold => ?_, fun hopen hhold =>
      ⟨fun hp => ?_, fun hp hp' => ⟨fun hcal => ?_, fun hcal hop => ?_⟩⟩⟩
    · refine exec_takes hwf rfl hs fun q => ?_
      simp [requestAction, actWeigh, startCapture, hopen, hhold, hzero, hp, Nat.not_lt.mpr hp', hcal, hop,
        Settings.captureMs]
    all_goals refine refuses_of_ready hwf rfl hs fun q => ?_
    · simp [requestAction, actWeigh, startCapture, hopen, answer, refuse]
    · simp [requestAction, actWeigh, startCapture, hopen, hhold, answer, refuse]
    · rw [← hzero] at hp
      simp [requestAction, actWeigh, startCapture, hopen, hhold, hp, answer, refuse]
    · simp [requestAction, actWeigh, startCapture, hopen, hhold, hzero, hp, Nat.not_lt.mpr hp', hcal, answer, refuse]
    · have hbusy : s.wgt.chanP.op.isSome = true := Option.isSome_iff_ne_none.mpr hop
      simp [requestAction, actWeigh, startCapture, hopen, hhold, hzero, hp, Nat.not_lt.mpr hp', hcal, hbusy, answer,
        refuse]
  · refine refuses_of_ready rfl rfl hs fun q => ?_
    simp only [requestAction, actVoidItem, if_neg (slot_inRange h0 h64)]
    simp [hopen, hfind, hvoid]
  · have hslot := findItem_slot hfind
    have hfind' := hfind
    rw [← hslot] at hfind' ⊢
    have hmarked : findItem it.slot (modItem it.slot (fun x => { x with void := true }) s).txn.items =
        some { it with void := true } := by
      refine (findItem_map (f := fun x => if x.slot = it.slot then { x with void := true } else x)
        (fun x => by split <;> rfl) hfind').trans ?_
      rw [if_pos rfl]
    obtain ⟨u, b, hu, hfound, hslots, hwaiting, hback, hfull, hrest, hwgt, hrb, hlink⟩ :=
      bagVoidItem_outcome (it := { it with void := true }) hmarked
    have hu' : bagVoidItem it (modItem it.slot (fun x => { x with void := true }) s) = u := hu
    have hslots' : (modItem it.slot (fun x => { x with void := true }) s).txn.items.map Item.slot =
        s.txn.items.map Item.slot := by
      show (s.txn.items.map _).map _ = _
      rw [List.map_map]
      refine List.map_congr_left fun x _ => ?_
      show (if x.slot = it.slot then { x with void := true } else x).slot = x.slot
      split <;> rfl
    have hbag : u.bagOf it.slot = b := by rw [State.bagOf, hfound]; rfl
    refine ⟨u, b, ?_, hfound, hslots.trans hslots', hwaiting, hback, hfull, hrest, hwgt, hrb⟩
    · refine exec_answers_of_ready rfl rfl hs hlink fun q => ?_
      simp only [requestAction, actVoidItem]
      rw [if_neg (not_not_intro hopen), if_neg (slot_inRange h0 h64), hfind]
      simp only [hvoid, Bool.false_eq_true, if_false]
      have hexec : bagVoidItem it (modItem it.slot (fun x => { x with void := true })
          { s with link.inExec := some q, lpm.idle := 0 }) = { u with link.inExec := some q, lpm.idle := 0 } := by
        rw [← hu']
        exact bagVoidItem_executing it (modItem it.slot (fun x => { x with void := true }) s) (some q) 0
      rw [hexec]
      have hbag' : ({ u with link.inExec := some q, lpm.idle := 0 } : State).bagOf it.slot = b := hbag
      rw [hbag']
      simp [answer, Bool.and_eq_true]

/-! ### TXN_TOTAL and TXN_REOPEN (R89, R95, R96) -/

theorem subtotal_eq (l : List Item) : subtotal l = total l + voidedAmount l := by
  induction l with
  | nil => rfl
  | cons a l ih =>
    unfold subtotal total voidedAmount at *
    cases ha : a.void <;> simp [ha, ih] <;> omega

/-- Settles O40, by the checks of the two actions in their order. -/
theorem saleTotalledAndReopened : Obligations.SaleTotalledAndReopened := by
  have hall (s : State) (h : ∃ it ∈ s.txn.items, it.void = false) : s.txn.items.all Item.void = false := by
    obtain ⟨it, hit, hv⟩ := h
    rw [List.all_eq_false]
    exact ⟨it, hit, by simp [hv]⟩
  refine fun tag override s hs => ⟨fun hopen hov hitem hop hhold hbag => ?_, fun hopen => ?_, fun hopen hov hitem hop hhold
    hbag => ?_, fun hst hten => ?_, fun h => ?_, subtotal_eq _⟩
  · refine exec_answers_of_ready rfl rfl hs rfl fun q => ?_
    have hno : ¬ (override = 0#8 ∧ (!s.bag.entries.isEmpty) = true) := fun h => by simp [hbag h.1] at h
    simp only [requestAction, actTotal]
    rw [if_neg (not_not_intro hopen), if_neg (by omega), if_neg (by simp [hall s hitem]), if_neg (by simp [hop]),
      if_neg hhold, if_neg hno]
    rfl
  · refine refuses_of_ready rfl rfl hs fun q => ?_
    simp [requestAction, actTotal, hopen]
  · refine refuses_of_ready rfl rfl hs fun q => ?_
    have hlist : (!s.bag.entries.isEmpty) = true := by simpa using hbag
    simp only [requestAction, actTotal]
    rw [if_neg (not_not_intro hopen), if_neg (by rw [hov]; decide), if_neg (by simp [hall s hitem]), if_neg (by simp [hop]),
      if_neg hhold, if_pos ⟨hov, hlist⟩]
  · refine exec_answers_of_ready rfl rfl hs rfl fun q => ?_
    simp [requestAction, actReopen, hst, hten, answer]
  · refine refuses_of_ready rfl rfl hs fun q => ?_
    rcases h with h | h <;> simp [requestAction, actReopen, h]

/-! ### The card store (R109, R123 to R127) -/

theorem cardSlot_ofByte_some {b : Byte} {c : CardSlot} (h : CardSlot.ofByte b = some c) : b = c.byte := by
  unfold CardSlot.ofByte at h
  split at h
  next hb => cases h; exact hb
  next =>
    split at h
    next hb => cases h; exact hb
    next => cases h

theorem setCard_unbound {s : State} (h : s.unbound) (c : CardSlot) (x : Option CardRec) : (s.setCard c x).unbound := by
  cases c <;> exact h

theorem wipeCard_some {s : State} (hu : s.unbound) {c : CardSlot} {x : CardRec} (h : s.card c = some x) (cause : WipeCause) :
    wipeCard raiseLoud c cause s = raiseQuiet (.cardWiped c cause) (s.setCard c none) := by
  unfold wipeCard
  rw [h]
  exact raiseLoud_unbound (setCard_unbound hu c none) _

/-- Settles O43, by the reader's states and the records' states. -/
theorem cardRequestsAnswered : Obligations.CardRequestsAnswered := by
  refine fun tag value slot s hs => ⟨fun hv => ?on, fun hv => ?off, fun hv => ?value, fun hslot => ⟨?_, ?_, ?_⟩,
    fun c hc => ⟨fun hnone => ⟨?_, ?_, ?_, ?_⟩, fun x hx => ⟨?_, fun hrel => ?_, fun hrel => ?_, fun hb => ⟨?_, ?_⟩,
    fun hb hu => ⟨?_, ?_⟩⟩⟩⟩
  case on =>
    subst hv
    cases hst : s.crd.state
    all_goals
      refine exec_answers_of_ready rfl rfl hs rfl fun q => ?_
      simp [requestAction, actArm, armReader, hst, answer, ReaderState.code]
  case off =>
    subst hv
    cases hst : s.crd.state
    all_goals
      refine exec_answers_of_ready rfl rfl hs rfl fun q => ?_
      simp [requestAction, actArm, disarmReader, readerTo, hst, answer, ReaderState.code]
  case value =>
    refine refuses_of_ready rfl rfl hs fun q => ?_
    have h0 : value ≠ 0#8 := by rintro rfl; simp at hv
    have h1 : value ≠ 1#8 := by rintro rfl; simp at hv
    simp [requestAction, actArm, h0, h1]
  · exact refuses_of_ready rfl rfl hs fun q => by simp [requestAction, actSummary, hslot]
  · exact refuses_of_ready rfl rfl hs fun q => by simp [requestAction, actRelease, hslot]
  · exact refuses_of_ready rfl rfl hs fun q => by simp [requestAction, actDiscard, hslot]
  · exact refuses_of_ready rfl rfl hs fun q => by simp [requestAction, actSummary, hc, hnone]
  · exact refuses_of_ready rfl rfl hs fun q => by simp [requestAction, actRelease, hc, hnone]
  · exact refuses_of_ready rfl rfl hs fun q => by simp [requestAction, actDiscard, hc, hnone]
  · show Host.Outcome.next (cardHoldExpiry raiseLoud c s) = _
    rw [cardHoldExpiry, hnone]
  · refine exec_answers_of_ready rfl rfl hs rfl fun q => ?_
    simp [requestAction, actSummary, hc, hx, answer]
  · refine exec_answers_of_ready rfl rfl hs (State.setCard_link ..) fun q => ?_
    simp only [requestAction, actRelease, hc, card_of_crd, hx, hrel]
    cases c <;> rfl
  · exact refuses_of_ready rfl rfl hs fun q => by simp [requestAction, actRelease, hc, hx, hrel]
  · exact refuses_of_ready rfl rfl hs fun q => by simp [requestAction, actDiscard, hc, hx, hb]
  · show Host.Outcome.next (cardHoldExpiry raiseLoud c s) = _
    rw [cardHoldExpiry, hx]
    simp [hb]
  · refine exec_answers_of_ready' rfl rfl hs (by simp) (by simp) fun q => ?_
    have hwipe := wipeCard_some (s := { s with link.inExec := some q, lpm.idle := 0 }) hu
      ((card_of_crd ..).trans hx) .discard
    simp only [requestAction, actDiscard, hc, card_of_crd, hx, hb, hwipe, Bool.false_eq_true, if_false]
    have hset : ({ s with link.inExec := some q, lpm.idle := 0 } : State).setCard c none =
        { s.setCard c none with link.inExec := some q, lpm.idle := 0 } := by cases c <;> rfl
    rw [hset, raiseQuiet_frame]
    rfl
  · show Host.Outcome.next (cardHoldExpiry raiseLoud c s) = _
    rw [cardHoldExpiry, hx]
    simp only [hb, Bool.false_eq_true, if_false]
    rw [wipeCard_some hu hx]

end Sys2Proof.Machine
end

