-- ==== Sys2Proof/Proofs/Print/Requests.lean ====
section
/-! PROOFS. The requests to the job store and to the print engine (chapters 8 and 9). -/

namespace Sys2Proof.Machine

/-- The jobs stand in the job store alone. -/
@[simp] theorem job?_of_job (s : State) (n : Nat) (q l g b t c d e a m r u v w f) :
    State.job? ⟨q, l, g, b, t, c, d, s.job, e, a, m, r, u, v, w, f⟩ n = s.job? n := rfl

/-- So does the job a request names. -/
@[simp] theorem named_of_job (s : State) (b : Byte) (q l g o t c d e a m r u v w f) :
    State.named ⟨q, l, g, o, t, c, d, s.job, e, a, m, r, u, v, w, f⟩ b = s.named b := rfl

/-! ### A boundary that has a dot line to print (R152, R167, R168) -/

theorem boundaryCause_canPrint {s : State} (h : s.canPrint) : s.boundaryCause = none := by
  obtain ⟨hpaper, hcover, hpaperHold, hcoverHold, _, hlow, _⟩ := h
  simp [State.boundaryCause, hpaper, hcover, hpaperHold, hcoverHold, hlow]

theorem lineCause_canPrint {s : State} (h : s.canPrint) : s.lineCause = none := by
  have ⟨_, _, _, _, hhot, _⟩ := h
  simp [State.lineCause, boundaryCause_canPrint h, hhot]

theorem turned_feed {s : State} {w : Work} (h : w.owner = .feed) : s.turned w = none := by simp [State.turned, h]

theorem turned_job {s : State} {c : Current} {l : List Seg} {row n : Nat} {j : Job} (hj : s.job? n = some j)
    (ha : j.isAborted = false) : s.turned { owner := .job n, current := c, segs := l, row := row } = none := by
  simp [State.turned, hj, ha]

/-- A segment with a line left is asked for where no cause stands against it. -/
theorem atBoundary_line {r : Raise} {k : Nat} {s : State} {w : Work} {g : Seg} {rest : List Seg} (hc : s.canPrint)
    (hw : s.pen.work = some w) (hsegs : w.segs = g :: rest) (ht : s.turned w = none) (hrow : w.row < g.height) :
    atBoundary r (k + 1) s = askLine r s := by
  rw [atBoundary]
  simp only [hw, ht, hsegs, lineCause_canPrint hc, if_neg (Nat.not_le.mpr hrow)]

/-- A step that disturbs nothing changes nothing. -/
theorem stepStart_calm {r : Raise} {g : Seg} {s : State} (hg : g.longFeed = false) (h : s.set.printMotionDisturbs = 0) :
    stepStart r g s = s := by simp [stepStart, hg, h]

/-- The engine once the first line of a job's segment fires. -/
def State.firesJob (s : State) (n : Nat) (c : Current) (row : Nat) (g : Seg) (rest : List Seg) : State :=
  { s with
    pen.mode := .printing
    pen.work := some { owner := .job n, current := c, segs := g :: rest, row := row }
    pen.line := some (s.dotLine s.dotLimit row g)
    dsa.loads := s.dsa.loads ++ [s.lineLoad] }

/-- A job's line that disturbs nothing is granted and fired (R168, R179). -/
theorem askLine_job {r : Raise} {s : State} {n row : Nat} {c : Current} {g : Seg} {rest : List Seg} (hc : s.canPrint)
    (hw : s.pen.work = some { owner := .job n, current := c, segs := g :: rest, row := row }) (hg : g.longFeed = false) :
    askLine r s = shareMode .printing (s.firesJob n c row g rest) := by
  have ⟨_, _, _, _, _, _, hqueue, _, _, hcalm⟩ := hc
  refine askLine_now hc hw (stepStart_calm hg ?_) hqueue rfl
  exact hcalm

/-- A boundary may go through eight steps at least. -/
theorem boundary_eq (r : Raise) (s : State) : boundary r s = atBoundary r (s.boundaryFuel - 8 + 8) s := by
  have h : 8 ≤ s.boundaryFuel := Nat.le_add_right ..
  rw [boundary, Nat.sub_add_cancel h]

/-- The only job changed by its number. -/
theorem modJob_one {s : State} {j : Job} {n : Nat} (f : Job → Job) (h : s.job.table = [j]) (hn : j.number = n) :
    modJob n f s = { s with job.table := [f j] } := by simp [modJob, h, hn]

/-- The only job shares the engine's state (R167). -/
theorem shareMode_one {s : State} {j : Job} {n row : Nat} {c : Current} {l : List Seg} (m : JobMode)
    (hw : s.pen.work = some { owner := .job n, current := c, segs := l, row := row }) (h : s.job.table = [j])
    (hn : j.number = n) (ha : j.isAborted = false) :
    shareMode m s = { s with job.table := [{ j with mode := m }] } := by
  simp only [shareMode, hw, modJob_one _ h hn, ha, Bool.false_eq_true, if_false]

/-- A job as an element of no truncated character is taken (R155, R161). -/
def Job.taking (j : Job) : Job := { j with truncated := sat16 j.truncated, unavailable := sat16 j.unavailable }

/-- The boundary of a job whose one element is a RULE: the element is taken, and its first line fires (R152, R154). -/
theorem atBoundary_rule {r : Raise} {k : Nat} {s : State} {j : Job} (hc : s.canPrint)
    (hw : s.pen.work = some { owner := .job j.number, current := .none, segs := [], row := 0 }) (ht : s.job.table = [j])
    (ha : j.isAborted = false) (hh : j.heading = false) (he : j.elements = [.rule]) :
    atBoundary r (k + 2) s =
      { s.firesJob j.number .element 0 .rule [] with job.table := [{ j.taking with mode := .printing }] } := by
  have hj : s.job? j.number = some j := job_one ht rfl
  rw [atBoundary]
  simp only [hw, turned_job hj ha, hj, hh, he, boundaryCause_canPrint hc, List.isEmpty_cons, Bool.not_false, Bool.and_false,
    Bool.false_and, Bool.false_eq_true, if_false]
  have htaken : takeElement j.number j.binding { owner := .job j.number, current := .none, segs := [], row := 0 } .rule s =
      { s with pen.work := some { owner := .job j.number, current := .element, segs := [.rule], row := 0 }
               job.table := [j.taking] } := modJob_one _ ht rfl
  rw [htaken]
  calc atBoundary r (k + 1) _
      = askLine r _ := atBoundary_line (w := { owner := .job j.number, current := .element, segs := [.rule], row := 0 })
        (by exact hc) rfl rfl (turned_job (j := j.taking) (job_one rfl rfl) ha) (Nat.zero_lt_succ _)
    _ = shareMode .printing (State.firesJob _ j.number .element 0 .rule []) := askLine_job (by exact hc) rfl rfl
    _ = _ := (shareMode_one (j := j.taking) _ rfl rfl rfl ha).trans rfl

/-! ### The head job judged (R151) -/

/-- A job that is not ready, as the only one, is FILLING. -/
theorem judgeStart_unready {r : Raise} {s : State} {j : Job} (hu : j.unstarted = true) (hr : j.ready s.set = false) :
    judgeStart r { s with job.table := [j] } = { s with job.table := [{ j with mode := .filling }] } := by
  simp [judgeStart, judgeHead, hu, hr, modJob]

/-- A ready job of a sale not SETTLED waits for it. -/
theorem judgeStart_settles {r : Raise} {s : State} {j : Job} (hu : j.unstarted = true) (hr : j.ready s.set = true)
    (hsale : j.ofSale = true) (hx : s.txn.state ≠ .settled) :
    judgeStart r { s with job.table := [j] } = { s with job.table := [{ j with mode := .waitSettle }] } := by
  simp [judgeStart, judgeHead, hu, hr, hsale, hx, modJob]

/-- A ready job that the engine cannot take waits. -/
theorem judgeStart_waits {r : Raise} {s : State} {j : Job} (hu : j.unstarted = true) (hr : j.ready s.set = true)
    (hsale : j.ofSale = false) (hx : s.pen.mode ≠ .idle ∨ s.sst.started = false) :
    judgeStart r { s with job.table := [j] } = { s with job.table := [{ j with mode := j.waiting }] } := by
  have hno : ¬ (s.pen.mode = .idle ∧ s.sst.started = true) := fun h => hx.elim (· h.1) (fun h' => by simp [h'] at h)
  simp [judgeStart, judgeHead, hu, hr, hsale, hno, modJob]

/-- A ready job that the engine can take starts. -/
theorem judgeStart_starts {r : Raise} {s : State} {j : Job} (hu : j.unstarted = true) (hr : j.ready s.set = true)
    (hsale : j.ofSale = false) (hidle : s.pen.mode = .idle) (hstarted : s.sst.started = true) :
    judgeStart r { s with job.table := [j] } = boundary r { s with
      job.table := [{ j with mode := .printing }]
      pen.mode := .printing
      pen.work := some { owner := .job j.number, current := .none, segs := [], row := 0 } } := by
  simp [judgeStart, judgeHead, hu, hr, hsale, hidle, hstarted, startJob, modJob]

/-- A job that has started is not judged. -/
theorem judgeStart_started {r : Raise} {s : State} {j : Job} {l : List Job} (h : s.job.table = j :: l)
    (hu : j.unstarted = false) : judgeStart r s = s := by simp [judgeStart, judgeHead, h, hu]

/-- A job of one RULE that starts prints its first line (R151, R152). -/
theorem judgeStart_rule {r : Raise} {s : State} {j : Job} (hc : s.canPrint) (hu : j.unstarted = true)
    (hr : j.ready s.set = true) (hsale : j.ofSale = false) (hidle : s.pen.mode = .idle) (hstarted : s.sst.started = true)
    (hh : j.heading = false) (he : j.elements = [.rule]) :
    judgeStart r { s with job.table := [j] } =
      { s.firesJob j.number .element 0 .rule [] with job.table := [{ j.taking with mode := .printing }] } := by
  rw [judgeStart_starts hu hr hsale hidle hstarted, boundary_eq,
    atBoundary_rule (j := { j with mode := .printing }) (by exact hc) rfl rfl rfl hh he]
  rfl

/-- A job of one RULE that leaves its UNDERRUN pause prints its first line (R158). -/
theorem endUnderrun_rule {r : Raise} {s : State} {j : Job} (hc : s.canPrint) (hpen : s.pen.mode = .paused .underrun)
    (hwork : s.pen.work = some { owner := .job j.number, current := .none, segs := [], row := 0 })
    (ha : j.isAborted = false) (hh : j.heading = false) (he : j.elements = [.rule]) :
    endUnderrun r { s with job.table := [j] } =
      { s.firesJob j.number .element 0 .rule [] with job.table := [{ j.taking with mode := .printing }] } := by
  rw [endUnderrun, if_pos (by exact hpen), shareMode_one (j := j) .printing (by exact hwork) (by rfl) rfl ha, boundary_eq,
    atBoundary_rule (j := { j with mode := .printing }) (by exact hc) (by exact hwork) (by rfl) rfl hh he]
  rfl

/-! ### JOB_OPEN and JOB_DATA (R147 to R149) -/

theorem role_ofByte_none {b : Byte} (h : 2 < b.toNat) : Role.ofByte b = none := by
  have h0 : b ≠ 0#8 := by bv_omega
  have h1 : b ≠ 1#8 := by bv_omega
  have h2 : b ≠ 2#8 := by bv_omega
  simp [Role.ofByte, h0, h1, h2]

/-- The elements of a payload take the bytes they came in (R146, R149). -/
theorem bytes_append {b : List Byte} {l : List Element} (h : readElements b.length b = some l) (j : Job) :
    Job.bytes { j with elements := j.elements ++ l } = j.bytes + b.length := by
  simp [Job.bytes, readElements_length _ _ _ h]

theorem free_one {s : State} {j : Job} (h : s.job.table = [j]) : s.job.free = 8192 - j.bytes := by
  simp [JobStore.free, h]

/-- JOB_DATA on the only job: its elements are appended, and the job is judged. -/
theorem actJobData_one {r : Raise} {s : State} {job : Byte} {bytes : List Byte} {j : Job} {l : List Element}
    (h0 : job ≠ 0#8) (ht : s.job.table = [j]) (hn : j.number = job.toNat) (hc : j.closed = false)
    (ha : j.isAborted = false) (hl : readElements bytes.length bytes = some l) (hroom : bytes.length ≤ s.job.free) :
    actJobData job bytes r s = (judgeStart r (if j.mode = .paused .underrun then
        endUnderrun r { s with job.table := [{ j with elements := j.elements ++ l }] }
      else { s with job.table := [{ j with elements := j.elements ++ l }] }),
      .reply .ok (job :: be16 bytes.length ++ be16 (s.job.free - bytes.length)) none) := by
  simp only [actJobData, named_one h0 ht hn, hc, ha, hl, if_neg (Nat.not_lt.mpr hroom), Bool.or_self, Bool.false_eq_true,
    if_false, modJob_one _ ht rfl, answer]
  have hfree : JobStore.free { s.job with table := [{ j with elements := j.elements ++ l }] } = s.job.free - bytes.length := by
    rw [free_one ht, Nat.sub_sub, ← bytes_append hl]
    simp [JobStore.free]
  exact congrArg (fun n => (_, Answer.reply .ok (job :: be16 bytes.length ++ be16 n) none)) hfree

theorem jobData_wf {tag job : Byte} {bytes : List Byte} (h1 : 1 ≤ bytes.length) (h2 : bytes.length ≤ 254) :
    (Instr.jobData tag job bytes).wf = true := by simp [Instr.wf, h1, h2]

theorem readElements_ne_nil {b : List Byte} {l : List Element} (h : readElements b.length b = some l) (hb : 1 ≤ b.length) :
    l ≠ [] := by
  rintro rfl
  have hsum := readElements_length _ _ _ h
  simp only [List.map_nil, List.sum_nil] at hsum
  omega

/-- What an accepted JOB_DATA on the only job answers, with the job judged as it stands then (R149). -/
theorem exec_jobData_one {tag job : Byte} {bytes : List Byte} {s t : State} {j : Job} {l : List Element} (hs : s.ready)
    (hlo : 1 ≤ bytes.length) (hhi : bytes.length ≤ 254) (h0 : job ≠ 0#8) (ht : s.job.table = [j]) (hn : j.number = job.toNat)
    (hc : j.closed = false) (ha : j.isAborted = false) (hl : readElements bytes.length bytes = some l)
    (hroom : bytes.length ≤ s.job.free) (hm : j.mode = .filling) (hlink : t.link = s.link)
    (h : ∀ q, judgeStart raiseLoud { { s with link.inExec := some q, lpm.idle := 0 } with
      job.table := [{ j with elements := j.elements ++ l }] } = { t with link.inExec := some q, lpm.idle := 0 }) :
    exec (.jobData tag job bytes) s = .next
      (t.answered tag 0x71#8 .ok (job :: be16 bytes.length ++ be16 (s.job.free - bytes.length))) := by
  refine exec_answers_of_ready (jobData_wf hlo hhi) rfl hs hlink fun q => ?_
  have hnot : j.mode ≠ .paused .underrun := by simp [hm]
  show actJobData job bytes raiseLoud _ = _
  rw [actJobData_one h0 (by exact ht) hn hc ha hl (by exact hroom), if_neg hnot, h q]

/-- Settles O49, by the checks of the two actions, the number picked, and the head job judged. -/
theorem jobOpenedAndFilled : Obligations.JobOpenedAndFilled := by
  refine ⟨fun tag role s hs => ⟨fun h => ?role, fun h0 h => ?sale, fun h1 h => ?snapshot, fun h2 h => ?full,
      fun x hx hlen h1 h255 hreceipt hreprint => ?opened⟩,
    fun tag job bytes s hs hlo hhi => ⟨fun h => ?zero, fun h0 h => ?missing, fun j h0 ht hn => ⟨fun h => ?shut,
      fun hc ha hl => ?unread, fun l hc ha hl => ⟨fun h => ?room, fun hroom hm hp => ⟨?held, bytes_append hl j⟩,
      fun hroom hm hp hsale hx => ?waits, fun hroom hm hp hsale hx => ?settles⟩⟩⟩,
    fun tag job j s hs h0 ht hn hc he hh hcan => ⟨fun hm hp hsale hidle hwork hstarted => ?starts, fun hm hpen hwork => ?resumes⟩⟩
  case opened =>
    obtain ⟨hn1, hn255, hfree, hnext⟩ := pickNumber_spec s.job hlen s.job.next h1 h255
    refine ⟨s.job.pickNumber 4 s.job.next, hn1, hn255, hfree, hnext, exec_answers_of_ready rfl rfl hs rfl fun q => ?_⟩
    have hchecks : openRefusal x { s with link.inExec := some q, lpm.idle := 0 } = none := by
      have hroom : ¬ 4 ≤ s.job.table.length := by omega
      cases x with
      | receipt =>
        obtain ⟨hstate, hdone, hnone⟩ := hreceipt rfl
        have hany : (s.job.table.any fun j => j.ofSale && !j.isAborted) = false := by
          rw [List.any_eq_false]
          intro j hj
          simp [Job.ofSale, hnone j hj]
        have hno : ¬ (s.txn.state ≠ .opened ∧ s.txn.state ≠ .tender ∧ s.txn.state ≠ .settled) := by
          rintro ⟨a, b, c⟩
          rcases hstate with h | h | h <;> contradiction
        simp only [openRefusal, if_neg hno, hany, hdone, Bool.or_self, Bool.false_eq_true, if_false, if_neg hroom]
      | reprint =>
        obtain ⟨v, hv⟩ := Option.ne_none_iff_exists'.mp (hreprint rfl)
        simp only [openRefusal, hv, Option.isNone_some, Bool.false_eq_true, if_false, if_neg hroom]
      | free => simp only [openRefusal, if_neg hroom]
    simp only [requestAction, actJobOpen, hx, hchecks]
    rfl
  case held =>
    have hr : Job.ready { j with elements := j.elements ++ l } s.set = false := by simp [Job.ready, hc, hp]
    have hu : Job.unstarted { j with elements := j.elements ++ l } = true := by simp [Job.unstarted, hm]
    refine exec_jobData_one hs hlo hhi h0 ht hn hc ha hl hroom hm rfl fun q => ?_
    rw [judgeStart_unready hu (by exact hr), ← hm]
  case waits =>
    have hr : Job.ready { j with elements := j.elements ++ l } s.set = true := by
      simp [Job.ready, hp, readElements_ne_nil hl hlo]
    have hu : Job.unstarted { j with elements := j.elements ++ l } = true := by simp [Job.unstarted, hm]
    have hw : Job.waiting { j with elements := j.elements ++ l } = .filling := by simp [Job.waiting, hc]
    refine exec_jobData_one hs hlo hhi h0 ht hn hc ha hl hroom hm rfl fun q => ?_
    rw [judgeStart_waits hu (by exact hr) (by exact hsale) (by exact hx), hw, ← hm]
  case settles =>
    have hr : Job.ready { j with elements := j.elements ++ l } s.set = true := by
      simp [Job.ready, hp, readElements_ne_nil hl hlo]
    have hu : Job.unstarted { j with elements := j.elements ++ l } = true := by simp [Job.unstarted, hm]
    refine exec_jobData_one hs hlo hhi h0 ht hn hc ha hl hroom hm rfl fun q => ?_
    exact judgeStart_settles hu (by exact hr) (by exact hsale) (by exact hx)
  case starts =>
    have ha : j.isAborted = false := by simp [Job.isAborted, hm]
    have hfree : s.job.free = 8192 := by simp [free_one ht, Job.bytes, he]
    have hr : Job.ready { j with elements := j.elements ++ [.rule] } s.set = true := by simp [Job.ready, hp]
    have hu : Job.unstarted { j with elements := j.elements ++ [.rule] } = true := by simp [Job.unstarted, hm]
    have h := exec_jobData_one (t := { s.firesJob j.number .element 0 .rule [] with
        job.table := [{ Job.taking { j with elements := [.rule] } with mode := .printing }] }) (bytes := [3#8]) (tag := tag)
      hs (by decide) (by decide) h0 ht hn hc ha rfl (by simp [hfree]) hm rfl fun q => by
        rw [judgeStart_rule (by exact hcan) hu (by exact hr) (by exact hsale) (by exact hidle) (by exact hstarted)
          (by exact hh) (by simp [he]), he]
        rfl
    rw [hfree] at h
    exact h
  case resumes =>
    have ha : j.isAborted = false := by simp [Job.isAborted, hm]
    have hfree : s.job.free = 8192 := by simp [free_one ht, Job.bytes, he]
    refine exec_answers_of_ready (t := { s.firesJob j.number .element 0 .rule [] with
      job.table := [{ Job.taking { j with elements := [.rule] } with mode := .printing }] }) rfl rfl hs rfl fun q => ?_
    show actJobData job [3#8] raiseLoud _ = _
    rw [actJobData_one (l := [.rule]) h0 (by exact ht) hn hc ha rfl (by show 1 ≤ s.job.free; omega), if_pos hm]
    rw [endUnderrun_rule (by exact hcan) (by exact hpen) (by exact hwork) (by exact ha) (by exact hh) (by simp [he]), judgeStart_started rfl rfl]
    show (_, Answer.reply .ok (job :: be16 1 ++ be16 (s.job.free - 1)) none) = _
    rw [he, hfree]
    rfl
  case zero =>
    refine refuses_of_ready (jobData_wf hlo hhi) rfl hs fun q => ?_
    subst h
    rfl
  case missing =>
    refine refuses_of_ready (jobData_wf hlo hhi) rfl hs fun q => ?_
    simp only [requestAction, actJobData, named_of_job, named_none h0 h]
  case shut =>
    refine refuses_of_ready (jobData_wf hlo hhi) rfl hs fun q => ?_
    rcases h with h | h <;> simp [requestAction, actJobData, named_one h0 ht hn, h]
  case unread =>
    refine refuses_of_ready (jobData_wf hlo hhi) rfl hs fun q => ?_
    simp [requestAction, actJobData, named_one h0 ht hn, hc, ha, hl]
  case room =>
    refine refuses_of_ready (jobData_wf hlo hhi) rfl hs fun q => ?_
    simp [requestAction, actJobData, named_one h0 ht hn, hc, ha, hl, h]
  all_goals refine refuses_of_ready rfl rfl hs fun q => ?_
  case role => simp only [requestAction, actJobOpen, role_ofByte_none h]
  case sale =>
    subst h0
    have hno : openRefusal .receipt { s with link.inExec := some q, lpm.idle := 0 } = some .refusedState := by
      rcases h with h | h <;> simp [openRefusal, h]
    simp only [requestAction, actJobOpen, Role.ofByte, if_true, hno]
  case snapshot =>
    subst h1
    have hno : openRefusal .reprint { s with link.inExec := some q, lpm.idle := 0 } = some .refusedNotFound := by
      simp [openRefusal, h]
    have hrole : Role.ofByte 1#8 = some .reprint := rfl
    simp only [requestAction, actJobOpen, hrole, hno]
  case full =>
    subst h2
    have hno : openRefusal .free { s with link.inExec := some q, lpm.idle := 0 } = some .refusedFull := if_pos h
    have hrole : Role.ofByte 2#8 = some .free := rfl
    simp only [requestAction, actJobOpen, hrole, hno]

/-! ### JOB_CLOSE, JOB_ABORT and JOB_STATUS (R150 to R152, R159 to R163) -/

/-- JOB_CLOSE on the only job that was filling: it is closed, and judged. -/
theorem actJobClose_one {r : Raise} {s : State} {job : Byte} {j : Job} (h0 : job ≠ 0#8) (ht : s.job.table = [j])
    (hn : j.number = job.toNat) (hc : j.closed = false) (hm : j.mode = .filling) :
    actJobClose job r s = (judgeStart r { s with job.table := [{ j with closed := true, mode := .queued }] },
      .reply .ok (job :: be16 j.bytes) none) := by
  have ha : j.isAborted = false := by simp [Job.isAborted, hm]
  have hnot : j.mode ≠ .paused .underrun := by simp [hm]
  simp only [actJobClose, named_one h0 ht hn, hc, ha, Bool.or_self, Bool.false_eq_true, if_false, if_neg hnot,
    modJob_one _ ht rfl, if_pos hm]
  rfl

/-- The boundary of a closed job with nothing left: it is DONE, and with no other job the engine is IDLE (R152, R164). -/
theorem atBoundary_done {r : Raise} {k : Nat} {s : State} {j : Job} (hpen : s.pen.mode = .printing)
    (hw : s.pen.work = some { owner := .job j.number, current := .none, segs := [], row := 0 }) (ht : s.job.table = [j])
    (ha : j.isAborted = false) (hh : j.heading = false) (he : j.elements = []) (hc : j.closed = true) :
    atBoundary r (k + 1) s = atBoundary r k (jobDone r j.number { s with pen.work := none }) := by
  have hj : s.job? j.number = some j := job_one ht rfl
  have hnot : s.stillPaused = false := by simp [State.stillPaused, hpen]
  rw [atBoundary]
  simp only [hw, turned_job hj ha, hj, hh, he, hc, hnot, List.isEmpty_nil, Bool.not_false, Bool.and_true, if_true]

/-- The only job is DONE (R152, R162). -/
theorem jobDone_one {r : Raise} {s : State} {j : Job} (ht : s.job.table = [j]) (hsale : j.ofSale = false) :
    jobDone r j.number s =
      r (.jobDone j.tag j.number j.role j.lines j.truncated j.unavailable) { s with job.table := [] } := by
  simp [jobDone, job_one ht rfl, hsale, dropJob, ht]

/-- The only job leaves with an ending (R160, R162). -/
theorem jobLeaves_one {r : Raise} {s : State} {j : Job} (ht : s.job.table = [j]) (reason : AbortReason) (e : Ending) :
    jobLeaves r j.number reason e s =
      r (.jobAborted j.tag j.number j.role reason e j.lines j.truncated j.unavailable) { s with job.table := [] } := by
  simp [jobLeaves, job_one ht rfl, dropJob, ht]

/-- A closed job with nothing to print that the engine can take is DONE at once (R152). -/
theorem judgeStart_done {s : State} {j : Job} (hu : s.unbound) (hun : j.unstarted = true) (hc : j.closed = true)
    (hsale : j.ofSale = false) (hh : j.heading = false) (he : j.elements = []) (hidle : s.pen.mode = .idle)
    (hwork : s.pen.work = none) (hstarted : s.sst.started = true) (hqueue : s.dsa.queue = []) (hentry : s.lpm.entry = none) :
    judgeStart raiseLoud { s with job.table := [j] } =
      raiseQuiet (.jobDone j.tag j.number j.role j.lines j.truncated j.unavailable) { s with job.table := [] } := by
  have hr : j.ready s.set = true := by simp [Job.ready, hc]
  have hpen : s.pen = { s.pen with mode := .idle, work := none } := by rw [← hidle, ← hwork]
  rw [judgeStart_starts hun hr hsale hidle hstarted, boundary_eq,
    atBoundary_done (j := { j with mode := .printing }) (by rfl) (by rfl) (by rfl) rfl hh he hc,
    jobDone_one (j := { j with mode := .printing }) (by rfl) hsale, raiseLoud_unbound (by exact hu),
    atBoundary_idle (by simp) (by simp) (by simpa using hqueue) (by simp) (by simpa using hentry)]
  refine Eq.trans (congrArg (fun t : State => { t with pen.mode := .idle }) (raiseQuiet_pen_frame _ { s with job.table := [] } _)) ?_
  have hkeep : (raiseQuiet (.jobDone j.tag j.number j.role j.lines j.truncated j.unavailable)
    { s with job.table := [] }).pen = { s.pen with mode := .idle, work := none } := (raiseQuiet_pen ..).trans hpen
  exact congrArg (fun e => ({ raiseQuiet _ { s with job.table := [] } with pen := e } : State)) hkeep.symm

/-- Settles O50, by the head job judged after JOB_CLOSE. -/
theorem jobClosed : Obligations.JobClosed := by
  refine fun tag job s hs => ⟨fun h => ?zero, fun h0 h => ?missing, fun j h0 ht hn => ⟨fun h => ?shut,
    fun hc hm hsale hx => ?waits, fun hc hm hsale hx => ?settles, fun hc hm hsale hidle hwork hstarted hqueue hu he hh => ?done,
    fun hc hm hsale hidle hwork hstarted hcan he hh => ?starts⟩⟩
  case waits =>
    refine exec_answers_of_ready rfl rfl hs rfl fun q => ?_
    show actJobClose job raiseLoud _ = _
    rw [actJobClose_one h0 (by exact ht) hn hc hm, judgeStart_waits rfl rfl (by exact hsale) (by exact hx)]
    rfl
  case settles =>
    refine exec_answers_of_ready rfl rfl hs rfl fun q => ?_
    show actJobClose job raiseLoud _ = _
    rw [actJobClose_one h0 (by exact ht) hn hc hm, judgeStart_settles rfl rfl (by exact hsale) (by exact hx)]
  case starts =>
    refine exec_answers_of_ready rfl rfl hs (by rfl) fun q => ?_
    show actJobClose job raiseLoud _ = _
    rw [actJobClose_one h0 (by exact ht) hn hc hm, judgeStart_rule (by exact hcan) rfl rfl (by exact hsale)
      (by exact hidle) (by exact hstarted) (by exact hh) (by exact he)]
    have hbytes : j.bytes = 1 := by simp [Job.bytes, he, Element.length]
    rw [hbytes]
    rfl
  case done =>
    refine exec_answers_of_ready' rfl rfl hs (by simp) (by simp) fun q => ?_
    show actJobClose job raiseLoud _ = _
    have hbytes : j.bytes = 0 := by simp [Job.bytes, he]
    rw [actJobClose_one h0 (by exact ht) hn hc hm, judgeStart_done (by exact hu) rfl rfl (by exact hsale) (by exact hh)
      (by exact he) (by exact hidle) (by exact hwork) (by exact hstarted) (by exact hqueue) (by exact hs.2.2), hbytes,
      ← raiseQuiet_frame]
    rfl
  all_goals refine refuses_of_ready rfl rfl hs fun q => ?_
  case zero => subst h; rfl
  case missing => simp only [requestAction, actJobClose, named_of_job, named_none h0 h]
  case shut => rcases h with h | h <;> simp [requestAction, actJobClose, named_one h0 ht hn, h]

/-- Whether the engine is in a job's cut stands in the engine alone. -/
@[simp] theorem inCut_of_pen (s : State) (n : Nat) (q l g o t c d j a m r u v w f) :
    State.inCut ⟨q, l, g, o, t, c, d, j, s.pen, a, m, r, u, v, w, f⟩ n = s.inCut n := rfl

/-- The only job that leaves at once leaves an empty table (R159, R162). -/
theorem abortAtOnce_one {s : State} {j : Job} (hu : s.unbound) (ht : s.job.table = [j]) (hentry : s.lpm.entry = none)
    (reason : AbortReason) :
    abortAtOnce raiseLoud j.number reason s =
      raiseQuiet (.jobAborted j.tag j.number j.role reason .none j.lines j.truncated j.unavailable)
        { s with job.table := [] } := by
  rw [abortAtOnce, jobLeaves_one ht, raiseLoud_unbound (by exact hu), judgeStart_empty (by simp),
    judgeEntry_none (by simpa using hentry)]

/-- Settles O51, by the mode of the only job. -/
theorem jobAbortedAndReported : Obligations.JobAbortedAndReported := by
  refine fun tag job s hs => ⟨fun h => ⟨?zero, ?table⟩, fun h0 h => ⟨?missing, ?unknown⟩, fun j h0 ht hn => ⟨?entry, rfl,
    fun ha => ?aborted, fun hu hm => ?unstarted, fun hu hm => ?paused, fun hm hcut => ?printing⟩⟩
  case table =>
    refine exec_answers_of_ready rfl rfl hs rfl fun q => ?_
    subst h
    rfl
  case entry =>
    refine exec_answers_of_ready rfl rfl hs rfl fun q => ?_
    simp only [requestAction, actJobStatus, if_neg h0, job?_of_job, job_one ht hn]
    rfl
  case unstarted =>
    refine exec_answers_of_ready' rfl rfl hs (by simp) (by simp) fun q => ?_
    have ha : j.isAborted = false := by rcases hm with h | h | h <;> simp [Job.isAborted, h]
    have hleaves : abortJob raiseLoud j.number .host { s with link.inExec := some q, lpm.idle := 0 } =
        abortAtOnce raiseLoud j.number .host { s with link.inExec := some q, lpm.idle := 0 } := by
      rcases hm with h | h | h <;> simp only [abortJob, job?_of_job, job_one ht rfl, Option.map_some, h]
    simp only [requestAction, actJobAbort, named_of_job, named_one h0 ht hn, ha, Bool.false_eq_true, if_false, hleaves]
    rw [abortAtOnce_one (by exact hu) (by exact ht) (by exact hs.2.2), ← raiseQuiet_frame]
    rfl
  case paused =>
    refine exec_answers_of_ready' rfl rfl hs (by simp) (by simp) fun q => ?_
    have ha : j.isAborted = false := by rcases hm with h | h <;> simp [Job.isAborted, h]
    have hleaves : abortJob raiseLoud j.number .host { s with link.inExec := some q, lpm.idle := 0 } =
        abortAtOnce raiseLoud j.number .host { s with link.inExec := some q, lpm.idle := 0, pen.work := none } := by
      rcases hm with h | h <;> simp only [abortJob, job?_of_job, job_one ht rfl, Option.map_some, h]
    simp only [requestAction, actJobAbort, named_of_job, named_one h0 ht hn, ha, Bool.false_eq_true, if_false, hleaves]
    rw [abortAtOnce_one (by exact hu) (by exact ht) (by exact hs.2.2), ← raiseQuiet_frame]
    rfl
  case printing =>
    refine exec_answers_of_ready rfl rfl hs rfl fun q => ?_
    have ha : j.isAborted = false := by simp [Job.isAborted, hm]
    simp only [requestAction, actJobAbort, named_of_job, named_one h0 ht hn, ha, abortJob, job?_of_job, job_one ht rfl,
      Option.map_some, hm, inCut_of_pen, hcut, Bool.false_eq_true, if_false]
    rw [markAborted, modJob_one _ (by exact ht) rfl]
    rfl
  all_goals refine refuses_of_ready rfl rfl hs fun q => ?_
  case zero => subst h; rfl
  case missing => simp only [requestAction, actJobAbort, named_of_job, named_none h0 h]
  case unknown =>
    have hnone : s.job? job.toNat = none := List.find?_eq_none.2 fun j hj => by simpa using h j hj
    simp only [requestAction, actJobStatus, if_neg h0, job?_of_job, hnone]
  case aborted => simp [requestAction, actJobAbort, named_one h0 ht hn, ha]

/-! ### The print engine's requests (R173 to R175) -/

/-- A PRN_FEED of n lines begins its first one, as a disturbing action where it has more than 32 (R168, R171, R175). -/
theorem startFeed_now {r : Raise} {n : Nat} {s : State} (hc : s.canPrint) (hn : 1 ≤ n) (hp : s.wgt.chanP.stable = false)
    (hb : s.wgt.chanB.stable = false) (ha : Action.feed ∉ s.wgt.actions) :
    startFeed r n s = { s with
      pen.mode := .printing
      pen.work := some { owner := .feed, current := .none, segs := [.feed n], row := 0 }
      pen.line := some (s.dotLine s.dotLimit 0 (.feed n))
      dsa.loads := s.dsa.loads ++ [s.lineLoad]
      wgt.actions := if 32 < n then .feed :: s.wgt.actions else s.wgt.actions } := by
  have ⟨_, _, _, _, _, _, hqueue, _, _, hcalm⟩ := hc
  rw [startFeed, boundary_eq, atBoundary_line (g := .feed n) (by exact hc) rfl rfl (turned_feed rfl) (by exact hn)]
  refine askLine_now (by exact hc) rfl (stepStart_feed (by exact hp) (by exact hb) (by exact ha) (by exact hcalm))
    (by exact hqueue) rfl

/-- Settles O52, by the checks of each request, and the boundary that follows them. -/
theorem engineRequests : Obligations.EngineRequests := by
  refine fun tag lines s hs => ⟨fun h1 h2 => ?resumeState, fun h => ?resumeSensor,
    fun hm hpaper hcover hlow hqueue hwork ht => ?resume, fun h => ?clearState, fun hm hhome hqueue hwork ht => ?clear,
    fun h => ?feedFault, fun h => ?feedBusy, fun hm hstarted h => ?feedSensor, fun hm hstarted hcan => ⟨fun h => ?feedNone,
    fun h hp hb ha => ?feed⟩⟩
  case resume =>
    refine exec_answers_of_ready rfl rfl hs rfl fun q => ?_
    have hcause : State.boundaryCause { s with
        link.inExec := some q, lpm.idle := 0, pen.paperHold := false, pen.coverHold := false } = none := by
      simp [State.boundaryCause, hpaper, hcover, hlow]
    have hmode : ¬ (s.pen.mode ≠ .paused .paper ∧ s.pen.mode ≠ .paused .cover) := by
      rintro ⟨h1, h2⟩
      exact hm.elim h1 h2
    have hsensors : (s.pen.paperOut || s.pen.coverOpen) = false := by rw [hpaper, hcover]; rfl
    simp only [requestAction, actJobResume, if_neg hmode, hsensors, Bool.false_eq_true, if_false]
    rw [boundary_eq, atBoundary_idle (by exact hwork) (.inr (.inr (by exact hcause))) (by exact hqueue) (by exact ht)
      (by exact hs.2.2)]
    rfl
  case clear =>
    refine exec_answers_of_ready rfl rfl hs rfl fun q => ?_
    have hmode : ¬ (s.pen.mode ≠ .fault ∨ (!s.pen.home) = true) := by simp [hm, hhome]
    simp only [requestAction, actPrnClear, if_neg hmode]
    rw [boundary_eq, atBoundary_idle (by exact hwork) (.inr (.inl rfl)) (by exact hqueue) (by exact ht) (by exact hs.2.2)]
    rfl
  case feedNone =>
    refine exec_answers_of_ready rfl rfl hs rfl fun q => ?_
    have ⟨hpaper, hcover, _⟩ := hcan
    subst h
    simp [requestAction, actPrnFeed, prnFeed, hm, hstarted, hpaper, hcover, answer]
  case feed =>
    refine exec_answers_of_ready (by rfl) rfl hs (by rfl) fun q => ?_
    have ⟨hpaper, hcover, _⟩ := hcan
    have hn : lines.toNat ≠ 0 := by omega
    have hfeed : prnFeed raiseLoud lines.toNat { s with link.inExec := some q, lpm.idle := 0 } =
        (startFeed raiseLoud lines.toNat { s with link.inExec := some q, lpm.idle := 0 }, .ok) := by
      simp only [prnFeed, hm, hstarted, hpaper, hcover, hn, Bool.not_true, Bool.or_self, Bool.false_eq_true, if_false]
    simp only [requestAction, actPrnFeed]
    rw [hfeed, startFeed_now (by exact hcan) h (by exact hp) (by exact hb) (by exact ha)]
    rfl
  all_goals refine refuses_of_ready rfl rfl hs fun q => ?_
  case resumeState => simp only [requestAction, actJobResume, if_pos (And.intro h1 h2)]
  case resumeSensor => rcases h with h | h <;> simp [requestAction, actJobResume, h]
  case clearState => rcases h with h | h <;> simp [requestAction, actPrnClear, h]
  case feedFault => simp [requestAction, actPrnFeed, prnFeed, h, answer, refuse]
  case feedBusy =>
    rcases h with h | h | ⟨p, h⟩ | ⟨h, hstarted⟩
    · simp [requestAction, actPrnFeed, prnFeed, h, answer, refuse]
    · simp [requestAction, actPrnFeed, prnFeed, h, answer, refuse]
    · simp [requestAction, actPrnFeed, prnFeed, h, answer, refuse]
    · simp [requestAction, actPrnFeed, prnFeed, h, hstarted, answer, refuse]
  case feedSensor => rcases h with h | h <;> simp [requestAction, actPrnFeed, prnFeed, hm, hstarted, h, answer, refuse]

/-! ### The sensors and the supply (R165, R166, R172, R180) -/

theorem hotAfter_cold {hot : Bool} {c : Int} (h : c < 65) (h' : 55 < c → hot = false) : hotAfter hot c = false := by
  rw [hotAfter, if_neg (by omega)]
  split
  · rfl
  · exact h' (by omega)

/-- A reading in range, made while the head is powered, sets θ and the hot condition (R166). -/
theorem headReading_same {r : Raise} {c : Int} {s : State} (hm : s.lpm.mode = .active) (hs : s.sst.started = true)
    (h : hotAfter s.pen.hot (takeTheta c s).pen.theta = s.pen.hot) : headReading r c s = takeTheta c s := by
  have hhot : (takeTheta c s).pen.hot = s.pen.hot := by unfold takeTheta; split <;> rfl
  rw [headReading, if_pos ⟨hm, hs⟩]
  simp only [hhot, h, if_true]

theorem headReading_changed {r : Raise} {c : Int} {s : State} (hm : s.lpm.mode = .active) (hs : s.sst.started = true)
    {b : Bool} (h : hotAfter s.pen.hot (takeTheta c s).pen.theta = b) (hne : b ≠ s.pen.hot) :
    headReading r c s = rejudgePause r (if b then r (.headHot (takeTheta c s).pen.theta) { takeTheta c s with pen.hot := b }
      else { takeTheta c s with pen.hot := b }) := by
  have hhot : (takeTheta c s).pen.hot = s.pen.hot := by unfold takeTheta; split <;> rfl
  rw [headReading, if_pos ⟨hm, hs⟩]
  simp only [hhot, h, if_neg hne]

theorem takeTheta_inside {c : Int} {s : State} (h : -20 ≤ c) (h' : c ≤ 100) : takeTheta c s = { s with pen.theta := c } :=
  if_pos ⟨h, h'⟩

theorem takeTheta_outside {c : Int} {s : State} (h : c < -20 ∨ 100 < c) :
    takeTheta c s = { s with pen.theta := 25, rpt.latched.headSensor := true } := if_neg (by omega)

/-- Where the hot condition comes out false, with nothing to resume. -/
theorem headReading_cool {c : Int} {s : State} (hm : s.lpm.mode = .active) (hs : s.sst.started = true)
    (hp : ∀ p, s.pen.mode ≠ .paused p) (h : hotAfter s.pen.hot (takeTheta c s).pen.theta = false) :
    headReading raiseLoud c s = { takeTheta c s with pen.hot := false } := by
  have hmode : (takeTheta c s).pen.mode = s.pen.mode := by unfold takeTheta; split <;> rfl
  have hhot : (takeTheta c s).pen.hot = s.pen.hot := by unfold takeTheta; split <;> rfl
  by_cases hcold : s.pen.hot = false
  · rw [headReading_same hm hs (h.trans hcold.symm)]
    exact congrArg (fun e => ({ takeTheta c s with pen.hot := e } : State)) (hhot.trans hcold)
  · rw [headReading_changed hm hs h (Ne.symm hcold)]
    exact rejudgePause_off fun p => by simpa [hmode] using hp p

/-- Settles O53, by the sensor and the reading. -/
theorem sensorsAndSupply : Obligations.SensorsAndSupply := by
  refine fun s celsius mv hu hp => ⟨fun active => ?paperLow, fun active => ?paperOut, fun active => ?cover, rfl,
    fun h => ?unpowered, fun hm hs => ⟨fun hlo hhi hcold => ?cold, fun hlo hhi hcold => ?heats, fun hlo hhi hhot => ?stays,
      fun h => ?outside⟩, fun h => ?startNot, fun hlow hmv => ?start, fun h => ?endNot, fun hlow hmv => ⟨fun hq => ?ends,
      fun p hq hline hfits hchP hchB => ?grants⟩⟩
  case paperLow =>
    show Host.Outcome.next (paperLowChange raiseLoud active s) = _
    unfold paperLowChange
    split
    · rfl
    · cases active
      · rfl
      · simp only [if_true, raiseLoud_unbound (s := { s with pen.paperLow := true }) hu]
  case paperOut =>
    show Host.Outcome.next (paperOutChange raiseLoud active s) = _
    unfold paperOutChange
    split
    · rfl
    · rw [rejudgePause_off]
      · cases active
        · rfl
        · simp only [if_true, raiseLoud_unbound (s := { s with pen.paperOut := true }) hu]
      · cases active
        · exact hp
        · simpa [raiseLoud_unbound (s := { s with pen.paperOut := true }) hu] using hp
  case cover =>
    show Host.Outcome.next (coverChange raiseLoud active s) = _
    unfold coverChange
    split
    · rfl
    · rw [rejudgePause_off]
      · cases active
        · rfl
        · simp only [if_true, raiseLoud_unbound (s := { s with pen.coverOpen := true }) hu]
      · cases active
        · exact hp
        · simpa [raiseLoud_unbound (s := { s with pen.coverOpen := true }) hu] using hp
  case unpowered =>
    show Host.Outcome.next (headReading raiseLoud celsius s) = _
    rw [headReading, if_neg]
    rcases h with h | h <;> simp [h]
  case cold =>
    show Host.Outcome.next (headReading raiseLoud celsius s) = _
    have htheta := takeTheta_inside (s := s) hlo (by omega)
    rw [headReading_cool hm hs hp (by rw [htheta]; exact hotAfter_cold hhi hcold), htheta]
  case heats =>
    show Host.Outcome.next (headReading raiseLoud celsius s) = _
    have htheta := takeTheta_inside (s := s) (c := celsius) (by omega) hhi
    have hhot : hotAfter s.pen.hot (takeTheta celsius s).pen.theta = true := by rw [htheta]; exact if_pos hlo
    rw [headReading_changed hm hs hhot (by simp [hcold]), htheta, if_pos rfl, raiseLoud_unbound (by exact hu),
      rejudgePause_off (by simpa using hp)]
  case stays =>
    show Host.Outcome.next (headReading raiseLoud celsius s) = _
    have htheta := takeTheta_inside (s := s) (c := celsius) (by omega) hhi
    have hstays : hotAfter s.pen.hot (takeTheta celsius s).pen.theta = s.pen.hot := by
      rw [htheta, hhot, hotAfter, if_neg (by omega : ¬ celsius ≤ 55)]
      split <;> rfl
    rw [headReading_same hm hs hstays, htheta]
  case outside =>
    show Host.Outcome.next (headReading raiseLoud celsius s) = _
    have htheta := takeTheta_outside (s := s) h
    rw [headReading_cool hm hs hp (by rw [htheta]; rfl), htheta]
  case startNot =>
    show Host.Outcome.next (supplyLowStart raiseLoud mv.toNat s) = _
    rw [supplyLowStart, if_pos h]
  case start =>
    show Host.Outcome.next (supplyLowStart raiseLoud mv.toNat s) = _
    rw [supplyLowStart, if_neg (by simp [hlow]; omega), rejudgePause_off (by exact hp)]
  case endNot =>
    show Host.Outcome.next (supplyLowEnd raiseLoud mv.toNat s) = _
    rw [supplyLowEnd, if_neg]
    rintro ⟨h1, h2⟩
    rcases h with h | h
    · simp [h] at h1
    · omega
  case ends =>
    show Host.Outcome.next (supplyLowEnd raiseLoud mv.toNat s) = _
    rw [supplyLowEnd, if_pos ⟨hlow, hmv⟩, scan_nil (by exact hq), rejudgePause_off (by exact hp)]
  case grants =>
    refine ⟨_, rfl, ?_⟩
    have hend : supplyLowEnd raiseLoud mv.toNat s = scan raiseLoud { s with dsa.low := false, dsa.mv := mv.toNat } := by
      rw [supplyLowEnd, if_pos ⟨hlow, hmv⟩, scan_port (by exact hq) (by exact hline) rfl (by exact hfits) (by exact hchP)
        (by exact hchB), rejudgePause_off]
      cases p <;> exact hp
    show (State.port (supplyLowEnd raiseLoud mv.toNat s) p).mode = .kicking ∧ _
    rw [hend, scan_port (by exact hq) (by exact hline) rfl (by exact hfits) (by exact hchP) (by exact hchB)]
    cases p <;> exact ⟨rfl, rfl, rfl, rfl, rfl⟩

end Sys2Proof.Machine
end

