-- ==== Sys2Proof/Proofs/Drawer/Requests.lean ====
section
/-! PROOFS. The kicks of a drawer and its sense (chapter 7). -/

namespace Sys2Proof.Machine

/-! ### Kicks (R132 to R136) -/

/-- A port in the first attempt of a kick, energised (R136). -/
def PortState.energised (q : PortState) (tag : Byte) (k : PermitKind) (onTime : Nat) : PortState :=
  { q with
    mode := .kicking, tag := tag, kick := k, attempt := 1, retry := false, wait := 0
    on := true, onMs := 0, onTime := onTime, trips := 0, broken := false
    remembered := false }

/-- The lane with a port energised: its load and its action (R136, R177). -/
def State.energising (s : State) (tag : Byte) (k : PermitKind) (p : Port) : State :=
  { s with
    dsa.loads := s.dsa.loads ++ [(Requester.port p, 1500)]
    wgt.actions := .pulse p :: s.wgt.actions }.setPort p ((s.port p).energised tag k s.set.pulseOn)

/-- A port that waits for its grant, in the first attempt of a kick (R135). -/
def PortState.awaiting (q : PortState) (tag : Byte) (k : PermitKind) : PortState :=
  { q with mode := .grantWait, tag := tag, kick := k, attempt := 1, retry := false, wait := 0 }

/-- The lane with a port waiting (R135, R178). -/
def State.awaitingGrant (s : State) (tag : Byte) (k : PermitKind) (p : Port) : State :=
  { s with dsa.queue := [.port p] }.setPort p ((s.port p).awaiting tag k)

/-- The permits stand in the sale and the drawer part of the state. -/
@[simp] theorem permitOf_of_drw (s : State) (p : Port) (q l g b c j e a m r u v w f) :
    State.permitOf ⟨q, l, g, b, s.txn, c, s.drw, j, e, a, m, r, u, v, w, f⟩ p = s.permitOf p := by
  simp only [State.permitOf]

theorem kickRefusal_closed {p : Port} {s : State} (hp : s.set.present p = true) (hk : s.permitOf p ≠ .none)
    (hm : (s.port p).mode = .closed) (hr : (s.port p).retry = false) : kickRefusal p s = none := by
  simp [kickRefusal, hp, hk, hm, hr]

/-- A kick of a closed port with the supply free energises it (R134 to R136). -/
theorem kickAccepted_granted {r : Raise} {tag : Byte} {p : Port} {s : State} (hm : (s.port p).mode = .closed)
    (hqueue : s.dsa.queue = []) (hline : s.pen.line = none) (hlow : s.dsa.low = false)
    (hfits : s.dsa.committed + 1500 ≤ s.set.capacity) (hP : s.wgt.chanP.stable = false) (hB : s.wgt.chanB.stable = false) :
    kickAccepted r tag p s = s.energising tag (s.permitOf p) p := by
  simp only [kickAccepted, hm]
  exact startAttempt_granted tag _ p s hqueue hline hlow hfits hP hB

/-- A kick of a closed port that finds no room waits (R135, R178). -/
theorem kickAccepted_waits {r : Raise} {tag : Byte} {p : Port} {s : State} (hm : (s.port p).mode = .closed)
    (hqueue : s.dsa.queue = []) (hroom : s.dsa.low = true ∨ s.set.capacity < s.dsa.committed + 1500) :
    kickAccepted r tag p s = s.awaitingGrant tag (s.permitOf p) p := by
  simp only [kickAccepted, hm]
  exact startAttempt_waits tag _ p s hqueue hroom

theorem energising_port (s : State) (tag : Byte) (k : PermitKind) (p : Port) :
    (s.energising tag k p).port p = (s.port p).energised tag k s.set.pulseOn := State.setPort_port ..

theorem awaitingGrant_port (s : State) (tag : Byte) (k : PermitKind) (p : Port) :
    (s.awaitingGrant tag k p).port p = (s.port p).awaiting tag k := State.setPort_port ..

theorem energising_executing (s : State) (tag : Byte) (k : PermitKind) (p : Port) (q : Option Request) (i : Nat) :
    { s with link.inExec := q, lpm.idle := i }.energising tag k p =
      { s.energising tag k p with link.inExec := q, lpm.idle := i } := by cases p <;> rfl

theorem awaitingGrant_executing (s : State) (tag : Byte) (k : PermitKind) (p : Port) (q : Option Request) (i : Nat) :
    { s with link.inExec := q, lpm.idle := i }.awaitingGrant tag k p =
      { s.awaitingGrant tag k p with link.inExec := q, lpm.idle := i } := by cases p <;> rfl

/-- The lane as a request's action finds it. -/
abbrev State.executing (s : State) (q : Request) : State := { s with link.inExec := some q, lpm.idle := 0 }

theorem port_ofByte_byte (p : Port) : Port.ofByte p.byte = some p := by cases p <;> rfl

theorem actKick_refused {r : Raise} {tag : Byte} {p : Port} {s : State} {st : Status} (h : kickRefusal p s = some st)
    (hst : st.accepted = false) : actKick tag p.byte r s = refuse st s := by
  simp [actKick, port_ofByte_byte, kick, h, kickReply, hst]

theorem actKick_accepted {r : Raise} {tag : Byte} {p : Port} {s : State} (h : kickRefusal p s = none) :
    actKick tag p.byte r s =
      answer .ok [p.byte, ((kickAccepted r tag p s).port p).mode.code] (kickAccepted r tag p s) := by
  simp only [actKick, port_ofByte_byte, kick, h]
  rfl

theorem actNoSale_accepted {r : Raise} {tag : Byte} {p : Port} {s : State} (h : noSaleRefusal p s = none) :
    actNoSale tag p.byte r s = answer .ok
      [p.byte, ((kickAccepted r tag p { s with drw.noSale := some p }).port p).mode.code]
      (kickAccepted r tag p { s with drw.noSale := some p }) := by
  simp only [actNoSale, port_ofByte_byte, h]
  rfl

/-- What an energised port leaves of the lane. -/
theorem energising_effects (s : State) (tag : Byte) (k : PermitKind) (p o : Port) (ho : o ≠ p) :
    (s.energising tag k p).port p = (s.port p).energised tag k s.set.pulseOn ∧
      (s.energising tag k p).port o = s.port o ∧ (s.energising tag k p).drw.noSale = s.drw.noSale ∧
      (s.energising tag k p).txn = s.txn ∧
      (s.energising tag k p).dsa = { s.dsa with loads := s.dsa.loads ++ [(.port p, 1500)] } ∧
      (s.energising tag k p).wgt = { s.wgt with actions := .pulse p :: s.wgt.actions } := by
  refine ⟨energising_port .., (setPort_other _ ho _).trans ?_, ?_⟩
  · cases o <;> rfl
  · cases p <;> exact ⟨rfl, rfl, rfl, rfl⟩

/-- Settles O46, by the checks of a kick and what an accepted one does. -/
theorem drawerKicked : Obligations.DrawerKicked := by
  intro tag port p s hs hu hport hP hB hqueue hline
  obtain rfl := port_ofByte_some hport
  refine ⟨fun o hpresent hm hr hlow hfits ho => ⟨fun hk => ?kick, fun hidle hent hsale => ?nosale⟩,
    fun hpresent hk hm hr hroom => ?waits, fun hpresent hk hm => ?opened, fun hpresent => ?absent,
    fun hpresent hk => ?permit, fun hpresent hk h => ?busy, fun h => ?state⟩
  case kick =>
    refine ⟨s.energising tag (s.permitOf p) p, exec_answers_of_ready rfl rfl hs (by cases p <;> rfl) fun q => ?_,
      energising_effects s tag _ p o ho⟩
    show actKick tag p.byte raiseLoud (s.executing q) = _
    rw [actKick_accepted (kickRefusal_closed (s := s.executing q) hpresent hk hm hr),
      kickAccepted_granted (s := s.executing q) hm hqueue hline hlow hfits hP hB, energising_port, energising_executing]
    rfl
  case nosale =>
    have hchecks (q : Request) : noSaleRefusal p (s.executing q) = none := by
      simp [noSaleRefusal, hidle, hent, hsale, hpresent, hm, hr]
    have hpermit (q : Request) : State.permitOf { s.executing q with drw.noSale := some p } p = .noSale := by
      simp [State.permitOf, hent]
    have hsame (o : Port) : State.port { s with drw.noSale := some p } o = s.port o := by cases o <;> rfl
    have heffects := energising_effects { s with drw.noSale := some p } tag .noSale p o ho
    rw [hsame, hsame] at heffects
    refine ⟨State.energising { s with drw.noSale := some p } tag .noSale p,
      exec_answers_of_ready rfl rfl hs (by cases p <;> rfl) fun q => ?_, heffects⟩
    show actNoSale tag p.byte raiseLoud (s.executing q) = _
    rw [actNoSale_accepted (hchecks q), kickAccepted_granted (s := { s.executing q with drw.noSale := some p })
      (by cases p <;> exact hm) hqueue hline hlow hfits hP hB, energising_port, hpermit]
    exact congrArg (answer .ok [p.byte, 3#8]) (energising_executing { s with drw.noSale := some p } tag .noSale p ..)
  case waits =>
    refine ⟨s.awaitingGrant tag (s.permitOf p) p, exec_answers_of_ready rfl rfl hs (by cases p <;> rfl) fun q => ?_,
      awaitingGrant_port .., by cases p <;> rfl, by cases p <;> rfl⟩
    show actKick tag p.byte raiseLoud (s.executing q) = _
    rw [actKick_accepted (kickRefusal_closed (s := s.executing q) hpresent hk hm hr),
      kickAccepted_waits (s := s.executing q) hm hqueue hroom, awaitingGrant_port, awaitingGrant_executing]
    rfl
  case opened =>
    refine exec_answers_of_ready' rfl rfl hs (by simp) (by simp) fun q => ?_
    have hrefusal : kickRefusal p (s.executing q) = none := by simp [kickRefusal, hpresent, hk, hm]
    have hkick : kickAccepted raiseLoud tag p (s.executing q) =
        raiseQuiet (.drawerOpened tag p .noSale 0) { s.executing q with drw.noSale := none } := by
      simp only [kickAccepted, port_of_drw, hm, kickOpen, permitOf_of_drw, hk, endPermit, permitEnded]
      exact raiseLoud_unbound (s := { s.executing q with drw.noSale := none }) hu _
    show actKick tag p.byte raiseLoud (s.executing q) = _
    have hmode : ((kickAccepted raiseLoud tag p (s.executing q)).port p).mode = .opened := by
      rw [hkick, ← hm]
      cases p <;> simp [State.port]
    rw [actKick_accepted hrefusal, hmode, hkick, ← raiseQuiet_frame]
    rfl
  all_goals refine refuses_of_ready rfl rfl hs fun q => ?_
  case absent => exact actKick_refused (s := s.executing q) (if_pos (by simp [hpresent])) rfl
  case permit => exact actKick_refused (s := s.executing q) (by simp [kickRefusal, hpresent, hk]) rfl
  case busy =>
    refine actKick_refused (s := s.executing q) ?_ rfl
    rcases h with h | h | h | h | h | ⟨h, hr⟩
    · simp [kickRefusal, hpresent, hk, h]
    · simp [kickRefusal, hpresent, hk, h]
    · simp [kickRefusal, hpresent, hk, h]
    · simp [kickRefusal, hpresent, hk, h]
    · simp [kickRefusal, hpresent, hk, h]
    · simp [kickRefusal, hpresent, hk, h, hr]
  case state =>
    have hno : noSaleRefusal p (s.executing q) = some .refusedState := if_pos (.inl h)
    simp only [requestAction, actNoSale, port_ofByte_byte]
    rw [hno]

/-! ### The sense of a port (R129 to R131, R141, R142) -/

/-- The sense a level stands for, under SENSE_POLARITY (R129). -/
def State.opens (s : State) (p : Port) (level : Bool) : Bool := if s.set.openLow p then !level else level

/-- A port whose level has stood its 25 ms. -/
def PortState.settled (q : PortState) : PortState := { q with held := some q.level, deb := none }

theorem sense_settled (s : State) (p : Port) :
    (s.setPort p (s.port p).settled).sense p = some (s.opens p (s.port p).level) := setPort_sense ..

/-- A level held for 25 ms on a present port, as its mode has it. -/
theorem senseDebounced_present {r : Raise} {p : Port} {s : State} (hd : (s.port p).deb ≠ none)
    (hp : (s.port p).present = true) :
    senseDebounced r p s =
      if (s.port p).held = some (s.port p).level then
        (if (s.port p).mode = .unknown then takeSense p (s.setPort p (s.port p).settled)
          else s.setPort p (s.port p).settled)
      else senseEvent r p (s.opens p (s.port p).level) (s.setPort p (s.port p).settled) := by
  unfold senseDebounced
  rw [if_neg (by simpa using hd)]
  dsimp only
  split
  · next o _ ho => rw [← Option.some.inj ((sense_settled s p).symm.trans ho)]; rfl
  · next hno => exact absurd (sense_settled s p) (hno _ hp)

/-- A changed level held for 25 ms is a sense event (R130, R131). -/
theorem senseDebounced_changed {r : Raise} {p : Port} {s : State} (hd : (s.port p).deb ≠ none)
    (hp : (s.port p).present = true) (hh : (s.port p).held = some (!(s.port p).level)) :
    senseDebounced r p s = senseEvent r p (s.opens p (s.port p).level) (s.setPort p (s.port p).settled) := by
  rw [senseDebounced_present hd hp, if_neg (by simp [hh])]

/-- A port in UNKNOWN takes its state, whatever was held before (R131). -/
theorem senseDebounced_unknown {r : Raise} {p : Port} {s : State} (hd : (s.port p).deb ≠ none)
    (hp : (s.port p).present = true) (hm : (s.port p).mode = .unknown) :
    senseDebounced r p s = takeSense p (s.setPort p (s.port p).settled) := by
  have hmode : ((s.setPort p (s.port p).settled).port p).mode = .unknown := by rw [State.setPort_port]; exact hm
  rw [senseDebounced_present hd hp, if_pos hm, senseEvent, hmode]
  exact ite_self _

/-- A present port takes its state from a sense that is known (R131). -/
theorem takeSense_eq {p : Port} {o : Bool} {s : State} (h : s.sense p = some o) :
    takeSense p s = s.setPort p (if o then (s.port p).opened else { s.port p with mode := .closed }) := by
  cases o <;> simp [takeSense, h, modPort]

/-- A forced opening of a port not in FAULT (R141). -/
theorem forcedOpen_eq {r : Raise} {p : Port} {s : State} (hm : (s.port p).mode ≠ .fault) :
    forcedOpen r p s = wake r 0#8 .forcedDrawer (r (.drawerForced p .opened)
      { s.setPort p (s.port p).opened with rpt.latched := s.rpt.latched.force p }) := by
  simp only [forcedOpen, modPort, if_neg hm, State.setPort_rpt]
  cases p <;> rfl

theorem wake_active {r : Raise} {tag : Byte} {c : PowerCause} {s : State} (h : s.lpm.mode = .active) :
    wake r tag c s = s := by simp [wake, h]

/-- What a notice changes of the report unit beside NOTICE_LOST and the queue: nothing. -/
theorem raiseQuiet_forced (n : Notice) (s : State) :
    (raiseQuiet n s).rpt.latched.forcedD1 = s.rpt.latched.forcedD1 ∧
      (raiseQuiet n s).rpt.latched.forcedD2 = s.rpt.latched.forcedD2 := by
  obtain ⟨l, q, k, x, h⟩ := raiseQuiet_eq n s
  rw [h]
  exact ⟨rfl, rfl⟩

theorem port_raiseQuiet (n : Notice) (s : State) (p : Port) : (raiseQuiet n s).port p = s.port p := by
  cases p <;> simp [State.port]

/-- Settles O47, by the level, the mode and the event. -/
theorem portSensed : Obligations.PortSensed := by
  refine fun p s hu => ⟨fun high => rfl, fun hd => ?still, fun hd hp hm => ?unknown, fun hd hp hm hr hh hl hactive => ?forced,
    fun hd hp hm hh hl => ?shut, fun hm => ?overdue, fun hm => ?notOpen, fun tag port hs hport => ?clear⟩
  case still =>
    show Host.Outcome.next (senseDebounced raiseLoud p s) = _
    simp only [senseDebounced, hd, Option.isNone_none, if_true]
  case unknown =>
    refine ⟨_, rfl, ?_⟩
    have hopens : s.opens p (s.port p).level = decide ((s.port p).level = if s.set.openLow p then false else true) := by
      unfold State.opens
      cases s.set.openLow p <;> cases (s.port p).level <;> rfl
    show (senseDebounced raiseLoud p s).rpt = _ ∧ ((senseDebounced raiseLoud p s).port p).held = _ ∧
      ((senseDebounced raiseLoud p s).port p).deb = _ ∧ ((senseDebounced raiseLoud p s).port p).mode = _
    rw [senseDebounced_unknown hd hp hm, takeSense_eq (sense_settled s p), hopens]
    simp only [State.setPort_port, State.setPort_rpt, true_and]
    by_cases hl : (s.port p).level = if s.set.openLow p then false else true
    · rw [if_pos hl, decide_eq_true hl]
      exact ⟨rfl, rfl, rfl⟩
    · rw [if_neg hl, decide_eq_false hl]
      exact ⟨rfl, rfl, rfl⟩
  case forced =>
    have hopens : s.opens p (s.port p).level = true := by
      rw [State.opens, hl]
      cases s.set.openLow p <;> rfl
    have hmode : (s.port p).settled.mode = .closed := hm
    have hretry : (s.port p).settled.retry = false := hr
    have hdone : senseDebounced raiseLoud p s = raiseQuiet (.drawerForced p .opened)
        { s.setPort p (s.port p).settled.opened with rpt.latched := s.rpt.latched.force p } := by
      rw [senseDebounced_changed hd hp hh, hopens, senseEvent, State.setPort_port, hmode]
      simp only [Bool.not_true, Bool.false_eq_true, if_false, hretry]
      rw [forcedOpen_eq (by rw [State.setPort_port, hmode]; decide), State.setPort_port, setPort_setPort, State.setPort_rpt,
        raiseLoud_unbound (by cases p <;> exact hu), wake_active (by cases p <;> simpa using hactive)]
    refine ⟨_, congrArg Host.Outcome.next hdone, ?_⟩
    have hforced := raiseQuiet_forced (.drawerForced p .opened)
      { s.setPort p (s.port p).settled.opened with rpt.latched := s.rpt.latched.force p }
    rw [port_raiseQuiet, hforced.1, hforced.2]
    cases p <;> exact ⟨rfl, rfl, by simp, by simp, rfl⟩
  case shut =>
    have hopens : s.opens p (s.port p).level = false := by
      rw [State.opens, hl]
      cases s.set.openLow p <;> rfl
    show Host.Outcome.next (senseDebounced raiseLoud p s) = _
    have hmode : (s.port p).settled.mode = .opened := hm
    rw [senseDebounced_changed hd hp hh, hopens, senseEvent, State.setPort_port, hmode]
    simp only [Bool.false_eq_true, if_false, closePort, modPort, State.setPort_port, setPort_setPort]
    rw [raiseLoud_unbound (setPort_unbound hu _ _)]
    rfl
  case overdue =>
    have hdone : leftOpenExpiry raiseLoud p s =
        raiseQuiet (.drawerLeftOpen p (min (max (s.port p).openMs (1000 * s.set.leftOpen) / 1000) 65535))
          (s.setPort p { s.port p with
            mode := .openOverdue, openMs := max (s.port p).openMs (1000 * s.set.leftOpen) }) := by
      rw [leftOpenExpiry, if_pos hm]
      simp only [leftOpen, modPort, State.setPort_port, hm, if_true, setPort_setPort]
      exact raiseLoud_unbound (setPort_unbound hu _ _) _
    refine ⟨_, congrArg Host.Outcome.next hdone, ?_⟩
    rw [port_raiseQuiet, State.setPort_port, raiseQuiet_txn, State.setPort_txn]
    exact ⟨rfl, rfl, raiseQuiet_rpt_congr _ _ _ (State.setPort_link ..) (State.setPort_rpt ..) (State.setPort_set ..)⟩
  case notOpen =>
    show Host.Outcome.next (leftOpenExpiry raiseLoud p s) = _
    rw [leftOpenExpiry, if_neg hm]
  case clear =>
    obtain rfl := port_ofByte_some hport
    refine ⟨fun hm hsense => ?_, fun hm => ?_⟩
    · refine exec_answers_of_ready rfl rfl hs (by cases p <;> rfl) fun q => ?_
      have hclear : clearFault p (s.executing q) = (s.executing q).setPort p { s.port p with
          mode := .closed, attempt := 0, retry := false, kick := .none } := by
        simp only [clearFault, modPort, port_of_drw]
        exact if_neg (by rw [setPort_sense]; exact hsense)
      show actDrawerClear p.byte raiseLoud (s.executing q) = _
      simp only [actDrawerClear, port_ofByte_byte, port_of_drw, if_pos hm, hclear, State.setPort_port]
      cases p <;> rfl
    · refine refuses_of_ready rfl rfl hs fun q => ?_
      simp only [requestAction, actDrawerClear, port_ofByte_byte, port_of_drw, if_neg hm]

end Sys2Proof.Machine
end

