-- ==== Sys2Proof/Proofs/Sale/Ends.lean ====
section
/-! PROOFS. The tenders of a sale and its end (chapter 5). -/

namespace Sys2Proof.Machine

/-- A request on a ready lane whose action replies, where the outcome is named by the action itself. -/
theorem exec_answers_some {i : Instr} {tag code : Byte} {payload data : List Byte} {s x : State} {st : Status}
    (hw : i.wf = true) (he : encodeRequest i = some (tag, code, payload)) (hs : s.ready)
    (ha : requestAction i raiseLoud (s.executing { tag := tag, code := code, payload := payload }) =
      (x, .reply st data none))
    (hsoft : x.link.softReset = s.link.softReset) (hidle : x.lpm.idle = 0) :
    exec i s = .next (State.answered { x with link.inExec := none } tag code st data) := by
  rw [exec_request_eq he]
  refine (accept_ready (act := requestAction i) hw he hs).trans ?_
  rw [ha]
  refine congrArg Host.Outcome.next (conclude_reply (hsoft.trans hs.1.2.2.2.2) ?_)
  rw [← hidle]

/-! ### The end of a sale (R103 to R106, R128) -/

/-- The lane once a sale's end has been snapped, its tare cleared and its records wiped: lists, watch and marker (R103,
R105). -/
def State.emptied (s : State) : State := emptySale (askWrite (.marker false) s)

theorem emptied_txn (s : State) :
    s.emptied.txn = { Txn.reset with entitlement := s.txn.entitlement, snap := s.txn.snap } := rfl

theorem emptied_card (s : State) (c : CardSlot) : s.emptied.card c = (s.card c).map fun r => r.judge s.emptied.txn := by
  cases c <;> rfl

@[simp] theorem emptied_wgt (s : State) : s.emptied.wgt = s.wgt := rfl
@[simp] theorem emptied_bag (s : State) :
    s.emptied.bag = { s.bag with watch := .off, entries := [], hold := none } := rfl
@[simp] theorem emptied_sst (s : State) :
    s.emptied.sst = { s.sst with writes := s.sst.writes ++ [.marker false] } := rfl
@[simp] theorem emptied_drw (s : State) : s.emptied.drw = s.drw := rfl
@[simp] theorem emptied_link (s : State) : s.emptied.link = s.link := rfl
@[simp] theorem emptied_rpt (s : State) : s.emptied.rpt = s.rpt := rfl
@[simp] theorem emptied_set (s : State) : s.emptied.set = s.set := rfl
@[simp] theorem emptied_lpm (s : State) : s.emptied.lpm = s.lpm := rfl

theorem emptied_unbound {s : State} (h : s.unbound) : s.emptied.unbound := h

theorem closeEffects_eq (r : Raise) (tag : Byte) (outcome : CloseOutcome) (s : State) :
    closeEffects r tag outcome s =
      r (.txnClosed tag outcome s.txn.id (total s.txn.items) s.txn.change s.txn.items.length)
        (clearTare (wipeAll r true .close s)).emptied := rfl

/-- Nothing is wiped where no record is of the kind (R128). -/
theorem wipeAll_none {r : Raise} {b : Bool} {cause : WipeCause} {s : State}
    (h : ∀ c x, s.card c = some x → x.bound ≠ b) : wipeAll r b cause s = s := by
  have hone (c : CardSlot) : wipeWhere r b cause c s = s := by
    unfold wipeWhere
    split
    · next x hx => exact if_neg (h c x hx)
    · rfl
  rw [wipeAll, hone, hone]

theorem card_raiseQuiet (n : Notice) (s : State) (c : CardSlot) : (raiseQuiet n s).card c = s.card c := by
  cases c <;> simp [State.card]

/-- What a wipe leaves of a record. -/
theorem card_wiped {b : Bool} {s t : State} {c : CardSlot} {x : CardRec}
    (h : t.crd = { s.crd with
      one := s.crd.one.bind fun c => if c.bound = b then none else some c
      two := s.crd.two.bind fun c => if c.bound = b then none else some c }) (hx : s.card c = some x) :
    t.card c = if x.bound = b then none else some x := by
  have hc : t.card c = (s.card c).bind fun c => if c.bound = b then none else some c := by
    cases c <;> simp [State.card, h]
  rw [hc, hx]
  rfl

theorem abortReceipt_empty {r : Raise} {s : State} (h : s.job.table = []) : abortReceipt r s = s := by
  simp [abortReceipt, h]

theorem cancelForVoid_none {r : Raise} {s : State} (h : s.wgt.chanP.op = none) : cancelForVoid r s = s := by
  simp [cancelForVoid, h]

/-- A sale without a capture or a tare in flight, and without a job, is void (R105). -/
theorem voidSale_eq {r : Raise} {tag : Byte} {s t : State} (hop : s.wgt.chanP.op = none)
    (ht : t = wipeAll r false .void (clearTare (bagOff { s with txn.state := .voided }))) (hjob : t.job.table = []) :
    voidSale r tag s = r (.txnClosed tag .voided t.txn.id (total t.txn.items) 0 t.txn.items.length)
      (takeSnapshot true t).emptied := by
  unfold voidSale
  simp only [cancelForVoid_none (s := { s with txn.state := .voided }) hop, ← ht, abortReceipt_empty hjob]
  rfl

theorem rebindReceipt_empty {s : State} (h : s.job.table = []) : rebindReceipt s = s := by
  have hjob : s.job = { s.job with table := [] } := by rw [← h]
  simp only [rebindReceipt, h, List.map_nil, ← hjob]

/-- A void sale without tenders has no card details (R106). -/
theorem makeSnapshot_voided {s t : State} (ht : s.txn.tenders = []) (h : t.txn = { s.txn with state := .voided }) :
    makeSnapshot true t = makeSnapshot true s := by
  simp [makeSnapshot, h, ht, cardDetails]

/-- Settles O42, by the effects of a void and of a close in their order. -/
theorem saleVoidedAndClosed : Obligations.SaleVoidedAndClosed := by
  refine fun tag s hs hu hjob => ⟨fun hstate htenders hop => ?void, fun hstate hent => ?close, fun h => ?notOpen,
    fun h => ?notSettled⟩
  case void =>
    let e := s.executing { tag := tag, code := 0x47#8, payload := [] }
    let v := clearTare (bagOff { e with txn.state := .voided })
    obtain ⟨l, q, ht, htu, -, hsoft⟩ := wipeAll_eq false .void v hu
    generalize hv : wipeAll raiseLoud false .void v = t at ht htu
    have hdone : voidSale raiseLoud tag e =
        raiseQuiet (.txnClosed tag .voided t.txn.id (total t.txn.items) 0 t.txn.items.length) (takeSnapshot true t).emptied := by
      rw [voidSale_eq (s := e) hop hv.symm (by rw [ht]; exact hjob), raiseLoud_unbound (emptied_unbound (by exact htu))]
    have hact : actVoid tag raiseLoud e = (voidSale raiseLoud tag e, .reply .ok [] none) := by
      rcases hstate with h | h <;> simp [actVoid, e, h, htenders, answer]
    rw [hdone] at hact
    have htxn : t.txn = { s.txn with state := .voided } := by rw [ht]; rfl
    have hwgt : t.wgt = { s.wgt with tare := 0, tareKind := .none } := by rw [ht]; rfl
    have hbag : t.bag = { s.bag with watch := .off, entries := [], hold := none } := by rw [ht]; rfl
    have hsst : t.sst = s.sst := by rw [ht]; rfl
    have hcrd : t.crd = { s.crd with
      one := s.crd.one.bind fun c => if c.bound = false then none else some c
      two := s.crd.two.bind fun c => if c.bound = false then none else some c } := by rw [ht]; rfl
    have hidle : t.lpm.idle = 0 := by rw [ht]; rfl
    have hsnap : makeSnapshot true t = makeSnapshot true s := makeSnapshot_voided htenders htxn
    refine ⟨_, exec_answers_some rfl rfl hs hact ?_ ?_, ?_, rfl, rfl, ?_, ?_, ?_, fun c r hr => ?_⟩
    · rw [raiseQuiet_softReset, emptied_link, takeSnapshot, ht]
      exact hsoft
    · simp [takeSnapshot, hidle]
    · simp [emptied_txn, takeSnapshot, hsnap, htxn]
    · simp [takeSnapshot, hwgt]
    · simp [takeSnapshot, hbag]
    · simp [takeSnapshot, hsst]
    · have hwiped : t.card c = if r.bound = false then none else some r := card_wiped hcrd hr
      refine (card_raiseQuiet ..).trans ((emptied_card ..).trans ?_)
      rw [show (takeSnapshot true t).card c = t.card c from by cases c <;> rfl, hwiped, raiseQuiet_txn]
      cases r.bound <;> rfl
  case close =>
    let e := s.executing { tag := tag, code := 0x48#8, payload := [] }
    obtain ⟨l, q, ht, htu, -, hsoft⟩ := wipeAll_eq true .close (takeSnapshot false e) hu
    generalize hv : wipeAll raiseLoud true .close (takeSnapshot false e) = t at ht htu
    have hdone : closeEffects raiseLoud tag .forced (takeSnapshot false e) =
        raiseQuiet (.txnClosed tag .forced s.txn.id (total s.txn.items) s.txn.change s.txn.items.length)
          (clearTare t).emptied := by
      rw [closeEffects_eq, hv, raiseLoud_unbound (emptied_unbound (by exact htu))]
      rfl
    have hact : actClose tag raiseLoud e = (closeEffects raiseLoud tag .forced (takeSnapshot false e), .reply .ok [0#8] none) := by
      have hnot : ¬ e.txn.state ≠ .settled := by simp [e, hstate]
      simp only [actClose, if_neg hnot]
      rw [show e.job.table = [] from hjob, cancelEntitlement, show e.txn.entitlement = none from hent,
        rebindReceipt_empty (s := takeSnapshot false e) hjob]
      rfl
    rw [hdone] at hact
    have htxn : t.txn = { s.txn with snap := some (makeSnapshot false s) } := by
      rw [ht, ← makeSnapshot_congr false e s rfl rfl]
      rfl
    have hwgt : t.wgt = s.wgt := by rw [ht]; rfl
    have hsst : t.sst = s.sst := by rw [ht]; rfl
    have hcrd : t.crd = { s.crd with
      one := s.crd.one.bind fun c => if c.bound = true then none else some c
      two := s.crd.two.bind fun c => if c.bound = true then none else some c } := by rw [ht]; rfl
    have hidle : t.lpm.idle = 0 := by rw [ht]; rfl
    refine ⟨_, exec_answers_some rfl rfl hs hact ?_ ?_, ?_, rfl, ?_, ?_, fun c r hr => ?_⟩
    · rw [raiseQuiet_softReset, emptied_link, clearTare, ht]
      exact hsoft
    · simp [clearTare, hidle]
    · simp [emptied_txn, clearTare, htxn, hent, Txn.reset]
    · simp [clearTare, hwgt]
    · simp [clearTare, hsst]
    · have hwiped : t.card c = if r.bound = true then none else some r := card_wiped hcrd hr
      refine (card_raiseQuiet ..).trans ((emptied_card ..).trans ?_)
      rw [show (clearTare t).card c = t.card c from by cases c <;> rfl, hwiped, raiseQuiet_txn]
      cases r.bound <;> rfl
  all_goals refine refuses_of_ready rfl rfl hs fun q => ?_
  case notOpen => simp [requestAction, actVoid, h]
  case notSettled => simp only [requestAction, actClose, if_pos h]

/-! ### Tenders (R97 to R100) -/

/-- Whether a covered sale earns an entitlement: a cash tender, with its drawer present (R100). -/
def State.earns (s : State) : Bool :=
  s.txn.tenders.any (fun t => decide (t.kind = .cash)) && s.set.present s.set.cash

/-- A sale on its entry into SETTLED, before its drawer is kicked (R100). -/
def State.settling (s : State) : State := bagOff { s with
  txn.state := .settled
  txn.change := tenderSum s.txn.tenders - total s.txn.items
  txn.entitlement := if s.earns then some s.set.cash else s.txn.entitlement }

theorem settleSale_unkicked {r : Raise} {s : State} (h : s.earns = false ∨ s.set.kickOnSettle = 0) :
    settleSale r s = (judgeStart r s.settling, 0xFF#8) := by
  unfold settleSale State.settling
  unfold State.earns at h ⊢
  cases he : (s.txn.tenders.any fun t => decide (t.kind = .cash)) && s.set.present s.set.cash with
  | false => simp [he, bagOff]
  | true => simp [he, bagOff, h.resolve_left (by simp [he])]

theorem settleSale_kicked {r : Raise} {s : State} (h : s.earns = true) (hk : s.set.kickOnSettle ≠ 0) :
    settleSale r s = (judgeStart r (kick r 0#8 s.set.cash s.settling).1, (kick r 0#8 s.set.cash s.settling).2.code) := by
  unfold State.earns at h
  unfold settleSale
  dsimp only [bagOff]
  rw [h]
  simp [hk, State.settling, State.earns, h, bagOff]

theorem tenderSum_append (l : List Tender) (t : Tender) : tenderSum (l ++ [t]) = tenderSum l + t.amount := by
  simp [tenderSum]

/-- A tender on its way into the list (R99). -/
abbrev Txn.tendered (x : Txn) (t : Tender) : Txn := { x with tenders := x.tenders ++ [t] }

theorem due_tendered (x : Txn) (t : Tender) : (x.tendered t).due = x.due - t.amount := by
  simp [Txn.due, tenderSum_append, Nat.sub_sub]

/-- What a tender that leaves an amount due answers (R99). -/
theorem acceptTender_open {r : Raise} {k : TenderKind} {amount : Nat} {card : Option CardSlot} {s : State}
    (h : amount < s.txn.due) (htxn : (takeTender k amount card s).txn = s.txn.tendered { kind := k, amount := amount, card := card }) :
    acceptTender r k amount card s =
      answer .ok (tenderReply (s.txn.tenders.length + 1) (s.txn.tendered { kind := k, amount := amount, card := card }) 0xFF#8)
        (takeTender k amount card s) := by
  have hnot : ¬ total s.txn.items ≤ tenderSum s.txn.tenders + amount := by
    unfold Txn.due at h
    omega
  simp only [acceptTender, htxn, tenderSum_append, if_neg hnot, List.length_append, List.length_singleton]

/-- What a tender that covers the total answers (R99). -/
theorem acceptTender_covers {r : Raise} {k : TenderKind} {amount : Nat} {card : Option CardSlot} {s : State}
    (h : s.txn.due ≤ amount) (hsum : tenderSum s.txn.tenders ≤ total s.txn.items)
    (htxn : (takeTender k amount card s).txn = s.txn.tendered { kind := k, amount := amount, card := card }) :
    acceptTender r k amount card s =
      answer .ok ([u8 (s.txn.tenders.length + 1)] ++ be32 (tenderSum s.txn.tenders + amount) ++ be32 0 ++ [3#8] ++
          be32 (amount - s.txn.due) ++ [(settleSale r (takeTender k amount card s)).2])
        (settleSale r (takeTender k amount card s)).1 := by
  have hcovers : total s.txn.items ≤ tenderSum s.txn.tenders + amount := by
    unfold Txn.due at h
    omega
  have hdue : total s.txn.items - (tenderSum s.txn.tenders + amount) = 0 := Nat.sub_eq_zero_of_le hcovers
  have hchange : tenderSum s.txn.tenders + amount - total s.txn.items = amount - s.txn.due := by
    unfold Txn.due at h ⊢
    omega
  simp only [acceptTender, htxn, tenderSum_append, if_pos hcovers, List.length_append, List.length_singleton, tenderReply,
    Txn.due, hdue, hchange]
  rfl

/-- TXN_TENDER through its checks (R98). -/
theorem actTender_passed {r : Raise} {kind slot : Byte} {k : TenderKind} {amount : BitVec 32} {s : State}
    {card : Option CardSlot} (hkind : TenderKind.ofByte kind = some k) (hlo : 1 ≤ amount.toNat)
    (hhi : amount.toNat ≤ 99999999) (hstate : s.txn.state = .tender) (hwatch : s.bag.watch ≠ .hold)
    (hcard : tenderCard k amount.toNat slot s = .ok card) :
    actTender kind amount slot r s = acceptTender r k amount.toNat card s := by
  have hrange : ¬ (amount.toNat < 1 ∨ 99999999 < amount.toNat) := by omega
  simp only [actTender, hstate, ne_eq, not_true_eq_false, if_false, if_neg hwatch, hkind, if_neg hrange, hcard]

/-- A tender that is no card tender, has room, and is no voucher above the due, binds no card (R98). -/
theorem tenderCard_plain {k : TenderKind} {amount : Nat} {slot : Byte} {s : State} (hk : k ≠ .card)
    (hroom : s.txn.tenders.length < 7 ∨ s.txn.due ≤ amount) (hv : k = .voucher → amount ≤ s.txn.due) :
    tenderCard k amount slot s = .ok none := by
  have hroom' : (decide (s.txn.tenders.length < 7) || decide (s.txn.due ≤ amount)) = true := by simpa using hroom
  cases k with
  | cash => simp only [tenderCard, hroom', if_true]
  | voucher => simp only [tenderCard, hroom', if_neg (Nat.not_lt.mpr (hv rfl)), if_true]
  | card => contradiction

/-- A card tender up to the due binds the held, bindable record of its slot (R98). -/
theorem tenderCard_card {amount : Nat} {slot : Byte} {s : State} {c : CardSlot} {x : CardRec}
    (hslot : CardSlot.ofByte slot = some c) (hx : s.card c = some x) (hb : x.bound = false) (hok : x.bindable = true)
    (hdue : amount ≤ s.txn.due) (hroom : s.txn.tenders.length < 7 ∨ s.txn.due ≤ amount) :
    tenderCard .card amount slot s = .ok (some c) := by
  have hroom' : (decide (s.txn.tenders.length < 7) || decide (s.txn.due ≤ amount)) = true := by simpa using hroom
  have hbind : s.bindable c = true := by simp [State.bindable, hx, hb, hok]
  simp only [tenderCard, if_neg (Nat.not_lt.mpr hdue), hslot, hbind, hroom', Bool.not_true, Bool.false_eq_true, if_false,
    if_true]

theorem energising_job (s : State) (tag : Byte) (k : PermitKind) (p : Port) : (s.energising tag k p).job = s.job :=
  State.setPort_job ..

theorem tenderReply_open {x : Txn} (n : Nat) (t : Tender) (kick : Byte) (h : x.state = .tender) :
    tenderReply n (x.tendered t) kick =
      [u8 n] ++ be32 (tenderSum x.tenders + t.amount) ++ be32 (x.due - t.amount) ++ [2#8] ++ be32 x.change ++ [kick] := by
  simp only [tenderReply, due_tendered, tenderSum_append, h]
  rfl

/-- The lane with a tender of no card in its list. -/
abbrev State.tendered (s : State) (k : TenderKind) (amount : Nat) : State :=
  { s with txn.tenders := s.txn.tenders ++ [{ kind := k, amount := amount, card := none }] }

theorem takeTender_none (k : TenderKind) (amount : Nat) (s : State) : takeTender k amount none s = s.tendered k amount := rfl

theorem earns_tendered (s : State) (k : TenderKind) (amount : Nat) :
    (s.tendered k amount).earns = (((s.txn.tenders.any fun t => decide (t.kind = .cash)) || decide (k = .cash)) &&
      s.set.present s.set.cash) := by simp [State.earns]

theorem settling_tendered {s : State} {k : TenderKind} {amount : Nat} (h : s.txn.due ≤ amount)
    (hsum : tenderSum s.txn.tenders ≤ total s.txn.items) :
    (s.tendered k amount).settling = { s with
      txn.state := .settled
      txn.tenders := s.txn.tenders ++ [{ kind := k, amount := amount, card := none }]
      txn.change := amount - s.txn.due
      txn.entitlement := if ((s.txn.tenders.any fun t => decide (t.kind = .cash)) ||
        decide (k = .cash)) && s.set.present s.set.cash then some s.set.cash else s.txn.entitlement
      bag.watch := .off, bag.entries := [], bag.hold := none } := by
  have hchange : tenderSum s.txn.tenders + amount - total s.txn.items = amount - s.txn.due := by
    unfold Txn.due at h ⊢
    omega
  simp only [State.settling, earns_tendered, tenderSum_append, hchange, bagOff]

/-- A covering tender of a sale with a cash tender, with the drawer present, earns the entitlement (R100). -/
theorem tendered_earns {s : State} {k : TenderKind} {amount : Nat} (h : s.txn.due ≤ amount)
    (hsum : tenderSum s.txn.tenders ≤ total s.txn.items) (hcash : k = .cash ∨ ∃ x ∈ s.txn.tenders, x.kind = .cash)
    (hp : s.set.present s.set.cash = true) :
    (s.tendered k amount).earns = true ∧ (s.tendered k amount).settling = { s with
      txn.state := .settled
      txn.tenders := s.txn.tenders ++ [{ kind := k, amount := amount, card := none }]
      txn.change := amount - s.txn.due
      txn.entitlement := some s.set.cash
      bag.watch := .off, bag.entries := [], bag.hold := none } := by
  have hany : ((s.txn.tenders.any fun t => decide (t.kind = .cash)) || decide (k = .cash)) = true := by
    rcases hcash with h | ⟨x, hx, h⟩
    · simp [h]
    · rw [List.any_eq_true.mpr ⟨x, hx, by simpa using h⟩, Bool.true_or]
  refine ⟨by rw [earns_tendered, hany, hp]; rfl, ?_⟩
  rw [settling_tendered h hsum, hany, hp]
  rfl

/-- Settles O41, by the checks, the tender taken, and what a covering one settles. -/
theorem tenderTaken : Obligations.TenderTaken := by
  refine fun tag kind k amount slot s hs hkind hlo hhi hstate hwatch => ⟨fun hk hdue hroom => ?part,
    fun hk hdue hv hsum hjob hno => ?settles, fun c x hk hslot hx hb hok hdue hroom => ?card,
    fun c x hk hslot hx hb hok hdue hsum hjob hcash => ?cardSettles,
    fun p o hk hdue hv hsum hjob hkick hp hpresent hcash ho => ⟨fun hm hr hP hB hqueue hline hlow hfits => ?kicked,
      fun hm => ?unkicked⟩, fun hk hdue => ?range⟩
  case part =>
    refine ⟨s.tendered k amount.toNat, exec_answers_of_ready rfl rfl hs rfl fun q => ?_, rfl⟩
    show actTender kind amount slot raiseLoud (s.executing q) = _
    rw [actTender_passed (s := s.executing q) hkind hlo hhi hstate hwatch
      (tenderCard_plain hk (.inl hroom) fun _ => Nat.le_of_lt hdue), acceptTender_open (s := s.executing q) hdue rfl,
      tenderReply_open _ _ _ hstate]
    rfl
  case settles =>
    refine ⟨(s.tendered k amount.toNat).settling, exec_answers_of_ready rfl rfl hs rfl fun q => ?_,
      settling_tendered hdue hsum⟩
    show actTender kind amount slot raiseLoud (s.executing q) = _
    have hearns : ((s.executing q).tendered k amount.toNat).earns = false ∨ s.set.kickOnSettle = 0 := by
      rw [earns_tendered]
      rcases hno with h | h | ⟨rfl, h⟩
      · exact .inr h
      · exact .inl (by simp [h])
      · have hnone : (s.txn.tenders.any fun t => decide (t.kind = .cash)) = false := by
          rw [List.any_eq_false]
          exact fun x hx => by simpa using h x hx
        exact .inl (by simp [hnone])
    rw [actTender_passed (s := s.executing q) hkind hlo hhi hstate hwatch
      (tenderCard_plain hk (.inr hdue) fun h => Nat.le_of_eq (hv h)), acceptTender_covers (s := s.executing q) hdue hsum rfl,
      takeTender_none, settleSale_unkicked hearns, judgeStart_empty (by exact hjob)]
    rfl
  case card =>
    subst hk
    refine ⟨takeTender .card amount.toNat (some c) s, exec_answers_of_ready rfl rfl hs (by cases c <;> rfl) fun q => ?_,
      by cases c <;> rfl, by cases c <;> simp_all [takeTender, bindCard, State.setCard, State.card]⟩
    show actTender kind amount slot raiseLoud (s.executing q) = _
    rw [actTender_passed (s := s.executing q) hkind hlo hhi hstate hwatch
      (tenderCard_card (s := s.executing q) hslot hx hb hok (Nat.le_of_lt hdue) (.inl hroom)),
      acceptTender_open (s := s.executing q) hdue (by cases c <;> rfl), tenderReply_open _ _ _ hstate]
    cases c <;> rfl
  case cardSettles =>
    subst hk
    have hnone : (s.txn.tenders.any fun t => decide (t.kind = .cash)) = false := by
      rw [List.any_eq_false]
      exact fun x hx => by simpa using hcash x hx
    have hearns (q : Option Request) (i : Nat) :
        (takeTender .card amount.toNat (some c) { s with link.inExec := q, lpm.idle := i }).earns = false := by
      cases c <;> simp [takeTender, bindCard, State.setCard, State.earns, hnone]
    have hchange : tenderSum s.txn.tenders + amount.toNat - total s.txn.items = 0 := by
      rw [hdue]
      unfold Txn.due
      omega
    have hframe (q : Option Request) (i : Nat) :
        (takeTender .card amount.toNat (some c) { s with link.inExec := q, lpm.idle := i }).settling =
          { (takeTender .card amount.toNat (some c) s).settling with link.inExec := q, lpm.idle := i } := by
      cases c <;> rfl
    refine ⟨(takeTender .card amount.toNat (some c) s).settling,
      exec_answers_of_ready rfl rfl hs (by cases c <;> rfl) fun q => ?_, ?_, ?_, fun o ho => ?_, by cases c <;> rfl,
      by cases c <;> rfl⟩
    · show actTender kind amount slot raiseLoud (s.executing q) = _
      rw [actTender_passed (s := s.executing q) hkind hlo hhi hstate hwatch
        (tenderCard_card (s := s.executing q) hslot hx hb hok (Nat.le_of_eq hdue) (.inr (Nat.le_of_eq hdue.symm))),
        acceptTender_covers (s := s.executing q) (Nat.le_of_eq hdue.symm) hsum (by cases c <;> rfl),
        settleSale_unkicked (.inl (hearns ..)), judgeStart_empty (by cases c <;> exact hjob), hframe, hdue,
        Nat.sub_self]
      rfl
    · have hearns' := hearns s.link.inExec s.lpm.idle
      simp only [State.settling, bagOff, hearns', Bool.false_eq_true, if_false]
      cases c <;> simp [takeTender, bindCard, State.setCard, tenderSum_append, hchange]
    · cases c <;> simp_all [takeTender, bindCard, State.setCard, State.card, State.settling, bagOff]
    · cases c <;> cases o <;> first | contradiction | rfl
  case kicked =>
    subst hp
    obtain ⟨hearns, hsettled⟩ := tendered_earns hdue hsum hcash hpresent
    have hpermit : (s.tendered k amount.toNat).settling.permitOf s.set.cash = .entitlement := by
      simp [State.permitOf, hsettled]
    have heffects := energising_effects (s.tendered k amount.toNat).settling 0#8 .entitlement s.set.cash o ho
    obtain ⟨hport, hother, hnosale, htxn, hdsa, hwgt⟩ := heffects
    refine ⟨(s.tendered k amount.toNat).settling.energising 0#8 .entitlement s.set.cash,
      exec_answers_of_ready rfl rfl hs (State.setPort_link ..) fun q => ?_, htxn.trans (by rw [hsettled]),
      (State.setPort_bag ..).trans (by show State.bag (State.settling _) = _; rw [hsettled]), hport, hother, hnosale, hdsa, hwgt⟩
    show actTender kind amount slot raiseLoud (s.executing q) = _
    have haccept : kick raiseLoud 0#8 s.set.cash ((s.executing q).tendered k amount.toNat).settling =
        (((s.executing q).tendered k amount.toNat).settling.energising 0#8 .entitlement s.set.cash, .ok) := by
      rw [kick, kickRefusal_closed (s := ((s.executing q).tendered k amount.toNat).settling) hpresent
        (by intro h; exact absurd (hpermit.symm.trans h) (by decide)) hm hr]
      refine congrArg (·, Status.ok) ((kickAccepted_granted (s := ((s.executing q).tendered k amount.toNat).settling) hm hqueue
        hline hlow hfits hP hB).trans ?_)
      exact congrArg (fun x => State.energising _ 0#8 x s.set.cash) hpermit
    rw [actTender_passed (s := s.executing q) hkind hlo hhi hstate hwatch
      (tenderCard_plain hk (.inr hdue) fun h => Nat.le_of_eq (hv h)), acceptTender_covers (s := s.executing q) hdue hsum rfl,
      takeTender_none, settleSale_kicked (s := (s.executing q).tendered k amount.toNat) hearns hkick, haccept,
      judgeStart_empty (by rw [energising_job]; exact hjob)]
    exact congrArg (answer .ok _) (energising_executing (s.tendered k amount.toNat).settling ..)
  case unkicked =>
    subst hp
    obtain ⟨hearns, hsettled⟩ := tendered_earns hdue hsum hcash hpresent
    refine ⟨(s.tendered k amount.toNat).settling, exec_answers_of_ready rfl rfl hs rfl fun q => ?_, hsettled⟩
    show actTender kind amount slot raiseLoud (s.executing q) = _
    have hrefuse : kick raiseLoud 0#8 s.set.cash ((s.executing q).tendered k amount.toNat).settling =
        (((s.executing q).tendered k amount.toNat).settling, .refusedBusy) := by
      have hpermit : ((s.executing q).tendered k amount.toNat).settling.permitOf s.set.cash = .entitlement := by
        refine Eq.trans (b := (s.tendered k amount.toNat).settling.permitOf s.set.cash) rfl ?_
        simp [State.permitOf, hsettled]
      have hbusy : kickRefusal s.set.cash ((s.executing q).tendered k amount.toNat).settling = some .refusedBusy := by
        have hmode : ∀ m, (s.port s.set.cash).mode = m →
            (((s.executing q).tendered k amount.toNat).settling.port s.set.cash).mode = m := fun _ h => h
        have hpresent' : ((s.executing q).tendered k amount.toNat).settling.set.present s.set.cash = true := hpresent
        rw [kickRefusal, if_neg (by rw [hpresent']; decide), hpermit, if_neg (by decide)]
        rcases hm with h | h <;> rw [hmode _ h]
      rw [kick, hbusy]
    rw [actTender_passed (s := s.executing q) hkind hlo hhi hstate hwatch
      (tenderCard_plain hk (.inr hdue) fun h => Nat.le_of_eq (hv h)), acceptTender_covers (s := s.executing q) hdue hsum rfl,
      takeTender_none, settleSale_kicked (s := (s.executing q).tendered k amount.toNat) hearns hkick, hrefuse, judgeStart_empty (by exact hjob)]
    rfl
  case range =>
    refine refuses_of_ready rfl rfl hs fun q => ?_
    show actTender kind amount slot raiseLoud (s.executing q) = _
    have hcard : tenderCard k amount.toNat slot (s.executing q) = .error .refusedRange := by
      cases k with
      | cash => contradiction
      | voucher => exact if_pos hdue
      | card => exact if_pos hdue
    have hrange : ¬ (amount.toNat < 1 ∨ 99999999 < amount.toNat) := by omega
    simp only [actTender, hstate, ne_eq, not_true_eq_false, if_false, if_neg hwatch, hkind, if_neg hrange, hcard]

end Sys2Proof.Machine
end

