-- ==== Sys2Proof/Proofs/Drawer/Attempts.lean ====
section
/-! PROOFS. The events of a drawer attempt (sections 7.2 to 7.4). -/

namespace Sys2Proof.Machine

/-! ### What the ends of an attempt do to the arbiter and to the action (R135, R137, R178) -/

/-- The only request waiting is withdrawn. -/
theorem withdraw_one {r : Raise} {q : Requester} {s : State} (h : s.dsa.queue = [q]) :
    withdraw r q s = { s with dsa.queue := [] } := by
  have hempty : s.dsa.queue.erase q = [] := by simp [h]
  have hhead : s.dsa.queue.head? = some q := by simp [h]
  simp only [withdraw, hhead, if_true, hempty]
  rw [if_pos (by simp [h]), scan_nil rfl]

/-- The only load returned, with none waiting and the capacity in force that of the setting. -/
theorem returnGrant_one {r : Raise} {q : Requester} {n : Nat} {s : State} (h : s.dsa.loads = [(q, n)])
    (hqueue : s.dsa.queue = []) (hcap : s.dsa.cap = s.set.capacity) :
    returnGrant r q s = { s with dsa.loads := [] } := by
  have hloads : s.dsa.loads.filter (fun l => l.1 != q) = [] := by simp [h]
  rw [returnGrant, releaseLoad, hloads, settleCap_same (by exact hcap), scan_nil (by exact hqueue)]

/-- The only action ends, with a guard after it. -/
theorem disturbEnd_one {r : Raise} {a : Action} {g : Nat} {s : State} (h : s.wgt.actions = [a]) (hg : g ≠ 0) :
    disturbEnd r a g s = { s with
      wgt.actions := [], wgt.guard := some (max g (s.wgt.guard.getD 0)) } := by
  have hempty : s.wgt.actions.erase a = [] := by simp [h]
  rw [disturbEnd, if_pos (by simp [h])]
  simp only [hempty, if_neg hg, judgeQuiet, Weigh.disturbed, Option.isSome_some, Bool.or_true, if_true]

/-- The on-time's end returns the grant and starts the guard (R137, R138). -/
theorem leaveKicking_one {r : Raise} {p : Port} {s : State} (hcap : s.dsa.cap = s.set.capacity)
    (hqueue : s.dsa.queue = []) (hloads : s.dsa.loads = [(.port p, 1500)]) (ha : s.wgt.actions = [.pulse p])
    (hg : s.set.drawerGuard ≠ 0) :
    leaveKicking r p s = { s with
      dsa.loads := []
      wgt.actions := []
      wgt.guard := some (max s.set.drawerGuard (s.wgt.guard.getD 0)) }.setPort p
        { s.port p with mode := .waitOpen, wait := 0, on := false, broken := false } := by
  unfold leaveKicking modPort
  rw [returnGrant_one (by simpa using hloads) (by simpa using hqueue) (by simpa using hcap),
    disturbEnd_one (by simpa using ha) (by simpa using hg)]
  cases p <;> rfl

/-! ### The end of an attempt (R139) -/

/-- A port after a failed attempt. -/
def PortState.failed (q : PortState) (reason : FailReason) : PortState :=
  { q with reason := some reason, wait := 0, on := false, broken := false, remembered := false }

/-- An attempt of a live permit that is not the third leaves a retry (R139). -/
theorem failAttempt_retries {r : Raise} {p : Port} {reason : FailReason} {s : State} (hk : (s.port p).kick ≠ .none)
    (h3 : (s.port p).attempt < 3) :
    failAttempt r p reason s = r (.drawerNoOpen (s.port p).tag p (s.port p).attempt reason true)
      (s.setPort p { (s.port p).failed reason with mode := .closed, retry := true }) := by
  simp only [failAttempt, if_neg hk, if_pos h3]
  rfl

/-- The third failure of a no-sale kick ends it in FAULT (R139). -/
theorem failAttempt_fault {r : Raise} {p : Port} {reason : FailReason} {s : State} (hk : (s.port p).kick = .noSale)
    (h3 : 3 ≤ (s.port p).attempt) :
    failAttempt r p reason s = judgeEntry r (r (.drawerFailed (s.port p).tag p .noSale reason)
      (r (.drawerNoOpen (s.port p).tag p (s.port p).attempt reason false)
        (endPermit .noSale (s.setPort p { (s.port p).failed reason with mode := .fault, retry := false, kick := .none })))) := by
  have hsome : ¬ PermitKind.noSale = .none := by decide
  simp only [failAttempt, hk, if_neg hsome, if_neg (Nat.not_lt.mpr h3)]
  rfl

/-! ### An opening under a kick (R132, R138 to R140) -/

/-- The lane as a port opens under its kick: the permit consumed, the port OPEN. -/
def State.openedUnder (s : State) (p : Port) : State :=
  (endPermit (s.port p).kick s).setPort p (s.port p).opened

/-- An opening under a kick ends in the judgement of the sale's close, where no entry is pending and the port stays
present. -/
theorem openUnderKick_eq {p : Port} {s t : State} (hu : s.unbound)
    (ht : permitEnded raiseLoud (s.port p).kick (raiseQuiet
      (.drawerOpened (s.port p).tag p (s.port p).kick (s.port p).attempt) (s.openedUnder p)) = t)
    (hentry : t.lpm.entry = none) (hleaving : (t.port p).leaving = false) : openUnderKick raiseLoud p s = t := by
  have hu' : (s.openedUnder p).unbound := by
    unfold State.openedUnder endPermit
    cases (s.port p).kick <;> cases p <;> exact hu
  have hsettle : modPort p PortState.settle t = t := by
    rw [modPort, PortState.settle, if_neg (by simp [hleaving])]
    cases p <;> rfl
  have hraised := raiseLoud_unbound hu' (.drawerOpened (s.port p).tag p (s.port p).kick (s.port p).attempt)
  unfold State.openedUnder at hraised ht
  simp only [openUnderKick]
  rw [hraised, ht, hsettle, judgeEntry_none hentry]

theorem openedUnder_lpm (s : State) (p : Port) : (s.openedUnder p).lpm = s.lpm := by
  unfold State.openedUnder endPermit
  cases (s.port p).kick <;> cases p <;> rfl

theorem openedUnder_port (s : State) (p : Port) : (s.openedUnder p).port p = (s.port p).opened := State.setPort_port ..

/-- An opening that ends no sale: the permit consumed, DRAWER_OPENED raised. -/
theorem openUnderKick_plain {p : Port} {s : State} (hu : s.unbound) (hentry : s.lpm.entry = none)
    (hleaving : (s.port p).leaving = false)
    (hclose : (s.port p).kick = .entitlement → s.txn.state ≠ .settled ∨ s.txn.receiptDone = false) :
    openUnderKick raiseLoud p s =
      raiseQuiet (.drawerOpened (s.port p).tag p (s.port p).kick (s.port p).attempt) (s.openedUnder p) := by
  refine openUnderKick_eq hu ?_ (by rw [raiseQuiet_lpm, openedUnder_lpm, hentry])
    (by rw [port_raiseQuiet, openedUnder_port]; exact hleaving)
  unfold permitEnded
  split
  · next hk =>
    have htxn : (s.openedUnder p).txn = { s.txn with entitlement := none } := by
      unfold State.openedUnder
      rw [hk]
      cases p <;> rfl
    refine if_neg ?_
    rw [raiseQuiet_txn, htxn]
    rintro ⟨h1, h2, -⟩
    rcases hclose hk with h | h
    · exact h h1
    · simp [h] at h2
  · rfl

/-- A debounced sense of OPEN while a kick waits or has a retry pending opens the port under it (R135, R138, R139). -/
theorem senseDebounced_kick {p : Port} {s : State} (hd : (s.port p).deb ≠ none) (hp : (s.port p).present = true)
    (hh : (s.port p).held = some (!(s.port p).level)) (hopens : s.opens p (s.port p).level = true)
    (hm : ((s.port p).mode = .grantWait ∧ s.dsa.queue = [.port p]) ∨ (s.port p).mode = .waitOpen ∨
      ((s.port p).mode = .closed ∧ (s.port p).retry = true)) :
    senseDebounced raiseLoud p s = openUnderKick raiseLoud p ({ s with
      dsa.queue := if (s.port p).mode = PortMode.grantWait then [] else s.dsa.queue }.setPort p (s.port p).settled) := by
  have hmode (m : PortMode) (h : (s.port p).mode = m) : (s.port p).settled.mode = m := h
  rw [senseDebounced_changed hd hp hh, hopens, senseEvent, State.setPort_port]
  rcases hm with ⟨h, hqueue⟩ | h | ⟨h, hr⟩
  · rw [hmode _ h]
    simp only [h, if_true]
    rw [withdraw_one (by simpa using hqueue)]
    cases p <;> rfl
  · have hqueue : (if (s.port p).mode = PortMode.grantWait then [] else s.dsa.queue) = s.dsa.queue := if_neg (by simp [h])
    rw [hmode _ h, hqueue]
    rfl
  · have hqueue : (if (s.port p).mode = PortMode.grantWait then [] else s.dsa.queue) = s.dsa.queue := if_neg (by simp [h])
    have hretry : (s.port p).settled.retry = true := hr
    rw [hmode _ h, hqueue]
    simp only [Bool.not_true, Bool.false_eq_true, if_false, hretry, if_true]

/-- The link after the arbiter depends on the link, the report unit and the settings alone. -/
theorem arbitrate_link_congr (s t : State) (h1 : s.link = t.link) (h2 : s.rpt = t.rpt) (h3 : s.set = t.set) :
    (arbitrate s).link = (arbitrate t).link := by
  unfold arbitrate
  rw [h1, h3, h2]
  repeat' split
  all_goals first | exact h1 | rfl

/-- So does the link after a notice. -/
theorem raiseQuiet_link_congr (n : Notice) (s t : State) (h1 : s.link = t.link) (h2 : s.rpt = t.rpt) (h3 : s.set = t.set) :
    (raiseQuiet n s).link = (raiseQuiet n t).link := arbitrate_link_congr _ _ h1 (congrArg (Report.offer · n) h2) h3

/-- The lane once a sale without BOUND records is closed, before TXN_CLOSED (R103). -/
def State.saleClosed (s : State) : State := (clearTare (takeSnapshot false s)).emptied

/-- What a close leaves of the lane, from the sale and the card store it finds (R103, R106). -/
theorem saleClosed_effects {s x : State} (htxn : x.txn = { s.txn with entitlement := none }) (hcrd : x.crd = s.crd) :
    x.saleClosed.drw = x.drw ∧ x.saleClosed.txn = { Txn.reset with snap := some (makeSnapshot false s) } ∧
      x.saleClosed.wgt = { x.wgt with tare := 0, tareKind := .none } ∧
      x.saleClosed.bag = { x.bag with watch := .off, entries := [], hold := none } ∧
      x.saleClosed.sst = { x.sst with writes := x.sst.writes ++ [.marker false] } ∧
      (∀ c, x.saleClosed.card c = (s.card c).map fun r => r.judge x.saleClosed.txn) ∧
      x.saleClosed.link = x.link ∧ x.saleClosed.rpt = x.rpt ∧ x.saleClosed.set = x.set ∧ x.saleClosed.lpm = x.lpm := by
  have hsnap : makeSnapshot false x = makeSnapshot false s := by
    simp only [makeSnapshot, htxn, cardDetails_congr x s hcrd]
  refine ⟨rfl, ?_, rfl, rfl, rfl, fun c => ?_, rfl, rfl, rfl, rfl⟩
  · rw [State.saleClosed, emptied_txn]
    simp [clearTare, takeSnapshot, htxn, hsnap, Txn.reset]
  · have hcard : (clearTare (takeSnapshot false x)).card c = s.card c := by
      cases c <;> simp only [State.card, clearTare, takeSnapshot, hcrd]
    rw [State.saleClosed, emptied_card, hcard]

/-- The sale that ends with no record BOUND: its snapshot taken, the lists emptied, TXN_CLOSED raised (R102, R103). -/
theorem judgeClose_closes {s : State} (hu : s.unbound) (hstate : s.txn.state = .settled) (hdone : s.txn.receiptDone = true)
    (hent : s.txn.entitlement = none) (hbound : ∀ c r, s.card c = some r → r.bound = false) :
    judgeClose raiseLoud s =
      raiseQuiet (.txnClosed 0#8 .normal s.txn.id (total s.txn.items) s.txn.change s.txn.items.length)
        s.saleClosed := by
  rw [judgeClose, if_pos ⟨hstate, hdone, hent⟩, closeSale, closeEffects_eq, wipeAll_none, raiseLoud_unbound (by exact hu)]
  · rfl
  · exact fun c r hr => by simp [hbound c r (by cases c <;> exact hr)]

/-- The lane as a debounced sense of OPEN takes a port out of its attempt, before the permit is consumed. -/
def State.sensedOpen (s : State) (p : Port) : State :=
  { s with dsa.queue := if (s.port p).mode = PortMode.grantWait then [] else s.dsa.queue }.setPort p
    { (s.port p).opened with held := some (s.port p).level, deb := none }

theorem openedUnder_settled (s : State) (p : Port) :
    ({ s with dsa.queue := if (s.port p).mode = PortMode.grantWait then [] else s.dsa.queue }.setPort p
      (s.port p).settled).openedUnder p = endPermit (s.port p).kick (s.sensedOpen p) := by
  have hkick : (s.port p).settled.kick = (s.port p).kick := rfl
  rw [State.openedUnder, State.setPort_port, hkick]
  unfold State.sensedOpen endPermit
  cases (s.port p).kick <;> cases p <;> rfl

/-- Such a sense opens the port under its kick, where that ends no sale (R135, R138, R139). -/
theorem senseDebounced_plain {p : Port} {s : State} (hu : s.unbound) (hentry : s.lpm.entry = none)
    (hleaving : (s.port p).leaving = false) (hd : (s.port p).deb ≠ none) (hp : (s.port p).present = true)
    (hh : (s.port p).held = some (!(s.port p).level)) (hopens : s.opens p (s.port p).level = true)
    (hm : ((s.port p).mode = .grantWait ∧ s.dsa.queue = [.port p]) ∨ (s.port p).mode = .waitOpen ∨
      ((s.port p).mode = .closed ∧ (s.port p).retry = true))
    (hclose : (s.port p).kick = .entitlement → s.txn.state ≠ .settled ∨ s.txn.receiptDone = false) :
    senseDebounced raiseLoud p s =
      raiseQuiet (.drawerOpened (s.port p).tag p (s.port p).kick (s.port p).attempt)
        (endPermit (s.port p).kick (s.sensedOpen p)) := by
  rw [senseDebounced_kick hd hp hh hopens hm, openUnderKick_plain (setPort_unbound (by exact hu) _ _)
    (by simpa using hentry) (by rw [State.setPort_port]; exact hleaving)
    (by rw [State.setPort_port, State.setPort_txn]; exact hclose), openedUnder_settled, State.setPort_port]
  rfl

theorem opens_level {p : Port} {s : State} (h : (s.port p).level = if s.set.openLow p then false else true) :
    s.opens p (s.port p).level = true := by
  rw [State.opens, h]
  cases s.set.openLow p <;> rfl

/-- The first trip of the comparator breaks the pulse (R137). -/
theorem comparatorTrip_first {r : Raise} {p : Port} {s : State} (hm : (s.port p).mode = .kicking) (hon : (s.port p).on = true)
    (ht : (s.port p).trips = 0) (ha : s.set.autoResume ≠ 0) :
    comparatorTrip r p s = { s.setPort p { s.port p with on := false, broken := true, wait := 0, trips := 1 } with
      rpt.latched := s.rpt.latched.overcurrent p } := by
  rw [comparatorTrip, if_pos ⟨hm, hon⟩, overcurrentTrip, if_pos]
  · rw [modPort, ht]
    cases p <;> rfl
  · exact ⟨decide_eq_true ht, by cases p <;> exact ha⟩

/-- A debounced sense of OPEN that consumes the entitlement of a sale whose receipt is done closes it (R102). -/
theorem senseDebounced_closes {p : Port} {s x : State} (hu : s.unbound) (hentry : s.lpm.entry = none)
    (hleaving : (s.port p).leaving = false) (hd : (s.port p).deb ≠ none) (hp : (s.port p).present = true)
    (hh : (s.port p).held = some (!(s.port p).level)) (hopens : s.opens p (s.port p).level = true)
    (hm : ((s.port p).mode = .grantWait ∧ s.dsa.queue = [.port p]) ∨ (s.port p).mode = .waitOpen ∨
      ((s.port p).mode = .closed ∧ (s.port p).retry = true))
    (hk : (s.port p).kick = .entitlement) (hstate : s.txn.state = .settled) (hdone : s.txn.receiptDone = true)
    (hbound : ∀ c r, s.card c = some r → r.bound = false)
    (hx : raiseQuiet (.drawerOpened (s.port p).tag p .entitlement (s.port p).attempt)
      (endPermit .entitlement (s.sensedOpen p)) = x)
    (htxn : x.txn = { s.txn with entitlement := none }) (hcrd : x.crd = s.crd) :
    senseDebounced raiseLoud p s =
      raiseQuiet (.txnClosed 0#8 .normal s.txn.id (total s.txn.items) s.txn.change s.txn.items.length) x.saleClosed := by
  have hcard (c : CardSlot) : x.card c = s.card c := by cases c <;> simp only [State.card, hcrd]
  have hunbound : x.unbound := by
    rw [← hx]
    exact raiseQuiet_unbound (by cases p <;> exact hu) _
  have hlpm : x.lpm = s.lpm := by
    rw [← hx]
    exact (raiseQuiet_lpm ..).trans (State.setPort_lpm ..)
  have hport : x.port p = (s.sensedOpen p).port p := by
    rw [← hx, port_raiseQuiet]
    cases p <;> rfl
  have hkeep : x.saleClosed.port p = x.port p := by cases p <;> rfl
  rw [senseDebounced_kick hd hp hh hopens hm]
  refine openUnderKick_eq (setPort_unbound (by exact hu) _ _) ?_ ?_ ?_
  · rw [openedUnder_settled, State.setPort_port, show (s.port p).settled.kick = (s.port p).kick from rfl, hk]
    refine (congrArg (judgeClose raiseLoud) hx).trans ?_
    rw [judgeClose_closes hunbound (by rw [htxn]; exact hstate) (by rw [htxn]; exact hdone) (by rw [htxn])
      (fun c r hr => hbound c r ((hcard c).symm.trans hr)), htxn]
  · rw [raiseQuiet_lpm, (saleClosed_effects htxn hcrd).2.2.2.2.2.2.2.2.2, hlpm]
    exact hentry
  · rw [port_raiseQuiet, hkeep, hport]
    exact (congrArg PortState.leaving (State.setPort_port ..)).trans hleaving

/-- The lane as the on-time of a no-sale kick ends with an OPEN remembered, its grant returned and its guard started. -/
def State.pulseOpened (s : State) (p : Port) (q : PortState) : State :=
  raiseQuiet (.drawerOpened (s.port p).tag p .noSale (s.port p).attempt) ({ s with
    dsa.loads := [], wgt.actions := [], drw.noSale := none
    wgt.guard := some (max s.set.drawerGuard (s.wgt.guard.getD 0)) }.setPort p q)

/-- An OPEN remembered takes the port to OPEN at the on-time, and on to CLOSED where the sense has returned (R138). -/
theorem pulseOnTimeEnd_remembered {p : Port} {s : State} {q : PortState} (hu : s.unbound) (hcap : s.dsa.cap = s.set.capacity)
    (hentry : s.lpm.entry = none) (hm : (s.port p).mode = .kicking) (hon : (s.port p).on = true)
    (hk : (s.port p).kick = .noSale) (hleaving : (s.port p).leaving = false) (hrem : (s.port p).remembered = true)
    (hqueue : s.dsa.queue = []) (hloads : s.dsa.loads = [(.port p, 1500)]) (ha : s.wgt.actions = [.pulse p])
    (hg : s.set.drawerGuard ≠ 0) (hq : q = (s.port p).opened) :
    pulseOnTimeEnd raiseLoud p s = if s.sense p = some false then
        raiseQuiet (.drawerClosed p 0) ((s.pulseOpened p q).setPort p { q with mode := .closed })
      else s.pulseOpened p q := by
  obtain ⟨l, hl⟩ : ∃ l, leaveKicking raiseLoud p s = l := ⟨_, rfl⟩
  have hleave := hl.symm.trans (leaveKicking_one hcap hqueue hloads ha hg)
  have hport : l.port p = { s.port p with mode := .waitOpen, wait := 0, on := false, broken := false } := by
    rw [hleave, State.setPort_port]
  have hunbound : l.unbound := by
    rw [hleave]
    exact setPort_unbound (by exact hu) _ _
  have hopened : l.openedUnder p = { s with
      dsa.loads := [], wgt.actions := [], drw.noSale := none
      wgt.guard := some (max s.set.drawerGuard (s.wgt.guard.getD 0)) }.setPort p q := by
    rw [State.openedUnder, hport, hk, hleave, hq]
    cases p <;> rfl
  have hunder : openUnderKick raiseLoud p l = s.pulseOpened p q := by
    rw [openUnderKick_plain hunbound (by rw [hleave, State.setPort_lpm]; exact hentry) (by rw [hport]; exact hleaving)
      (by rw [hport]; simp [hk]), hopened, hport, hk]
    rfl
  have hq' : (s.pulseOpened p q).port p = q := by rw [State.pulseOpened, port_raiseQuiet, State.setPort_port]
  have hsense : (s.pulseOpened p q).sense p = s.sense p := by
    rw [State.sense, hq', State.pulseOpened, raiseQuiet_set, State.setPort_set, hq]
    rfl
  have hms : q.openMs = 0 := by rw [hq]; rfl
  have hmode : q.mode = .opened := by rw [hq]; rfl
  have hshut : closePort raiseLoud p (s.pulseOpened p q) =
      raiseQuiet (.drawerClosed p 0) ((s.pulseOpened p q).setPort p { q with mode := .closed }) := by
    have hunbound' : (s.pulseOpened p q).unbound := raiseQuiet_unbound (setPort_unbound (by exact hu) _ _) _
    have hclosed : ({ q with mode := .closed, openMs := 0 } : PortState) = { q with mode := .closed } := by rw [← hms]
    rw [closePort, modPort, hq', hms, raiseLoud_unbound (setPort_unbound hunbound' _ _), hclosed]
    rfl
  rw [pulseOnTimeEnd, if_pos ⟨hm, hon⟩, pulseEnd, hl, hport, if_pos hrem, openRemembered, hunder, hq', hsense, hshut, hmode]
  simp only [true_and]

/-- Settles O48, by the mode of the port and the event. -/
theorem attemptEvents : Obligations.AttemptEvents := by
  refine fun p s hu hline hcap => ⟨fun hm hk h3 hqueue => ?grantWait, fun hm hk h3 => ?openWait,
    fun hm hk h3 hentry => ?fault, fun hm hon hrem hqueue hloads ha hg => ?pulseEnd, fun hm hon ht ha => ?trip,
    fun hm hb => ?resumes, fun hm hr hqueue hroom => ?retries, fun hm => ?opened,
    fun q hentry hleaving hq => ⟨fun hp hd hh hl => ⟨fun hm => ?remembers, fun u hm hu' => ⟨fun hk => ?noSale, fun hk => ?ended,
      fun hk hx => ?entitled, fun hk hstate hdone hbound => ?closes⟩⟩,
      fun u hm hon hk hrem hqueue hloads ha hg hu' => ⟨fun hsense => ?stays, fun hsense => ?shuts⟩⟩⟩
  case grantWait =>
    show Host.Outcome.next (grantWaitTimeout raiseLoud p s) = _
    have hport : State.port { s with dsa.queue := [] } p = s.port p := by cases p <;> rfl
    rw [grantWaitTimeout, if_pos hm, grantWaitEnd, withdraw_one hqueue, failAttempt_retries (by rw [hport]; exact hk)
      (by rw [hport]; exact h3), raiseLoud_unbound (setPort_unbound (by exact hu) _ _), hport]
    rfl
  case openWait =>
    show Host.Outcome.next (openWaitTimeout raiseLoud p s) = _
    rw [openWaitTimeout, if_pos hm, failAttempt_retries hk h3, raiseLoud_unbound (setPort_unbound hu _ _)]
    rfl
  case fault =>
    have hdone : openWaitTimeout raiseLoud p s = raiseQuiet (.drawerFailed (s.port p).tag p .noSale .noOpen)
        (raiseQuiet (.drawerNoOpen (s.port p).tag p (s.port p).attempt .noOpen false)
          (endPermit .noSale (s.setPort p { (s.port p).failed .noOpen with
            mode := .fault, retry := false, kick := .none }))) := by
      have hu1 : (endPermit .noSale (s.setPort p { (s.port p).failed .noOpen with
          mode := .fault, retry := false, kick := .none })).unbound := by cases p <;> exact hu
      rw [openWaitTimeout, if_pos hm, failAttempt_fault hk h3, raiseLoud_unbound hu1,
        raiseLoud_unbound (raiseQuiet_unbound hu1 _), judgeEntry_none (by cases p <;> simpa [endPermit] using hentry)]
    refine ⟨_, congrArg Host.Outcome.next hdone, ?_⟩
    rw [port_raiseQuiet, port_raiseQuiet, raiseQuiet_drw, raiseQuiet_drw, raiseQuiet_txn, raiseQuiet_txn]
    cases p <;> exact ⟨rfl, rfl, rfl, rfl, rfl⟩
  case pulseEnd =>
    show Host.Outcome.next (pulseOnTimeEnd raiseLoud p s) = _
    rw [pulseOnTimeEnd, if_pos ⟨hm, hon⟩, pulseEnd, leaveKicking_one hcap hqueue hloads ha hg, State.setPort_port,
      if_neg (by simp [hrem])]
  case trip =>
    refine ⟨_, congrArg Host.Outcome.next (comparatorTrip_first hm hon ht ha), ?_⟩
    cases p <;> exact ⟨rfl, rfl, rfl, rfl, rfl⟩
  case resumes =>
    show Host.Outcome.next (breakEnd raiseLoud p true s) = _
    rw [breakEnd, if_pos ⟨hm, hb⟩]
    rfl
  case retries =>
    show Host.Outcome.next (retryWaitEnd raiseLoud p s) = _
    rw [retryWaitEnd, if_pos ⟨hm, hr⟩, startAttempt, askGrant, modPort, scan_blocked (p := p)]
    · cases p <;> simp [State.setPort, hqueue]
    · simp [hqueue]
    · cases p <;> exact hroom
  case opened =>
    have h1 : grantWaitTimeout raiseLoud p s = s := if_neg (by simp [hm])
    have h2 : openWaitTimeout raiseLoud p s = s := if_neg (by simp [hm])
    have h3 : pulseOnTimeEnd raiseLoud p s = s := if_neg (by simp [hm])
    have h4 : comparatorTrip raiseLoud p s = s := if_neg (by simp [hm])
    have h5 : breakEnd raiseLoud p false s = s := if_neg (by simp [hm])
    have h6 : retryWaitEnd raiseLoud p s = s := if_neg (by simp [hm])
    exact ⟨congrArg _ h1, congrArg _ h2, congrArg _ h3, congrArg _ h4, congrArg _ h5, congrArg _ h6⟩
  case remembers =>
    show Host.Outcome.next (senseDebounced raiseLoud p s) = _
    have hmode : (s.port p).settled.mode = .kicking := hm
    rw [senseDebounced_changed hd hp hh, opens_level hl, senseEvent, State.setPort_port, hmode]
    simp only [if_true, modPort, State.setPort_port, setPort_setPort]
    rfl
  case noSale =>
    show Host.Outcome.next (senseDebounced raiseLoud p s) = _
    rw [senseDebounced_plain hu hentry hleaving hd hp hh (opens_level hl) hm (by simp [hk]), hk, hu', hq]
    rfl
  case ended =>
    show Host.Outcome.next (senseDebounced raiseLoud p s) = _
    rw [senseDebounced_plain hu hentry hleaving hd hp hh (opens_level hl) hm (by simp [hk]), hk, hu', hq]
    rfl
  case entitled =>
    show Host.Outcome.next (senseDebounced raiseLoud p s) = _
    rw [senseDebounced_plain hu hentry hleaving hd hp hh (opens_level hl) hm (fun _ => hx), hk, hu', hq]
    rfl
  case closes =>
    obtain ⟨n, hn⟩ : ∃ n, n = Notice.drawerOpened (s.port p).tag p .entitlement (s.port p).attempt := ⟨_, rfl⟩
    obtain ⟨x, hx⟩ : ∃ x, raiseQuiet n (endPermit .entitlement (s.sensedOpen p)) = x := ⟨_, rfl⟩
    have htxn : x.txn = { s.txn with entitlement := none } := by
      rw [← hx]
      exact (raiseQuiet_txn ..).trans (congrArg (fun t : Txn => { t with entitlement := none }) (State.setPort_txn ..))
    have hcrd : x.crd = s.crd := by
      rw [← hx]
      exact (raiseQuiet_crd ..).trans (State.setPort_crd ..)
    obtain ⟨edrw, etxn, ewgt, ebag, esst, ecard, elink, erpt, eset, -⟩ := saleClosed_effects htxn hcrd
    refine ⟨_, congrArg Host.Outcome.next (senseDebounced_closes hu hentry hleaving hd hp hh (opens_level hl) hm hk hstate
      hdone hbound (hn ▸ hx) htxn hcrd), ?_, ?_, ?_, ?_, ?_, fun c => ?_, ?_⟩
    · rw [raiseQuiet_drw, edrw, ← hx, raiseQuiet_drw, hu', hq]
      rfl
    · rw [raiseQuiet_txn, etxn]
    · rw [raiseQuiet_wgt, ewgt, ← hx, raiseQuiet_wgt, show (endPermit .entitlement (s.sensedOpen p)).wgt = s.wgt from
        State.setPort_wgt ..]
    · rw [raiseQuiet_bag, ebag, ← hx, raiseQuiet_bag, show (endPermit .entitlement (s.sensedOpen p)).bag = s.bag from
        State.setPort_bag ..]
    · rw [raiseQuiet_sst, esst, ← hx, raiseQuiet_sst, show (endPermit .entitlement (s.sensedOpen p)).sst = s.sst from
        State.setPort_sst ..]
    · rw [card_raiseQuiet, raiseQuiet_txn, ecard]
    · rw [← hn]
      refine raiseQuiet_rpt_congr _ _ _ (elink.trans ?_) (erpt.trans ?_) (eset.trans ?_)
      · rw [← hx]
        exact raiseQuiet_link_congr _ _ _ (State.setPort_link ..) (State.setPort_rpt ..) (State.setPort_set ..)
      · rw [← hx]
        exact raiseQuiet_rpt_congr _ _ _ (State.setPort_link ..) (State.setPort_rpt ..) (State.setPort_set ..)
      · rw [← hx, raiseQuiet_set, raiseQuiet_set]
        exact State.setPort_set ..
  case stays =>
    show Host.Outcome.next (pulseOnTimeEnd raiseLoud p s) = _
    have hopened : s.pulseOpened p q = u := hu'.symm
    rw [pulseOnTimeEnd_remembered hu hcap hentry hm hon hk hleaving hrem hqueue hloads ha hg hq, hopened,
      if_neg (by simp [hsense])]
  case shuts =>
    show Host.Outcome.next (pulseOnTimeEnd raiseLoud p s) = _
    have hopened : s.pulseOpened p q = u := hu'.symm
    rw [pulseOnTimeEnd_remembered hu hcap hentry hm hon hk hleaving hrem hqueue hloads ha hg hq, hopened, if_pos hsense]

end Sys2Proof.Machine
end

