-- ==== Sys2Proof/Proofs/Power/Store.lean ====
section
/-! PROOFS. The writes of the settings store and the lane's power states (sections 10.2, 11.5 and 11.6). -/

namespace Sys2Proof.Machine

/-! ### The writes of the store (R86, R87, R194, R195) -/

/-- A request that waits for its write is answered OK (R9, R194). -/
theorem finishHeld_answers {q : Request} {code : Byte} {s : State} (hsoft : s.link.softReset = false)
    (hexec : s.link.inExec = some q) (hcode : q.code = code) :
    finishHeld code s = placeReply { tag := q.tag, code := code, status := .ok, data := [], baud := none }
      { s with link.inExec := none } := by
  subst hcode
  simp only [finishHeld, hexec, if_true, finish_plain hsoft, Request.reply]

theorem placeReply_sst (p : Reply) (s : State) : (placeReply p s).sst = s.sst := by
  obtain ⟨l, q, h⟩ := arbitrate_eq { s with link.replies := s.link.replies ++ [p] }
  rw [placeReply, h]

/-- The settings block written answers the SET_SAVE in execution (R194). -/
theorem settingsWritten_answers {q : Request} {rest : List StoreWrite} {s : State} (hsoft : s.link.softReset = false)
    (hw : s.sst.writes = .settings :: rest) (hexec : s.link.inExec = some q) (hcode : q.code = 0x12#8) :
    settingsWritten s = placeReply { tag := q.tag, code := 0x12#8, status := .ok, data := [], baud := none }
      { s with
        link.inExec := none, sst.writes := rest, sst.block := s.set, sst.blockCrc := crc16 s.set.bytes } := by
  simp only [settingsWritten, hw]
  exact finishHeld_answers (s := { s with
    sst.writes := rest, sst.block := s.set, sst.blockCrc := crc16 s.set.bytes }) hsoft hexec hcode

/-- Settles O19, by the write at the head of the store's list. -/
theorem storeWritesCompleted : Obligations.StoreWritesCompleted := by
  refine ⟨fun tag s hs => ?save, fun s hsoft => ⟨fun q rest hw hexec hcode => ?settings, fun hw => ?noSettings,
    fun q rest hw hexec hcode => ?markerSet, fun rest hw => ?markerClear, fun h1 h2 => ?noMarker⟩,
    fun o count c0 k rest s hu hw hop => ?calibration⟩
  case save =>
    show accept (.setSave tag) actSetSave s = _
    rw [accept_ready (i := .setSave tag) rfl rfl hs]
    rfl
  case settings =>
    refine ⟨_, congrArg Host.Outcome.next (settingsWritten_answers hsoft hw hexec hcode), rfl, ?_⟩
    simp [placeReply_sst, Store.blockGood]
  case noSettings =>
    show Host.Outcome.next (settingsWritten s) = _
    unfold settingsWritten
    split
    · next h => simp [h] at hw
    · rfl
  case markerSet =>
    show Host.Outcome.next (markerWritten s) = _
    simp only [markerWritten, hw, if_true]
    exact congrArg _ (finishHeld_answers (s := { s with sst.writes := rest, sst.marker := true }) hsoft hexec hcode)
  case markerClear =>
    show Host.Outcome.next (markerWritten s) = _
    simp only [markerWritten, hw, Bool.false_eq_true, if_false]
  case noMarker =>
    show Host.Outcome.next (markerWritten s) = _
    unfold markerWritten
    split
    · next b rest h => cases b <;> simp [h] at h1 h2
    · rfl
  case calibration =>
    have hdone : calibrationWritten raiseLoud s =
        raiseQuiet (.calDone o.tag .p o.kind.isSpan .ok s.wgt.chanP.c0 s.wgt.chanP.k s.sst.count)
          { s with
            sst.writes := rest
            sst.storedCount := count
            sst.countCrc := crc16 (be16 count)
            sst.calP := CalBlock.seal c0 k
            wgt.chanP.op := none } := by
      simp only [calibrationWritten, hw, State.chan, hop]
      rw [calEnds_eq (by exact hu)]
      rfl
    refine ⟨_, congrArg Host.Outcome.next hdone, rfl, ?_, ?_, ?_, ?_⟩
    · simp [Store.countGood]
    · simp [CalBlock.good, CalBlock.seal, CalBlock.bytes]
    · simp [CalBlock.seal]
    · simp [CalBlock.seal]

/-! ### Entry into a power state (R181, R182, R184) -/

/-- A notice changes the link and the report unit alone. -/
theorem raiseQuiet_rest (n : Notice) (s : State) : ∃ l q, raiseQuiet n s = { s with link := l, rpt := q } := by
  obtain ⟨l, q, k, x, h⟩ := raiseQuiet_eq n s
  exact ⟨l, _, h⟩

theorem raiseAll_rest (l : List Notice) (s : State) : ∃ k q, raiseAll l s = { s with link := k, rpt := q } := by
  induction l generalizing s with
  | nil => exact ⟨s.link, s.rpt, rfl⟩
  | cons n l ih =>
    obtain ⟨k, q, h⟩ := raiseQuiet_rest n s
    obtain ⟨k', q', h'⟩ := ih (raiseQuiet n s)
    refine ⟨k', q', h'.trans ?_⟩
    rw [h]

/-- A reply placed changes the link, the idle timer and the report unit alone. -/
theorem answered_rest (u : State) (tag code : Byte) (st : Status) (data : List Byte) :
    ∃ l q, u.answered tag code st data = { u with lpm.idle := 0, link := l, rpt := q } := by
  obtain ⟨l, q, h⟩ := arbitrate_eq { u with
    lpm.idle := 0
    link.replies := u.link.replies ++ [{ tag := tag, code := code, status := st, data := data, baud := none }] }
  exact ⟨l, _, h⟩

/-- The lane as DORMANT is entered, before its notices (R21, R38, R110, R181). -/
def State.dormant (s : State) : State :=
  stopAttempts (readerTo .disarmed { stopChannel .b (stopChannel .p s) with
    lpm.mode := .dormant, lpm.entry := none, lpm.gEntry := none
    wgt.conv := .off, wgt.warmAge := 0, wgt.stream := none })

/-- The notice of an attempt that an entry into DORMANT ends, if it ran (R38). -/
def attemptNotice (ch : Channel) : InitZero → List Notice
  | .running _ => [.zeroFailed 0#8 ch .noStable 0]
  | _ => []

/-- The notices of the attempts that an entry into DORMANT ends (R38). -/
def State.attemptNotices (s : State) : List Notice :=
  attemptNotice .p s.wgt.chanP.init ++ attemptNotice .b s.wgt.chanB.init

theorem reportStopped_loud {s : State} (h : s.unbound) (ch : Channel) (x : InitZero) :
    reportStopped raiseLoud ch x s = raiseAll (attemptNotice ch x) s := by
  cases x with
  | running age => exact raiseLoud_unbound h _
  | waiting => rfl
  | ended x => rfl

/-- Once start-up has ended, an entry into DORMANT reports the attempts it ends, and PWR_STATE last (R38, R181). -/
theorem enterPower_dormant {tag : Byte} {c : PowerCause} {s : State} (hu : s.unbound) (hs : s.sst.started = true) :
    enterPower raiseLoud .dormant tag c s =
      raiseQuiet (.pwrState tag .entered .dormant c) (raiseAll s.attemptNotices s.dormant) := by
  have hu' : s.dormant.unbound := hu
  have hreports : reportStopped raiseLoud .b s.wgt.chanB.init (reportStopped raiseLoud .p s.wgt.chanP.init s.dormant) =
      raiseAll s.attemptNotices s.dormant := by
    rw [reportStopped_loud hu', reportStopped_loud (raiseAll_keeps _ hu').1]
    exact (List.foldl_append ..).symm
  have hstarted : s.dormant.sst.started = true := hs
  refine Eq.trans (b := raiseLoud (.pwrState tag .entered .dormant c) (if s.dormant.sst.started = true then
    reportStopped raiseLoud .b s.wgt.chanB.init (reportStopped raiseLoud .p s.wgt.chanP.init s.dormant)
    else judgeStarted raiseLoud s.dormant)) rfl ?_
  rw [if_pos hstarted, hreports, raiseLoud_unbound (raiseAll_keeps _ hu').1]

/-- What DORMANT leaves of a channel (R21, R31, R41). -/
theorem dormant_chan (s : State) (ch : Channel) : (s.dormant.chan ch).d = none ∧ (s.dormant.chan ch).stable = false ∧
    (s.dormant.chan ch).win = [] ∧ (s.dormant.chan ch).stab = [] ∧ (s.dormant.chan ch).zw = (s.chan ch).zw ∧
    (s.dormant.chan ch).k = (s.chan ch).k := by
  cases ch <;> exact ⟨rfl, rfl, rfl, rfl, rfl, rfl⟩

/-- Settles O21, by the entry into DORMANT. -/
theorem dormantEntered : Obligations.DormantEntered := by
  refine fun tag s hs hu hstarted hblock hwork => ?_
  obtain ⟨e, he⟩ : ∃ e, e = s.executing { tag := tag, code := 0x06#8, payload := [] } := ⟨_, rfl⟩
  obtain ⟨x, hx⟩ : ∃ x, raiseQuiet (.pwrState tag .entered .dormant .request) (raiseAll e.attemptNotices e.dormant) = x :=
    ⟨_, rfl⟩
  have hask : askEntry raiseLoud .dormant tag .request e = (x, .ok) := by
    have hactive : e.lpm.mode = .active := by rw [he]; exact hs.2.1
    have hentry : e.lpm.entry = none := by rw [he]; exact hs.2.2
    have hu' : e.unbound := by rw [he]; exact hu
    have hstarted' : e.sst.started = true := by rw [he]; exact hstarted
    rw [askEntry_now hactive (by decide) hentry (by rw [he]; exact hblock) (by rw [he]; exact hwork),
      enterPower_dormant hu' hstarted', hx]
  obtain ⟨l, q, hrest⟩ : ∃ l q, x = { e.dormant with link := l, rpt := q } := by
    obtain ⟨l, q, h⟩ := raiseAll_rest e.attemptNotices e.dormant
    obtain ⟨l', q', h'⟩ := raiseQuiet_rest (.pwrState tag .entered .dormant .request) (raiseAll e.attemptNotices e.dormant)
    refine ⟨l', q', hx.symm.trans (h'.trans ?_)⟩
    rw [h]
  have hact : actDormant tag raiseLoud e = (x, .reply .ok [2#8] none) := by
    rw [actDormant, hask, hrest]
    rfl
  have hsoft : x.link.softReset = s.link.softReset := by
    rw [← hx, raiseQuiet_softReset, (raiseAll_keeps e.attemptNotices (s := e.dormant) (by rw [he]; exact hu)).2.2.2.2, he]
    rfl
  rw [he] at hact
  obtain ⟨l', q', ht⟩ := answered_rest { x with link.inExec := none } tag 0x06#8 .ok [2#8]
  refine ⟨_, exec_answers_some rfl rfl hs hact hsoft (by rw [hrest, he]; rfl), ?_⟩
  rw [ht, hrest, he]
  exact ⟨rfl, rfl, rfl, rfl, rfl, rfl, fun ch => dormant_chan s ch, rfl, rfl, rfl, rfl, rfl, rfl, rfl⟩

end Sys2Proof.Machine
end

