-- ==== Sys2Proof/Proofs/Power/Entries.lean ====
section
/-! PROOFS. Entries into STANDBY and DORMANT, pending entries and the idle timer (section 10.2). -/

namespace Sys2Proof.Machine

/-! ### The idle timer (R184) -/

/-- Settles O23, by what the entry it asks for draws. -/
theorem idleTimerExpires : Obligations.IdleTimerExpires := by
  refine fun s hu hentry => ⟨fun hruns hblock hwork => ?now, fun hruns hblock hwork => ?later,
    fun st hruns hblock => ?refused, fun hruns => ?idle⟩
  case idle =>
    show Host.Outcome.next (idleTimerExpiry raiseLoud s) = _
    rw [idleTimerExpiry, hruns, if_neg (by decide)]
  all_goals
    have hactive : s.lpm.mode = .active := by
      simp only [State.idleRuns, Bool.and_eq_true, decide_eq_true_eq] at hruns
      exact hruns.1.1.1
    show Host.Outcome.next (idleTimerExpiry raiseLoud s) = _
    rw [idleTimerExpiry, if_pos hruns, idleExpired]
  case now => rw [askEntry_now hactive (by decide) hentry hblock hwork, enterPower_standby hu hentry]
  case later => rw [askEntry_later hactive (by decide) hentry hblock hwork]
  case refused => rw [askEntry_refused hactive (by decide) hentry hblock]

/-! ### The checks of an entry (R182) -/

theorem shut_iff (q : PortState) : q.shut = true ↔ (q.present = true → q.mode = .closed ∧ q.retry = false) := by
  unfold PortState.shut
  cases q.present <;> cases q.retry <;> simp

theorem kicking_iff (q : PortState) : q.kicking = false ↔
    q.retry = false ∧ q.mode ≠ .grantWait ∧ q.mode ≠ .kicking ∧ q.mode ≠ .waitOpen := by
  unfold PortState.kicking
  split <;> next h => simp_all

theorem forall_port {P : Port → Prop} : (∀ p, P p) ↔ P .d1 ∧ P .d2 :=
  ⟨fun h => ⟨h .d1, h .d2⟩, fun h p => match p with | .d1 => h.1 | .d2 => h.2⟩

theorem forall_channel {P : Channel → Prop} : (∀ ch, P ch) ↔ P .p ∧ P .b :=
  ⟨fun h => ⟨h .p, h .b⟩, fun h ch => match ch with | .p => h.1 | .b => h.2⟩

/-- Check 5: no card record, and every port present at rest. -/
def State.atRest (s : State) : Prop :=
  s.crd.one = none ∧ s.crd.two = none ∧ ∀ p, (s.port p).present = true → (s.port p).mode = .closed ∧ (s.port p).retry = false

theorem atRest_iff (s : State) :
    s.atRest ↔ (s.crd.one.isSome || s.crd.two.isSome || !s.drw.d1.shut || !s.drw.d2.shut) = false := by
  rw [State.atRest, forall_port, show s.port .d1 = s.drw.d1 from rfl, show s.port .d2 = s.drw.d2 from rfl, ← shut_iff,
    ← shut_iff]
  cases s.crd.one <;> cases s.crd.two <;> simp

theorem not_atRest {s : State} (h : s.crd.one ≠ none ∨ s.crd.two ≠ none ∨ ∃ p, (s.port p).present = true ∧
    ((s.port p).mode ≠ .closed ∨ (s.port p).retry = true)) : ¬ s.atRest := by
  rintro ⟨h1, h2, h3⟩
  rcases h with h | h | ⟨p, hp, h⟩
  · exact h h1
  · exact h h2
  · obtain ⟨hm, hr⟩ := h3 p hp
    rcases h with h | h
    · exact h hm
    · simp [hr] at h

/-- Checks 4 to 6 draw the same refusal (R182). -/
theorem entryBlock_state {m : PowerMode} {s : State}
    (h : s.txn.state ≠ .idle ∨ (m = .dormant ∧ ¬ s.atRest) ∨ s.pen.mode = .fault) :
    entryBlock m s = some .refusedState := by
  unfold entryBlock
  rw [atRest_iff, Bool.not_eq_false] at h
  split
  · rfl
  · next hidle =>
    split
    · rfl
    · next hrest =>
      rcases h with h | h | h
      · exact absurd h hidle
      · exact absurd h hrest
      · exact if_pos h

/-- Where they hold, check 7 is left: an operation slot held or a write of the store (R182). -/
theorem entryBlock_busy {m : PowerMode} {s : State} (hidle : s.txn.state = .idle) (hrest : m = .dormant → s.atRest)
    (hfault : s.pen.mode ≠ .fault) :
    entryBlock m s = if s.wgt.chanP.op.isSome || s.wgt.chanB.op.isSome || !s.sst.writes.isEmpty then some .refusedBusy
      else none := by
  have hcheck : ¬ (m = .dormant ∧
      (s.crd.one.isSome || s.crd.two.isSome || !s.drw.d1.shut || !s.drw.d2.shut) = true) := by
    rintro ⟨hm, h⟩
    rw [(atRest_iff s).mp (hrest hm)] at h
    exact Bool.false_ne_true h
  rw [entryBlock, if_neg (by simp [hidle]), if_neg hcheck, if_neg hfault]

/-- Check 8 is that no work is under way (R182). -/
theorem workDone_iff (s : State) : workDone s = true ↔ s.job.table = [] ∧ s.pen.mode = .idle ∧
    ∀ p, (s.port p).retry = false ∧ (s.port p).mode ≠ .grantWait ∧ (s.port p).mode ≠ .kicking ∧ (s.port p).mode ≠ .waitOpen := by
  rw [forall_port, show s.port .d1 = s.drw.d1 from rfl, show s.port .d2 = s.drw.d2 from rfl, ← kicking_iff, ← kicking_iff]
  simp [workDone, and_assoc]

/-! ### Pending entries (R183) -/

/-- A check that fails when the work is done cancels the entry (R183). -/
theorem judgeEntry_lost {e : PendingEntry} {st : Status} {s : State} (hu : s.unbound) (he : s.lpm.entry = some e)
    (hwork : workDone s = true) (hblock : entryBlock e.target s = some st) :
    judgeEntry raiseLoud s =
      raiseQuiet (.pwrState e.tag .cancelled s.lpm.mode .lost) { s with lpm.entry := none } := by
  simp only [judgeEntry, he, hwork, if_true, hblock, cancelEntry]
  exact raiseLoud_unbound (by exact hu) _

/-- With every check it is taken (R183). -/
theorem judgeEntry_taken {r : Raise} {e : PendingEntry} {s : State} (he : s.lpm.entry = some e) (hwork : workDone s = true)
    (hblock : entryBlock e.target s = none) : judgeEntry r s = enterPower r e.target e.tag e.cause s := by
  simp only [judgeEntry, he, hwork, if_true, hblock]

/-- While work is left it stays (R183). -/
theorem judgeEntry_waits {r : Raise} {s : State} (hwork : workDone s = false) : judgeEntry r s = s := by
  unfold judgeEntry
  split
  · rfl
  · rw [hwork, if_neg (by decide)]

/-- STANDBY taken by a pending entry (R181, R183). -/
theorem judgeEntry_standby {e : PendingEntry} {s : State} (hu : s.unbound) (he : s.lpm.entry = some e)
    (hwork : workDone s = true) (htarget : e.target = .standby) (hblock : entryBlock .standby s = none) :
    judgeEntry raiseLoud s = raiseQuiet (.pwrState e.tag .entered .standby e.cause) { s with
      lpm.mode := .standby, lpm.entry := none
      lpm.gEntry := if s.wgt.chanP.hasValue then some s.wgt.chanP.g else none } := by
  rw [judgeEntry_taken he hwork (by rw [htarget]; exact hblock), htarget]
  exact raiseLoud_unbound (by exact hu) _

/-! ### The ends of work that a pending entry waits for (R139, R171, R183) -/

/-- The lane as a dot line ends: its allocation released. -/
def State.lineEnded (s : State) (mv : Nat) : State := { s with dsa.mv := mv, dsa.loads := [], pen.line := none }

/-- The end of the only load's line whose step disturbed nothing, in the middle of a segment or at its end. -/
theorem lineEnd_released {r : Raise} {mv m : Nat} {l : DotLine} {w : Work} {g : Seg} {rest : List Seg} {s : State}
    (hline : s.pen.line = some l) (hw : s.pen.work = some w) (hsegs : w.segs = g :: rest)
    (hloads : s.dsa.loads = [(.line, m)]) (hcap : s.dsa.cap = s.set.capacity) (ha : Action.line ∉ s.wgt.actions)
    (ht : s.turned w = none) :
    lineEnd r mv s =
      if g.height ≤ w.row + 1 then
        let t := countLine w g (endFeedAction r (s.lineEnded mv))
        if g.cutKind.isSome then enterCutting r { t with pen.work := some { w with row := w.row + 1 } }
        else boundary r { t with pen.work := some { w with segs := rest, row := 0 } }
      else boundary r { s.lineEnded mv with pen.work := some { w with row := w.row + 1 } } := by
  have hrelease : releaseLoad .line { { s with dsa.mv := mv } with pen.line := none } = s.lineEnded mv := by
    have hnone : s.dsa.loads.filter (fun l => l.1 != .line) = [] := by simp [hloads]
    simp only [releaseLoad, hnone]
    exact settleCap_same (by exact hcap)
  have hend : disturbEnd r .line (s.lineEnded mv).set.printGuard (s.lineEnded mv) = s.lineEnded mv := if_neg ha
  have hturned : (s.lineEnded mv).turned w = none := ht
  rw [lineEnd_eq hline hw]
  simp only
  rw [hrelease, hend, hturned, hsegs]
  by_cases hdone : g.height ≤ w.row + 1
  · simp [hdone]
  · simp [hdone]

/-- An engine with no work and no one waiting is IDLE, and a pending entry is judged (R152, R183). -/
theorem atBoundary_rest {r : Raise} {k : Nat} {s : State} (hw : s.pen.work = none)
    (hm : s.pen.mode = .printing ∨ s.pen.mode = .idle) (hqueue : s.dsa.queue = []) (ht : s.job.table = []) :
    atBoundary r (k + 1) s = judgeEntry r { s with pen.mode := .idle } := by
  rw [atBoundary]
  simp only [hw, if_pos hm]
  rw [scan_nil (by exact hqueue)]
  simp only [judgeHead, ht, List.head?_nil]

/-- The last line of a feed (R164, R171). -/
theorem lineEnd_feed {r : Raise} {mv m n : Nat} {l : DotLine} {s : State} (hline : s.pen.line = some l) (hn : 1 ≤ n)
    (hw : s.pen.work = some { owner := .feed, current := .none, segs := [.feed n], row := n - 1 })
    (hloads : s.dsa.loads = [(.line, m)]) (hcap : s.dsa.cap = s.set.capacity) (ha : Action.line ∉ s.wgt.actions) :
    lineEnd r mv s = boundary r { endFeedAction r (s.lineEnded mv) with
      pen.work := some { owner := .feed, current := .none, segs := [], row := 0 } } := by
  rw [lineEnd_released hline hw rfl hloads hcap ha (turned_feed rfl), if_pos (by simp [Seg.height]; omega)]
  rfl

/-- With no action under way the feed's last line leaves the engine at rest, where a pending entry is judged. -/
theorem lineEnd_feed_calm {r : Raise} {mv m n : Nat} {l : DotLine} {s : State} (hline : s.pen.line = some l) (hn : 1 ≤ n)
    (hw : s.pen.work = some { owner := .feed, current := .none, segs := [.feed n], row := n - 1 })
    (hloads : s.dsa.loads = [(.line, m)]) (hcap : s.dsa.cap = s.set.capacity) (ha : s.wgt.actions = [])
    (hqueue : s.dsa.queue = []) (ht : s.job.table = []) (hm : s.pen.mode = .printing) :
    lineEnd r mv s = judgeEntry r { s with
      pen.mode := .idle, pen.work := none, pen.line := none, dsa.loads := [], dsa.mv := mv } := by
  have hcalm : endFeedAction r (s.lineEnded mv) = s.lineEnded mv := if_neg (by simp [State.lineEnded, ha])
  rw [lineEnd_feed hline hn hw hloads hcap (by simp [ha]), hcalm, boundary_eq, atBoundary]
  simp only [turned_feed]
  rw [atBoundary_rest rfl (.inl (by exact hm)) (by exact hqueue) (by exact ht)]
  rfl

/-- An opening under a no-sale kick, where a pending entry is judged. -/
theorem openUnderKick_noSale {p : Port} {s : State} (hu : s.unbound) (hk : (s.port p).kick = .noSale)
    (hleaving : (s.port p).leaving = false) :
    openUnderKick raiseLoud p s = judgeEntry raiseLoud
      (raiseQuiet (.drawerOpened (s.port p).tag p .noSale (s.port p).attempt) (s.openedUnder p)) := by
  have hu' : (s.openedUnder p).unbound := by
    unfold State.openedUnder endPermit
    cases (s.port p).kick <;> cases p <;> exact hu
  have hraised := raiseLoud_unbound hu' (.drawerOpened (s.port p).tag p .noSale (s.port p).attempt)
  have hopen : (endPermit .noSale s).setPort p (s.port p).opened = s.openedUnder p := by rw [State.openedUnder, hk]
  have hsettle : ((raiseQuiet (.drawerOpened (s.port p).tag p .noSale (s.port p).attempt) (s.openedUnder p)).port p).settle =
      (raiseQuiet (.drawerOpened (s.port p).tag p .noSale (s.port p).attempt) (s.openedUnder p)).port p := by
    rw [PortState.settle, if_neg]
    rw [port_raiseQuiet, openedUnder_port]
    simp [PortState.opened, hleaving]
  simp only [openUnderKick, hk, hopen, hraised]
  rw [permitEnded, if_neg (by decide), modPort, hsettle]
  cases p <;> rfl

/-! ### Requests on a free link, in any power state (R9, R183, R185) -/

/-- A request command with the lengths of Table 1-4, on a free link, is executed at once (R6, R8, R9). -/
theorem exec_free {i : Instr} {tag code : Byte} {payload : List Byte} {s : State} (hw : i.wf = true)
    (he : encodeRequest i = some (tag, code, payload)) (h : s.linkFree) :
    exec i s = .next (execute raiseLoud { tag := tag, code := code, payload := payload } (requestAction i) s) := by
  rw [exec_request_eq he]
  exact accept_free hw he h

theorem raiseQuiet_places (n : Notice) (s : State) : (raiseQuiet n s).link.placesInUse ≤ s.link.placesInUse := by
  rcases arbitrate_cases { s with rpt := s.rpt.offer n } with h | ⟨p, rest, hr, h⟩ | ⟨body, hr, _, _, h⟩ | ⟨q, rest, hr, _, _, h⟩
  all_goals rw [raiseQuiet, h]
  case inr.inl =>
    have hreplies : s.link.replies = p :: rest := hr
    simp only [Link.placesInUse, hreplies, List.length_cons, TxFrame.make, Reply.frame]
    split <;> simp only [if_true] <;> omega
  all_goals
    simp [Link.placesInUse, TxFrame.make]

/-- A notice leaves a free link free. -/
theorem raiseQuiet_linkFree {n : Notice} {s : State} (h : s.linkFree) : (raiseQuiet n s).linkFree := by
  obtain ⟨hrx, hexec, hqueue, hplaces, hsoft⟩ := h
  refine ⟨?_, ?_, ?_, Nat.lt_of_le_of_lt (raiseQuiet_places n s) hplaces, ?_⟩
  · rwa [raiseQuiet_rx]
  · rwa [raiseQuiet_inExec]
  · rwa [raiseQuiet_requests]
  · rwa [raiseQuiet_softReset]

theorem wakeFor_active {r : Raise} {q : Request} {s : State} (h : s.lpm.mode = .active) :
    wakeFor r q s = { s with lpm.idle := 0 } := by
  unfold wakeFor
  split
  · exact wake_active (by exact h)
  · rfl

/-- A request that is accepted cancels a pending entry before it has its effect (R183). -/
theorem execute_cancels {q : Request} {act : Act} {e : PendingEntry} {s : State} (hu : s.unbound)
    (hm : s.lpm.mode = .active) (he : s.lpm.entry = some e) (hc : cancelsEntry q.code = true)
    (ha : (act raiseLoud { s with link.inExec := some q, lpm.entry := none, lpm.idle := 0 }).2.accepted = true) :
    execute raiseLoud q act s =
      execute raiseLoud q act (raiseQuiet (.pwrState e.tag .cancelled .active .work) { s with lpm.entry := none }) := by
  have hcancel : cancelFor raiseLoud q act (s.executing q) =
      raiseQuiet (.pwrState e.tag .cancelled .active .work) { s.executing q with lpm.entry := none } := by
    have hcond : (s.lpm.entry.isSome && cancelsEntry q.code && (act raiseLoud { s with
        link.inExec := some q, lpm.entry := none, lpm.idle := 0 }).2.accepted) = true := by simp [he, hc, ha]
    refine (if_pos hcond).trans ?_
    simp only [cancelEntry, he, hm]
    exact raiseLoud_unbound (by exact hu) _
  rw [execute, wakeFor_active (by exact hm), execute_active (by rw [raiseQuiet_lpm]; exact hm) (by rw [raiseQuiet_lpm])]
  refine congrArg (fun x => conclude q (act raiseLoud x)) (hcancel.trans ?_)
  exact raiseQuiet_frame (.pwrState e.tag .cancelled .active .work) { s with lpm.entry := none } (some q) 0

/-- A request that is refused leaves a pending entry (R183). -/
theorem execute_leaves {q : Request} {act : Act} {s : State} (hm : s.lpm.mode = .active)
    (ha : (act raiseLoud { s with link.inExec := some q, lpm.entry := none, lpm.idle := 0 }).2.accepted = false) :
    execute raiseLoud q act s = conclude q (act raiseLoud (s.executing q)) := by
  have hleft : cancelFor raiseLoud q act (s.executing q) = s.executing q := if_neg (by simp [ha])
  rw [execute, wakeFor_active (by exact hm)]
  exact congrArg (fun x => conclude q (act raiseLoud x)) hleft

/-- On a free link a request that refuses, a pending entry or not, is refused in ACTIVE (R11, R183). -/
theorem refuses_active {i : Instr} {tag code : Byte} {payload : List Byte} {st : Status} {s : State} (hw : i.wf = true)
    (he : encodeRequest i = some (tag, code, payload)) (h : s.linkFree) (hm : s.lpm.mode = .active)
    (hst : st.accepted = false) (ha : ∀ t : State, requestAction i raiseLoud t = refuse st t) : Refuses i tag code st s := by
  have ⟨_, hexec, _, _, hsoft⟩ := h
  rw [Refuses, exec_free hw he h, execute_leaves hm (by rw [ha]; exact hst), ha]
  exact congrArg Host.Outcome.next (conclude_reply hsoft (clear_inExec hexec _))

/-! ### PWR_STANDBY and PWR_DORMANT (R182) -/

theorem attemptNotices_none {s : State} (h : ∀ ch, s.attemptOver ch) : s.attemptNotices = [] := by
  have hp : ∀ age, s.wgt.chanP.init ≠ .running age := h .p
  have hb : ∀ age, s.wgt.chanB.init ≠ .running age := h .b
  unfold State.attemptNotices
  cases hP : s.wgt.chanP.init with
  | running age => exact absurd hP (hp age)
  | waiting | ended =>
    cases hB : s.wgt.chanB.init with
    | running age => exact absurd hB (hb age)
    | waiting | ended => rfl

theorem powerReply_ok {x : State} {m : PowerMode} (h : x.lpm.mode = m) :
    powerReply (x, .ok) = (x, .reply .ok [m.code] none) := by
  subst h
  rfl

theorem raiseQuiet_standby (n : Notice) {s : State} (h : s.lpm.mode = .standby) : (raiseQuiet n s).lpm.mode = .standby := by
  rw [raiseQuiet_lpm, h]

/-- Settles O20, by the check that decides, and by the end of the work that a pending entry waits for. -/
theorem standbyAsked : Obligations.StandbyAsked := by
  refine ⟨fun tag s hs hu => ⟨fun hblock hwork => ?now, fun hblock hwork => ?later, fun st hblock => ?refused⟩,
    fun tag s hs => ⟨fun hm => ?standby, fun hm => ?dormant, fun hm => ?asleep, fun e hm he => ?pendingS,
      fun e hm he => ?pendingD⟩,
    fun m s => ⟨fun h => entryBlock_state (.inl h), fun hm h => entryBlock_state (.inr (.inl ⟨hm, not_atRest h⟩)),
      fun h => entryBlock_state (.inr (.inr h)), fun hidle hrest hfault => ⟨fun h => ?busy, fun hops hwrites => ?free⟩,
      workDone_iff s⟩,
    fun e mv l n s u hu he hP hB hline hn hw hloads hqueue hcap ha ht hm hu' => ?feed,
    fun e p s u hu he hm hk hd hp hleaving hh hl hu' hwork => ?kick,
    fun i tag code payload e s hwf henc hc hs hu hm he hacc => ?cancels,
    fun tag v value e s hs hm he => ⟨?range, fun hv => ?mode⟩⟩
  case now =>
    refine exec_answers_of_ready' rfl rfl hs (by simp) (by simp) fun q => ?_
    have ⟨_, hactive, hentry⟩ := hs
    show powerReply (askEntry raiseLoud .standby tag .request (s.executing q)) = _
    rw [askEntry_now (t := s.executing q) hactive (by decide) hentry hblock hwork,
      enterPower_standby (t := s.executing q) hu hentry, ← raiseQuiet_frame]
    exact powerReply_ok (raiseQuiet_standby _ rfl)
  case later =>
    refine exec_answers_of_ready rfl rfl hs rfl fun q => ?_
    have ⟨_, hactive, hentry⟩ := hs
    show powerReply (askEntry raiseLoud .standby tag .request (s.executing q)) = _
    rw [askEntry_later (t := s.executing q) hactive (by decide) hentry hblock hwork]
    simp only [powerReply, hactive]
    rfl
  case refused =>
    refine refuses_of_ready rfl rfl hs fun q => ?_
    have ⟨_, hactive, hentry⟩ := hs
    show powerReply (askEntry raiseLoud .standby tag .request (s.executing q)) = _
    rw [askEntry_refused (t := s.executing q) hactive (by decide) hentry hblock, powerReply,
      if_neg (by simp [entryBlock_refusal hblock])]
  case standby =>
    refine exec_answers_of_free rfl rfl hs rfl rfl rfl fun q => ?_
    show powerReply (askEntry raiseLoud .standby tag .request (s.executing q)) = _
    rw [askEntry, if_pos (by exact hm)]
    exact powerReply_ok (x := s.executing q) hm
  case dormant =>
    refine exec_answers_of_free rfl rfl hs rfl rfl rfl fun q => ?_
    show powerReply (askEntry raiseLoud .dormant tag .request (s.executing q)) = _
    rw [askEntry, if_pos (by exact hm)]
    exact powerReply_ok (x := s.executing q) hm
  case asleep =>
    refine refuses_of_free rfl rfl hs rfl rfl fun q => ?_
    show powerReply (askEntry raiseLoud .standby tag .request (s.executing q)) = _
    rw [askEntry, if_neg (by simp [hm]), if_pos ⟨rfl, by exact hm⟩]
    rfl
  case pendingS =>
    refine refuses_of_free rfl rfl hs rfl rfl fun q => ?_
    show powerReply (askEntry raiseLoud .standby tag .request (s.executing q)) = _
    rw [askEntry, if_neg (by simp [hm]), if_neg (by simp [hm]), if_pos (by simp [he])]
    rfl
  case pendingD =>
    refine refuses_of_free rfl rfl hs rfl rfl fun q => ?_
    show powerReply (askEntry raiseLoud .dormant tag .request (s.executing q)) = _
    rw [askEntry, if_neg (by exact hm), if_neg (by simp), if_pos (by simp [he])]
    rfl
  case busy =>
    rw [entryBlock_busy hidle hrest hfault, if_pos]
    rcases h with ⟨ch, h⟩ | h
    · have hsome : (s.chan ch).op.isSome = true := Option.isSome_iff_ne_none.mpr h
      cases ch
      · have hp : s.wgt.chanP.op.isSome = true := hsome
        simp [hp]
      · have hb : s.wgt.chanB.op.isSome = true := hsome
        simp [hb]
    · cases hwrites : s.sst.writes with
      | nil => exact absurd hwrites h
      | cons w l => simp
  case free =>
    have hp : s.wgt.chanP.op = none := hops .p
    have hb : s.wgt.chanB.op = none := hops .b
    rw [entryBlock_busy hidle hrest hfault, if_neg (by simp [hp, hb, hwrites])]
  case feed =>
    have hu'' : u.unbound := by rw [hu']; exact hu
    have hentry : u.lpm.entry = some e := by rw [hu']; exact he
    have hmode : u.lpm.mode = s.lpm.mode := by rw [hu']
    have hend : exec (.lineBoundary mv) s = .next (judgeEntry raiseLoud u) := by
      rw [hu']
      exact congrArg Host.Outcome.next (lineEnd_feed_calm hline hn hw hloads hcap ha hqueue ht hm)
    rw [hend]
    refine ⟨fun hwork => by rw [judgeEntry_waits hwork], fun hwork => ⟨fun st hblock => ?_, fun hblock htarget => ?_,
      fun hblock htarget hstarted hover => ?_⟩⟩
    · rw [judgeEntry_lost hu'' hentry hwork hblock, hmode]
    · rw [judgeEntry_standby hu'' hentry hwork htarget (htarget ▸ hblock), hu']
    · have hnone : u.attemptNotices = [] := by rw [hu']; exact attemptNotices_none hover
      refine ⟨_, rfl, ?_⟩
      rw [judgeEntry_taken hentry hwork hblock, htarget, enterPower_dormant hu'' (by rw [hu']; exact hstarted), hnone]
      simp only [raiseAll, List.foldl_nil, raiseQuiet_lpm, raiseQuiet_wgt, raiseQuiet_crd]
      refine ⟨rfl, rfl, rfl, rfl, raiseQuiet_rpt_congr _ _ _ ?_ ?_ ?_⟩
      all_goals rw [hu']; rfl
  case kick =>
    have hopen : ({ s with drw.noSale := none }.setPort p { s.port p with
        held := some (s.port p).level, deb := none, mode := .opened, openMs := 0, attempt := 0
        retry := false, wait := 0, kick := .none, on := false, broken := false
        remembered := false }) = endPermit .noSale (s.sensedOpen p) := by
      have hqueue : (if (s.port p).mode = PortMode.grantWait then [] else s.dsa.queue) = s.dsa.queue := if_neg (by simp [hm])
      rw [State.sensedOpen, hqueue]
      cases p <;> rfl
    rw [hopen] at hu'
    have hend : exec (.senseDebouncedChange p) s = .next (judgeEntry raiseLoud u) := by
      refine congrArg Host.Outcome.next ?_
      refine (senseDebounced_kick hd hp hh (opens_level hl) (.inr (.inl hm))).trans ?_
      rw [openUnderKick_noSale (setPort_unbound (by exact hu) _ _) (by rw [State.setPort_port]; exact hk)
        (by rw [State.setPort_port]; exact hleaving), openedUnder_settled, State.setPort_port, hu', hk]
      rfl
    have hu'' : u.unbound := by
      rw [hu']
      exact raiseQuiet_unbound (s := endPermit .noSale (s.sensedOpen p)) (setPort_unbound (by exact hu) _ _) _
    have hlpm : u.lpm = s.lpm := by
      rw [hu', raiseQuiet_lpm]
      exact State.setPort_lpm ..
    have hport : u.port p = { (s.port p).opened with held := some (s.port p).level, deb := none } := by
      rw [hu', port_raiseQuiet]
      exact State.setPort_port ..
    have hentry : u.lpm.entry = some e := by rw [hlpm, he]
    rw [hend]
    refine ⟨fun htarget => ?_, fun htarget hblock => ?_⟩
    · have hrest : ¬ u.atRest := not_atRest (.inr (.inr ⟨p, by rw [hport]; exact hp, .inl (by rw [hport]; simp [PortState.opened])⟩))
      rw [judgeEntry_lost hu'' hentry hwork (entryBlock_state (.inr (.inl ⟨htarget, hrest⟩))), hlpm]
    · have hwgt : u.wgt = s.wgt := by
        rw [hu', raiseQuiet_wgt]
        exact State.setPort_wgt ..
      rw [judgeEntry_standby hu'' hentry hwork htarget hblock, hwgt]
  case cancels =>
    have hfree : (raiseQuiet (.pwrState e.tag .cancelled .active .work) { s with lpm.entry := none }).linkFree :=
      raiseQuiet_linkFree (s := { s with lpm.entry := none }) hs
    have hsame := execute_cancels (q := { tag := tag, code := code, payload := payload }) hu hm he hc hacc
    rw [exec_free hwf henc hs, hsame, exec_free hwf henc hfree]
  case range =>
    refine refuses_active rfl rfl hs hm rfl fun t => ?_
    have hnone : t.set.taken 0 value.toNat = none := rfl
    show actSetPut 0#8 value raiseLoud t = _
    simp only [actSetPut, BitVec.toNat_ofNat, Nat.zero_mod, hnone]
  case mode =>
    refine refuses_active rfl rfl hs hm rfl fun t => ?_
    have h0 : v ≠ 0#8 := fun h => by simp [h] at hv
    have h1 : v ≠ 1#8 := fun h => by simp [h] at hv
    show actArm v raiseLoud t = _
    rw [actArm, if_neg h0, if_neg h1]

end Sys2Proof.Machine
end

