-- ==== Sys2Proof/Proofs/Weigh/Readings.lean ====
section
/-! PROOFS. A reading of a channel, in the order of its stages (sections 2.2 to 2.8). -/

namespace Sys2Proof.Machine

/-! ### A state apart from its notices -/

/-- A state that differs from another in the link and the report unit alone, and sets no binding. -/
def State.Noticed (u x : State) : Prop := x.unbound ∧ ∃ l q, x = { u with link := l, rpt := q }

theorem State.Noticed.refl {s : State} (h : s.unbound) : s.Noticed s := ⟨h, s.link, s.rpt, rfl⟩

theorem State.Noticed.raised {u x : State} (h : u.Noticed x) (n : Notice) : u.Noticed (raiseQuiet n x) := by
  obtain ⟨hu, l, q, hx⟩ := h
  obtain ⟨l', q', h'⟩ := raiseQuiet_rest n x
  refine ⟨raiseQuiet_unbound hu n, l', q', h'.trans ?_⟩
  rw [hx]

theorem State.Noticed.chan {u x : State} (h : u.Noticed x) (ch : Channel) : x.chan ch = u.chan ch := by
  obtain ⟨_, l, q, hx⟩ := h
  rw [hx]
  rfl

theorem State.Noticed.wgt {u x : State} (h : u.Noticed x) : x.wgt = u.wgt := by
  obtain ⟨_, l, q, hx⟩ := h
  rw [hx]

theorem State.Noticed.bag {u x : State} (h : u.Noticed x) : x.bag = u.bag := by
  obtain ⟨_, l, q, hx⟩ := h
  rw [hx]

theorem State.Noticed.txn {u x : State} (h : u.Noticed x) : x.txn = u.txn := by
  obtain ⟨_, l, q, hx⟩ := h
  rw [hx]

theorem State.Noticed.set {u x : State} (h : u.Noticed x) : x.set = u.set := by
  obtain ⟨_, l, q, hx⟩ := h
  rw [hx]

theorem State.Noticed.sst {u x : State} (h : u.Noticed x) : x.sst = u.sst := by
  obtain ⟨_, l, q, hx⟩ := h
  rw [hx]

theorem State.Noticed.lpm {u x : State} (h : u.Noticed x) : x.lpm = u.lpm := by
  obtain ⟨_, l, q, hx⟩ := h
  rw [hx]

/-- A channel replaced on both. -/
theorem State.Noticed.setChan {u x : State} (h : u.Noticed x) (ch : Channel) (c : Chan) :
    (u.setChan ch c).Noticed (x.setChan ch c) := by
  obtain ⟨hu, l, q, hx⟩ := h
  refine ⟨setChan_unbound hu ch c, l, q, ?_⟩
  rw [hx]
  cases ch <;> rfl

/-! ### The figures of a reading (R22 to R31) -/

/-- The channel once a block without an extreme code has its figures. -/
def State.nextChan (s : State) (ch : Channel) (block : Samples) : Chan :=
  { s.chan ch with
    win := s.nextWin ch block, f := s.nextF ch block, w := s.nextW ch block
    forced := (s.chan ch).forced - 1, hasValue := true
    g := s.nextG ch block, net := s.nextNet ch block, range := s.nextRange ch block
    centre := (s.chan ch).zeroValid && decide (((s.nextG ch block).natAbs : Int) ≤ ch.centreWindow)
    e := ch.division (s.nextNet ch block), d := s.nextD ch block }

theorem noticeRange_noticed {ch : Channel} {before : RangeFlag} {x : State} (hu : x.unbound) :
    x.Noticed (noticeRange raiseLoud ch before x) := by
  rcases noticeRange_eq ch before x hu with h | ⟨n, h⟩
  · rw [h]
    exact State.Noticed.refl hu
  · rw [h]
    exact (State.Noticed.refl hu).raised n

theorem noticeRange_same {r : Raise} {ch : Channel} {before : RangeFlag} {x : State} (h : (x.chan ch).range = before) :
    noticeRange r ch before x = x := if_pos (.inl h)

/-- A reading takes its figures, and SCALE_OVER is raised as a range flag is entered (R24 to R31). -/
theorem weighReading_eq (r : Raise) (ch : Channel) (block : Samples) (s : State) :
    weighReading r ch (decimate (sampleValues block)) s =
      noticeRange r ch (s.chan ch).range (s.setChan ch (s.nextChan ch block)) := by
  have hrange (g : Int) : (if (s.chan ch).forced - 1 = 0 then rangeOf ch g else (s.chan ch).range) =
      if (s.chan ch).forced ≤ 1 then rangeOf ch g else (s.chan ch).range := by
    simp only [Nat.sub_eq_zero_iff_le]
  have hchan : ({ s.chan ch with
      win := lastN (s.set.filterDepth ch) ((s.chan ch).win ++ [decimate (sampleValues block)])
      f := s.nextF ch block, w := s.nextW ch block, forced := (s.chan ch).forced - 1, hasValue := true } : Chan).weighed
        ch s.wgt.tare = s.nextChan ch block := by
    unfold Chan.weighed State.nextChan State.nextD State.nextRange
    rw [← hrange]
    cases ch <;> rfl
  rw [← hchan]
  rfl

/-! ### STABLE at a reading (R33, R34) -/

/-- The channel once the reading has joined the stability window. -/
def State.nextJoined (s : State) (ch : Channel) (block : Samples) : Chan :=
  { s.nextChan ch block with stab := s.nextStab ch block }

/-- Whether the four conditions of R33 hold at the reading. -/
def State.nextStable (s : State) (ch : Channel) (block : Samples) : Bool :=
  !decide ((s.nextWin ch block).length < s.set.filterDepth ch) && !s.wgt.disturbed &&
    decide ((s.nextStab ch block).length = s.set.stabilityWindow ch) &&
    decide (spread (s.nextStab ch block) ≤ 1000 * (ch.division (s.nextNet ch block) : Int))

theorem nextStable_iff {ch : Channel} {block : Samples} {s : State} (h : s.readable block) :
    s.nextStable ch block = true ↔ s.steady ch block := by
  simp [State.nextStable, State.steady, h, and_assoc]

/-- The reading joins the stability window, and STABLE is judged (R33, R34). -/
theorem stabilityReading_eq {r : Raise} {ch : Channel} {block : Samples} {s x : State}
    (h : (s.setChan ch (s.nextChan ch block)).Noticed x) :
    stabilityReading r ch x =
      if s.nextStable ch block then
        (x.setChan ch { s.nextJoined ch block with stable := true }, !(s.chan ch).stable)
      else (leaveStable r ch (x.setChan ch (s.nextJoined ch block)), false) := by
  have hchan : x.chan ch = s.nextChan ch block := (h.chan ch).trans (by cases ch <;> rfl)
  have hset : x.set = s.set := h.set.trans (State.setChan_set ..)
  have hdisturbed : x.wgt.disturbed = s.wgt.disturbed := by
    rw [h.wgt]
    cases ch <;> rfl
  have hjoined : ({ x.chan ch with stab := lastN (x.set.stabilityWindow ch) ((x.chan ch).stab ++ [(x.chan ch).w]) } : Chan) =
      s.nextJoined ch block := by
    rw [hchan, hset]
    rfl
  have hjudge : (x.setChan ch (s.nextJoined ch block)).judgeStable ch = s.nextStable ch block := by
    unfold State.judgeStable State.filling
    rw [State.setChan_chan, State.setChan_set, hset,
      show (x.setChan ch (s.nextJoined ch block)).wgt.disturbed = x.wgt.disturbed from by cases ch <;> rfl, hdisturbed]
    rfl
  unfold stabilityReading
  simp only [hjoined]
  simp only [hjudge, State.setChan_chan, setChan_setChan, hchan]
  rfl

/-- What follows the tracking of a STABLE reading: the attempt, the operations, the receivers, the notice of a stable
event and the end of start-up (R22, R34). -/
def readingEnds (r : Raise) (ch : Channel) (waiting : Option Op) (event : Bool) (s : State) : State :=
  let s := if event then judgeAttempt r ch s else s
  let (s, wrote) := judgeZeroOps r ch waiting s
  let s := receivers r ch waiting true event s
  let s := if event then r (.scaleStable ch (s.chan ch).d) s else s
  let s := if wrote then restartStability r ch s else s
  if event && !s.sst.started then startupStep r s else s

theorem readBlock_readable {r : Raise} {ch : Channel} {block : Samples} {s : State} (h : s.readable block) :
    readBlock r ch block s = valueReading r ch (decimate (sampleValues block)) s := by
  obtain ⟨hconv, hover⟩ := h
  simp only [readBlock, if_pos hconv, hover]

/-- The channel once it is STABLE at the reading. -/
def State.nextSteady (s : State) (ch : Channel) (block : Samples) : Chan :=
  { s.nextJoined ch block with stable := true }

/-- A STABLE reading has its figures and its tracking, and then its ends. -/
theorem reading_steady {ch : Channel} {block : Samples} {s : State} (hu : s.unbound) (h : s.steady ch block) :
    ∃ z, (s.setChan ch (s.nextSteady ch block)).Noticed z ∧
      (s.nextRange ch block = (s.chan ch).range → z = s.setChan ch (s.nextSteady ch block)) ∧
      readBlock raiseLoud ch block s = readingEnds raiseLoud ch (s.chan ch).op (!(s.chan ch).stable) (trackZero ch z) := by
  obtain ⟨x, hx⟩ : ∃ x, noticeRange raiseLoud ch (s.chan ch).range (s.setChan ch (s.nextChan ch block)) = x := ⟨_, rfl⟩
  have hnoticed : (s.setChan ch (s.nextChan ch block)).Noticed x := by
    rw [← hx]
    exact noticeRange_noticed (setChan_unbound hu _ _)
  refine ⟨x.setChan ch (s.nextSteady ch block), ?_, fun hsame => ?_, ?_⟩
  · have hset := hnoticed.setChan ch (s.nextSteady ch block)
    rwa [setChan_setChan] at hset
  · rw [← hx, noticeRange_same (by rw [State.setChan_chan]; exact hsame), setChan_setChan]
  · have hstable : ((trackZero ch (x.setChan ch (s.nextSteady ch block))).chan ch).stable = true := by
      unfold trackZero
      simp only [State.setChan_chan, setChan_setChan]
      repeat' split
      all_goals cases ch <;> rfl
    rw [readBlock_readable h.1, valueReading, weighReading_eq, hx, stabilityReading_eq hnoticed,
      if_pos ((nextStable_iff h.1).mpr h)]
    simp only
    rw [show ({ s.nextJoined ch block with stable := true } : Chan) = s.nextSteady ch block from rfl]
    have hbefore : ((x.setChan ch (s.nextSteady ch block)).chan ch).stable = true := by rw [State.setChan_chan]; rfl
    rw [hbefore]
    rfl

/-! ### Zero tracking at a reading (R41) -/

/-- Whether the reading meets the tracking conditions on a channel that tracks. -/
def State.nextMet (s : State) (ch : Channel) (block : Samples) : Bool :=
  s.set.zeroTrack ch && !(s.chan ch).suspended && (s.chan ch).zeroValid &&
    (decide (ch = .b) || decide (s.wgt.tare = 0)) &&
    decide (((s.nextG ch block).natAbs : Int) ≤ ch.trackWindow)

/-- The channel once a STABLE reading is tracked, where it is not the 60th. -/
def State.nextTracked (s : State) (ch : Channel) (block : Samples) : Chan :=
  { s.nextSteady ch block with track := if s.nextMet ch block then (s.chan ch).track + 1 else 0 }

/-- The tracking of a STABLE reading, by whether it meets the conditions and by the count (R41). -/
theorem trackZero_eq {ch : Channel} {block : Samples} {s z : State} (h : s.steady ch block)
    (hz : (s.setChan ch (s.nextSteady ch block)).Noticed z) :
    trackZero ch z =
      if s.nextMet ch block = false ∨ (s.chan ch).track < 59 then z.setChan ch (s.nextTracked ch block)
      else if ((s.nextW ch block - (s.chan ch).zc).natAbs : Int) ≤ ch.zeroBand then
        z.setChan ch { s.nextSteady ch block with zw := s.nextW ch block, track := 0 }
      else { z.setChan ch { s.nextSteady ch block with suspended := true, track := 0 } with
        rpt.latched := z.rpt.latched.band ch } := by
  have hchan : z.chan ch = s.nextSteady ch block := (hz.chan ch).trans (by cases ch <;> rfl)
  have hset : z.set = s.set := hz.set.trans (State.setChan_set ..)
  have htare : z.wgt.tare = s.wgt.tare := by
    rw [hz.wgt]
    cases ch <;> rfl
  have hdisturbed : z.wgt.disturbed = false := by
    rw [hz.wgt, ← h.2.2.1]
    cases ch <;> rfl
  have hmet : (!z.set.zeroTrack ch || (z.chan ch).suspended || !z.trackMet ch) = !s.nextMet ch block := by
    unfold State.trackMet State.nextMet
    rw [hchan, hset, htare, hdisturbed]
    show (!s.set.zeroTrack ch || (s.chan ch).suspended || !((s.chan ch).zeroValid && (decide (ch = .b) ||
      decide (s.wgt.tare = 0)) && true && !false && decide (((s.nextG ch block).natAbs : Int) ≤ ch.trackWindow))) = _
    cases s.set.zeroTrack ch <;> cases (s.chan ch).suspended <;> simp
  have htrack : (s.nextSteady ch block).track = (s.chan ch).track := rfl
  unfold trackZero
  simp only [hmet]
  rw [hchan]
  cases hm : s.nextMet ch block with
  | false => simp [State.nextTracked, hm]
  | true =>
    rw [Bool.not_true, if_neg Bool.false_ne_true, htrack]
    by_cases hcount : (s.chan ch).track < 59
    · rw [if_pos (by omega), if_pos (.inr hcount)]
      simp [State.nextTracked, hm]
    · have hlast : ¬ (s.chan ch).track + 1 < 60 := by omega
      have hcond : ¬ (true = false ∨ (s.chan ch).track < 59) := by simp [hcount]
      rw [if_neg hlast, if_neg hcond, State.setChan_rpt]
      rfl

/-- A STABLE reading that is not the 60th to be tracked: the channel as it is then, apart from the notice of a range
flag entered, and what follows. -/
theorem reading_tracked {ch : Channel} {block : Samples} {s : State} (hu : s.unbound) (h : s.steady ch block)
    (hcount : (s.chan ch).track < 59) : ∃ z, (s.setChan ch (s.nextTracked ch block)).Noticed z ∧
      (s.nextRange ch block = (s.chan ch).range → z = s.setChan ch (s.nextTracked ch block)) ∧
      readBlock raiseLoud ch block s = readingEnds raiseLoud ch (s.chan ch).op (!(s.chan ch).stable) z := by
  obtain ⟨z, hz, hsame, hread⟩ := reading_steady hu h
  refine ⟨z.setChan ch (s.nextTracked ch block), ?_, fun hrange => ?_, ?_⟩
  · have hset := hz.setChan ch (s.nextTracked ch block)
    rwa [setChan_setChan] at hset
  · rw [hsame hrange, setChan_setChan]
  · rw [hread, trackZero_eq h hz, if_pos (.inr hcount)]

/-! ### The ends of a STABLE reading (R34, R38, R54) -/

theorem judgeAttempt_over {r : Raise} {ch : Channel} {s : State} (h : s.attemptOver ch) : judgeAttempt r ch s = s := by
  unfold judgeAttempt
  split
  · next age hage => exact absurd hage (h age)
  · rfl

/-- The interlock after a reading of P (R54). -/
theorem rearm_eq (s : State) : rearm s = { s with wgt.armed := s.wgt.armed || decide (s.wgt.chanP.g < 40000) } := by
  by_cases h : s.wgt.chanP.g < 40000
  · rw [rearm, if_pos h, decide_eq_true h, Bool.or_true]
  · rw [rearm, if_neg h, decide_eq_false h, Bool.or_false]

/-- The interlock after a reading of a channel. -/
def State.armedAt (s : State) (ch : Channel) (g : Int) : Bool := s.wgt.armed || (decide (ch = .p) && decide (g < 40000))

/-- Without an operation and without a stable event a reading leaves nothing to its receivers but the interlock. -/
theorem receivers_idle {r : Raise} {ch : Channel} {waiting : Option Op} {stable : Bool} {s : State}
    (h : stable = false ∨ waiting = none) :
    receivers r ch waiting stable false s = { s with wgt.armed := s.armedAt ch (s.chan ch).g } := by
  cases ch with
  | p =>
    have hops : (if stable then judgePOps r waiting (rearm s) else rearm s) = rearm s := by
      rcases h with h | h
      · rw [h]; rfl
      · rw [h]; exact ite_self _
    refine Eq.trans (b := rearm s) hops ?_
    rw [rearm_eq, State.armedAt, decide_eq_true rfl, Bool.true_and]
    rfl
  | b =>
    rw [State.armedAt, decide_eq_false (by decide), Bool.false_and, Bool.or_false]
    rfl

/-- With no operation and no attempt only the receivers act, and SCALE_STABLE at a stable event. -/
theorem readingEnds_none {r : Raise} {ch : Channel} {event : Bool} {s : State} (h : s.attemptOver ch) :
    readingEnds r ch none event s =
      let s := receivers r ch none true event s
      let s := if event then r (.scaleStable ch (s.chan ch).d) s else s
      if event && !s.sst.started then startupStep r s else s := by
  unfold readingEnds
  rw [judgeAttempt_over h, ite_self]
  rfl

/-! ### A reading that is not STABLE (R33, R34) -/

theorem chan_raiseQuiet (n : Notice) (s : State) (ch : Channel) : (raiseQuiet n s).chan ch = s.chan ch := by
  cases ch <;> simp [State.chan]

/-- A channel leaves STABLE with SCALE_MOTION (R34). -/
theorem leaveStable_raises {ch : Channel} {s : State} (hu : s.unbound) (h : (s.chan ch).stable = true) :
    leaveStable raiseLoud ch s =
      raiseQuiet (.scaleMotion ch (s.chan ch).d) (s.setChan ch { s.chan ch with stable := false }) := by
  rw [leaveStable, if_pos h, raiseLoud_unbound (setChan_unbound hu _ _)]

/-- A channel that is not STABLE tracks nothing (R41). -/
theorem trackZero_moving {ch : Channel} {s : State} (h : (s.chan ch).stable = false) :
    trackZero ch s = s.setChan ch { s.chan ch with track := 0 } := by
  have hmet : s.trackMet ch = false := by simp [State.trackMet, h]
  unfold trackZero
  simp [hmet]

/-- A reading that does not meet the four conditions of R33: its figures, and the interlock. -/
theorem reading_unsteady {ch : Channel} {block : Samples} {s : State} (hu : s.unbound) (h : s.readable block)
    (hn : s.nextStable ch block = false) : ∃ x, (s.setChan ch (s.nextJoined ch block)).Noticed x ∧
      (s.nextRange ch block = (s.chan ch).range → x = s.setChan ch (s.nextJoined ch block)) ∧
      ∀ y, leaveStable raiseLoud ch x = y → (y.chan ch).stable = false →
        readBlock raiseLoud ch block s = { y.setChan ch { y.chan ch with track := 0 } with
          wgt.armed := y.armedAt ch (y.chan ch).g } := by
  obtain ⟨x, hx⟩ : ∃ x, noticeRange raiseLoud ch (s.chan ch).range (s.setChan ch (s.nextChan ch block)) = x := ⟨_, rfl⟩
  have hnoticed : (s.setChan ch (s.nextChan ch block)).Noticed x := by
    rw [← hx]
    exact noticeRange_noticed (setChan_unbound hu _ _)
  refine ⟨x.setChan ch (s.nextJoined ch block), ?_, fun hsame => ?_, fun y hy hstable => ?_⟩
  · have hset := hnoticed.setChan ch (s.nextJoined ch block)
    rwa [setChan_setChan] at hset
  · rw [← hx, noticeRange_same (by rw [State.setChan_chan]; exact hsame), setChan_setChan]
  · have htrack := trackZero_moving hstable
    have hg : ({ y.chan ch with track := 0 } : Chan).g = (y.chan ch).g := rfl
    rw [readBlock_readable h, valueReading, weighReading_eq, hx, stabilityReading_eq hnoticed, hn,
      if_neg Bool.false_ne_true, hy, ← hg]
    generalize ({ y.chan ch with track := 0 } : Chan) = c at htrack ⊢
    simp only [hstable, Bool.false_and, Bool.false_eq_true, if_false]
    rw [htrack, receivers_idle (.inl rfl), State.setChan_chan]
    cases ch <;> rfl

/-- Such a reading of a channel that is not STABLE. -/
theorem reading_moving {ch : Channel} {block : Samples} {s : State} (hu : s.unbound) (h : s.readable block)
    (hn : s.nextStable ch block = false) (hstable : (s.chan ch).stable = false) :
    ∃ l q, readBlock raiseLoud ch block s = { s.setChan ch { s.nextJoined ch block with track := 0 } with
      link := l, rpt := q, wgt.armed := s.armedAt ch (s.nextG ch block) } := by
  obtain ⟨x, ⟨_, l, q, hx⟩, -, hread⟩ := reading_unsteady hu h hn
  have hchan : x.chan ch = s.nextJoined ch block := by
    rw [hx]
    cases ch <;> rfl
  have hmoving : (x.chan ch).stable = false := by
    rw [hchan]
    exact hstable
  refine ⟨l, q, ?_⟩
  rw [hread x (leaveStable_calm hmoving) hmoving, hchan, hx]
  cases ch <;> rfl

theorem nextWin_length (s : State) (ch : Channel) (block : Samples) :
    (s.nextWin ch block).length = min (s.set.filterDepth ch) ((s.chan ch).win.length + 1) := by
  simp only [State.nextWin, lastN, List.length_drop, List.length_append, List.length_singleton]
  omega

/-- A window still FILLING, or a disturbance, keeps the channel out of STABLE (R33). -/
theorem nextStable_false {ch : Channel} {block : Samples} {s : State}
    (h : (s.chan ch).win.length + 1 < s.set.filterDepth ch ∨ s.wgt.disturbed = true) : s.nextStable ch block = false := by
  rcases h with h | h
  · have hfilling : (s.nextWin ch block).length < s.set.filterDepth ch := by
      rw [nextWin_length]
      omega
    simp [State.nextStable, hfilling]
  · simp [State.nextStable, h]

/-! ### A reading with an extreme code (R23, R24, R33) -/

/-- The channel at an overrange reading. -/
def Chan.overranged (c : Chan) (flag : RangeFlag) : Chan :=
  { c with range := flag, forced := 8, hasValue := false, d := none, centre := false, track := 0, win := [], stab := [] }

theorem reading_overrange {ch : Channel} {block : Samples} {flag : RangeFlag} {s : State} (hu : s.unbound)
    (hconv : s.wgt.conv = .running) (hstable : (s.chan ch).stable = false) (hover : overrange (sampleValues block) = some flag) :
    ∃ x, (s.setChan ch ((s.chan ch).overranged flag)).Noticed x ∧
      (flag = (s.chan ch).range → x = s.setChan ch ((s.chan ch).overranged flag)) ∧ readBlock raiseLoud ch block s = x := by
  obtain ⟨c, hc⟩ : ∃ c, c = { s.chan ch with
      range := flag, forced := 8, hasValue := false, d := none, centre := false, track := 0 } := ⟨_, rfl⟩
  obtain ⟨x, hx⟩ : ∃ x, noticeRange raiseLoud ch (s.chan ch).range (s.setChan ch c) = x := ⟨_, rfl⟩
  have hnoticed : (s.setChan ch c).Noticed x := by
    rw [← hx]
    exact noticeRange_noticed (setChan_unbound hu _ _)
  have hchan : x.chan ch = c := (hnoticed.chan ch).trans (State.setChan_chan ..)
  have hover' : { c with win := [], stab := [] } = (s.chan ch).overranged flag := by
    rw [hc]
    rfl
  refine ⟨x.setChan ch ((s.chan ch).overranged flag), ?_, fun hsame => ?_, ?_⟩
  · have hset := hnoticed.setChan ch ((s.chan ch).overranged flag)
    rwa [setChan_setChan] at hset
  · rw [← hx, noticeRange_same (by rw [State.setChan_chan, hc]; exact hsame), setChan_setChan]
  · have hcalm : (x.chan ch).stable = false := by
      rw [hchan, hc]
      exact hstable
    simp only [readBlock, if_pos hconv, hover, overrangeReading]
    rw [← hc, hx, restartWindows_calm _ _ _ hcalm, hchan, hover']

theorem overrange_under {l : List Int} {flag : RangeFlag} (h : overrange l = some flag) :
    flag = .underRange ↔ -8388608 ∈ l := by
  unfold overrange at h
  split at h
  · next hmem => exact ⟨fun _ => hmem, fun _ => (Option.some.inj h).symm⟩
  · next hmem =>
    split at h
    · obtain rfl := Option.some.inj h
      exact ⟨fun h' => absurd h' (by decide), fun h' => absurd h' hmem⟩
    · exact absurd h (by simp)

/-! ### What a reading leaves alone -/

theorem chan_setChan_ne {ch o : Channel} (h : o ≠ ch) (s : State) (c : Chan) : (s.setChan ch c).chan o = s.chan o := by
  cases ch <;> cases o <;> first | exact absurd rfl h | rfl

/-- A STABLE reading that is no stable event, with no operation in flight, leaves the interlock alone to do. -/
theorem readingEnds_quiet {r : Raise} {ch : Channel} {s : State} :
    readingEnds r ch none false s = { s with wgt.armed := s.armedAt ch (s.chan ch).g } :=
  (receivers_idle (waiting := none) (stable := true) (.inr rfl) : receivers r ch none true false s = _)

/-- What the receivers do of a stable event in ACTIVE or DORMANT with the monitor OFF (R54, R68). -/
def State.eventReceived (s : State) (ch : Channel) : State :=
  match ch with
  | .p => rearm s
  | .b =>
    match s.wgt.chanB.d with
    | none => s
    | some d => { s with bag.rb := d }

theorem receivers_event {r : Raise} {ch : Channel} {s : State} (hm : s.lpm.mode ≠ .standby) (hw : s.bag.watch = .off) :
    receivers r ch none true true s = s.eventReceived ch := by
  cases ch with
  | p =>
    refine (if_neg ?_ : powerStable r (rearm s) = rearm s)
    rw [rearm_eq]
    exact hm
  | b =>
    show bagStable r s = _
    unfold bagStable State.eventReceived
    rw [hw] <;> cases s.wgt.chanB.d <;> rfl

theorem eventReceived_effects (s : State) (ch : Channel) :
    (∀ o, (s.eventReceived ch).chan o = s.chan o) ∧ (s.eventReceived ch).link = s.link ∧
      (s.eventReceived ch).rpt = s.rpt ∧ (s.eventReceived ch).set = s.set ∧ (s.eventReceived ch).txn = s.txn ∧
      (s.eventReceived ch).sst = s.sst ∧ (s.eventReceived ch).wgt.tare = s.wgt.tare ∧
      (s.eventReceived ch).bag = (match ch, s.wgt.chanB.d with
        | .b, some d => { s.bag with rb := d }
        | _, _ => s.bag) := by
  cases ch with
  | p =>
    unfold State.eventReceived
    rw [rearm_eq]
    refine ⟨fun o => ?_, rfl, rfl, rfl, rfl, rfl, rfl, rfl⟩
    cases o <;> rfl
  | b =>
    unfold State.eventReceived
    cases hd : s.wgt.chanB.d with
    | none => exact ⟨fun o => rfl, rfl, rfl, rfl, rfl, rfl, rfl, rfl⟩
    | some d =>
      refine ⟨fun o => ?_, rfl, rfl, rfl, rfl, rfl, rfl, rfl⟩
      cases o <;> rfl

theorem rearmed_effects (y : State) (ch : Channel) (a : Bool) :
    ({ y with wgt.armed := a } : State).chan ch = y.chan ch ∧ ({ y with wgt.armed := a } : State).rpt = y.rpt ∧
      ({ y with wgt.armed := a } : State).bag = y.bag ∧ ({ y with wgt.armed := a } : State).txn = y.txn ∧
      ({ y with wgt.armed := a } : State).wgt.tare = y.wgt.tare := by
  cases ch <;> exact ⟨rfl, rfl, rfl, rfl, rfl⟩

/-- Settles O25, by whether the reading has a value and whether the channel is STABLE at it. -/
theorem readingTaken : Obligations.ReadingTaken := by
  refine ⟨fun ch block s hu hconv hover hstable hmoving => ?moving,
    fun ch block s => ⟨fun hconv => congrArg Host.Outcome.next (if_neg hconv), fun flag hu hconv hstable hover => ?overrange⟩,
    fun ch block s hu hsteady hop hover hrange => ⟨fun hstable hcount hstarted hmode hwatch => ?event, fun hstable => ?stays⟩,
    fun ch block s hu hread hrange hstable hspread => ?motion⟩
  case moving =>
    obtain ⟨l, q, h⟩ := reading_moving hu ⟨hconv, hover⟩ (nextStable_false hmoving) hstable
    refine ⟨_, congrArg Host.Outcome.next h, ?_⟩
    cases ch
    · refine ⟨rfl, rfl, rfl, rfl, rfl, rfl, rfl, rfl, hstable, rfl, rfl, rfl, rfl, fun o ho => ?_, ?_, rfl, rfl, rfl, rfl⟩
      · cases o
        · exact absurd rfl ho
        · rfl
      · rfl
    · refine ⟨rfl, rfl, rfl, rfl, rfl, rfl, rfl, rfl, hstable, rfl, rfl, rfl, rfl, fun o ho => ?_, ?_, rfl, rfl, rfl, rfl⟩
      · cases o
        · rfl
        · exact absurd rfl ho
      · rfl
  case overrange =>
    obtain ⟨x, hx, hsame, h⟩ := reading_overrange hu hconv hstable hover
    have hchan (o : Channel) : x.chan o = _ := hx.chan o
    refine ⟨x, congrArg Host.Outcome.next h, (hchan ch).trans (State.setChan_chan ..), overrange_under hover,
      fun o ho => (hchan o).trans (chan_setChan_ne ho s _), ?_, ?_, hx.txn.trans (State.setChan_txn ..),
      hx.bag.trans (State.setChan_bag ..), fun hflag => by rw [hsame hflag, State.setChan_rpt]⟩
    · rw [hx.wgt]
      cases ch <;> rfl
    · rw [hx.wgt]
      exact setChan_armed ..
  case event =>
    obtain ⟨z, hz, hsame, hread⟩ := reading_tracked hu hsteady hcount
    have hz' := hsame hrange
    have hchan : z.chan ch = s.nextTracked ch block := by rw [hz', State.setChan_chan]
    have hover' : z.attemptOver ch := fun age => by
      rw [hchan]
      exact hover age
    obtain ⟨hchans, hlink, hrpt, hset, htxn, hsst, htare, hbag⟩ := eventReceived_effects z ch
    obtain ⟨y, hy⟩ : ∃ y, z.eventReceived ch = y := ⟨_, rfl⟩
    rw [hy] at hchans hlink hrpt hset htxn hsst htare hbag
    have hyc : y.chan ch = s.nextTracked ch block := (hchans ch).trans hchan
    have hz'' : z.link = s.link ∧ z.rpt = s.rpt ∧ z.set = s.set ∧ z.sst = s.sst ∧ z.bag = s.bag ∧ z.txn = s.txn ∧
        z.wgt.tare = s.wgt.tare := by
      rw [hz']
      cases ch <;> exact ⟨rfl, rfl, rfl, rfl, rfl, rfl, rfl⟩
    obtain ⟨elink, erpt, eset, esst, ebag, etxn, etare⟩ := hz''
    have hyu : y.unbound := by
      rw [State.unbound, hrpt, erpt]
      exact hu
    have hstarted' : ¬ (!(raiseQuiet (.scaleStable ch (s.nextD ch block)) y).sst.started) = true := by
      simp [hsst, esst, hstarted]
    have hd : (y.chan ch).d = s.nextD ch block := by
      rw [hyc]
      rfl
    have hdone : readBlock raiseLoud ch block s = raiseQuiet (.scaleStable ch (s.nextD ch block)) y := by
      rw [hread, hop, hstable, readingEnds_none hover', Bool.not_false, receivers_event (by rw [hz.lpm, State.setChan_lpm]; exact hmode)
        (by rw [hz.bag, State.setChan_bag]; exact hwatch), hy]
      simp only [if_true, Bool.true_and]
      rw [hd, raiseLoud_unbound hyu, if_neg hstarted']
    refine ⟨_, congrArg Host.Outcome.next hdone, ?_⟩
    rw [chan_raiseQuiet, hyc, raiseQuiet_bag, raiseQuiet_txn, raiseQuiet_wgt, hbag, htxn, htare, ebag, etxn, etare]
    refine ⟨rfl, rfl, rfl, rfl, raiseQuiet_rpt_congr _ _ _ (hlink.trans elink) (hrpt.trans erpt) (hset.trans eset), ?_, rfl, rfl⟩
    cases ch with
    | p => rfl
    | b =>
      have hdb : z.wgt.chanB.d = s.nextD .b block := by
        rw [hz']
        rfl
      rw [hdb] <;> cases s.nextD .b block <;> rfl
  case stays =>
    obtain ⟨z, hz, hsame, hread⟩ := reading_steady hu hsteady
    have hz' := hsame hrange
    rw [hop, hstable, Bool.not_true, readingEnds_quiet] at hread
    obtain ⟨y, hy⟩ : ∃ y, trackZero ch z = y := ⟨_, rfl⟩
    rw [hy] at hread
    obtain ⟨echan, erpt, ebag, etxn, etare⟩ := rearmed_effects y ch (y.armedAt ch (y.chan ch).g)
    refine ⟨_, congrArg Host.Outcome.next hread, ?_⟩
    rw [echan, erpt, ebag, etxn, etare]
    have hmet : s.nextMet ch block = (s.set.zeroTrack ch && !(s.chan ch).suspended && (s.chan ch).zeroValid &&
      (decide (ch = .b) || decide (s.wgt.tare = 0)) &&
      decide (((s.nextG ch block).natAbs : Int) ≤ ch.trackWindow)) := rfl
    rw [← hmet]
    rw [trackZero_eq hsteady hz, hz', setChan_setChan, setChan_setChan, setChan_setChan, State.setChan_rpt] at hy
    by_cases hbelow : s.nextMet ch block = false ∨ (s.chan ch).track < 59
    · rw [if_pos hbelow] at hy
      have hyc : y.chan ch = s.nextTracked ch block := by rw [← hy, State.setChan_chan]
      rw [hyc, ← hy, State.setChan_rpt, State.setChan_bag, State.setChan_txn, setChan_tare]
      refine ⟨rfl, rfl, rfl, rfl, rfl, rfl, rfl, rfl, fun met hm => ⟨fun _ => ⟨rfl, rfl, rfl, by rw [hm]; rfl⟩,
        fun h1 h2 => ?_, fun h1 h2 => ?_⟩⟩
      all_goals
        rcases hbelow with h | h
        · rw [hm, h] at h1
          exact absurd h1 (by decide)
        · exact absurd h2 (Nat.ne_of_lt h)
    · rw [if_neg hbelow] at hy
      have hnot (met : Bool) (hm : met = s.nextMet ch block) : ¬ (met = false ∨ (s.chan ch).track < 59) := by rwa [hm]
      by_cases hband : ((s.nextW ch block - (s.chan ch).zc).natAbs : Int) ≤ ch.zeroBand
      · rw [if_pos hband] at hy
        have hyc : y.chan ch = { s.nextSteady ch block with zw := s.nextW ch block, track := 0 } := by
          rw [← hy, State.setChan_chan]
        have hclear : (s.chan ch).suspended = false := by
          cases hs : (s.chan ch).suspended with
          | false => rfl
          | true => exact absurd (.inl (by simp [State.nextMet, hs])) hbelow
        rw [hyc, ← hy, State.setChan_rpt, State.setChan_bag, State.setChan_txn, setChan_tare]
        exact ⟨rfl, rfl, rfl, rfl, rfl, rfl, rfl, rfl, fun met hm => ⟨fun h => absurd h (hnot met hm),
          fun _ _ _ => ⟨rfl, rfl, rfl, hclear⟩, fun _ _ h => absurd hband (Int.not_le.mpr h)⟩⟩
      · rw [if_neg hband] at hy
        have hyc : y.chan ch = { s.nextSteady ch block with suspended := true, track := 0 } := by
          rw [← hy]
          cases ch <;> rfl
        have hrest : y.rpt = { s.rpt with latched := s.rpt.latched.band ch } ∧ y.bag = s.bag ∧ y.txn = s.txn ∧
            y.wgt.tare = s.wgt.tare := by
          rw [← hy]
          cases ch <;> exact ⟨rfl, rfl, rfl, rfl⟩
        rw [hyc, hrest.1, hrest.2.1, hrest.2.2.1, hrest.2.2.2]
        exact ⟨rfl, rfl, rfl, rfl, rfl, rfl, rfl, rfl, fun met hm => ⟨fun h => absurd h (hnot met hm),
          fun _ _ h => absurd h hband, fun _ _ _ => ⟨rfl, rfl, rfl, rfl⟩⟩⟩
  case motion =>
    have hn : s.nextStable ch block = false := by
      have hmore : ¬ spread (s.nextStab ch block) ≤ 1000 * (ch.division (s.nextNet ch block) : Int) := Int.not_le.mpr hspread
      simp [State.nextStable, hmore]
    obtain ⟨x, hx, hsame, hread'⟩ := reading_unsteady hu hread hn
    have hx' := hsame hrange
    have hchan : x.chan ch = s.nextJoined ch block := by rw [hx', State.setChan_chan]
    obtain ⟨c, hc⟩ : ∃ c, c = { s.nextJoined ch block with stable := false } := ⟨_, rfl⟩
    have hy : leaveStable raiseLoud ch x = raiseQuiet (.scaleMotion ch (s.nextD ch block)) (s.setChan ch c) := by
      rw [leaveStable_raises hx.1 (by rw [hchan]; exact hstable), hchan, hx', setChan_setChan, hc]
      rfl
    have hyc : (raiseQuiet (.scaleMotion ch (s.nextD ch block)) (s.setChan ch c)).chan ch = c := by
      rw [chan_raiseQuiet, State.setChan_chan]
    refine ⟨_, congrArg Host.Outcome.next (hread' _ hy (by rw [hyc, hc])), ?_⟩
    rw [hyc]
    have hrpt := raiseQuiet_rpt_congr (.scaleMotion ch (s.nextD ch block)) (s.setChan ch c) s (State.setChan_link ..)
      (State.setChan_rpt ..) (State.setChan_set ..)
    obtain ⟨echan, erpt, ebag, etxn, -⟩ := rearmed_effects
      ((raiseQuiet (.scaleMotion ch (s.nextD ch block)) (s.setChan ch c)).setChan ch { c with track := 0 }) ch
      ((raiseQuiet (.scaleMotion ch (s.nextD ch block)) (s.setChan ch c)).armedAt ch c.g)
    rw [echan, erpt, ebag, etxn, State.setChan_chan, State.setChan_rpt, State.setChan_bag, State.setChan_txn, hrpt,
      raiseQuiet_bag, raiseQuiet_txn, State.setChan_bag, State.setChan_txn, hc]
    exact ⟨rfl, rfl, rfl, rfl, rfl, rfl, rfl, rfl⟩

end Sys2Proof.Machine
end

