-- ==== Sys2Proof/Proofs/Power/Wakes.lean ====
section
/-! PROOFS. What wakes the lane (section 10.2). -/

namespace Sys2Proof.Machine

/-! ### A wake (R185) -/

theorem wake_standby {tag : Byte} {c : PowerCause} {s : State} (hu : s.unbound) (hm : s.lpm.mode = .standby) :
    wake raiseLoud tag c s = raiseQuiet (.pwrState tag .woken .active c)
      { s with lpm.mode := .active, lpm.gEntry := none, lpm.idle := 0 } := by
  simp only [wake, hm]
  exact raiseLoud_unbound (by exact hu) _

/-- The lane as a wake from DORMANT leaves it, before its notice (R21, R37, R47, R185). -/
def State.warming (s : State) : State :=
  { invalidateZero .b (invalidateZero .p s) with
    lpm.mode := .active, lpm.idle := 0, lpm.gEntry := none, wgt.conv := .warming, wgt.warmAge := 0
    wgt.chanP.init := .waiting, wgt.chanB.init := .waiting }

theorem wake_dormant {tag : Byte} {c : PowerCause} {s : State} (hu : s.unbound) (hm : s.lpm.mode = .dormant) :
    wake raiseLoud tag c s = raiseQuiet (.pwrState tag .woken .active c) s.warming := by
  simp only [wake, hm]
  exact raiseLoud_unbound (s := s.warming) hu _

/-- What a wake from DORMANT makes of a channel. -/
theorem warming_chan (s : State) (ch : Channel) : (s.warming.chan ch).zeroValid = false ∧
    (s.warming.chan ch).suspended = false ∧ (s.warming.chan ch).d = none ∧ (s.warming.chan ch).init = .waiting ∧
    (s.warming.chan ch).k = (s.chan ch).k ∧ (s.warming.chan ch).op = (s.chan ch).op := by
  cases ch <;> exact ⟨rfl, rfl, rfl, rfl, rfl, rfl⟩

/-- A wake from DORMANT is the same with a request in execution. -/
theorem warming_executing (s : State) (q : Request) :
    (s.executing q).warming = { s.warming with link.inExec := some q, lpm.idle := 0 } := rfl

/-- The lane as a wake leaves it, before its notice. -/
def State.woken (s : State) : State :=
  match s.lpm.mode with
  | .dormant => s.warming
  | _ => { s with lpm.mode := .active, lpm.gEntry := none, lpm.idle := 0 }

theorem woken_standby {s : State} (h : s.lpm.mode = .standby) :
    s.woken = { s with lpm.mode := .active, lpm.gEntry := none, lpm.idle := 0 } := by rw [State.woken, h]

theorem woken_dormant {s : State} (h : s.lpm.mode = .dormant) : s.woken = s.warming := by rw [State.woken, h]

theorem woken_effects {s : State} : s.woken.link = s.link ∧ s.woken.rpt = s.rpt ∧ s.woken.set = s.set ∧
    s.woken.lpm.mode = .active ∧ s.woken.lpm.entry = s.lpm.entry := by
  unfold State.woken
  split <;> exact ⟨rfl, rfl, rfl, rfl, rfl⟩

/-- A request that wakes the lane has the effect it would have once the lane is awake (R185). -/
theorem exec_wakes {i : Instr} {tag code : Byte} {payload : List Byte} {s : State} (hw : i.wf = true)
    (he : encodeRequest i = some (tag, code, payload)) (hwakes : wakesLane code = true) (h : s.linkFree) (hu : s.unbound)
    (hentry : s.lpm.entry = none) (hm : s.lpm.mode ≠ .active) :
    exec i s = exec i (raiseQuiet (.pwrState tag .woken .active (wakeCause code)) s.woken) := by
  obtain ⟨elink, erpt, eset, emode, eentry⟩ := woken_effects (s := s)
  have hfree : s.woken.linkFree := by
    simp only [State.linkFree, elink]
    exact h
  obtain ⟨q, hq⟩ : ∃ q : Request, q = { tag := tag, code := code, payload := payload } := ⟨_, rfl⟩
  have hwake : wake raiseLoud tag (wakeCause code) (s.executing q) =
      (raiseQuiet (.pwrState tag .woken .active (wakeCause code)) s.woken).executing q := by
    refine Eq.trans ?_ (raiseQuiet_frame (.pwrState tag .woken .active (wakeCause code)) s.woken (some q) 0)
    cases hmode : s.lpm.mode with
    | active => exact absurd hmode hm
    | standby => rw [wake_standby (s := s.executing q) hu hmode, woken_standby hmode]
    | dormant => rw [wake_dormant (s := s.executing q) hu hmode, woken_dormant hmode, warming_executing]
  obtain ⟨x, hx⟩ : ∃ x, raiseQuiet (.pwrState tag .woken .active (wakeCause code)) s.woken = x := ⟨_, rfl⟩
  have hxentry : x.lpm.entry = none := by rw [← hx, raiseQuiet_lpm, eentry, hentry]
  have hxmode : x.lpm.mode = .active := by rw [← hx, raiseQuiet_lpm, emode]
  have hfor : wakeFor raiseLoud q { s with link.inExec := some q } = x.executing q := by
    rw [← hx, ← hwake, wakeFor, hq]
    simp only [hwakes, if_true]
  have hcancel : cancelFor raiseLoud q (requestAction i) (x.executing q) = x.executing q := by
    have hnone : ¬ (x.lpm.entry.isSome && cancelsEntry q.code && (requestAction i raiseLoud { x with
        link.inExec := some q, lpm.entry := none, lpm.idle := 0 }).2.accepted) = true := by simp [hxentry]
    exact if_neg hnone
  rw [hx, exec_free hw he h, exec_free hw he (by rw [← hx]; exact raiseQuiet_linkFree hfree), ← hq, execute, hfor,
    hcancel, execute_active hxmode hxentry]

theorem actWake_awake {r : Raise} {s t : State} (h : cancelEntry r .pwrWake s = t) (hm : t.lpm.mode = .active) :
    actWake r s = (t, .reply .ok [0#8] none) := by
  simp only [actWake, h, hm]
  rfl

theorem cancelEntry_none {r : Raise} {c : PowerCause} {s : State} (h : s.lpm.entry = none) : cancelEntry r c s = s := by
  simp only [cancelEntry, h]

/-- PWR_WAKE with the lane awake and no entry pending (R185). -/
theorem exec_wake_active {tag : Byte} {s : State} (h : s.linkFree) (hm : s.lpm.mode = .active) (hentry : s.lpm.entry = none) :
    exec (.pwrWake tag) s = .next (s.answered tag 0x07#8 .ok [0#8]) :=
  exec_answers_of_ready rfl rfl ⟨h, hm, hentry⟩ rfl fun q =>
    actWake_awake (cancelEntry_none (s := s.executing q) hentry) hm

/-- Settles O22, by the event that wakes the lane and the state it wakes from. -/
theorem wakeAsked : Obligations.WakeAsked := by
  refine ⟨fun tag s hs hu => ⟨fun hm hentry => ?standby, fun hm hentry => exec_wake_active hs hm hentry,
      fun e hm he => ?cancels, fun hm hentry => ?dormant⟩,
    fun i tag code payload s hw he hwakes hcode hs hu hentry hm => ?workStandby,
    fun i tag code payload s u hw he hwakes hcode hs hu hentry hm hu' => ?workDormant,
    fun head s hu hm hstate hhead => ?swipe,
    fun block g0 s hu hsteady hstable hop hover hcount hstarted hm hg => ?weight,
    fun p s u hu hm hd hp hmode hr hh hl hu' => ?forced⟩
  case standby =>
    have hfree : s.woken.linkFree := by
      rw [woken_standby hm]
      exact hs
    rw [exec_wakes rfl rfl rfl hs hu hentry (by simp [hm]), exec_wake_active (raiseQuiet_linkFree hfree)
      (by rw [raiseQuiet_lpm, woken_effects.2.2.2.1]) (by rw [raiseQuiet_lpm, woken_effects.2.2.2.2, hentry]), woken_standby hm]
    rfl
  case cancels =>
    obtain ⟨q, hq⟩ : ∃ q : Request, q = { tag := tag, code := 0x07#8, payload := [] } := ⟨_, rfl⟩
    obtain ⟨x, hx⟩ : ∃ x, raiseQuiet (.pwrState e.tag .cancelled .active .pwrWake) { s with lpm.entry := none } = x := ⟨_, rfl⟩
    have hact : actWake raiseLoud (s.executing q) = (x.executing q, .reply .ok [0#8] none) := by
      refine actWake_awake ?_ (by rw [← hx]; simp [hm])
      have hcancel : cancelEntry raiseLoud .pwrWake (s.executing q) = raiseLoud (.pwrState e.tag .cancelled .active .pwrWake)
          { s.executing q with lpm.entry := none } := by
        simp only [cancelEntry, he, hm]
      rw [hcancel, raiseLoud_unbound (by exact hu), ← hx]
      exact raiseQuiet_frame (.pwrState e.tag .cancelled .active .pwrWake) { s with lpm.entry := none } (some q) 0
    have hleft : cancelFor raiseLoud q (requestAction (.pwrWake tag)) (s.executing q) = s.executing q := by
      rw [hq]
      exact if_neg (by simp [cancelsEntry])
    have ⟨_, hexec, _, _, hsoft⟩ := hs
    have hsoft' : (x.executing q).link.softReset = false := by
      rw [← hx]
      exact (raiseQuiet_softReset ..).trans hsoft
    have hexec' : x.link.inExec = none := by
      rw [← hx]
      exact (raiseQuiet_inExec ..).trans hexec
    rw [exec_free rfl rfl hs, ← hq, execute, wakeFor_active (by exact hm)]
    refine congrArg Host.Outcome.next ((congrArg (fun y => conclude q (actWake raiseLoud y)) hleft).trans ?_)
    rw [hact, conclude_reply (t := x) hsoft' (clear_inExec hexec' _), hx, hq]
  case dormant =>
    have hfree : s.woken.linkFree := by
      rw [woken_dormant hm]
      exact hs
    refine ⟨raiseQuiet (.pwrState tag .woken .active .pwrWake) s.woken, ?_, ?_⟩
    · rw [exec_wakes rfl rfl rfl hs hu hentry (by simp [hm]), exec_wake_active (raiseQuiet_linkFree hfree)
        (by rw [raiseQuiet_lpm, woken_effects.2.2.2.1]) (by rw [raiseQuiet_lpm, woken_effects.2.2.2.2, hentry])]
      rfl
    · obtain ⟨elink, erpt, eset, -⟩ := woken_effects (s := s)
      rw [raiseQuiet_lpm, raiseQuiet_wgt, raiseQuiet_txn, raiseQuiet_bag, raiseQuiet_crd, raiseQuiet_drw, raiseQuiet_pen,
        raiseQuiet_set, raiseQuiet_rpt_congr _ _ _ elink erpt eset, woken_dormant hm]
      refine ⟨rfl, rfl, rfl, rfl, rfl, fun ch => ?_, rfl, rfl, rfl, rfl, rfl, rfl, rfl⟩
      rw [chan_raiseQuiet]
      exact warming_chan s ch
  case workStandby =>
    have hcause : wakeCause code = .wakeRequest := if_neg hcode
    rw [exec_wakes hw he hwakes hs hu hentry (by simp [hm]), hcause, woken_standby hm]
  case workDormant =>
    have hcause : wakeCause code = .wakeRequest := if_neg hcode
    obtain ⟨elink, erpt, eset, -⟩ := woken_effects (s := s)
    refine ⟨raiseQuiet (.pwrState tag .woken .active .wakeRequest) s.woken, ?_, ?_, ?_, ?_⟩
    · rw [exec_wakes hw he hwakes hs hu hentry (by simp [hm]), hcause]
    · rw [hu']
      exact raiseQuiet_link_congr _ _ _ elink erpt eset
    · rw [hu']
      exact raiseQuiet_rpt_congr _ _ _ elink erpt eset
    · rw [raiseQuiet_lpm, raiseQuiet_wgt, raiseQuiet_txn, raiseQuiet_bag, raiseQuiet_crd, raiseQuiet_drw, raiseQuiet_pen,
        raiseQuiet_set, raiseQuiet_job, woken_dormant hm]
      refine ⟨rfl, rfl, rfl, rfl, rfl, fun ch => ?_, rfl, rfl, rfl, rfl, rfl, rfl, rfl⟩
      rw [chan_raiseQuiet]
      exact warming_chan s ch
  case swipe =>
    obtain ⟨tr, htr⟩ : ∃ tr, Head.track head = some tr := Option.ne_none_iff_exists'.mp hhead
    obtain ⟨x, hx⟩ : ∃ x, x = setTrack tr { TrackCap.empty with transitions := 1 } (readerTo .reading s) := ⟨_, rfl⟩
    have hkept : x.unbound ∧ x.lpm = s.lpm ∧ x.crd.state = .reading ∧ x.link = s.link ∧ x.rpt = s.rpt ∧ x.set = s.set := by
      rw [hx]
      cases tr <;> exact ⟨hu, rfl, rfl, rfl, rfl, rfl⟩
    obtain ⟨hxu, hxm, hxc, elink, erpt, eset⟩ := hkept
    have hdone : swipeStart raiseLoud head s = raiseQuiet (.pwrState 0#8 .woken .active .swipe)
        { x with lpm.mode := .active, lpm.gEntry := none, lpm.idle := 0 } := by
      simp only [swipeStart, hstate, htr]
      rw [← hx, wake_standby hxu (by rw [hxm, hm])]
    refine ⟨_, congrArg Host.Outcome.next hdone, ?_⟩
    rw [raiseQuiet_lpm, raiseQuiet_crd]
    exact ⟨rfl, rfl, hxc, raiseQuiet_rpt_congr _ _ _ elink erpt eset⟩
  case weight =>
    obtain ⟨z, hz, -, hread⟩ := reading_tracked hu hsteady hcount
    have hchan : z.chan .p = s.nextTracked .p block := hz.chan .p
    have hg' : (rearm z).wgt.chanP.g = s.nextG .p block := by
      rw [rearm_eq]
      exact congrArg Chan.g hchan
    have hlpm : (rearm z).lpm = s.lpm := by
      rw [rearm_eq]
      exact hz.lpm
    have hru : (rearm z).unbound := by
      rw [rearm_eq]
      exact hz.1
    obtain ⟨y, hy⟩ : ∃ y, powerStable raiseLoud (rearm z) = y := ⟨_, rfl⟩
    have hpower := hy
    rw [powerStable, if_pos (by rw [hlpm, hm]), hlpm, hg] at hpower
    simp only [hg'] at hpower
    have hmode : y.lpm.mode = (if 40000 ≤ (s.nextG .p block - g0).natAbs then .active else .standby) ∧ y.unbound ∧
        y.sst.started = true := by
      have hsst : (rearm z).sst.started = true := by
        rw [rearm_eq]
        exact (congrArg Store.started hz.sst).trans hstarted
      split at hpower
      · next hfar =>
        rw [if_pos hfar, ← hpower, wake_standby hru (by rw [hlpm, hm])]
        exact ⟨by rw [raiseQuiet_lpm], raiseQuiet_unbound (by exact hru) _, by rw [raiseQuiet_sst]; exact hsst⟩
      · next hnear =>
        rw [if_neg hnear, ← hpower]
        exact ⟨by rw [hlpm, hm], hru, hsst⟩
    have hover' : z.attemptOver .p := fun age => by
      rw [hchan]
      exact hover age
    have hdone : readBlock raiseLoud .p block s = raiseQuiet (.scaleStable .p (y.chan .p).d) y := by
      have hrec : receivers raiseLoud .p none true true z = y := hy
      rw [hread, show (s.chan .p).op = none from hop, show (s.chan .p).stable = false from hstable, readingEnds_none hover',
        Bool.not_false, hrec]
      simp only [if_true, Bool.true_and]
      rw [raiseLoud_unbound hmode.2.1, raiseQuiet_sst, hmode.2.2, Bool.not_true, if_neg Bool.false_ne_true]
    refine ⟨_, congrArg Host.Outcome.next hdone, ?_⟩
    rw [raiseQuiet_lpm]
    exact hmode.1
  case forced =>
    have hmode' : (s.port p).settled.mode = .closed := hmode
    have hretry : (s.port p).settled.retry = false := hr
    obtain ⟨v, hv⟩ : ∃ v, v = { s.setPort p (s.port p).settled.opened with rpt.latched := s.rpt.latched.force p } := ⟨_, rfl⟩
    have hvu : v.unbound := by
      rw [hv]
      cases p <;> exact hu
    have hv' : v.link = s.link ∧ v.rpt = { s.rpt with latched := s.rpt.latched.force p } ∧ v.set = s.set ∧ v.lpm = s.lpm := by
      rw [hv]
      cases p <;> exact ⟨rfl, rfl, rfl, rfl⟩
    obtain ⟨elink, erpt, eset, elpm⟩ := hv'
    obtain ⟨x, hx⟩ : ∃ x, raiseQuiet (.drawerForced p .opened) v = x := ⟨_, rfl⟩
    have hxu : x.unbound := by rw [← hx]; exact raiseQuiet_unbound hvu _
    have hxlpm : x.lpm = s.lpm := by rw [← hx, raiseQuiet_lpm, elpm]
    have hxport : (x.port p).mode = .opened := by
      rw [← hx, port_raiseQuiet, hv]
      cases p <;> rfl
    have hdone : senseDebounced raiseLoud p s = raiseQuiet (.pwrState 0#8 .woken .active .forcedDrawer) x.woken := by
      rw [senseDebounced_changed hd hp hh, opens_level hl, senseEvent, State.setPort_port, hmode']
      simp only [Bool.not_true, Bool.false_eq_true, if_false, hretry]
      rw [forcedOpen_eq (by rw [State.setPort_port, hmode']; decide), State.setPort_port, setPort_setPort, State.setPort_rpt,
        ← hv, raiseLoud_unbound hvu, hx]
      cases hxm : x.lpm.mode with
      | active => exact absurd (hxlpm ▸ hxm) hm
      | standby => rw [wake_standby hxu hxm, woken_standby hxm]
      | dormant => rw [wake_dormant hxu hxm, woken_dormant hxm]
    obtain ⟨wlink, wrpt, wset, wmode, -⟩ := woken_effects (s := x)
    have hport : (x.woken.port p).mode = .opened := by
      rw [← hxport]
      unfold State.woken
      split <;> cases p <;> rfl
    refine ⟨_, congrArg Host.Outcome.next hdone, by rw [raiseQuiet_lpm, wmode], by rw [port_raiseQuiet, hport], ?_, fun hdorm => ?_⟩
    · rw [hu']
      refine raiseQuiet_rpt_congr _ _ _ (wlink.trans ?_) (wrpt.trans ?_) (wset.trans ?_)
      · rw [← hx]
        exact raiseQuiet_link_congr _ _ _ elink erpt eset
      · rw [← hx]
        exact raiseQuiet_rpt_congr _ _ _ elink erpt eset
      · rw [← hx, raiseQuiet_set, raiseQuiet_set, eset]
    · rw [raiseQuiet_wgt, woken_dormant (by rw [hxlpm, hdorm])]
      refine ⟨rfl, rfl, fun ch => ?_⟩
      obtain ⟨hzero, -, -, hinit, -⟩ := warming_chan x ch
      rw [chan_raiseQuiet]
      exact ⟨hzero, hinit⟩

end Sys2Proof.Machine
end

