-- ==== Sys2Proof/Proofs/Bag/Settles.lean ====
section
/-! PROOFS. How a stable event of channel B is judged (sections 4.2 to 4.6). -/

namespace Sys2Proof.Machine

/-! ### The monitor at a stable event (R68 to R70, R78 to R80) -/

/-- The entries a settle is judged against: those of its sign. -/
def State.signed (s : State) (delta : Int) : List Entry :=
  s.bag.entries.filter fun e => e.remove == decide (delta < 0)

/-- The verdict of a bad settle (R79, R80). -/
def State.badVerdict (s : State) (delta : Int) : Verdict :=
  if delta < 0 then .removal else if (s.signed delta).isEmpty then .unexpected else .mismatch

/-- The lane once a settle matches an entry, before BAG_MATCH (R78, R79). -/
def State.matchedBy (s : State) (e : Entry) (delta d : Int) : State :=
  { s with
    bag.rb := d, bag.entries := s.bag.entries.filter fun x => x.slot != e.slot
    bag.last := .matched, bag.lastDelta := delta
    txn.items := s.txn.items.map fun (it : Item) => if it.slot = e.slot then
      (if e.remove then { it with bag := .removed }
       else { it with bag := .bagged, matched := some (delta.natAbs, e.tol) }) else it }

/-- The lane once a settle is bad, before its notice (R80). -/
def State.heldBy (s : State) (delta d : Int) : State :=
  { s with
    bag.watch := .hold, bag.rb := d, bag.last := s.badVerdict delta, bag.lastDelta := delta
    bag.hold := some (match s.bag.hold with
      | none => { verdict := s.badVerdict delta, delta := delta, count := 1 }
      | some h => { h with count := min (h.count + 1) 255 }) }

theorem badVerdict_cases (s : State) (delta : Int) :
    s.badVerdict delta = .removal ∨ s.badVerdict delta = .unexpected ∨ s.badVerdict delta = .mismatch := by
  unfold State.badVerdict
  split
  · exact .inl rfl
  · split
    · exact .inr (.inl rfl)
    · exact .inr (.inr rfl)

/-- A settle is judged: the entry it matches, or the verdict it draws. -/
theorem judgeSettle_eq {delta d : Int} {s : State} (hu : s.unbound) :
    judgeSettle raiseLoud delta d s =
      match (s.signed delta).find? fun e => e.fits delta with
      | some e => raiseQuiet (.bagMatch e.slot e.remove delta e.weight e.overdue) (s.matchedBy e delta d)
      | none => raiseQuiet (badNotice (s.badVerdict delta) delta d (s.signed delta).length (decide (s.bag.watch = .hold)))
          (s.heldBy delta d) := by
  have hsigned : (s.bag.entries.filter fun e => e.remove == decide (delta < 0)) = s.signed delta := rfl
  have hverdict : (if decide (delta < 0) = true then Verdict.removal else if (s.signed delta).isEmpty = true then .unexpected
      else .mismatch) = s.badVerdict delta := by
    simp only [decide_eq_true_eq]
    rfl
  unfold judgeSettle
  simp only [hsigned, hverdict]
  cases (s.signed delta).find? fun e => e.fits delta with
  | some e => exact raiseLoud_unbound (s := s.matchedBy e delta d) hu _
  | none =>
    simp only [bagBad]
    rw [raiseLoud_unbound (by exact hu)]
    unfold State.heldBy
    cases s.bag.hold <;> rfl

/-- In WATCH and in HOLD a change of the threshold at least is a settle (R69). -/
theorem bagStable_settle {d : Int} {s : State} (hd : s.wgt.chanB.d = some d) (hw : s.bag.watch ≠ .off)
    (h : s.set.bagThreshold ≤ (d - s.bag.rb).natAbs) :
    bagStable raiseLoud s = judgeSettle raiseLoud (d - s.bag.rb) d s := by
  unfold bagStable
  rw [hd]
  cases hwatch : s.bag.watch with
  | off => exact absurd hwatch hw
  | watch => exact if_pos h
  | hold => exact if_pos h

/-- A smaller change is none (R69). -/
theorem bagStable_below {d : Int} {s : State} (hd : s.wgt.chanB.d = some d) (hw : s.bag.watch ≠ .off)
    (h : (d - s.bag.rb).natAbs < s.set.bagThreshold) : bagStable raiseLoud s = s := by
  unfold bagStable
  rw [hd]
  cases hwatch : s.bag.watch with
  | off => exact absurd hwatch hw
  | watch => exact if_neg (Nat.not_le.mpr h)
  | hold => exact if_neg (Nat.not_le.mpr h)

theorem bagStable_off {d : Int} {s : State} (hd : s.wgt.chanB.d = some d) (hw : s.bag.watch = .off) :
    bagStable raiseLoud s = { s with bag.rb := d } := by
  unfold bagStable
  rw [hd, hw]

theorem bagStable_none {s : State} (hd : s.wgt.chanB.d = none) : bagStable raiseLoud s = s := by
  unfold bagStable
  rw [hd]

/-- A stable event of B is judged on the monitor, the items, the threshold and the D alone, and it changes the monitor,
the items, the link and the report unit alone. -/
theorem bagStable_keeps {s : State} (hu : s.unbound) : (bagStable raiseLoud s).unbound ∧
    ∃ b i l q, bagStable raiseLoud s = { s with bag := b, txn.items := i, link := l, rpt := q } := by
  have hraise (n : Notice) (x : State) (hx : x.unbound) (h : ∃ b i, x = { s with bag := b, txn.items := i }) :
      (raiseQuiet n x).unbound ∧ ∃ b i l q, raiseQuiet n x = { s with bag := b, txn.items := i, link := l, rpt := q } := by
    obtain ⟨b, i, rfl⟩ := h
    obtain ⟨l, q, h'⟩ := raiseQuiet_rest n { s with bag := b, txn.items := i }
    exact ⟨raiseQuiet_unbound hx n, b, i, l, q, h'⟩
  have hself : s.unbound ∧ ∃ b i l q, s = { s with bag := b, txn.items := i, link := l, rpt := q } :=
    ⟨hu, s.bag, s.txn.items, s.link, s.rpt, rfl⟩
  cases hd : s.wgt.chanB.d with
  | none =>
    rw [bagStable_none hd]
    exact hself
  | some d =>
    by_cases hw : s.bag.watch = .off
    · rw [bagStable_off hd hw]
      exact ⟨hu, _, s.txn.items, s.link, s.rpt, rfl⟩
    · by_cases hthr : s.set.bagThreshold ≤ (d - s.bag.rb).natAbs
      · rw [bagStable_settle hd hw hthr, judgeSettle_eq hu]
        split
        · exact hraise _ _ hu ⟨_, _, rfl⟩
        · exact hraise _ _ hu ⟨_, s.txn.items, rfl⟩
      · rw [bagStable_below hd hw (Nat.not_le.mp hthr)]
        exact hself

theorem bagStable_congr {x y : State} (hx : x.unbound) (hy : y.unbound) (hbag : x.bag = y.bag) (htxn : x.txn = y.txn)
    (hset : x.set = y.set) (hd : x.wgt.chanB.d = y.wgt.chanB.d) :
    (bagStable raiseLoud x).bag = (bagStable raiseLoud y).bag ∧ (bagStable raiseLoud x).txn = (bagStable raiseLoud y).txn := by
  have hsigned (delta : Int) : x.signed delta = y.signed delta := by rw [State.signed, State.signed, hbag]
  have hverdict (delta : Int) : x.badVerdict delta = y.badVerdict delta := by rw [State.badVerdict, State.badVerdict, hsigned]
  cases hyd : y.wgt.chanB.d with
  | none =>
    rw [bagStable_none (hd.trans hyd), bagStable_none hyd]
    exact ⟨hbag, htxn⟩
  | some d =>
    have hxd := hd.trans hyd
    by_cases hw : y.bag.watch = .off
    · rw [bagStable_off hxd (hbag ▸ hw), bagStable_off hyd hw]
      exact ⟨by rw [hbag], htxn⟩
    · by_cases hthr : y.set.bagThreshold ≤ (d - y.bag.rb).natAbs
      · rw [bagStable_settle hxd (hbag ▸ hw) (by rw [hset, hbag]; exact hthr), bagStable_settle hyd hw hthr,
          judgeSettle_eq hx, judgeSettle_eq hy, hsigned, hbag]
        split
        · rw [raiseQuiet_bag, raiseQuiet_bag, raiseQuiet_txn, raiseQuiet_txn]
          unfold State.matchedBy
          rw [hbag, htxn]
          exact ⟨rfl, rfl⟩
        · rw [raiseQuiet_bag, raiseQuiet_bag, raiseQuiet_txn, raiseQuiet_txn]
          unfold State.heldBy
          rw [hbag, hverdict, htxn]
          exact ⟨rfl, rfl⟩
      · rw [bagStable_below hxd (hbag ▸ hw) (by rw [hset, hbag]; exact Nat.not_le.mp hthr), bagStable_below hyd hw
          (Nat.not_le.mp hthr)]
        exact ⟨hbag, htxn⟩

/-- Settles O35, by the watch, the size of the change and the entries of its sign. -/
theorem settleJudged : Obligations.SettleJudged := by
  refine ⟨fun d s hd hu => ⟨fun hw => bagStable_off hd hw, fun hw hsmall => bagStable_below hd hw hsmall,
      fun pre e post hw hthr hentries hother hsign hfit hfirst => ?matched, fun hw hthr hnone => ?bad⟩,
    fun block s u hu hstarted hsteady hop hover hcount hu' => ?reading⟩
  case matched =>
    have hneg : (d - s.bag.rb < 0) ↔ d < s.bag.rb := by omega
    have hremove : e.remove = decide (d - s.bag.rb < 0) := by
      rw [Bool.eq_iff_iff, decide_eq_true_eq, hneg]
      exact hsign
    have hsigned : s.signed (d - s.bag.rb) = (pre.filter fun x => x.remove == decide (d - s.bag.rb < 0)) ++
        e :: (post.filter fun x => x.remove == decide (d - s.bag.rb < 0)) := by
      rw [State.signed, hentries, List.filter_append, List.filter_cons, if_pos (by rw [hremove]; exact beq_self_eq_true _)]
    have hfind : (s.signed (d - s.bag.rb)).find? (fun x => x.fits (d - s.bag.rb)) = some e := by
      rw [hsigned]
      refine find_append_cons _ _ _ _ (decide_eq_true hfit) fun x hx => ?_
      obtain ⟨hmem, hsame⟩ := List.mem_filter.mp hx
      have hx' : x.remove = e.remove := by rw [hremove]; exact eq_of_beq hsame
      exact decide_eq_false (Nat.not_le.mpr (hfirst x hmem hx'))
    have hfilter : (s.bag.entries.filter fun x => x.slot != e.slot) = pre ++ post := by
      rw [hentries]
      exact filter_slot pre post e e.slot rfl hother
    refine ⟨_, rfl, ?_⟩
    rw [bagStable_settle hd hw hthr, judgeSettle_eq hu, hfind]
    simp only [raiseQuiet_bag, raiseQuiet_txn]
    refine ⟨?_, rfl, raiseQuiet_rpt_congr _ _ _ rfl rfl rfl⟩
    unfold State.matchedBy
    simp only [hfilter]
  case bad =>
    have hneg : (d - s.bag.rb < 0) ↔ d < s.bag.rb := by omega
    have hfind : (s.signed (d - s.bag.rb)).find? (fun x => x.fits (d - s.bag.rb)) = none := by
      refine List.find?_eq_none.mpr fun x hx => ?_
      obtain ⟨hmem, hsame⟩ := List.mem_filter.mp hx
      have hx' : x.remove = decide (d < s.bag.rb) := by
        rw [eq_of_beq hsame]
        simp only [hneg]
      simpa [Entry.fits] using hnone x hmem hx'
    have hempty : ¬ (d < s.bag.rb) →
        ((s.signed (d - s.bag.rb)).isEmpty = !(s.bag.entries.any fun x => !x.remove)) := fun hpos => by
      have hsigned : s.signed (d - s.bag.rb) = s.bag.entries.filter fun x => !x.remove := by
        simp [State.signed, hneg, hpos]
      rw [hsigned, Bool.eq_iff_iff]
      simp [List.isEmpty_iff, List.filter_eq_nil_iff]
    have hverdict : s.badVerdict (d - s.bag.rb) = (if d < s.bag.rb then Verdict.removal
        else if s.bag.entries.any (fun x => !x.remove) then .mismatch else .unexpected) := by
      unfold State.badVerdict
      simp only [hneg]
      by_cases hpos : d < s.bag.rb
      · rw [if_pos hpos, if_pos hpos]
      · rw [if_neg hpos, if_neg hpos, hempty hpos]
        cases s.bag.entries.any fun x => !x.remove <;> rfl
    refine ⟨_, _, rfl, ?_, rfl, ?_⟩
    all_goals
      rw [bagStable_settle hd hw hthr, judgeSettle_eq hu, hfind]
    · exact raiseQuiet_txn ..
    · rw [← hverdict]
      refine ⟨fun n held hn hheld => ?_, ?_⟩
      · have hcount : (s.signed (d - s.bag.rb)).length = n := by
          rw [hn, List.countP_eq_length_filter]
          simp only [State.signed, hneg]
        simp only [hcount, ← hheld]
        refine (raiseQuiet_rpt_congr _ (s.heldBy (d - s.bag.rb) d) s rfl rfl rfl).trans ?_
        rcases badVerdict_cases s (d - s.bag.rb) with h | h | h <;> rw [h] <;> rfl
      · rw [raiseQuiet_bag]
        rfl
  case reading =>
    obtain ⟨z, hz, -, hread⟩ := reading_tracked hu hsteady hcount
    have hchan : z.chan .b = s.nextTracked .b block := hz.chan .b
    have hover' : z.attemptOver .b := fun age => by
      rw [hchan]
      exact hover age
    rw [show (s.chan .b).op = none from hop] at hread
    have hbag : z.bag = s.bag := hz.bag
    have htxn : z.txn = s.txn := hz.txn
    cases hstable : s.wgt.chanB.stable with
    | true =>
      rw [show (s.chan .b).stable = true from hstable, Bool.not_true, readingEnds_quiet] at hread
      exact ⟨_, congrArg Host.Outcome.next hread, fun h => absurd h (by decide), fun _ => ⟨hbag, htxn⟩⟩
    | false =>
      have hd : z.wgt.chanB.d = s.nextD .b block := congrArg Chan.d hchan
      obtain ⟨y, hy⟩ : ∃ y, bagStable raiseLoud z = y := ⟨_, rfl⟩
      obtain ⟨hyu, b, i, l, q, hkeep⟩ := bagStable_keeps hz.1
      obtain ⟨hsame, hsame'⟩ := bagStable_congr (x := z) (y := { s with wgt.chanB.d := s.nextD .b block }) hz.1 hu hbag htxn
        hz.set hd
      rw [hy] at hyu hkeep hsame hsame'
      have hstarted' : y.sst.started = true := by
        rw [hkeep]
        exact (congrArg Store.started hz.sst).trans hstarted
      have hrec : receivers raiseLoud .b none true true z = y := hy
      have hdone : readBlock raiseLoud .b block s = raiseQuiet (.scaleStable .b (y.chan .b).d) y := by
        rw [hread, show (s.chan .b).stable = false from hstable, readingEnds_none hover', Bool.not_false, hrec]
        simp only [if_true, Bool.true_and]
        rw [raiseLoud_unbound hyu, raiseQuiet_sst, hstarted', Bool.not_true, if_neg Bool.false_ne_true]
      refine ⟨_, congrArg Host.Outcome.next hdone, fun _ => ?_, fun h => absurd h (by decide)⟩
      rw [raiseQuiet_bag, raiseQuiet_txn, hu', hsame, hsame']
      exact ⟨rfl, rfl⟩

end Sys2Proof.Machine
end

