-- ==== Sys2Proof/Proofs/Weigh/Operations.lean ====
section
/-! PROOFS. The operations that a STABLE reading judges (sections 2.8, 2.9, 3.1 and 3.2). -/

namespace Sys2Proof.Machine

/-! ### What follows an operation at its judging reading -/

theorem State.Noticed.job {u x : State} (h : u.Noticed x) : x.job = u.job := by
  obtain ⟨_, l, q, hx⟩ := h
  rw [hx]

/-- Whether an operation acts among the receivers of a reading of P. -/
def OpKind.ofP : OpKind → Bool
  | .tare | .capture _ _ _ => true
  | _ => false

/-- A wake by a stable event of P leaves the channels, the store and the jobs alone. -/
theorem powerStable_keeps {s : State} (hu : s.unbound) : (powerStable raiseLoud s).unbound ∧
    (powerStable raiseLoud s).wgt = s.wgt ∧ (powerStable raiseLoud s).sst = s.sst ∧
    (powerStable raiseLoud s).job = s.job ∧ (powerStable raiseLoud s).txn = s.txn := by
  unfold powerStable
  split
  · next hm =>
    split
    · exact ⟨hu, rfl, rfl, rfl, rfl⟩
    · split
      · rw [wake_standby hu hm]
        exact ⟨raiseQuiet_unbound (by exact hu) _, raiseQuiet_wgt .., raiseQuiet_sst .., raiseQuiet_job .., raiseQuiet_txn ..⟩
      · exact ⟨hu, rfl, rfl, rfl, rfl⟩
  · exact ⟨hu, rfl, rfl, rfl, rfl⟩

/-- The receivers after an operation that is not theirs: the interlock, the power manager and the monitor. -/
theorem receivers_keeps {ch : Channel} {w : Option Op} {event : Bool} {s : State} (hu : s.unbound)
    (hk : ∀ o, w = some o → o.kind.ofP = false) :
    (receivers raiseLoud ch w true event s).unbound ∧
      (receivers raiseLoud ch w true event s).wgt = { s.wgt with armed := s.armedAt ch (s.chan ch).g } ∧
      (receivers raiseLoud ch w true event s).sst = s.sst ∧ (receivers raiseLoud ch w true event s).job = s.job ∧
      (event = false → (receivers raiseLoud ch w true event s).rpt = s.rpt ∧
        (receivers raiseLoud ch w true event s).bag = s.bag) := by
  cases ch with
  | p =>
    have harmed : s.armedAt .p (s.chan .p).g = (s.wgt.armed || decide (s.wgt.chanP.g < 40000)) := by
      rw [State.armedAt, decide_eq_true rfl, Bool.true_and]
      rfl
    have hops : judgePOps raiseLoud w (rearm s) = rearm s := by
      unfold judgePOps
      cases w with
      | none => rfl
      | some o =>
        have hkind := hk o rfl
        cases h : o.kind <;> simp [h, OpKind.ofP] at hkind ⊢
    have hrec : receivers raiseLoud .p w true event s = if event then powerStable raiseLoud (rearm s) else rearm s := by
      unfold receivers
      simp only [if_true, hops]
    have hru : (rearm s).unbound := by
      rw [rearm_eq]
      exact hu
    rw [hrec, harmed]
    cases event with
    | false =>
      rw [rearm_eq]
      exact ⟨hu, rfl, rfl, rfl, fun _ => ⟨rfl, rfl⟩⟩
    | true =>
      obtain ⟨h1, h2, h3, h4, -⟩ := powerStable_keeps hru
      rw [if_pos rfl]
      exact ⟨h1, by rw [h2, rearm_eq], by rw [h3, rearm_eq], by rw [h4, rearm_eq], fun h => absurd h (by decide)⟩
  | b =>
    have harmed : s.armedAt .b (s.chan .b).g = s.wgt.armed := by
      rw [State.armedAt, decide_eq_false (by decide), Bool.false_and, Bool.or_false]
    have hrec : receivers raiseLoud .b w true event s = if event then bagStable raiseLoud s else s := rfl
    rw [hrec, harmed]
    cases event with
    | false => exact ⟨hu, rfl, rfl, rfl, fun _ => ⟨rfl, rfl⟩⟩
    | true =>
      obtain ⟨h1, b, i, l, q, h2⟩ := bagStable_keeps hu
      rw [if_pos rfl]
      exact ⟨h1, by rw [h2], by rw [h2], by rw [h2], fun h => absurd h (by decide)⟩

/-- The channel once its stability window has restarted. -/
def Chan.restarted (c : Chan) : Chan := { c with stab := [], stable := false }

/-- A restart of the stability window, with the motion event where the channel was STABLE (R33, R34). -/
theorem restartStability_keeps {ch : Channel} {s : State} (hu : s.unbound) :
    (s.setChan ch (s.chan ch).restarted).Noticed (restartStability raiseLoud ch s) := by
  obtain ⟨c, hc⟩ : ∃ c, c = { s.chan ch with stab := [] } := ⟨_, rfl⟩
  have hcu : (s.setChan ch c).unbound := setChan_unbound hu _ _
  have hrestart : restartStability raiseLoud ch s = leaveStable raiseLoud ch (s.setChan ch c) := by rw [hc]; rfl
  have hchan : (s.setChan ch c).chan ch = c := State.setChan_chan ..
  cases hst : (s.chan ch).stable with
  | false =>
    have hsame : (s.chan ch).restarted = c := by rw [hc, Chan.restarted, ← hst]
    rw [hrestart, leaveStable_calm (by rw [hchan, hc]; exact hst), hsame]
    exact State.Noticed.refl hcu
  | true =>
    have hsame : { c with stable := false } = (s.chan ch).restarted := by rw [hc]; rfl
    rw [hrestart, leaveStable_raises hcu (by rw [hchan, hc]; exact hst), hchan, setChan_setChan, hsame]
    exact (State.Noticed.refl (setChan_unbound hu _ _)).raised _

/-- The ends of a STABLE reading once a zero operation or a calibration has acted. -/
theorem readingEnds_operation {ch : Channel} {o : Op} {event wrote : Bool} {z y : State} (hover : z.attemptOver ch)
    (hk : o.kind.ofP = false) (hops : judgeZeroOps raiseLoud ch (some o) z = (y, wrote)) (hu : y.unbound)
    (hs : y.sst.started = true) :
    (readingEnds raiseLoud ch (some o) event z).chan ch = (if wrote then (y.chan ch).restarted else y.chan ch) ∧
      (readingEnds raiseLoud ch (some o) event z).wgt.tare = y.wgt.tare ∧
      (readingEnds raiseLoud ch (some o) event z).sst = y.sst ∧
      (event = false → wrote = false → (readingEnds raiseLoud ch (some o) event z).rpt = y.rpt ∧
        (readingEnds raiseLoud ch (some o) event z).bag = y.bag) := by
  obtain ⟨hru, hrw, hrs, -, hrq⟩ := receivers_keeps (event := event) (w := some o) hu
    (fun o' ho => Option.some.inj ho ▸ hk) (ch := ch)
  obtain ⟨x, hx⟩ : ∃ x, receivers raiseLoud ch (some o) true event y = x := ⟨_, rfl⟩
  rw [hx] at hru hrw hrs hrq
  have hxchan : x.chan ch = y.chan ch := by
    cases ch <;> simp only [State.chan, hrw]
  obtain ⟨v, hv⟩ : ∃ v, (if event then raiseLoud (.scaleStable ch (x.chan ch).d) x else x) = v := ⟨_, rfl⟩
  have hvx : x.Noticed v ∧ (event = false → v = x) := by
    rw [← hv]
    cases event with
    | false => exact ⟨State.Noticed.refl hru, fun _ => rfl⟩
    | true =>
      rw [if_pos rfl, raiseLoud_unbound hru]
      exact ⟨(State.Noticed.refl hru).raised _, fun h => absurd h (by decide)⟩
  have hdone : readingEnds raiseLoud ch (some o) event z = if wrote then restartStability raiseLoud ch v else v := by
    unfold readingEnds
    rw [judgeAttempt_over hover, ite_self]
    simp only [hops, hx, hv]
    refine if_neg ?_
    have hstarted : (if wrote then restartStability raiseLoud ch v else v).sst.started = true := by
      have hvs : v.sst.started = true := by rw [hvx.1.sst, hrs, hs]
      cases wrote with
      | false => exact hvs
      | true =>
        rw [if_pos rfl, (restartStability_keeps hvx.1.1).sst, State.setChan_sst]
        exact hvs
    simp [hstarted]
  rw [hdone]
  cases wrote with
  | false =>
    refine ⟨by rw [if_neg Bool.false_ne_true, if_neg Bool.false_ne_true, hvx.1.chan, hxchan], ?_, ?_, fun he _ => ?_⟩
    · rw [if_neg Bool.false_ne_true, hvx.1.wgt, hrw]
    · rw [if_neg Bool.false_ne_true, hvx.1.sst, hrs]
    · rw [if_neg Bool.false_ne_true, hvx.2 he]
      exact hrq he
  | true =>
    have hrestart := restartStability_keeps (ch := ch) hvx.1.1
    refine ⟨?_, ?_, ?_, fun _ h => absurd h (by decide)⟩
    · rw [if_pos rfl, if_pos rfl, hrestart.chan, State.setChan_chan, hvx.1.chan, hxchan]
    · rw [if_pos rfl, hrestart.wgt, setChan_tare, hvx.1.wgt, hrw]
    · rw [if_pos rfl, hrestart.sst, State.setChan_sst, hvx.1.sst, hrs]

/-! ### The queue after a notice (R188) -/

theorem offerOnce_latched (r : Report) (n : Notice) (l : Latched) :
    ({ r with latched := l } : Report).offerOnce n = ({ (r.offerOnce n).1 with latched := l }, (r.offerOnce n).2) := by
  have hprio (q : Queued) : ({ r with latched := l } : Report).prio q = r.prio q := rfl
  have hprioOf (c : Nat) : ({ r with latched := l } : Report).prioOf c = r.prioOf c := rfl
  unfold Report.offerOnce
  simp only [hprio, hprioOf]
  split
  · rfl
  · split
    · rfl
    · split
      · rfl
      · split
        · rfl
        · rfl

/-- What a notice makes of the queue does not depend on the latched conditions but NOTICE_LOST. -/
theorem offer_latched (r : Report) (n : Notice) (l : Latched) (h : l.noticeLost = r.latched.noticeLost) :
    (({ r with latched := l } : Report).offer n).queue = (r.offer n).queue := by
  obtain ⟨q, k, hkept⟩ := r.offerOnce_eq n
  have hsame : (r.offerOnce n).1.latched = r.latched := by rw [hkept]
  unfold Report.offer
  rw [offerOnce_latched]
  revert hsame
  obtain ⟨r', o⟩ := r.offerOnce n
  intro hsame
  cases o with
  | none => rfl
  | some lost =>
    have hlost : r'.latched.noticeLost = l.noticeLost := (congrArg Latched.noticeLost hsame).trans h.symm
    simp only [hlost]
    split
    · rfl
    · have h1 := offerOnce_latched r' (.noticeLost lost) { l with noticeLost := some lost }
      have h2 := offerOnce_latched r' (.noticeLost lost) { r'.latched with noticeLost := some lost }
      simp only [h1, h2]

theorem arbitrate_queue_congr (s t : State) (h1 : s.link = t.link) (h2 : s.rpt.queue = t.rpt.queue) (h3 : s.set = t.set) :
    (arbitrate s).rpt.queue = (arbitrate t).rpt.queue := by
  unfold arbitrate
  rw [h1, h2, h3]
  repeat' split
  all_goals first | exact h2 | rfl

/-- The queue after a notice depends on the link, the settings and the report unit apart from the latched conditions but
NOTICE_LOST. -/
theorem raiseQuiet_queue_congr (n : Notice) (s t : State) (l : Latched) (h1 : s.link = t.link)
    (h2 : s.rpt = { t.rpt with latched := l }) (h3 : s.set = t.set) (hl : l.noticeLost = t.rpt.latched.noticeLost) :
    (raiseQuiet n s).rpt.queue = (raiseQuiet n t).rpt.queue := by
  refine arbitrate_queue_congr _ _ h1 ?_ h3
  rw [show ({ s with rpt := s.rpt.offer n } : State).rpt = s.rpt.offer n from rfl, h2]
  exact offer_latched t.rpt n l hl

/-! ### SCALE_ZERO at its judging reading (R40, R41) -/

/-- The channel once SCALE_ZERO has moved or established its zero. -/
def Chan.zeroed (c : Chan) (ch : Channel) (tare : Nat) (zc : Int) : Chan :=
  { { c with zeroValid := true, zc := zc, zw := c.w }.weighed ch tare with suspended := false, track := 0, op := none }

/-- The lane once SCALE_ZERO has moved or established the zero of a channel, before ZERO_DONE. -/
def State.zeroSet (s : State) (ch : Channel) (zc : Int) : State :=
  freeSlot ch (endSuspension ch (setZero ch zc (s.chan ch).w s))

theorem zeroSet_effects (s : State) (ch : Channel) (zc : Int) :
    (s.zeroSet ch zc).chan ch = (s.chan ch).zeroed ch s.wgt.tare zc ∧ (s.zeroSet ch zc).link = s.link ∧
      (∃ l, (s.zeroSet ch zc).rpt = { s.rpt with latched := l } ∧ l.noticeLost = s.rpt.latched.noticeLost) ∧
      (s.zeroSet ch zc).set = s.set ∧ (s.zeroSet ch zc).sst = s.sst ∧
      (s.zeroSet ch zc).bag = if ch = .b then { s.bag with rb := 0 } else s.bag := by
  cases ch
  · unfold State.zeroSet endSuspension
    simp only
    split
    · exact ⟨rfl, rfl, ⟨_, rfl, rfl⟩, rfl, rfl, rfl⟩
    · exact ⟨rfl, rfl, ⟨_, rfl, rfl⟩, rfl, rfl, rfl⟩
  · unfold State.zeroSet endSuspension
    simp only
    split
    · exact ⟨rfl, rfl, ⟨_, rfl, rfl⟩, rfl, rfl, rfl⟩
    · exact ⟨rfl, rfl, ⟨_, rfl, rfl⟩, rfl, rfl, rfl⟩

/-- Whether SCALE_ZERO finds its reading within its band (R40). -/
def State.inZeroBand (s : State) (ch : Channel) : Bool :=
  if (s.chan ch).zeroValid then decide ((((s.chan ch).w - (s.chan ch).zc).natAbs : Int) ≤ ch.zeroBand)
  else decide (((s.chan ch).w.natAbs : Int) ≤ ch.initRange)

theorem judgeZero_eq {ch : Channel} {tag : Byte} {s : State} (hu : s.unbound) :
    judgeZero raiseLoud ch tag s =
      if s.inZeroBand ch then
        raiseQuiet (.zeroDone tag ch (mgToGrams (s.chan ch).w) (s.chan ch).zeroValid)
          (s.zeroSet ch (if (s.chan ch).zeroValid then (s.chan ch).zc else (s.chan ch).w))
      else raiseQuiet (.zeroFailed tag ch .outOfBand (mgToGrams (s.chan ch).w)) (freeSlot ch s) := by
  obtain ⟨-, -, ⟨l, hrpt, -⟩, -⟩ := zeroSet_effects s ch (if (s.chan ch).zeroValid then (s.chan ch).zc else (s.chan ch).w)
  have hzu : (s.zeroSet ch (if (s.chan ch).zeroValid then (s.chan ch).zc else (s.chan ch).w)).unbound := by
    rw [State.unbound, hrpt]
    exact hu
  have hjudge : judgeZero raiseLoud ch tag s = if s.inZeroBand ch then
      raiseLoud (.zeroDone tag ch (mgToGrams (s.chan ch).w) (s.chan ch).zeroValid)
        (s.zeroSet ch (if (s.chan ch).zeroValid then (s.chan ch).zc else (s.chan ch).w))
      else raiseLoud (.zeroFailed tag ch .outOfBand (mgToGrams (s.chan ch).w)) (freeSlot ch s) := rfl
  rw [hjudge, raiseLoud_unbound hzu, raiseLoud_unbound (freeSlot_unbound hu ch)]

/-! ### A calibration at its judging reading (R43 to R46) -/

/-- The channel once a calibration write has begun on it. -/
def Chan.calibratedTo (c : Chan) (c0 : Int) (k : Nat) : Chan :=
  { c with
    zeroValid := false, suspended := false, track := 0, centre := false, d := none
    c0 := c0, k := k, calValid := true, calZeroed := false
    op := c.op.map fun o => { o with writing := true } }

theorem calibratedTo_op {c : Chan} {o : Op} {c0 : Int} {k : Nat} (h : c.op = some o) :
    (c.calibratedTo c0 k).restarted.op = some { o with writing := true } := by
  simp only [Chan.restarted, Chan.calibratedTo, h, Option.map_some]

theorem calWrite_effects (s : State) (ch : Channel) (c0 : Int) (k : Nat) :
    (calWrite ch c0 k s).chan ch = (s.chan ch).calibratedTo c0 k ∧ (calWrite ch c0 k s).rpt = s.rpt ∧
      (ch = .p → (calWrite ch c0 k s).wgt.tare = 0) ∧
      (calWrite ch c0 k s).sst = { s.sst with
        count := min (s.sst.count + 1) 65535
        writes := s.sst.writes ++ [.calibration ch (min (s.sst.count + 1) 65535) c0 k] } := by
  cases ch
  · exact ⟨rfl, rfl, fun _ => rfl, rfl⟩
  · exact ⟨rfl, rfl, fun h => absurd h (by decide), rfl⟩

/-- CAL_ZERO on a calibrated channel writes (R43, R44). -/
theorem judgeCal_rewrite {r : Raise} {ch : Channel} {o : Op} {s : State} (hk : o.kind = .calZero)
    (h : (s.chan ch).calValid = true) :
    judgeCal r ch o s = (calWrite ch (s.chan ch).f (s.chan ch).k s, true) := by
  simp only [judgeCal, hk]
  exact if_pos h

/-- On another it takes C0 alone (R44). -/
theorem judgeCal_first {r : Raise} {ch : Channel} {o : Op} {s : State} (hk : o.kind = .calZero)
    (h : (s.chan ch).calValid = false) :
    judgeCal r ch o s = (calEnds r ch o.tag false .ok
      (s.setChan ch { s.chan ch with c0 := (s.chan ch).f, calZeroed := true }), false) := by
  simp only [judgeCal, hk]
  exact if_neg (by simp [h])

/-- CAL_SPAN writes where the counts and K are within their limits (R45, R46). -/
theorem judgeCal_span {r : Raise} {ch : Channel} {o : Op} {grams : Nat} {s : State} (hk : o.kind = .calSpan grams) :
    judgeCal r ch o s =
      if (s.chan ch).f - (s.chan ch).c0 < 400000 ∨ spanFactor grams ((s.chan ch).f - (s.chan ch).c0) < 16384 ∨
          1048576 < spanFactor grams ((s.chan ch).f - (s.chan ch).c0) then (calEnds r ch o.tag true .range s, false)
      else (calWrite ch (s.chan ch).c0 (spanFactor grams ((s.chan ch).f - (s.chan ch).c0)) s, true) := by
  simp only [judgeCal, hk]

theorem spanFactor_nearest (grams : Nat) {diff : Int} (h : 0 < diff) :
    2 * diff * (spanFactor grams diff : Int) ≤ 2 * (1000 * grams * 65536) + diff ∧
      2 * (1000 * (grams : Int) * 65536) + diff < 2 * diff * (spanFactor grams diff + 1) := by
  obtain ⟨d, rfl⟩ := Int.eq_ofNat_of_zero_le (Int.le_of_lt h)
  obtain ⟨hlow, hhigh⟩ := roundHalfUp_bounds (1000 * grams * 65536) (Int.ofNat_lt.mp h)
  rw [spanFactor, Int.toNat_natCast]
  constructor
  · simpa only [Int.natCast_add, Int.natCast_mul, Int.cast_ofNat_Int] using Int.ofNat_le.mpr hlow
  · rw [Int.mul_add, Int.mul_one]
    simpa only [Int.natCast_add, Int.natCast_mul, Int.cast_ofNat_Int] using Int.ofNat_lt.mpr hhigh

/-! ### An initial zero attempt at its stable event (R38, R196) -/

/-- The channel once an initial zero attempt has found it within its range or not (R38). -/
def Chan.attempted (c : Chan) (ch : Channel) (tare : Nat) : Chan :=
  if (c.w.natAbs : Int) ≤ ch.initRange then
    { { c with zeroValid := true, zc := c.w, zw := c.w }.weighed ch tare with init := .ended .established }
  else { c with init := .ended .outOfRange }

theorem endAttempt_keeps {ch : Channel} {res : InitResult} {s : State} (hu : s.unbound) :
    (s.setChan ch { s.chan ch with init := .ended res }).Noticed (endAttempt raiseLoud ch res s) := by
  have hkept := State.Noticed.refl (s := s.setChan ch { s.chan ch with init := .ended res }) (setChan_unbound hu _ _)
  unfold endAttempt
  simp only
  split
  · split
    · rw [raiseLoud_unbound hkept.1]
      exact hkept.raised _
    · rw [raiseLoud_unbound hkept.1]
      exact hkept.raised _
  · exact hkept

theorem judgeAttempt_keeps {ch : Channel} {age : Nat} {s : State} (hu : s.unbound) (h : (s.chan ch).init = .running age) :
    (judgeAttempt raiseLoud ch s).unbound ∧
      (judgeAttempt raiseLoud ch s).chan ch = (s.chan ch).attempted ch s.wgt.tare ∧
      (∀ o, o ≠ ch → (judgeAttempt raiseLoud ch s).chan o = s.chan o) ∧
      (judgeAttempt raiseLoud ch s).sst = s.sst ∧ (judgeAttempt raiseLoud ch s).job = s.job := by
  have hset : (setZero ch (s.chan ch).w (s.chan ch).w s).unbound ∧
      (setZero ch (s.chan ch).w (s.chan ch).w s).chan ch =
        { s.chan ch with zeroValid := true, zc := (s.chan ch).w, zw := (s.chan ch).w }.weighed ch s.wgt.tare ∧
      (∀ o, o ≠ ch → (setZero ch (s.chan ch).w (s.chan ch).w s).chan o = s.chan o) ∧
      (setZero ch (s.chan ch).w (s.chan ch).w s).sst = s.sst ∧ (setZero ch (s.chan ch).w (s.chan ch).w s).job = s.job := by
    cases ch <;> refine ⟨hu, rfl, fun o ho => ?_, rfl, rfl⟩ <;> cases o <;> first | exact absurd rfl ho | rfl
  by_cases hw : ((s.chan ch).w.natAbs : Int) ≤ ch.initRange
  · obtain ⟨hu', hc, ho, hs, hj⟩ := hset
    have hend := endAttempt_keeps (ch := ch) (res := .established) hu'
    have hdone : judgeAttempt raiseLoud ch s =
        endAttempt raiseLoud ch .established (setZero ch (s.chan ch).w (s.chan ch).w s) := by
      simp only [judgeAttempt, h, if_pos hw]
    rw [hdone, Chan.attempted, if_pos hw]
    refine ⟨hend.1, ?_, fun o hne => ?_, ?_, ?_⟩
    · rw [hend.chan, State.setChan_chan, hc]
    · rw [hend.chan, chan_setChan_ne hne, ho o hne]
    · rw [hend.sst, State.setChan_sst, hs]
    · rw [hend.job, State.setChan_job, hj]
  · have hend := endAttempt_keeps (ch := ch) (res := .outOfRange) hu
    have hdone : judgeAttempt raiseLoud ch s = endAttempt raiseLoud ch .outOfRange s := by
      simp only [judgeAttempt, h, if_neg hw]
    rw [hdone, Chan.attempted, if_neg hw]
    refine ⟨hend.1, ?_, fun o hne => ?_, ?_, ?_⟩
    · rw [hend.chan, State.setChan_chan]
    · rw [hend.chan, chan_setChan_ne hne]
    · rw [hend.sst, State.setChan_sst]
    · rw [hend.job, State.setChan_job]

/-- The end of start-up touches no channel, and comes once both attempts have ended (R196). -/
theorem startupStep_keeps {s : State} (hu : s.unbound) (htable : s.job.table = []) :
    (∀ ch, (startupStep raiseLoud s).chan ch = s.chan ch) ∧
      (s.sst.started = false → (∀ ch, ∃ x, (s.chan ch).init = .ended x) → (startupStep raiseLoud s).sst.started = true) := by
  have hquiet : s.Noticed (judgeStarted raiseLoud s) ∨ (s.sst.started = false ∧ ∃ n,
      judgeStarted raiseLoud s = raiseQuiet n { s with sst.started := true, lpm.idle := 0 }) := by
    unfold judgeStarted
    split
    · exact .inl (State.Noticed.refl hu)
    · next hst =>
      split
      · exact .inr ⟨by simpa using hst, _, raiseLoud_unbound (by exact hu) _⟩
      · exact .inl (State.Noticed.refl hu)
  have hjob : (judgeStarted raiseLoud s).job.table = [] := by
    rcases hquiet with h | ⟨-, n, h⟩
    · rw [h.job, htable]
    · rw [h, raiseQuiet_job, htable]
  rw [startupStep, judgeStart_empty hjob]
  refine ⟨fun ch => ?_, fun hst hended => ?_⟩
  · rcases hquiet with h | ⟨-, n, h⟩
    · exact h.chan ch
    · rw [h, chan_raiseQuiet]
      cases ch <;> rfl
  · obtain ⟨p, hp⟩ := hended .p
    obtain ⟨b, hb⟩ := hended .b
    rw [judgeStarted_ends hu hst hp hb, raiseQuiet_sst]

/-- Settles O26, by the operation and the outcome it draws. -/
theorem zeroOperationsJudged : Obligations.ZeroOperationsJudged := by
  refine ⟨fun ch block o s hu hstarted hsteady hover hcount hop hwriting => ?ops, fun grams diff => spanFactor_nearest grams,
    fun ch block age s hu hsteady hinit hstable hop hcount htable => ?attempt⟩
  case ops =>
    obtain ⟨z, hz, hsame, hread⟩ := reading_tracked hu hsteady hcount
    rw [hop] at hread
    have hchan : z.chan ch = s.nextTracked ch block := (hz.chan ch).trans (State.setChan_chan ..)
    have hover' : z.attemptOver ch := fun age => by
      rw [hchan]
      exact hover age
    have hzs : z.sst = s.sst := hz.sst.trans (State.setChan_sst ..)
    have hzbag : z.bag = s.bag := hz.bag.trans (State.setChan_bag ..)
    have htare : z.wgt.tare = s.wgt.tare := by rw [hz.wgt, setChan_tare]
    have hquiet (h : s.nextRange ch block = (s.chan ch).range) : z.link = s.link ∧ z.rpt = s.rpt ∧ z.set = s.set := by
      rw [hsame h]
      exact ⟨State.setChan_link .., State.setChan_rpt .., State.setChan_set ..⟩
    refine ⟨fun inBand hk hin => ?zero, fun hk => ?calZero, fun grams k hk hk' => ?calSpan⟩
    case zero =>
      have hops : judgeZeroOps raiseLoud ch (some o) z = (judgeZero raiseLoud ch o.tag z, false) := by
        unfold judgeZeroOps
        simp only [hwriting, hk, Bool.false_eq_true, if_false]
      have hin' : z.inZeroBand ch = inBand := by
        rw [State.inZeroBand, hchan, hin]
        rfl
      have hmoved : (z.chan ch).zeroValid = (s.chan ch).zeroValid := by rw [hchan]; rfl
      have hw : (z.chan ch).w = s.nextW ch block := by rw [hchan]; rfl
      have hzc : (z.chan ch).zc = (s.chan ch).zc := by rw [hchan]; rfl
      obtain ⟨y, hy⟩ : ∃ y, judgeZero raiseLoud ch o.tag z = y := ⟨_, rfl⟩
      have hyz := hy
      rw [judgeZero_eq hz.1, hin', hmoved, hw, hzc] at hyz
      rw [hy] at hops
      cases inBand with
      | true =>
        rw [if_pos rfl] at hyz
        obtain ⟨vchan, vlink, ⟨l, vrpt, vl⟩, vset, vsst, vbag⟩ := zeroSet_effects z ch
          (if (s.chan ch).zeroValid then (s.chan ch).zc else s.nextW ch block)
        have hyu : y.unbound := by
          rw [← hyz]
          refine raiseQuiet_unbound ?_ _
          rw [State.unbound, vrpt]
          exact hz.1
        have hys : y.sst.started = true := by rw [← hyz, raiseQuiet_sst, vsst, hzs, hstarted]
        have hyc : y.chan ch = (s.nextTracked ch block).zeroed ch s.wgt.tare
            (if (s.chan ch).zeroValid then (s.chan ch).zc else s.nextW ch block) := by
          rw [← hyz, chan_raiseQuiet, vchan, hchan, htare]
        obtain ⟨tchan, -, -, tquiet⟩ := readingEnds_operation (event := !(s.chan ch).stable) hover' (by rw [hk]; rfl) hops hyu hys
        refine ⟨_, congrArg Host.Outcome.next hread, ?_⟩
        rw [tchan, if_neg Bool.false_ne_true, hyc]
        refine ⟨rfl, rfl, fun _ => ⟨rfl, rfl, rfl, Int.sub_self _, rfl, rfl, fun hst hrange => ?_⟩, fun h => absurd h (by decide)⟩
        obtain ⟨hlink, hrpt, hset⟩ := hquiet hrange
        obtain ⟨trpt, tbag⟩ := tquiet (by rw [hst]; rfl) rfl
        refine ⟨?_, ?_⟩
        · rw [trpt, ← hyz]
          exact raiseQuiet_queue_congr _ _ _ l (vlink.trans hlink) (by rw [vrpt, hrpt]) (vset.trans hset) (by rw [vl, hrpt])
        · rw [tbag, ← hyz, raiseQuiet_bag, vbag, hzbag]
      | false =>
        rw [if_neg Bool.false_ne_true] at hyz
        have hyu : y.unbound := by
          rw [← hyz]
          exact raiseQuiet_unbound (freeSlot_unbound hz.1 ch) _
        have hys : y.sst.started = true := by rw [← hyz, raiseQuiet_sst, freeSlot, State.setChan_sst, hzs, hstarted]
        have hyc : y.chan ch = { s.nextTracked ch block with op := none } := by
          rw [← hyz, chan_raiseQuiet, freeSlot, State.setChan_chan, hchan]
        obtain ⟨tchan, -, -, tquiet⟩ := readingEnds_operation (event := !(s.chan ch).stable) hover' (by rw [hk]; rfl) hops hyu hys
        refine ⟨_, congrArg Host.Outcome.next hread, ?_⟩
        rw [tchan, if_neg Bool.false_ne_true, hyc]
        refine ⟨rfl, rfl, fun h => absurd h (by decide), fun _ => ⟨rfl, rfl, rfl, fun hst hrange => ?_⟩⟩
        obtain ⟨hlink, hrpt, hset⟩ := hquiet hrange
        obtain ⟨trpt, tbag⟩ := tquiet (by rw [hst]; rfl) rfl
        refine ⟨?_, ?_⟩
        · rw [trpt, ← hyz]
          exact raiseQuiet_rpt_congr _ _ _ ((State.setChan_link ..).trans hlink) ((State.setChan_rpt ..).trans hrpt)
            ((State.setChan_set ..).trans hset)
        · rw [tbag, ← hyz, raiseQuiet_bag, freeSlot, State.setChan_bag, hzbag]
    case calZero =>
      have hops : judgeZeroOps raiseLoud ch (some o) z = judgeCal raiseLoud ch o z := by
        unfold judgeZeroOps
        simp only [hwriting, hk, Bool.false_eq_true, if_false]
      have hvalid : (z.chan ch).calValid = (s.chan ch).calValid := by rw [hchan]; rfl
      cases hcal : (s.chan ch).calValid with
      | true =>
        have hcal' : judgeCal raiseLoud ch o z = (calWrite ch (s.nextF ch block) (s.chan ch).k z, true) := by
          rw [judgeCal_rewrite hk (hvalid.trans hcal), hchan]
          rfl
        obtain ⟨wchan, wrpt, wtare, wsst⟩ := calWrite_effects z ch (s.nextF ch block) (s.chan ch).k
        obtain ⟨tchan, ttare, tsst, -⟩ := readingEnds_operation (event := !(s.chan ch).stable) hover' (by rw [hk]; rfl)
          (hops.trans hcal') (by rw [State.unbound, wrpt]; exact hz.1) (by rw [wsst, hzs]; exact hstarted)
        refine ⟨_, congrArg Host.Outcome.next hread, ?_⟩
        rw [tchan, if_pos rfl, wchan, ttare, tsst, wsst, hchan, hzs]
        exact ⟨rfl, rfl, rfl, fun _ => ⟨rfl, rfl, rfl, rfl, rfl, calibratedTo_op (c := s.nextTracked ch block) hop, wtare, rfl, rfl⟩, fun h => absurd h (by decide)⟩
      | false =>
        obtain ⟨c, hc⟩ : ∃ c, c = { s.nextTracked ch block with c0 := s.nextF ch block, calZeroed := true } := ⟨_, rfl⟩
        have hcal' : judgeCal raiseLoud ch o z = (calEnds raiseLoud ch o.tag false .ok (z.setChan ch c), false) := by
          rw [judgeCal_first hk (hvalid.trans hcal), hchan, hc]
          rfl
        obtain ⟨y, hy⟩ : ∃ y, calEnds raiseLoud ch o.tag false .ok (z.setChan ch c) = y := ⟨_, rfl⟩
        have hyz := hy
        rw [calEnds_eq (setChan_unbound hz.1 _ _), freeSlot, setChan_setChan] at hyz
        have hyc : y.chan ch = { c with op := none } := by
          rw [← hyz, chan_raiseQuiet, State.setChan_chan, State.setChan_chan]
        have hys : y.sst = s.sst := by rw [← hyz, raiseQuiet_sst, State.setChan_sst, hzs]
        have hyu : y.unbound := by
          rw [← hyz]
          exact raiseQuiet_unbound (setChan_unbound hz.1 _ _) _
        obtain ⟨tchan, ttare, tsst, -⟩ := readingEnds_operation (event := !(s.chan ch).stable) hover' (by rw [hk]; rfl)
          (hops.trans (hcal'.trans (by rw [hy]))) hyu (by rw [hys]; exact hstarted)
        refine ⟨_, congrArg Host.Outcome.next hread, ?_⟩
        rw [tchan, if_neg Bool.false_ne_true, hyc, tsst, hys, hc]
        exact ⟨rfl, rfl, hcal, fun h => absurd h (by decide), fun _ => ⟨rfl, rfl, rfl⟩⟩
    case calSpan =>
      have hops : judgeZeroOps raiseLoud ch (some o) z = judgeCal raiseLoud ch o z := by
        unfold judgeZeroOps
        simp only [hwriting, hk, Bool.false_eq_true, if_false]
      have hdiff : (z.chan ch).f - (z.chan ch).c0 = s.nextF ch block - (s.chan ch).c0 := by rw [hchan]; rfl
      have hc0 : (z.chan ch).c0 = (s.chan ch).c0 := by rw [hchan]; rfl
      by_cases hrange : s.nextF ch block - (s.chan ch).c0 < 400000 ∨ k < 16384 ∨ 1048576 < k
      · have hcal' : judgeCal raiseLoud ch o z = (calEnds raiseLoud ch o.tag true .range z, false) := by
          rw [judgeCal_span hk, hdiff, ← hk', if_pos hrange]
        obtain ⟨y, hy⟩ : ∃ y, calEnds raiseLoud ch o.tag true .range z = y := ⟨_, rfl⟩
        have hyz := hy
        rw [calEnds_eq hz.1] at hyz
        have hyc : y.chan ch = { s.nextTracked ch block with op := none } := by
          rw [← hyz, chan_raiseQuiet, freeSlot, State.setChan_chan, hchan]
        have hys : y.sst = s.sst := by rw [← hyz, raiseQuiet_sst, freeSlot, State.setChan_sst, hzs]
        have hyu : y.unbound := by
          rw [← hyz]
          exact raiseQuiet_unbound (freeSlot_unbound hz.1 _) _
        obtain ⟨tchan, -, tsst, tquiet⟩ := readingEnds_operation (event := !(s.chan ch).stable) hover' (by rw [hk]; rfl)
          (hops.trans (hcal'.trans (by rw [hy]))) hyu (by rw [hys]; exact hstarted)
        refine ⟨_, congrArg Host.Outcome.next hread, ?_⟩
        rw [tchan, if_neg Bool.false_ne_true, hyc, tsst, hys]
        refine ⟨rfl, fun _ => ⟨rfl, rfl, rfl, fun hst hsame' => ?_⟩, fun h1 h2 h3 => ?_⟩
        · obtain ⟨hlink, hrpt, hset⟩ := hquiet hsame'
          rw [(tquiet (by rw [hst]; rfl) rfl).1, ← hyz, hchan, hzs]
          exact raiseQuiet_rpt_congr _ _ _ ((State.setChan_link ..).trans hlink) ((State.setChan_rpt ..).trans hrpt)
            ((State.setChan_set ..).trans hset)
        · rcases hrange with h | h | h
          · exact absurd h1 (Int.not_le.mpr h)
          · exact absurd h2 (Nat.not_le.mpr h)
          · exact absurd h3 (Nat.not_le.mpr h)
      · have hcal' : judgeCal raiseLoud ch o z = (calWrite ch (s.chan ch).c0 k z, true) := by
          rw [judgeCal_span hk, hdiff, ← hk', if_neg hrange, hc0]
        obtain ⟨wchan, wrpt, wtare, wsst⟩ := calWrite_effects z ch (s.chan ch).c0 k
        obtain ⟨tchan, ttare, tsst, -⟩ := readingEnds_operation (event := !(s.chan ch).stable) hover' (by rw [hk]; rfl)
          (hops.trans hcal') (by rw [State.unbound, wrpt]; exact hz.1) (by rw [wsst, hzs]; exact hstarted)
        refine ⟨_, congrArg Host.Outcome.next hread, ?_⟩
        rw [tchan, if_pos rfl, wchan, ttare, tsst, wsst, hchan, hzs]
        exact ⟨rfl, fun h => absurd h hrange, fun _ _ _ => ⟨rfl, rfl, rfl, rfl, rfl, rfl, calibratedTo_op (c := s.nextTracked ch block) hop, wtare, rfl, rfl⟩⟩
  case attempt =>
    obtain ⟨z, hz, -, hread⟩ := reading_tracked hu hsteady hcount
    rw [hop, hstable, Bool.not_false] at hread
    have hchan : z.chan ch = s.nextTracked ch block := (hz.chan ch).trans (State.setChan_chan ..)
    have htare : z.wgt.tare = s.wgt.tare := by rw [hz.wgt, setChan_tare]
    obtain ⟨yu, ychan, yother, ysst, yjob⟩ := judgeAttempt_keeps (ch := ch) (age := age) hz.1 (by rw [hchan]; exact hinit)
    obtain ⟨y, hy⟩ : ∃ y, judgeAttempt raiseLoud ch z = y := ⟨_, rfl⟩
    rw [hy] at yu ychan yother ysst yjob
    rw [hchan, htare] at ychan
    obtain ⟨xu, xwgt, xsst, xjob, -⟩ := receivers_keeps (ch := ch) (w := none) (event := true) yu (fun o ho => absurd ho (by simp))
    obtain ⟨x, hx⟩ : ∃ x, receivers raiseLoud ch none true true y = x := ⟨_, rfl⟩
    rw [hx] at xu xwgt xsst xjob
    have xchan (o : Channel) : x.chan o = y.chan o := by cases o <;> simp only [State.chan, xwgt]
    obtain ⟨v, hv⟩ : ∃ v, raiseQuiet (.scaleStable ch (x.chan ch).d) x = v := ⟨_, rfl⟩
    have hxv : x.Noticed v := by
      rw [← hv]
      exact (State.Noticed.refl xu).raised _
    have vsst : v.sst = s.sst := by rw [hxv.sst, xsst, ysst, hz.sst, State.setChan_sst]
    have vtable : v.job.table = [] := by rw [hxv.job, xjob, yjob, hz.job, State.setChan_job, htable]
    have vchan (o : Channel) : v.chan o = y.chan o := (hxv.chan o).trans (xchan o)
    have hdone : readBlock raiseLoud ch block s = if s.sst.started then v else startupStep raiseLoud v := by
      rw [hread]
      unfold readingEnds
      simp only [if_true, hy, judgeZeroOps, hx, Bool.false_eq_true, if_false]
      rw [raiseLoud_unbound xu, hv, vsst]
      cases s.sst.started <;> rfl
    obtain ⟨hstep, hstarts⟩ := startupStep_keeps hxv.1 vtable
    have tchan : (readBlock raiseLoud ch block s).chan ch = (s.nextTracked ch block).attempted ch s.wgt.tare := by
      rw [hdone, ← ychan, ← vchan]
      split
      · rfl
      · exact hstep ch
    refine ⟨_, rfl, ?_⟩
    rw [tchan]
    refine ⟨?_, fun hin => ?_, fun hout => ?_, fun hst hother => ?_⟩
    · unfold Chan.attempted
      split <;> rfl
    · rw [Chan.attempted, if_pos (by exact hin)]
      exact ⟨rfl, rfl, rfl, rfl, Int.sub_self _⟩
    · rw [Chan.attempted, if_neg (by exact Int.not_le.mpr hout)]
      exact ⟨rfl, rfl, rfl⟩
    · rw [hdone, hst, if_neg Bool.false_ne_true]
      refine hstarts (by rw [vsst, hst]) fun o => ?_
      rw [vchan]
      by_cases ho : o = ch
      · subst ho
        rw [ychan, Chan.attempted]
        split
        · exact ⟨_, rfl⟩
        · exact ⟨_, rfl⟩
      · rw [yother o ho, hz.chan, chan_setChan_ne ho]
        exact hother o ho

end Sys2Proof.Machine
end

