-- ==== Sys2Proof/Proofs/Weigh/Captures.lean ====
section
/-! PROOFS. The capture and the tare at their readings (sections 3.1 to 3.3). -/

namespace Sys2Proof.Machine

/-! ### The ends of a reading of P once its own operation has acted -/

theorem judgeZeroOps_ofP {r : Raise} {ch : Channel} {o : Op} {s : State} (hk : o.kind.ofP = true) :
    judgeZeroOps r ch (some o) s = (s, false) := by
  unfold judgeZeroOps
  simp only
  split
  · rfl
  · cases h : o.kind <;> simp [h, OpKind.ofP] at hk ⊢

/-- The ends of a STABLE reading of P at which a tare or a capture waits. -/
theorem readingEnds_ofP {o : Op} {event : Bool} {z y : State} (hover : z.attemptOver .p) (hk : o.kind.ofP = true)
    (hops : judgePOps raiseLoud (some o) (rearm z) = y) (hu : y.unbound) (hs : y.sst.started = true) :
    (readingEnds raiseLoud .p (some o) event z).wgt = y.wgt ∧ (readingEnds raiseLoud .p (some o) event z).txn = y.txn ∧
      (event = false → (readingEnds raiseLoud .p (some o) event z).rpt = y.rpt) := by
  obtain ⟨x, hx⟩ : ∃ x, (if event then powerStable raiseLoud y else y) = x := ⟨_, rfl⟩
  have hxy : x.unbound ∧ x.wgt = y.wgt ∧ x.sst = y.sst ∧ x.txn = y.txn ∧ (event = false → x = y) := by
    rw [← hx]
    cases event with
    | false => exact ⟨hu, rfl, rfl, rfl, fun _ => rfl⟩
    | true =>
      obtain ⟨h1, h2, h3, -, h5⟩ := powerStable_keeps hu
      rw [if_pos rfl]
      exact ⟨h1, h2, h3, h5, fun h => absurd h (by decide)⟩
  obtain ⟨xu, xwgt, xsst, xtxn, xquiet⟩ := hxy
  have hrec : receivers raiseLoud .p (some o) true event z = x := by
    rw [← hx, ← hops]
    rfl
  have hdone : readingEnds raiseLoud .p (some o) event z =
      if event then raiseQuiet (.scaleStable .p (x.chan .p).d) x else x := by
    have hstarted : (if event then raiseQuiet (.scaleStable .p (x.chan .p).d) x else x).sst.started = true := by
      cases event <;> simp [xsst, hs]
    unfold readingEnds
    rw [judgeAttempt_over hover, ite_self]
    simp only [judgeZeroOps_ofP hk, hrec, raiseLoud_unbound xu, Bool.false_eq_true, if_false]
    rw [hstarted, Bool.not_true, Bool.and_false, if_neg Bool.false_ne_true]
  rw [hdone]
  cases event with
  | false => exact ⟨xwgt, xtxn, fun _ => congrArg State.rpt (xquiet rfl)⟩
  | true =>
    rw [if_pos rfl, raiseQuiet_wgt, raiseQuiet_txn]
    exact ⟨xwgt, xtxn, fun h => absurd h (by decide)⟩

/-! ### The capture's candidate (R53 to R55, R60, R74, R92) -/

/-- The item of a slot, once the items of that slot have taken a bag status. -/
theorem findItem_statused {slot : Nat} {b : BagStatus} (l : List Item) (h : ∃ it ∈ l, it.slot = slot) :
    ((findItem slot (l.map fun (it : Item) => if it.slot = slot then { it with bag := b } else it)).map Item.bag).getD .none =
      b := by
  have hslot : ((fun it : Item => it.slot == slot) ∘ fun (it : Item) => if it.slot = slot then { it with bag := b } else it) =
      fun it : Item => it.slot == slot := by
    funext it
    simp only [Function.comp]
    split <;> rfl
  obtain ⟨it, hmem, hit⟩ := h
  obtain ⟨x, hx⟩ : ∃ x, l.find? (fun it => it.slot == slot) = some x :=
    Option.isSome_iff_exists.mp (List.find?_isSome.mpr ⟨it, hmem, by simp [hit]⟩)
  have hxslot : x.slot = slot := by simpa using List.find?_some hx
  rw [findItem, List.find?_map, hslot, hx]
  simp [hxslot]

/-- The lane once a candidate is accepted, before WEIGH_DONE. -/
def State.accepts (s : State) (code : Nat) (desc : Text) (w : WeighRecord) : State :=
  freeSlot .p { s with
    txn.items := (s.txn.items ++ [Item.new w.slot code 1 w.price w.amount desc (some w)]).map fun (it : Item) =>
      if it.slot = w.slot then { it with bag := if s.bag.entries.length < 8 then .pending else .unchecked } else it
    bag.entries := if s.bag.entries.length < 8 then s.bag.entries ++ [Entry.new w.slot false w.gross 0] else s.bag.entries
    wgt.armed := false
    wgt.recNo := if s.wgt.recNo = 65535 then 1 else s.wgt.recNo + 1
    wgt.tare := if s.set.tareAutoClear = 0 then s.wgt.tare else 0
    wgt.tareKind := if s.set.tareAutoClear = 0 then s.wgt.tareKind else .none }

/-- A candidate with room and within the limits is accepted (R92). -/
theorem judgeCandidate_accepts {tag : Byte} {code : Nat} {desc : Text} {w : WeighRecord} {s : State} (hu : s.unbound)
    (hroom : s.txn.items.length < 64) (hlimits : withinLimits s.txn.items w.amount = true) :
    judgeCandidate raiseLoud tag code desc w s =
      raiseQuiet (.weighDone tag w.slot w.number w.net w.tare w.amount (total s.txn.items + w.amount)
        (if s.bag.entries.length < 8 then .pending else .unchecked)) (s.accepts code desc w) := by
  have htotal : total (s.accepts code desc w).txn.items = total s.txn.items + w.amount := by
    refine (total_map _ _ (fun x => ?_) fun x => ?_).trans (total_append _ _ rfl)
    · split <;> rfl
    · split <;> rfl
  have hbag : ((findItem w.slot (s.accepts code desc w).txn.items).map Item.bag).getD .none =
      if s.bag.entries.length < 8 then .pending else .unchecked :=
    findItem_statused _ ⟨Item.new w.slot code 1 w.price w.amount desc (some w), by simp, rfl⟩
  have hdone : judgeCandidate raiseLoud tag code desc w s =
      raiseLoud (.weighDone tag w.slot w.number w.net w.tare w.amount (total (s.accepts code desc w).txn.items)
        (((findItem w.slot (s.accepts code desc w).txn.items).map Item.bag).getD .none)) (s.accepts code desc w) := by
    rw [judgeCandidate, if_neg (Nat.not_le.mpr hroom), if_pos hlimits, acceptCandidate]
    simp only [appendEntry_eq]
    by_cases hauto : s.set.tareAutoClear = 0
    · rw [if_pos (by exact hauto)]
      unfold State.accepts
      simp only [if_pos hauto]
      rfl
    · rw [if_neg (by exact hauto)]
      unfold State.accepts
      simp only [if_neg hauto]
      rfl
  rw [hdone, htotal, hbag]
  exact raiseLoud_unbound (s := s.accepts code desc w) hu _

theorem accepts_effects (s : State) (code : Nat) (desc : Text) (w : WeighRecord) :
    (s.accepts code desc w).txn.items.length = s.txn.items.length + 1 ∧
      ((s.accepts code desc w).txn.items.getLast?.bind Item.record) = some w ∧
      (s.accepts code desc w).wgt.armed = false ∧ (s.accepts code desc w).wgt.chanP.op = none ∧
      (s.accepts code desc w).wgt.recNo = (if s.wgt.recNo = 65535 then 1 else s.wgt.recNo + 1) ∧
      (s.accepts code desc w).wgt.tare = (if s.set.tareAutoClear = 0 then s.wgt.tare else 0) ∧
      (s.accepts code desc w).link = s.link ∧ (s.accepts code desc w).rpt = s.rpt ∧
      (s.accepts code desc w).set = s.set := by
  refine ⟨?_, ?_, rfl, rfl, rfl, rfl, rfl, rfl, rfl⟩
  · show (List.map _ _).length = _
    simp
  · show (List.map _ _).getLast?.bind Item.record = _
    simp only [List.getLast?_map, List.getLast?_append, List.getLast?_singleton, Option.some_or, Option.map_some,
      Option.bind_some]
    split <;> rfl

/-- What waits for its capture at a reading of P with a D (R53). -/
theorem captureD_eq {d : Int} {s : State} (hd : s.wgt.chanP.d = some d) (hzero : s.wgt.chanP.zeroValid = true)
    (hrange : s.wgt.chanP.range = .inside) :
    s.captureD = if 40 ≤ d ∧ d ≤ 15000 ∧ s.wgt.armed = true then some d else none := by
  unfold State.captureD
  simp [hd, hzero, hrange, and_assoc]

/-- A D of the reading stands for a valid zero and a gross within the range (R31). -/
theorem nextD_some {ch : Channel} {block : Samples} {d : Int} {s : State} (h : s.nextD ch block = some d) :
    (s.chan ch).zeroValid = true ∧ s.nextRange ch block = .inside := by
  unfold State.nextD at h
  split at h
  · next hcond =>
    simp only [Bool.and_eq_true, decide_eq_true_eq] at hcond
    exact ⟨hcond.1.2, hcond.2⟩
  · exact absurd h (by simp)

/-- A waiting capture acts on the D that meets its conditions, and waits for it (R53). -/
theorem judgePOps_captured {r : Raise} {o : Op} {price code : Nat} {desc : Text} {d : Int} {s : State}
    (hk : o.kind = .capture price code desc) (hd : s.captureD = some d) :
    judgePOps r (some o) s = judgeCandidate r o.tag code desc (candidate s price d) s := by
  simp only [judgePOps, hk, hd]

theorem judgePOps_waits {r : Raise} {o : Op} {price code : Nat} {desc : Text} {s : State}
    (hk : o.kind = .capture price code desc) (hd : s.captureD = none) : judgePOps r (some o) s = s := by
  simp only [judgePOps, hk, hd]

theorem judgePOps_tare {r : Raise} {o : Op} {s : State} (hk : o.kind = .tare) :
    judgePOps r (some o) s = judgeTare r o.tag s := by
  simp only [judgePOps, hk]

/-- A reading of P as its receivers find it: the channel, the interlock and the rest of the lane. -/
theorem rearmed_reading {block : Samples} {s z : State} (hz : (s.setChan .p (s.nextTracked .p block)).Noticed z) :
    (rearm z).wgt = { s.wgt with
      chanP := s.nextTracked .p block, armed := s.wgt.armed || decide (s.nextG .p block < 40000) } ∧
      (rearm z).txn = s.txn ∧ (rearm z).set = s.set ∧ (rearm z).sst = s.sst ∧ (rearm z).bag = s.bag ∧
      (rearm z).link = z.link ∧ (rearm z).rpt = z.rpt ∧ (rearm z).unbound := by
  have hwgt : z.wgt = { s.wgt with chanP := s.nextTracked .p block } := hz.wgt
  rw [rearm_eq, hwgt]
  exact ⟨rfl, hz.txn, hz.set, hz.sst, hz.bag, rfl, rfl, hz.1⟩

/-- Settles O33, by what the candidate or the tare draws at its reading. -/
theorem captureRecorded : Obligations.CaptureRecorded := by
  refine ⟨fun tag code unit desc d s hroom hlimits hu => ?candidate,
    fun block o price code desc d s hu hstarted hsteady hover hcount hop hwriting hk => ?capture,
    fun block o d s hu hstarted hsteady hover hcount hop hwriting hk hd => ?tare⟩
  case candidate =>
    obtain ⟨h1, h2, h3, h4, h5, h6, hlink, hrpt, hset⟩ := accepts_effects s code desc (candidate s unit d)
    refine ⟨_, judgeCandidate_accepts hu hroom hlimits, ?_⟩
    rw [raiseQuiet_txn, raiseQuiet_wgt, h1, h2, h3, h4, h5, h6, raiseQuiet_rpt_congr _ _ _ hlink hrpt hset]
    exact ⟨rfl, rfl, rfl, rfl, rfl, rfl, rfl⟩
  case capture =>
    obtain ⟨z, hz, -, hread⟩ := reading_tracked hu hsteady hcount
    rw [show (s.chan .p).op = some o from hop] at hread
    have hchan : z.chan .p = s.nextTracked .p block := hz.chan .p
    have hover' : z.attemptOver .p := fun age => by
      rw [hchan]
      exact hover age
    have hofP : o.kind.ofP = true := by rw [hk]; rfl
    obtain ⟨xwgt, xtxn, xset, xsst, xbag, -, -, xu⟩ := rearmed_reading hz
    have hwaits (h : (rearm z).captureD = none) : ∃ t, exec (.reading .p block) s = .next t ∧ t.wgt = (rearm z).wgt ∧
        t.txn = s.txn := by
      obtain ⟨twgt, ttxn, -⟩ := readingEnds_ofP (event := !(s.chan .p).stable) hover' hofP
        (judgePOps_waits hk h) xu (by rw [xsst, hstarted])
      exact ⟨_, congrArg Host.Outcome.next hread, twgt, ttxn.trans xtxn⟩
    refine ⟨fun armed hd harmed => ?_, fun hd => ?_⟩
    · obtain ⟨hzero, hrange⟩ := nextD_some hd
      have hcap : (rearm z).captureD = if 40 ≤ d ∧ d ≤ 15000 ∧ armed = true then some d else none := by
        have hxarmed : (rearm z).wgt.armed = armed := by rw [xwgt, harmed]
        rw [captureD_eq (d := d) (by rw [xwgt]; exact hd) (by rw [xwgt]; exact hzero) (by rw [xwgt]; exact hrange), hxarmed]
      refine ⟨fun hlow hhigh ha hroom hlimits => ?_, fun hout => ?_⟩
      · have hcap' : (rearm z).captureD = some d := hcap.trans (if_pos ⟨hlow, hhigh, ha⟩)
        obtain ⟨h1, h2, h3, h4, h5, h6, hlink, hrpt, hset⟩ := accepts_effects (rearm z) code desc (candidate (rearm z) price d)
        have hjudge : judgePOps raiseLoud (some o) (rearm z) = _ := (judgePOps_captured hk hcap').trans
          (judgeCandidate_accepts xu (by rw [xtxn]; exact hroom) (by rw [xtxn]; exact hlimits))
        obtain ⟨twgt, ttxn, -⟩ := readingEnds_ofP (event := !(s.chan .p).stable) hover' hofP hjudge
          (raiseQuiet_unbound (by rw [State.unbound, hrpt]; exact xu) _) (by
            rw [raiseQuiet_sst]
            exact (congrArg Store.started xsst).trans hstarted)
        refine ⟨_, congrArg Host.Outcome.next hread, ?_⟩
        rw [ttxn, twgt, raiseQuiet_txn, raiseQuiet_wgt, h1, h2, h3, h4, h5, h6, candidate, State.nextSlot, xtxn, xwgt, xset]
        exact ⟨rfl, rfl, rfl, rfl, rfl, rfl⟩
      · have hnot : ¬ (40 ≤ d ∧ d ≤ 15000 ∧ armed = true) := by
          rintro ⟨h1, h2, h3⟩
          rcases hout with h | h | h
          · exact absurd h1 (Int.not_le.mpr h)
          · exact absurd h2 (Int.not_le.mpr h)
          · simp [h] at h3
        obtain ⟨t, ht, twgt, ttxn⟩ := hwaits (hcap.trans (if_neg hnot))
        refine ⟨t, ht, ?_⟩
        rw [twgt, ttxn, xwgt, harmed]
        exact ⟨hop, rfl, rfl, rfl⟩
    · have hnone : (rearm z).captureD = none := by
        have hxd : (rearm z).wgt.chanP.d = none := by rw [xwgt]; exact hd
        unfold State.captureD
        simp [hxd]
      obtain ⟨t, ht, twgt, ttxn⟩ := hwaits hnone
      refine ⟨t, ht, ?_⟩
      rw [twgt, ttxn, xwgt]
      exact ⟨hop, rfl, rfl⟩
  case tare =>
    obtain ⟨z, hz, hsame, hread⟩ := reading_tracked hu hsteady hcount
    rw [show (s.chan .p).op = some o from hop] at hread
    have hchan : z.chan .p = s.nextTracked .p block := hz.chan .p
    have hover' : z.attemptOver .p := fun age => by
      rw [hchan]
      exact hover age
    have hofP : o.kind.ofP = true := by rw [hk]; rfl
    obtain ⟨xwgt, xtxn, xset, xsst, -, xlink, xrpt, xu⟩ := rearmed_reading hz
    have hrange : (rearm z).wgt.chanP.range = s.nextRange .p block := by rw [xwgt]; rfl
    have hg : (rearm z).wgt.chanP.g = s.nextG .p block := by rw [xwgt]; rfl
    have hquiet (h : s.nextRange .p block = s.wgt.chanP.range) :
        (rearm z).link = s.link ∧ (rearm z).rpt = s.rpt ∧ (rearm z).set = s.set := by
      refine ⟨xlink.trans ?_, xrpt.trans ?_, xset⟩
      · rw [hsame h, State.setChan_link]
      · rw [hsame h, State.setChan_rpt]
    have hends (n : Notice) (y : State) (hy : judgeTare raiseLoud o.tag (rearm z) = raiseQuiet n y) (hyu : y.unbound)
        (hys : y.sst = s.sst) : (readBlock raiseLoud .p block s).wgt = y.wgt ∧ (readBlock raiseLoud .p block s).txn = y.txn ∧
        (s.wgt.chanP.stable = true → (readBlock raiseLoud .p block s).rpt = (raiseQuiet n y).rpt) := by
      obtain ⟨twgt, ttxn, trpt⟩ := readingEnds_ofP (event := !(s.chan .p).stable) hover' hofP ((judgePOps_tare hk).trans hy)
        (raiseQuiet_unbound hyu n) (by rw [raiseQuiet_sst, hys, hstarted])
      rw [hread, twgt, ttxn, raiseQuiet_wgt, raiseQuiet_txn]
      exact ⟨rfl, rfl, fun h => trpt (by rw [show (s.chan .p).stable = true from h]; rfl)⟩
    by_cases htaken : s.nextRange .p block = .inside ∧ 1 ≤ d ∧ d ≤ 3000
    · obtain ⟨hin, hlow, hhigh⟩ := htaken
      have hjudge : judgeTare raiseLoud o.tag (rearm z) = raiseQuiet (.tareDone o.tag d.toNat .captured)
          (freeSlot .p { rearm z with wgt.tare := 1000 * d.toNat, wgt.tareKind := .captured }) := by
        simp only [judgeTare, hrange, hg, ← hd]
        rw [if_neg (by simp [hin]), if_pos ⟨hlow, hhigh⟩]
        exact raiseLoud_unbound (freeSlot_unbound (by exact xu) _) _
      obtain ⟨twgt, ttxn, trpt⟩ := hends _ _ hjudge (freeSlot_unbound (by exact xu) _) xsst
      refine ⟨_, rfl, ?_⟩
      rw [twgt, ttxn]
      refine ⟨rfl, xtxn, fun _ _ _ => ⟨rfl, rfl, fun hst hbefore => ?_⟩, fun h => ?_⟩
      · obtain ⟨hlink, hrpt, hset⟩ := hquiet (hin.trans hbefore.symm)
        rw [trpt hst]
        exact raiseQuiet_rpt_congr _ _ _ hlink hrpt hset
      · rcases h with h | h | h
        · exact absurd hin h
        · exact absurd hlow (Int.not_le.mpr h)
        · exact absurd hhigh (Int.not_le.mpr h)
    · have hjudge : judgeTare raiseLoud o.tag (rearm z) = raiseQuiet (.tareFailed o.tag .range
          (if s.nextRange .p block = .inside then some d else none)) (freeSlot .p (rearm z)) := by
        simp only [judgeTare, hrange, hg, ← hd]
        by_cases hin : s.nextRange .p block = .inside
        · rw [if_neg (by simp [hin]), if_neg (fun h => htaken ⟨hin, h⟩), if_pos hin]
          exact raiseLoud_unbound (freeSlot_unbound xu _) _
        · rw [if_pos hin, if_neg hin]
          exact raiseLoud_unbound (freeSlot_unbound xu _) _
      obtain ⟨twgt, ttxn, trpt⟩ := hends _ _ hjudge (freeSlot_unbound xu _) xsst
      have hkept : (freeSlot .p (rearm z)).wgt.tare = s.wgt.tare ∧ (freeSlot .p (rearm z)).wgt.tareKind = s.wgt.tareKind := by
        refine ⟨(setChan_tare ..).trans ?_, ?_⟩
        · rw [xwgt]
        · rw [show (freeSlot .p (rearm z)).wgt.tareKind = (rearm z).wgt.tareKind from rfl, xwgt]
      refine ⟨_, rfl, ?_⟩
      rw [twgt, ttxn]
      refine ⟨rfl, xtxn, fun h1 h2 h3 => absurd ⟨h1, h2, h3⟩ htaken, fun _ => ⟨hkept.1, hkept.2, fun hst hbefore => ?_⟩⟩
      obtain ⟨hlink, hrpt, hset⟩ := hquiet hbefore.symm
      rw [trpt hst]
      exact raiseQuiet_rpt_congr _ _ _ hlink hrpt hset

end Sys2Proof.Machine
end

