-- ==== Sys2Proof/Proofs/Link/Resets.lean ====
section
/-! PROOFS. What a reset leaves and what start-up loads (sections 1.6 and 11.7). -/

namespace Sys2Proof.Machine

/-- A record whose write was cut fails its checksum. -/
theorem badCrc_ne (l : List Byte) : badCrc l ≠ crc16 l := by
  unfold badCrc
  generalize crc16 l = x
  intro h
  have hnat := congrArg BitVec.toNat h
  rw [BitVec.toNat_not] at hnat
  have hx := x.isLt
  omega

/-- Raising the stability windows touches settings 5 and 6 alone (R25, R32). -/
theorem raiseWindows_get {t : Settings} {n : Nat} (h5 : n ≠ 5) (h6 : n ≠ 6) : t.raiseWindows.get n = t.get n := by
  unfold Settings.get
  split
  case h_5 => exact absurd rfl h5
  case h_6 => exact absurd rfl h6
  all_goals rfl

theorem raiseWindows_window (t : Settings) (ch : Channel) :
    t.raiseWindows.stabilityWindow ch = max (t.stabilityWindow ch) (t.filterDepth ch) := by cases ch <;> rfl

theorem loaded_good {t : Store} (h : t.blockGood = true) : t.loaded = t.block.raiseWindows := if_pos h

theorem loaded_bad {t : Store} (h : t.blockGood = false) : t.loaded = Settings.defaults := if_neg (by simp [h])

/-- A channel loads its calibration where its block is good (R26). -/
theorem loadedChan_effects (b : CalBlock) (d : Nat) : (loadedChan b d).calValid = b.good ∧ (loadedChan b d).zeroValid = false ∧
    (loadedChan b d).op = none ∧ (loadedChan b d).d = none ∧ (loadedChan b d).stable = false ∧
    (b.good = true → (loadedChan b d).c0 = b.c0 ∧ (loadedChan b d).k = b.k) := by
  unfold loadedChan
  cases hgood : b.good with
  | true => exact ⟨rfl, rfl, rfl, rfl, rfl, fun _ => ⟨rfl, rfl⟩⟩
  | false => exact ⟨rfl, rfl, rfl, rfl, rfl, fun h => absurd h (by decide)⟩

theorem reset_sense (kind : ResetKind) (s : State) (p : Port) : (resetNow kind s).sense p = none := by
  unfold State.sense
  cases p <;> cases h : ((resetNow kind s).drw.d1.present) <;> simp [State.port, resetNow, PortState.reset]

theorem cut_none {t : Store} (h : t.writes = []) (free : Nat) : t.cut free = t := by simp only [Store.cut, h]

theorem cut_settings {t : Store} {rest : List StoreWrite} (h : t.writes = .settings :: rest) (free : Nat) :
    t.cut free = { t with blockCrc := badCrc t.block.bytes } := by simp only [Store.cut, h]

theorem cut_marker {t : Store} {v : Bool} {rest : List StoreWrite} (h : t.writes = .marker v :: rest) (free : Nat) :
    t.cut free = { t with marker := true } := by simp only [Store.cut, h]

theorem resetNow_pending (kind : ResetKind) (s : State) : (resetNow kind s).pending = s.pending := by rw [resetNow]

/-- Start-up loads the calibrations and the records of the store as the reset finds them (R26, R195, R196). -/
theorem resetNow_loads {kind : ResetKind} {s : State} {t : Store} (h : s.sst.cut s.free = t) :
    (resetNow kind s).set = t.loaded ∧ (resetNow kind s).rpt.latched = t.latches ∧ (resetNow kind s).sst = t.startup kind ∧
      (resetNow kind s).wgt.chanP = loadedChan t.calP 2 ∧ (resetNow kind s).wgt.chanB = loadedChan t.calB 10 := by
  subst h
  exact ⟨rfl, rfl, rfl, rfl, rfl⟩

/-- Settles O10, by what each block's reset gives and what the store holds. -/
theorem hardResetState : Obligations.HardResetState := by
  intro s
  obtain ⟨hPvalid, hPzero, hPop, hPd, hPstable, hPcal⟩ := loadedChan_effects (s.sst.cut s.free).calP 2
  obtain ⟨hBvalid, hBzero, hBop, hBd, hBstable, hBcal⟩ := loadedChan_effects (s.sst.cut s.free).calB 10
  refine ⟨_, rfl, resetNow_pending .hard s, rfl, rfl, rfl, rfl, rfl, rfl, rfl, rfl, rfl, fun ch => ?chans, rfl, rfl, rfl, rfl,
    fun p => ?ports, rfl, rfl, rfl, rfl, rfl, rfl, rfl, rfl, rfl, ⟨rfl, rfl, rfl, rfl⟩, rfl, rfl, rfl, fun hw => ?loads,
    fun rest hw => ?cutBlock, fun v rest hw => ?cutMarker⟩
  case chans =>
    cases ch
    · exact ⟨hPzero, hPop, hPd, hPstable⟩
    · exact ⟨hBzero, hBop, hBd, hBstable⟩
  case ports =>
    refine ⟨?_, ?_, ?_, reset_sense .hard s p⟩
    all_goals cases p <;> rfl
  case loads =>
    have hcut := cut_none hw s.free
    obtain ⟨hset, hlatched, hsst, hP, hB⟩ := resetNow_loads (kind := .hard) hcut
    rw [hcut] at hPvalid hPcal hBvalid hBcal
    rw [hset, hlatched, hsst, hP, hB]
    refine ⟨fun hgood ch => ?_, fun hgood n h5 h6 => ?_, loaded_bad, rfl, rfl, hPvalid, hBvalid, hPcal, hBcal, rfl, rfl, rfl⟩
    · rw [loaded_good hgood, raiseWindows_window]
    · rw [loaded_good hgood, raiseWindows_get h5 h6]
  case cutBlock =>
    have hcut := cut_settings hw s.free
    obtain ⟨hset, hlatched, hsst, -⟩ := resetNow_loads (kind := .hard) hcut
    have hbad : ({ s.sst with blockCrc := badCrc s.sst.block.bytes } : Store).blockGood = false :=
      decide_eq_false (badCrc_ne _)
    rw [hset, hlatched, hsst]
    exact ⟨loaded_bad hbad, congrArg not hbad, congrArg not hbad⟩
  case cutMarker =>
    obtain ⟨-, -, hsst, -⟩ := resetNow_loads (kind := .hard) (cut_marker hw s.free)
    rw [hsst]
    exact ⟨rfl, rfl⟩

end Sys2Proof.Machine
end

