-- ==== Sys2Proof/Proofs/Link/Time.lean ====
section
/-! PROOFS. One millisecond passing on an empty queue of commands (log entry 1). -/

namespace Sys2Proof.Machine

/-! ### What rests (R77, R112, R124, R130 to R141, R158, R172) -/

/-- A port at which no timer can run out. -/
def PortState.resting (q : PortState) : Prop :=
  q.deb = none ∧ (q.mode = .unknown ∨ q.mode = .fault ∨ q.mode = .openOverdue ∨ (q.mode = .closed ∧ q.retry = false))

/-- The monitor, the reader, the ports, the jobs and the cutter have no timer that can run out. -/
def State.resting (s : State) : Prop :=
  s.bag.entries = [] ∧ s.crd.state ≠ .reading ∧ s.crd.one = none ∧ s.crd.two = none ∧ (∀ p, (s.port p).resting) ∧
    s.job.table = [] ∧ s.pen.cut = none

/-- Only the open time of a port at rest can advance (R141). -/
theorem PortState.tick_resting {q : PortState} (h : q.resting) :
    q.tick = { q with openMs := if q.mode = .openOverdue then q.openMs + 1 else q.openMs } := by
  obtain ⟨hdeb, hmode⟩ := h
  unfold PortState.tick
  rcases hmode with h | h | h | ⟨h, hr⟩
  · simp [h, hdeb]
  · simp [h, hdeb]
  · simp [h, hdeb]
  · simp [h, hdeb, hr]

theorem PortState.resting_openMs {q : PortState} (h : q.resting) (n : Nat) : { q with openMs := n }.resting := h

theorem expirePort_resting {r : Raise} {p : Port} {s : State} (h : (s.port p).resting) : expirePort r p s = s := by
  obtain ⟨hdeb, hmode⟩ := h
  have hwait : expireWait r p s = s := by
    unfold expireWait
    rcases hmode with h | h | h | ⟨h, hr⟩
    · simp only [h]
    · simp only [h]
    · simp only [h]
    · simp only [h, hr, Bool.false_and, Bool.false_eq_true, if_false]
  unfold expirePort
  simp only [hdeb, Option.getD_none]
  rw [if_neg (by decide), hwait]

/-- What expires after the link and the scale, where only the idle timer can run out (R184). -/
theorem expire_resting {r : Raise} {s u : State}
    (hu : expireScale r (if 50 ≤ s.link.rx.quiet then rxStall r s else s) = u) (h : u.resting) :
    expire r s = if u.idleRuns && decide (60000 * u.set.idleStandby ≤ u.lpm.idle) then idleExpired r u else u := by
  obtain ⟨hentries, hreading, hone, htwo, hports, htable, hcut⟩ := h
  have hover : judgeOverdue r u = u := by
    unfold judgeOverdue
    rw [hentries]
    rfl
  have hhold (c : CardSlot) : judgeHold r c u = u := by
    unfold judgeHold
    cases c <;> simp only [State.card, hone, htwo]
  have hstall : judgeStall r u = u := by
    unfold judgeStall
    rw [htable]
    rfl
  have hlane : expireLane r u =
      if u.idleRuns && decide (60000 * u.set.idleStandby ≤ u.lpm.idle) then idleExpired r u else u := by
    unfold expireLane
    simp only [hcut, Option.getD_none]
    rw [if_neg (show ¬ 500 ≤ 0 by decide), hstall]
  unfold expire
  simp only [hu, hover]
  rw [if_neg (fun h => hreading h.1), hhold, hhold, expirePort_resting (hports .d1), expirePort_resting (hports .d2), hlane]

/-! ### What differs only in the scale, the link and the reports -/

/-- Nothing but the weighing engine, the link and the reports differs. -/
def State.scaleOnly (s u : State) : Prop := ∃ w l q, u = { s with wgt := w, link := l, rpt := q }

theorem State.scaleOnly.resting {s u : State} (h : s.scaleOnly u) (hs : s.resting) : u.resting := by
  obtain ⟨w, l, q, rfl⟩ := h
  exact hs

theorem State.scaleOnly.idleRuns {s u : State} (h : s.scaleOnly u) : u.idleRuns = s.idleRuns := by
  obtain ⟨w, l, q, rfl⟩ := h
  rfl

theorem State.scaleOnly.idle_due {s u : State} (h : s.scaleOnly u) :
    60000 * u.set.idleStandby ≤ u.lpm.idle ↔ 60000 * s.set.idleStandby ≤ s.lpm.idle := by
  obtain ⟨w, l, q, rfl⟩ := h
  rfl

theorem State.scaleOnly.of_noticed {s u x : State} (hu : s.scaleOnly u) (hx : u.Noticed x) : s.scaleOnly x := by
  obtain ⟨w, l, q, rfl⟩ := hu
  obtain ⟨-, l', q', rfl⟩ := hx
  exact ⟨w, l', q', rfl⟩

theorem setChan_scaleOnly (s : State) (ch : Channel) (c : Chan) : s.scaleOnly (s.setChan ch c) := by
  cases ch with
  | p => exact ⟨{ s.wgt with chanP := c }, s.link, s.rpt, rfl⟩
  | b => exact ⟨{ s.wgt with chanB := c }, s.link, s.rpt, rfl⟩

theorem State.scaleOnly.trans {s u x : State} (hu : s.scaleOnly u) (hx : u.scaleOnly x) : s.scaleOnly x := by
  obtain ⟨w, l, q, rfl⟩ := hu
  obtain ⟨w', l', q', rfl⟩ := hx
  exact ⟨w', l', q', rfl⟩

/-- The end of a guard changes the channels and raises notices (R36). -/
theorem guardEnd_scaleOnly {s : State} (hu : s.unbound) :
    s.scaleOnly (guardEnd raiseLoud s) ∧ (guardEnd raiseLoud s).wgt.stream = s.wgt.stream := by
  unfold guardEnd
  by_cases hg : s.wgt.guard.isSome
  · rw [if_pos hg]
    obtain ⟨v, hv⟩ : ∃ v, ({ s with wgt.guard := none } : State) = v := ⟨_, rfl⟩
    have hsv : s.scaleOnly v := ⟨{ s.wgt with guard := none }, s.link, s.rpt, hv.symm⟩
    have hvu : v.unbound := by rw [← hv]; exact hu
    have hvs : v.wgt.stream = s.wgt.stream := by rw [← hv]
    rw [hv]
    unfold judgeQuiet
    by_cases hd : v.wgt.disturbed
    · rw [if_pos hd]
      exact ⟨hsv, hvs⟩
    · rw [if_neg hd]
      have hp := restartStability_keeps (ch := .p) hvu
      have hb := restartStability_keeps (ch := .b) hp.1
      refine ⟨((hsv.trans (setChan_scaleOnly ..)).of_noticed hp |>.trans (setChan_scaleOnly ..)).of_noticed hb, ?_⟩
      calc _ = ((restartStability raiseLoud .p v).setChan .b _).wgt.stream := congrArg Weigh.stream hb.wgt
        _ = (restartStability raiseLoud .p v).wgt.stream := rfl
        _ = (v.setChan .p (v.chan .p).restarted).wgt.stream := congrArg Weigh.stream hp.wgt
        _ = s.wgt.stream := hvs
  · rw [if_neg hg]
    exact ⟨⟨s.wgt, s.link, s.rpt, rfl⟩, rfl⟩

/-- A timeout of channel P frees its slot, or changes nothing (R40, R42, R48, R56). -/
theorem expireOp_scaleOnly {s : State} (hu : s.unbound) (o : Op) (hop : (s.chan .p).op = some o) :
    s.scaleOnly (expireOp raiseLoud .p s) ∧ (expireOp raiseLoud .p s).wgt.stream = s.wgt.stream ∧
      (expireOp raiseLoud .p s).wgt.guard = s.wgt.guard ∧ (expireOp raiseLoud .p s).wgt.chanB = s.wgt.chanB := by
  cases hw : o.writing with
  | true =>
    have hsame : expireOp raiseLoud .p s = s := by
      unfold expireOp
      rw [hop]
      simp only [hw, if_true]
    rw [hsame]
    exact ⟨⟨s.wgt, s.link, s.rpt, rfl⟩, rfl, rfl, rfl⟩
  | false =>
    rw [expireOp_some hu hop hw]
    have hx (n : Notice) : (freeSlot .p s).Noticed (raiseQuiet n (freeSlot .p s)) :=
      (State.Noticed.refl (freeSlot_unbound hu .p)).raised n
    refine ⟨(setChan_scaleOnly s .p _).of_noticed (hx _), ?_, ?_, ?_⟩
    · exact (congrArg Weigh.stream (hx _).wgt).trans rfl
    · exact (congrArg Weigh.guard (hx _).wgt).trans rfl
    · exact (congrArg Weigh.chanB (hx _).wgt).trans rfl

/-! ### The expiries of the scale -/

/-- With readings under way and no attempt running, the operations and the guard are all that can run out but the
streaming. -/
theorem expireScale_eq {r : Raise} {s x y : State} (hconv : s.wgt.conv = .running) (hover : ∀ ch, s.attemptOver ch)
    (hx : expireSlot r .b (expireSlot r .p s) = x) (hy : (if x.wgt.guard = some 0 then guardEnd r x else x) = y)
    (hstream : y.wgt.stream = none) : expireScale r s = y := by
  have hinit (ch : Channel) : expireInit r ch s = s := by
    unfold expireInit
    cases h : (s.chan ch).init with
    | running age => exact absurd h (hover ch age)
    | _ => rfl
  have hwarm : ¬ (s.wgt.conv = .warming ∧ 1500 ≤ s.wgt.warmAge) := fun h => by rw [hconv] at h; exact absurd h.1 (by decide)
  unfold expireScale
  simp only [if_neg hwarm, hinit, hx, hy, hstream]

theorem expireSlot_waits {r : Raise} {ch : Channel} {s : State}
    (h : ∀ o, (s.chan ch).op = some o → o.age < o.limit) : expireSlot r ch s = s := by
  unfold expireSlot
  cases hop : (s.chan ch).op with
  | none => rfl
  | some o => exact if_neg (Nat.not_le.mpr (h o hop))

theorem expireSlot_due {r : Raise} {ch : Channel} {s : State} {o : Op} (hop : (s.chan ch).op = some o)
    (h : o.limit ≤ o.age) : expireSlot r ch s = expireOp r ch s := by
  unfold expireSlot
  simp only [hop, if_pos h]

/-! ### One millisecond -/

/-- The lane as its timers have advanced by one millisecond, of those that run when it rests. -/
def State.aged (s : State) : State :=
  { s with
    wgt.chanP.op := s.wgt.chanP.op.map fun o => { o with age := o.age + 1 }
    wgt.chanB.op := s.wgt.chanB.op.map fun o => { o with age := o.age + 1 }
    wgt.guard := s.wgt.guard.map fun g => g - 1
    drw.d1.openMs := if s.drw.d1.mode = .openOverdue then s.drw.d1.openMs + 1 else s.drw.d1.openMs
    drw.d2.openMs := if s.drw.d2.mode = .openOverdue then s.drw.d2.openMs + 1 else s.drw.d2.openMs
    lpm.idle := if s.txn.state ≠ .idle then 0
      else if s.lpm.mode = .active ∧ s.sst.started = true then s.lpm.idle + 1 else s.lpm.idle }

theorem Chan.tick_over {c : Chan} (h : ∀ age, c.init ≠ .running age) :
    c.tick = { c with op := c.op.map fun o => { o with age := o.age + 1 } } := by
  unfold Chan.tick
  cases hi : c.init with
  | running age => exact absurd hi (h age)
  | _ => rfl

section
variable {s : State} (hrx : s.link.rx.mode.inBody = false) (hconv : s.wgt.conv = .running)
  (hstream : s.wgt.stream = none) (hrest : s.resting) (hover : ∀ ch, s.attemptOver ch)

include hrx hconv hstream hrest hover in
theorem advance_eq : advance s = s.aged := by
  obtain ⟨hentries, hreading, hone, htwo, hports, htable, hcut⟩ := hrest
  have hrxt : s.link.rx.tick = s.link.rx := by unfold Rx.tick; rw [hrx]; rfl
  have hwgt : s.wgt.tick = { s.wgt with
      chanP.op := s.wgt.chanP.op.map fun o => { o with age := o.age + 1 }
      chanB.op := s.wgt.chanB.op.map fun o => { o with age := o.age + 1 }
      guard := s.wgt.guard.map fun g => g - 1 } := by
    have hp : s.wgt.chanP.tick = _ := Chan.tick_over (hover .p)
    have hb : s.wgt.chanB.tick = _ := Chan.tick_over (hover .b)
    have hwarm : (if s.wgt.conv = .warming then s.wgt.warmAge + 1 else s.wgt.warmAge) = s.wgt.warmAge :=
      if_neg (by rw [hconv]; decide)
    have hst : s.wgt.stream.map (fun x => { x with age := x.age + 1 }) = s.wgt.stream := by rw [hstream]; rfl
    unfold Weigh.tick
    rw [hp, hb, hwarm, hst]
  have hbag : s.bag.tick = s.bag := by
    unfold Bag.tick
    have hmap : s.bag.entries.map (fun e => { e with age := e.age + 1 }) = s.bag.entries := by rw [hentries]; rfl
    rw [hmap]
    exact ite_self _
  have hcrd : s.crd.tick = s.crd := by
    have h1 : s.crd.one.map CardRec.tick = s.crd.one := by rw [hone]; rfl
    have h2 : s.crd.two.map CardRec.tick = s.crd.two := by rw [htwo]; rfl
    unfold Card.tick
    rw [if_neg hreading, h1, h2]
  have hjob : s.job.table.map Job.tick = s.job.table := by rw [htable]; rfl
  have hpen : s.pen.cut.map (fun c => c + 1) = s.pen.cut := by rw [hcut]; rfl
  have hd1 : s.drw.d1.tick = _ := PortState.tick_resting (hports .d1)
  have hd2 : s.drw.d2.tick = _ := PortState.tick_resting (hports .d2)
  unfold advance State.aged
  rw [hrxt, hwgt, hbag, hcrd, hd1, hd2, hjob, hpen]
  rfl

theorem aged_resting (h : s.resting) : s.aged.resting := by
  obtain ⟨hentries, hreading, hone, htwo, hports, htable, hcut⟩ := h
  refine ⟨hentries, hreading, hone, htwo, fun p => ?_, htable, hcut⟩
  cases p with
  | d1 => exact PortState.resting_openMs (hports .d1) _
  | d2 => exact PortState.resting_openMs (hports .d2) _

theorem aged_op (ch : Channel) : (s.aged.chan ch).op = (s.chan ch).op.map fun o => { o with age := o.age + 1 } := by
  cases ch <;> rfl

theorem aged_over (h : ∀ ch, s.attemptOver ch) (ch : Channel) : s.aged.attemptOver ch := by
  cases ch with
  | p => exact h .p
  | b => exact h .b

/-- A step on an empty queue of commands, with no request to execute (log entry 1). -/
theorem step_passes (hp : s.pending = []) (hidle : s.link.inExec ≠ none ∨ s.link.queue = []) :
    step s = .next (expire raiseLoud (advance s)) := by
  have hno : ¬ (s.link.inExec.isNone && !s.link.queue.isEmpty) = true := by
    rcases hidle with h | h
    · cases he : s.link.inExec with
      | none => exact absurd he h
      | some e => exact Bool.false_ne_true
    · rw [h]
      simp
  unfold step
  rw [hp] <;> exact congrArg Host.Outcome.next (if_neg hno)

theorem step_executes (hp : s.pending = []) (hexec : s.link.inExec = none) (hq : s.link.queue ≠ []) :
    step s = exec .requestExecute s := by
  have hyes : (s.link.inExec.isNone && !s.link.queue.isEmpty) = true := by
    rw [hexec]
    cases h : s.link.queue with
    | nil => exact absurd h hq
    | cons a as => rfl
  unfold step
  rw [hp] <;> exact congrArg Host.Outcome.next (if_pos hyes)

/-- The millisecond of a lane at rest: the scale's expiries, then the idle timer (log entries 1 and 7). -/
theorem expire_aged {r : Raise} {y : State} (hrx : s.link.rx.mode.inBody = false) (hrest : s.resting)
    (hy : expireScale r s.aged = y) (hsame : s.aged.scaleOnly y) :
    expire r s.aged = if s.aged.idleRuns && decide (60000 * s.set.idleStandby ≤ s.aged.lpm.idle) then idleExpired r y
      else y := by
  have hstall : (if 50 ≤ s.aged.link.rx.quiet then rxStall r s.aged else s.aged) = s.aged := by
    have hnone : rxStall r s.aged = s.aged := by
      unfold rxStall
      exact if_neg (by rw [show s.aged.link.rx.mode.inBody = false from hrx]; decide)
    rw [hnone]
    exact ite_self _
  have hdue : decide (60000 * y.set.idleStandby ≤ y.lpm.idle) =
      decide (60000 * s.set.idleStandby ≤ s.aged.lpm.idle) := decide_eq_decide.mpr hsame.idle_due
  rw [expire_resting (by rw [hstall]; exact hy) (hsame.resting (aged_resting hrest)), hsame.idleRuns, hdue]

end

/-! ### The obligation -/

section
variable {s : State} (hp : s.pending = []) (hidle : s.link.inExec ≠ none ∨ s.link.queue = []) (hu : s.unbound)
  (hrx : s.link.rx.mode.inBody = false) (hconv : s.wgt.conv = .running) (hstream : s.wgt.stream = none)
  (hrest : s.resting) (hover : ∀ ch, s.attemptOver ch)

include hp hidle hrx hconv hstream hrest hover in
/-- The step of a lane at rest, once the scale's expiries are known. -/
theorem step_aged {x y : State} (hx : expireSlot raiseLoud .b (expireSlot raiseLoud .p s.aged) = x)
    (hy : (if x.wgt.guard = some 0 then guardEnd raiseLoud x else x) = y) (hst : y.wgt.stream = none)
    (hsame : s.aged.scaleOnly y) :
    step s = .next (if s.aged.idleRuns && decide (60000 * s.set.idleStandby ≤ s.aged.lpm.idle) then
      idleExpired raiseLoud y else y) := by
  have hscale : expireScale raiseLoud s.aged = y := expireScale_eq hconv (aged_over hover) hx hy hst
  rw [step_passes hp hidle, advance_eq hrx hconv hstream hrest hover, expire_aged hrx hrest hscale hsame]

/-- No operation runs out. -/
theorem aged_waits (hops : ∀ ch o, (s.chan ch).op = some o → o.age + 1 < o.limit) :
    expireSlot raiseLoud .b (expireSlot raiseLoud .p s.aged) = s.aged := by
  have hwait (ch : Channel) : expireSlot raiseLoud ch s.aged = s.aged := by
    refine expireSlot_waits fun o ho => ?_
    rw [aged_op, Option.map_eq_some_iff] at ho
    obtain ⟨o', ho', rfl⟩ := ho
    exact hops ch o' ho'
  rw [hwait, hwait]

theorem idle_not_due (h : s.aged.idleRuns = true → s.aged.lpm.idle < 60000 * s.set.idleStandby) :
    (s.aged.idleRuns && decide (60000 * s.set.idleStandby ≤ s.aged.lpm.idle)) = false := by
  cases hr : s.aged.idleRuns with
  | false => rfl
  | true => exact decide_eq_false (Nat.not_le.mpr (h hr))

theorem aged_guard (g : Nat) (hg : s.wgt.guard = some g) : s.aged.wgt.guard = some (g - 1) :=
  congrArg (Option.map fun g => g - 1) hg

include hu in
theorem aged_unbound : s.aged.unbound := hu

end

/-- Settles O2: the timers that run advance, and what runs out acts as its own command. -/
theorem millisecondPasses : Obligations.MillisecondPasses := by
  intro s hp
  refine ⟨step_executes hp, ?_⟩
  intro hidle hu hrx hconv hstream hentries hreading hone htwo hports htable hcut a ha
  have hrest : s.resting := ⟨hentries, hreading, hone, htwo, hports, htable, hcut⟩
  have haged : a = s.aged := ha
  clear ha
  subst haged
  have hau : s.aged.unbound := aged_unbound hu
  have hself : s.aged.scaleOnly s.aged := ⟨_, _, _, rfl⟩
  refine ⟨fun hover hops => ⟨fun hguard => ?_, fun hg hnot => ?_⟩, fun o hover hg hruns hb hop hlim => ?_⟩
  · have hno : ¬ s.aged.wgt.guard = some 0 := fun h => by
      obtain ⟨g, hg, h0⟩ := Option.map_eq_some_iff.mp h
      have := hguard g hg
      omega
    have hstep := step_aged hp hidle hrx hconv hstream hrest hover (aged_waits hops) (if_neg hno) hstream hself
    refine ⟨fun hnot => ?_, fun hr hdue => ?_⟩
    · rw [hstep, idle_not_due hnot]
      rfl
    · rw [hstep, hr, decide_eq_true hdue]
      exact congrArg Host.Outcome.next (if_pos hr).symm
  · obtain ⟨hsame, hst⟩ := guardEnd_scaleOnly hau
    have hstep := step_aged hp hidle hrx hconv hstream hrest hover (aged_waits hops)
      (if_pos (aged_guard 1 hg)) (hst.trans hstream) hsame
    rw [hstep, idle_not_due hnot]
    rfl
  · obtain ⟨o', ho', hlim', hkind⟩ : ∃ o', (s.aged.chan .p).op = some o' ∧ o'.limit ≤ o'.age ∧ o'.kind = o.kind := by
      refine ⟨{ o with age := o.age + 1 }, ?_, hlim, rfl⟩
      exact (aged_op .p).trans ((congrArg _ (show (s.chan .p).op = some o from hop)).trans rfl)
    obtain ⟨hsame, hst, hgd, hcb⟩ := expireOp_scaleOnly hau o' ho'
    have hbnone : ((expireOp raiseLoud .p s.aged).chan .b).op = none := by
      show (expireOp raiseLoud .p s.aged).wgt.chanB.op = none
      rw [hcb]
      exact (aged_op .b).trans (congrArg _ hb)
    have hslots : expireSlot raiseLoud .b (expireSlot raiseLoud .p s.aged) = expireOp raiseLoud .p s.aged := by
      rw [expireSlot_due ho' hlim']
      exact expireSlot_waits fun o ho => by rw [hbnone] at ho; exact absurd ho (by simp)
    have hgnone : s.aged.wgt.guard = none := congrArg (Option.map fun g => g - 1) hg
    have hstep := step_aged hp hidle hrx hconv hstream hrest hover hslots
      (if_neg (by rw [hgd, hgnone]; simp)) (hst.trans hstream) hsame
    rw [hruns] at hstep
    have htimeout (kind : OpKind → Bool) (hk : kind o.kind = true) :
        step s = .next (timeoutOf raiseLoud .p kind s.aged) := by
      rw [hstep, timeoutOf_some ho' (by rw [hkind]; exact hk)]
      rfl
    exact ⟨fun hk => htimeout OpKind.isZero (by rw [hk]; rfl), fun hk => htimeout OpKind.isTare (by rw [hk]; rfl),
      htimeout OpKind.isCapture, htimeout OpKind.isCal⟩

end Sys2Proof.Machine
end

