-- ==== Sys2Proof/Proofs/Print/Lines.lean ====
section
/-! PROOFS. The ends of dot lines, the cut and the stall limit (chapters 8 and 9). -/

namespace Sys2Proof.Machine

/-! ### The cutter (R172) -/

/-- The lane once the cutter has stopped: its grant returned, its action ended, the guard started. -/
def State.cutEnded (s : State) : State :=
  { s with
    pen.cut := none
    dsa.loads := []
    wgt.actions := []
    wgt.guard := some (max s.set.printGuard (s.wgt.guard.getD 0)) }

theorem cutterStops_one {r : Raise} {s : State} (hloads : s.dsa.loads = [(.cutter, 1200)]) (hqueue : s.dsa.queue = [])
    (hcap : s.dsa.cap = s.set.capacity) (ha : s.wgt.actions = [.cut]) (hg : s.set.printGuard ≠ 0) :
    cutterStops r s = s.cutEnded := by
  rw [cutterStops, returnGrant_one (by exact hloads) (by exact hqueue) (by exact hcap),
    disturbEnd_one (by exact ha) (by exact hg)]
  rfl

/-- With the supply free the cutter is driven at once (R172, R178). -/
theorem enterCutting_now {r : Raise} {s : State} (hloads : s.dsa.loads = []) (hqueue : s.dsa.queue = [])
    (hline : s.pen.line = none) (hlow : s.dsa.low = false) (hcap : 1200 ≤ s.set.capacity)
    (hp : s.wgt.chanP.stable = false) (hb : s.wgt.chanB.stable = false) :
    enterCutting r s = { s with
      pen.mode := .cutting, pen.cut := some 0, dsa.loads := [(.cutter, 1200)]
      wgt.actions := .cut :: s.wgt.actions } := by
  have hfits : s.dsa.committed + 1200 ≤ s.set.capacity := by simpa [Supply.committed, hloads] using hcap
  have hgo : (!s.dsa.low && decide (s.dsa.committed + 1200 ≤ s.set.capacity)) = true := by
    rw [hlow, decide_eq_true hfits]
    rfl
  have hgrant : grant r .cutter { s with pen.mode := .cutting } = { s with
      pen.mode := .cutting, pen.cut := some 0, dsa.loads := s.dsa.loads ++ [(.cutter, 1200)]
      wgt.actions := .cut :: s.wgt.actions } := disturbStart_calm _ _ hp hb
  have hself : ({ s with pen.mode := .cutting, dsa.queue := [] } : State) = { s with pen.mode := .cutting } := by
    rw [← hqueue]
  unfold enterCutting askGrant scan
  rw [if_neg (by simp [hline]), scanFrom]
  simp only [hqueue, List.nil_append]
  rw [if_pos (by exact hgo)]
  have hstep : grant r .cutter { s with pen.mode := .cutting, dsa.queue := [] } = _ := (congrArg _ hself).trans hgrant
  refine (congrArg (scanFrom r 7) hstep).trans ?_
  rw [scanFrom]
  simp only [hqueue, hloads, List.nil_append]

/-- The cut of an abort sequence is complete: its job leaves, and the engine is IDLE (R160, R172). -/
theorem cutDone_abort {s : State} {j : Job} {segs : List Seg} {row : Nat} {reason : AbortReason} {e : Ending} (hu : s.unbound)
    (hstop : cutterStops raiseLoud s = s.cutEnded)
    (hw : s.pen.work = some { owner := .abort j.number true, current := .none, segs := segs, row := row })
    (ht : s.job.table = [j]) (hm : j.mode = .aborted reason e) (hqueue : s.dsa.queue = []) (hentry : s.lpm.entry = none) :
    cutDone raiseLoud s =
      { raiseQuiet (.jobAborted j.tag j.number j.role reason e j.lines j.truncated j.unavailable)
          { s.cutEnded with pen.work := none, job.table := [] } with pen.mode := .idle } := by
  have hj : s.cutEnded.job? j.number = some j := job_one ht rfl
  have hreason : j.reason = reason := by rw [Job.reason, hm]
  have hending : j.ending = e := by rw [Job.ending, hm]
  have hwork : s.cutEnded.pen.work = _ := hw
  unfold cutDone
  simp only [hstop, hwork, hj, Option.map_some, Option.getD_some, hreason, hending]
  rw [jobLeaves_one (by exact ht), raiseLoud_unbound (by exact hu), boundary_eq,
    atBoundary_idle (by simp) (.inl rfl) (by simpa [State.cutEnded] using hqueue)
      (by simp) (by simpa [State.cutEnded] using hentry)]

/-- A cutter that does not come home is a FAULT, and the only job leaves: for the cutter, or from its abort sequence
(R160, R172). -/
theorem cutJam_one {s v : State} {j : Job} {o : Owner} {c : Current} {segs : List Seg} {row : Nat} {reason : AbortReason}
    {e : Ending} (hu : s.unbound) (hstop : cutterStops raiseLoud s = s.cutEnded)
    (hw : s.pen.work = some { owner := o, current := c, segs := segs, row := row }) (ht : s.job.table = [j])
    (ho : (o = .job j.number ∧ reason = .cutter ∧ e = .none) ∨
      (∃ b, o = .abort j.number b ∧ reason = j.reason ∧ e = .incomplete))
    (hv : v = raiseQuiet .cutterJam { s.cutEnded with rpt.latched.cutterJam := true }) (hentry : s.lpm.entry = none) :
    cutJam raiseLoud s = raiseQuiet (.jobAborted j.tag j.number j.role reason e j.lines j.truncated j.unavailable)
      { v with pen.mode := .fault, pen.work := none, job.table := [] } := by
  have hvu : v.unbound := by rw [hv]; exact raiseQuiet_unbound (s := { s.cutEnded with rpt.latched.cutterJam := true }) hu _
  have hvw : v.pen.work = some { owner := o, current := c, segs := segs, row := row } := by
    rw [hv, raiseQuiet_pen]
    exact hw
  have hvt : v.job.table = [j] := by
    rw [hv, raiseQuiet_job]
    exact ht
  have hve : v.lpm.entry = none := by
    rw [hv, raiseQuiet_lpm]
    exact hentry
  have hjob : ({ v with pen.mode := .fault, pen.work := none } : State).job? j.number = some j := job_one hvt rfl
  have hleaves := jobLeaves_one (r := raiseLoud) (s := { v with pen.mode := .fault, pen.work := none }) hvt reason e
  rw [raiseLoud_unbound (by exact hvu)] at hleaves
  unfold cutJam
  simp only [hstop]
  rw [raiseLoud_unbound (by exact hu), ← hv, hvw]
  rcases ho with ⟨rfl, rfl, rfl⟩ | ⟨b, rfl, rfl, rfl⟩
  · simp only [hleaves]
    rw [judgeStart_empty (by simp), judgeEntry_none (by simpa using hve)]
  · simp only [hjob, Option.map_some, Option.getD_some, hleaves]
    rw [judgeStart_empty (by simp), judgeEntry_none (by simpa using hve)]

/-- The cut of a job is complete: the engine is at the boundary behind it (R172). -/
theorem cutDone_job {r : Raise} {s : State} {n row : Nat} {c : Current} {segs : List Seg} (hstop : cutterStops r s = s.cutEnded)
    (hw : s.pen.work = some { owner := .job n, current := c, segs := segs, row := row }) :
    cutDone r s = boundary r { s.cutEnded with
      pen.mode := .printing
      pen.work := some { owner := .job n, current := c, segs := segs.tail, row := 0 } } := by
  have hwork : s.cutEnded.pen.work = _ := hw
  unfold cutDone
  simp only [hstop, hwork]

/-! ### CUTTER_JAM and the notices after it (R188, R191) -/

theorem offer_cutterJam (r : Report) (n : Notice) (b : Bool) :
    ({ r with latched.cutterJam := b } : Report).offer n = { r.offer n with latched.cutterJam := b } := by
  obtain ⟨q, k, hkept⟩ := r.offerOnce_eq n
  have hsame : (r.offerOnce n).1.latched = r.latched := by rw [hkept]
  unfold Report.offer
  rw [offerOnce_latched]
  revert hsame
  obtain ⟨r', o⟩ := r.offerOnce n
  intro hsame
  have hkeep : r.latched = r'.latched := hsame.symm
  rw [hkeep]
  cases o with
  | none => rfl
  | some lost =>
    have h1 := offerOnce_latched r' (.noticeLost lost) { r'.latched with cutterJam := b, noticeLost := some lost }
    have h2 := offerOnce_latched r' (.noticeLost lost) { r'.latched with noticeLost := some lost }
    simp only
    by_cases hl : r'.latched.noticeLost.isSome = true
    · rw [if_pos hl, if_pos hl]
    · rw [if_neg hl, if_neg hl, h1, h2]

/-- The latched condition CUTTER_JAM has no part in what a notice does. -/
theorem raiseQuiet_cutterJam (n : Notice) (s : State) (b : Bool) :
    raiseQuiet n { s with rpt.latched.cutterJam := b } = { raiseQuiet n s with rpt.latched.cutterJam := b } := by
  unfold raiseQuiet arbitrate
  simp only [offer_cutterJam]
  repeat' split
  all_goals rfl

theorem raiseQuiet_keeps_cutterJam (n : Notice) (s : State) :
    (raiseQuiet n s).rpt.latched.cutterJam = s.rpt.latched.cutterJam := by
  obtain ⟨l, q, k, x, h⟩ := raiseQuiet_eq n s
  rw [h]

/-- What the queue holds after a cutter jam and the abort that follows it. -/
theorem cutJam_queue (n : Notice) {s u v : State} (hlink : u.link = s.link) (hrpt : u.rpt = s.rpt) (hset : u.set = s.set)
    (hv : v = raiseQuiet .cutterJam { u with rpt.latched.cutterJam := true }) (e : Engine) (t : JobStore) :
    (raiseQuiet n { v with pen := e, job := t }).rpt.queue = (raiseQuiet n (raiseQuiet .cutterJam s)).rpt.queue := by
  rw [raiseQuiet_cutterJam] at hv
  have hl : (raiseQuiet .cutterJam u).link = (raiseQuiet .cutterJam s).link := raiseQuiet_link_congr _ _ _ hlink hrpt hset
  have hr : (raiseQuiet .cutterJam u).rpt = (raiseQuiet .cutterJam s).rpt := raiseQuiet_rpt_congr _ _ _ hlink hrpt hset
  refine raiseQuiet_queue_congr n _ _ { (raiseQuiet .cutterJam s).rpt.latched with cutterJam := true } ?_ ?_ ?_ rfl
  · rw [hv]
    exact hl
  · rw [hv]
    exact congrArg (fun r : Report => { r with latched.cutterJam := true }) hr
  · rw [hv]
    simpa using hset

/-! ### A job's content completed, and the next one taken (R152, R154, R161) -/

/-- The job as its element is completed. -/
def Job.completed (j : Job) : Job := { j with elements := j.elements.tail, rendered := sat16 (j.rendered + 1) }

/-- With its element printed, the engine is at the boundary without content. -/
theorem atBoundary_completed {r : Raise} {k row : Nat} {s : State} {j : Job} (ht : s.job.table = [j]) (ha : j.isAborted = false)
    (hw : s.pen.work = some { owner := .job j.number, current := .element, segs := [], row := row }) :
    atBoundary r (k + 1) s = atBoundary r k { s with
      pen.work := some { owner := .job j.number, current := .none, segs := [], row := 0 }
      job.table := [j.completed] } := by
  have hj : s.job? j.number = some j := job_one ht rfl
  rw [atBoundary]
  simp only [hw, turned_job hj ha, hj]
  exact congrArg (atBoundary r k) (modJob_one _ ht rfl)

/-- The last element of a closed job: it is DONE, and the engine is IDLE. -/
theorem boundary_finishes {s x : State} {j : Job} {e : Element} {row : Nat} (ht : s.job.table = [j])
    (ha : j.isAborted = false) (hw : s.pen.work = some { owner := .job j.number, current := .element, segs := [], row := row })
    (hpen : s.pen.mode = .printing) (hh : j.heading = false) (he : j.elements = [e]) (hc : j.closed = true)
    (hx : jobDone raiseLoud j.number { s with pen.work := none, job.table := [j.completed] } = x)
    (hxpen : x.pen = { s.pen with work := none }) (hxdsa : x.dsa.queue = []) (hxjob : x.job.table = [])
    (hxlpm : x.lpm.entry = none) : boundary raiseLoud s = { x with pen.mode := .idle } := by
  have hempty : j.completed.elements = [] := by simp [Job.completed, he]
  rw [boundary_eq, atBoundary_completed ht ha hw,
    atBoundary_done (j := j.completed) (by exact hpen) (by rfl) (by rfl) (by exact ha) hh hempty hc]
  refine (congrArg (atBoundary raiseLoud _) hx).trans ?_
  exact atBoundary_idle (by rw [hxpen]) (.inl (by rw [hxpen]; exact hpen)) hxdsa hxjob hxlpm

/-- A receipt of the sale that is DONE is reported to it (R102, R152). -/
theorem jobDone_receipt {r : Raise} {s : State} {j : Job} (ht : s.job.table = [j]) (hsale : j.ofSale = true) :
    jobDone r j.number s = receiptDone r
      (r (.jobDone j.tag j.number j.role j.lines j.truncated j.unavailable) { s with job.table := [] }) := by
  simp [jobDone, job_one ht rfl, hsale, dropJob, ht]

/-! ### The next line of a segment (R167, R168, R179) -/

/-- The first of the four causes in their order: none leaves supply low out, and each is one of the four. -/
theorem pause_listed {paper cover low hot : Bool} {cause : Option Pause}
    (h : cause = if paper then some .paper else if cover then some .cover else if low then some .supply
      else if hot then some .hot else none) :
    (cause = none → low = false) ∧ ∀ p, cause = some p → p = .paper ∨ p = .cover ∨ p = .supply ∨ p = .hot := by
  subst h
  cases paper with
  | true => simp
  | false =>
    cases cover with
    | true => simp
    | false => cases low <;> cases hot <;> simp

section
variable {r : Raise} {s : State} {j : Job} {n row : Nat} {c : Current} {g : Seg} {rest : List Seg}
  (hw : s.pen.work = some { owner := .job n, current := c, segs := g :: rest, row := row }) (ht : s.job.table = [j])
  (hn : j.number = n) (hm : j.mode = .printing) (hpen : s.pen.mode = .printing) (hqueue : s.dsa.queue = [])

include hm in
theorem printing_not_aborted : j.isAborted = false := by rw [Job.isAborted, hm]

include hw in
/-- The pause that applies to the next line of a job, where none is taken. -/
theorem lineCause_eq (hpaper : s.pen.paperHold = false) (hcover : s.pen.coverHold = false) :
    s.lineCause = if s.pen.paperOut then some .paper else if s.pen.coverOpen then some .cover
      else if s.dsa.low then some .supply
      else if s.pen.hot && (g.counts row).any (fun k => decide (0 < k)) then some .hot else none := by
  have hdots : s.pen.nextHasDots = (g.counts row).any fun k => decide (0 < k) := by
    simp only [Engine.nextHasDots, Engine.next, hw, List.head?_cons, Option.map_some, anyDots]
  unfold State.lineCause State.boundaryCause
  rw [hpaper, hcover, Bool.or_false, Bool.or_false, hdots]
  cases s.pen.paperOut with
  | true => rfl
  | false =>
    cases s.pen.coverOpen with
    | true => rfl
    | false => cases s.dsa.low <;> rfl

include hw ht hn hm in
theorem atBoundary_pauses {k : Nat} {p : Pause} (hrow : row < g.height) (hcause : s.lineCause = some p) :
    atBoundary r (k + 1) s = takePause r p s := by
  rw [atBoundary]
  simp only [hw, turned_job (job_one ht hn) (printing_not_aborted hm), hcause, if_neg (Nat.not_le.mpr hrow)]

include hw ht hn hm in
theorem atBoundary_asks {k : Nat} (hrow : row < g.height) (hcause : s.lineCause = none) :
    atBoundary r (k + 1) s = askLine r s := by
  rw [atBoundary]
  simp only [hw, turned_job (job_one ht hn) (printing_not_aborted hm), hcause, if_neg (Nat.not_le.mpr hrow)]

include hw ht hn hm hpen hqueue in
/-- A pause of PAPER, COVER, SUPPLY or HOT in a job's segment. -/
theorem takePause_job {p : Pause} (hp : p = .paper ∨ p = .cover ∨ p = .supply ∨ p = .hot) (ha : s.wgt.actions = [])
    (hpaper : s.pen.paperHold = false) (hcover : s.pen.coverHold = false) :
    takePause r p s = { s with
      pen.mode := .paused p
      pen.paperHold := decide (p = .paper)
      pen.coverHold := decide (p = .cover)
      job.table := [{ j with mode := .paused p }] } := by
  have hshare := shareMode_one (s := { s with pen.mode := .paused p }) (.paused p) hw ht hn (printing_not_aborted hm)
  have hfeed (x : State) (hx : x.wgt.actions = []) : endFeedAction r x = x := if_neg (by simp [hx])
  have hdraw (x : State) (hx : x.dsa.queue = []) : withdraw r .line x = x := if_neg (by simp [hx])
  have hended (x : State) (hx : x.pen.work = some { owner := .job n, current := c, segs := g :: rest, row := row }) :
      endPausedWork r x = x := by simp only [endPausedWork, hx]
  have hpaper' (h : p ≠ .paper) : decide (p = .paper) = s.pen.paperHold := by rw [hpaper, decide_eq_false h]
  have hcover' (h : p ≠ .cover) : decide (p = .cover) = s.pen.coverHold := by rw [hcover, decide_eq_false h]
  unfold takePause
  rw [if_neg (by rw [hpen]; simp), hshare]
  rcases hp with rfl | rfl | rfl | rfl
  · simp only
    rw [hfeed _ (by exact ha), hdraw _ (by exact hqueue), hended _ (by exact hw), scan_nil (by exact hqueue),
      hcover' (by decide), decide_true]
  · simp only
    rw [hfeed _ (by exact ha), hdraw _ (by exact hqueue), hended _ (by exact hw), scan_nil (by exact hqueue),
      hpaper' (by decide), decide_true]
  · simp only
    rw [hfeed _ (by exact ha), hdraw _ (by exact hqueue), scan_nil (by exact hqueue), hpaper' (by decide), hcover' (by decide)]
  · simp only
    rw [hfeed _ (by exact ha), hdraw _ (by exact hqueue), scan_nil (by exact hqueue), hpaper' (by decide), hcover' (by decide)]

include hw ht hn hm hpen hqueue in
/-- The next line of a job's segment is granted and fired. -/
theorem askLine_continues (hlow : s.dsa.low = false) (hline : s.pen.line = none) (hg : g.longFeed = false)
    (hcalm : s.set.printMotionDisturbs = 0) (hfits : s.dsa.committed + 600 + 48 * s.set.dotCurrent ≤ s.set.capacity) :
    askLine r s = { s with
      dsa.loads := s.dsa.loads ++ [s.lineLoad]
      pen.line := some (s.dotLine s.dotLimit row g) } := by
  have hgo : (!s.dsa.low && decide (s.dsa.committed + s.need .line ≤ s.set.capacity)) = true := by
    rw [hlow, decide_eq_true (line_fits hfits)]
    rfl
  have hself : ({ s with dsa.queue := [] } : State) = s := by rw [← hqueue]
  have hjself : { j with mode := .printing } = j := by rw [← hm]
  have hfires : shareMode .printing (s.firesJob n c row g rest) = { s with
      dsa.loads := s.dsa.loads ++ [s.lineLoad]
      pen.line := some (s.dotLine s.dotLimit row g) } := by
    rw [shareMode_one .printing (by rfl) (by exact ht) hn (printing_not_aborted hm), hjself, State.firesJob, ← hw, ← hpen, ← ht]
  have hgrant : grant r .line s = shareMode .printing (s.firesJob n c row g rest) := by
    simp only [grant, grantLine, hw]
    exact stepStart_calm hg hcalm
  have hasked : askGrant r .line s = { s with
      dsa.loads := s.dsa.loads ++ [s.lineLoad]
      pen.line := some (s.dotLine s.dotLimit row g) } := by
    unfold askGrant scan
    rw [if_neg (by simp [hline]), scanFrom]
    simp only [hqueue, List.nil_append]
    rw [if_pos (by exact hgo)]
    refine (congrArg (scanFrom r 7) ((congrArg _ hself).trans (hgrant.trans hfires))).trans ?_
    rw [scanFrom]
    simp only [hqueue]
  unfold askLine
  rw [if_neg (by simp [hqueue]), hasked]
  rfl

end

/-! ### The last line of a text (R152, R161) -/

theorem render_congr {s u : State} (hset : u.set = s.set) (htxn : u.txn = s.txn) (hcrd : u.crd = s.crd) (hsst : u.sst = s.sst)
    (b : JobBinding) (e : Element) : u.render b e = s.render b e := by
  have hfig : u.figures b = s.figures b := by cases b <;> simp only [State.figures, htxn, cardDetails_congr u s hcrd]
  cases e <;> simp only [State.render, State.renderField, hfig, hset, hsst]

/-- The job as it takes an element whose rendering drops characters, or is unavailable. -/
def Job.takes (j : Job) (x y : Nat) : Job :=
  { j with truncated := sat16 (j.truncated + x), unavailable := sat16 (j.unavailable + y) }

/-- The next element of a job is taken and rendered. -/
theorem atBoundary_takes {r : Raise} {k x y : Nat} {s : State} {j : Job} {e : Element} {more : List Element} {segs : List Seg}
    (hw : s.pen.work = some { owner := .job j.number, current := .none, segs := [], row := 0 }) (ht : s.job.table = [j])
    (ha : j.isAborted = false) (hh : j.heading = false) (he : j.elements = e :: more) (hcause : s.boundaryCause = none)
    (hrender : s.render j.binding e = { segs := segs, truncated := x, unavailable := y }) :
    atBoundary r (k + 1) s = atBoundary r k { s with
      pen.work := some { owner := .job j.number, current := .element, segs := segs, row := 0 }
      job.table := [j.takes x y] } := by
  have hj : s.job? j.number = some j := job_one ht rfl
  rw [atBoundary]
  simp only [hw, turned_job hj ha, hj, hh, he, hcause, List.isEmpty_cons, Bool.not_false, Bool.and_false, Bool.false_and,
    Bool.false_eq_true, if_false]
  refine congrArg (atBoundary r k) ?_
  rw [takeElement, hrender]
  exact modJob_one _ ht rfl

/-- The job with one more text line printed. -/
def Job.counted (j : Job) : Job := { j with lines := sat16 (j.lines + 1) }

/-- The last dot line of a counted text. -/
theorem lineEnd_text {r : Raise} {mv m : Nat} {l : DotLine} {s : State} {j : Job} {chars : Text} {a : Align} {bold wide tall : Bool}
    (hline : s.pen.line = some l)
    (hw : s.pen.work = some
      { owner := .job j.number, current := .element, segs := [.text chars a bold wide tall true], row := (if tall then 47 else 23) })
    (ht : s.job.table = [j]) (hj : j.isAborted = false) (hloads : s.dsa.loads = [(.line, m)])
    (hcap : s.dsa.cap = s.set.capacity) (hact : s.wgt.actions = []) :
    lineEnd r mv s = boundary r { s.lineEnded mv with
      pen.work := some { owner := .job j.number, current := .element, segs := [], row := 0 }
      job.table := [j.counted] } := by
  have hheight : Seg.height (.text chars a bold wide tall true) ≤ (if tall then 47 else 23) + 1 := by
    cases tall <;> exact Nat.le_refl _
  have hfeed : endFeedAction r (s.lineEnded mv) = s.lineEnded mv := if_neg (by simp [State.lineEnded, hact])
  rw [lineEnd_released hline hw rfl hloads hcap (by simp [hact]) (turned_job (job_one ht rfl) hj), if_pos hheight, hfeed]
  simp only [countLine, modJob_one (s := s.lineEnded mv) (fun j => { j with lines := sat16 (j.lines + 1) }) ht rfl]
  rfl

/-- With no entitlement left, the receipt of a SETTLED sale closes it; otherwise it is only noted (R102). -/
theorem receiptDone_waits {r : Raise} {s : State} (h : s.txn.state ≠ .settled ∨ s.txn.entitlement ≠ none) :
    receiptDone r s = { s with txn.receiptDone := true } :=
  if_neg fun hc => h.elim (· hc.1) (· hc.2.2)

/-- Whatever becomes of the sale, the receipt reported leaves the engine, the supply, the jobs and the power state. -/
theorem receiptDone_frame {s : State} (hu : s.unbound) :
    (receiptDone raiseLoud s).pen = s.pen ∧ (receiptDone raiseLoud s).dsa = s.dsa ∧ (receiptDone raiseLoud s).job = s.job ∧
      (receiptDone raiseLoud s).lpm = s.lpm := by
  obtain ⟨z, hz⟩ : ∃ z, ({ s with txn.receiptDone := true } : State) = z := ⟨_, rfl⟩
  have hzs : z.pen = s.pen ∧ z.dsa = s.dsa ∧ z.job = s.job ∧ z.lpm = s.lpm := by
    rw [← hz]
    exact ⟨rfl, rfl, rfl, rfl⟩
  have hzu : (takeSnapshot false z).unbound := by rw [← hz]; exact hu
  rw [receiptDone, hz]
  unfold judgeClose
  split
  · obtain ⟨l, q, hwipe, hwu, -, -⟩ := wipeAll_eq true .close (takeSnapshot false z) hzu
    rw [closeSale, closeEffects_eq, raiseLoud_unbound (emptied_unbound (by exact hwu)), raiseQuiet_pen, raiseQuiet_dsa,
      raiseQuiet_job, raiseQuiet_lpm, hwipe]
    exact hzs
  · exact hzs

/-- The receipt of a SETTLED sale without an entitlement closes it (R102, R103). -/
theorem receiptDone_closes {s y : State} {n : Notice} (hu : y.unbound) (hrpt : y.rpt = (raiseQuiet n s).rpt)
    (hlink : y.link = (raiseQuiet n s).link) (hset : y.set = s.set) (htxn : y.txn = s.txn) (hcrd : y.crd = s.crd)
    (hstate : s.txn.state = .settled) (hent : s.txn.entitlement = none) (hbound : ∀ c r, s.card c = some r → r.bound = false) :
    (receiptDone raiseLoud y).txn = { Txn.reset with snap := some (makeSnapshot false s) } ∧
      (receiptDone raiseLoud y).wgt = { y.wgt with tare := 0, tareKind := .none } ∧
      (receiptDone raiseLoud y).bag = { y.bag with watch := .off, entries := [], hold := none } ∧
      (receiptDone raiseLoud y).sst = { y.sst with writes := y.sst.writes ++ [.marker false] } ∧
      (∀ c, (receiptDone raiseLoud y).card c = (s.card c).map fun r => r.judge (receiptDone raiseLoud y).txn) ∧
      (receiptDone raiseLoud y).rpt = (raiseQuiet (.txnClosed 0#8 .normal s.txn.id (total s.txn.items) s.txn.change
        s.txn.items.length) (raiseQuiet n s)).rpt := by
  obtain ⟨z, hz⟩ : ∃ z, ({ y with txn.receiptDone := true } : State) = z := ⟨_, rfl⟩
  obtain ⟨s', hs'⟩ : ∃ s', ({ s with txn.receiptDone := true } : State) = s' := ⟨_, rfl⟩
  have hztxn : z.txn = { s'.txn with entitlement := none } := by
    have hs : s.txn = { s.txn with entitlement := none } := by rw [← hent]
    rw [← hz, ← hs']
    show ({ y.txn with receiptDone := true } : Txn) = { s.txn with receiptDone := true, entitlement := none }
    rw [htxn, ← hent]
  have hzcrd : z.crd = s'.crd := by rw [← hz, ← hs']; exact hcrd
  have hcard (c : CardSlot) : z.card c = s.card c := by
    rw [← hz]
    cases c <;> simp only [State.card, hcrd]
  have hzsum : z.txn.id = s.txn.id ∧ z.txn.items = s.txn.items ∧ z.txn.change = s.txn.change := by
    rw [← hz]
    simp [htxn]
  obtain ⟨hid, hitems, hchange⟩ := hzsum
  have hclosed : receiptDone raiseLoud y = raiseQuiet (.txnClosed 0#8 .normal s.txn.id (total s.txn.items) s.txn.change
      s.txn.items.length) z.saleClosed := by
    rw [receiptDone, hz, judgeClose_closes (by rw [← hz]; exact hu) (by rw [hztxn, ← hs']; exact hstate) (by rw [← hz])
      (by rw [hztxn]) (fun c r hr => hbound c r ((hcard c).symm.trans hr)), hid, hitems, hchange]
  obtain ⟨-, htx, hwgt, hbag, hsst, hcards, hlk, hrp, hst, -⟩ := saleClosed_effects hztxn hzcrd
  have hsnap : makeSnapshot false s' = makeSnapshot false s := by
    simp only [makeSnapshot, cardDetails_congr s' s (by rw [← hs'])]
    rw [← hs']
  have hs'card (c : CardSlot) : s'.card c = s.card c := by rw [← hs']; cases c <;> rfl
  rw [hclosed]
  refine ⟨(raiseQuiet_txn ..).trans (htx.trans (by rw [hsnap])), (raiseQuiet_wgt ..).trans (hwgt.trans (by rw [← hz])),
    (raiseQuiet_bag ..).trans (hbag.trans (by rw [← hz])), (raiseQuiet_sst ..).trans (hsst.trans (by rw [← hz])), fun c => ?_,
    raiseQuiet_rpt_congr _ _ _ (hlk.trans (by rw [← hz]; exact hlink)) (hrp.trans (by rw [← hz]; exact hrpt)) ?_⟩
  · rw [card_raiseQuiet, raiseQuiet_txn, hcards c, hs'card]
  · rw [hst, raiseQuiet_set, ← hz]
    exact hset

section
variable {mv m : Nat} {l : DotLine} {s : State} {j : Job} {e : Element} {chars : Text} {a : Align} {bold wide tall : Bool}
  (hline : s.pen.line = some l)
  (hw : s.pen.work = some
    { owner := .job j.number, current := .element, segs := [.text chars a bold wide tall true], row := (if tall then 47 else 23) })
  (ht : s.job.table = [j]) (hm : j.mode = .printing) (hh : j.heading = false) (hpen : s.pen.mode = .printing)
  (hloads : s.dsa.loads = [(.line, m)]) (hqueue : s.dsa.queue = []) (hcap : s.dsa.cap = s.set.capacity) (hact : s.wgt.actions = [])

/-- The lane as the only job leaves the table at the end of its last line. -/
def State.tableEmptied (s : State) (mv : Nat) : State :=
  { s.lineEnded mv with pen.work := none, job.table := [] }

/-- JOB_DONE of a job whose last text line has just been printed. -/
def Job.doneNotice (j : Job) : Notice :=
  .jobDone j.tag j.number j.role (sat16 (j.lines + 1)) j.truncated j.unavailable

include hline hw ht hm hh hpen hloads hqueue hcap hact in
/-- The last line of a closed job's last text: the job is DONE, and the engine is IDLE. -/
theorem lineEnd_text_done {x : State} (hu : s.unbound) (he : j.elements = [e]) (hc : j.closed = true)
    (hx : (if j.ofSale then receiptDone raiseLoud (raiseQuiet j.doneNotice (s.tableEmptied mv))
      else raiseQuiet j.doneNotice (s.tableEmptied mv)) = x)
    (hxpen : x.pen = (s.tableEmptied mv).pen) (hxdsa : x.dsa = (s.tableEmptied mv).dsa) (hxjob : x.job.table = [])
    (hxlpm : x.lpm.entry = none) : lineEnd raiseLoud mv s = { x with pen.mode := .idle } := by
  have ha : j.isAborted = false := printing_not_aborted hm
  rw [lineEnd_text hline hw ht ha hloads hcap hact]
  refine boundary_finishes (j := j.counted) (e := e) (by rfl) (by exact ha) (by rfl) (by exact hpen) hh he hc ?_ hxpen
    (by rw [hxdsa]; exact hqueue) hxjob hxlpm
  cases hsale : j.ofSale with
  | false =>
    rw [hsale] at hx
    exact (jobDone_one (j := j.counted.completed) (by rfl) hsale).trans ((raiseLoud_unbound (by exact hu) _).trans hx)
  | true =>
    rw [hsale] at hx
    refine (jobDone_receipt (j := j.counted.completed) (by rfl) hsale).trans (Eq.trans ?_ hx)
    exact congrArg (receiptDone raiseLoud) (raiseLoud_unbound (by exact hu) _)

include hline hw ht hm hh hpen hloads hqueue hcap hact in
/-- The last line of a text before another element: it is taken, and its first line fires. -/
theorem lineEnd_text_next {u : State} {e2 : Element} {more : List Element} {g : Seg} {rest : List Seg} {x y : Nat}
    (he : j.elements = e :: e2 :: more)
    (hrender : s.render j.binding e2 = { segs := g :: rest, truncated := x, unavailable := y }) (hg : g.height ≠ 0)
    (hlong : g.longFeed = false) (hpaper : s.pen.paperOut = false) (hcover : s.pen.coverOpen = false)
    (hpaperHold : s.pen.paperHold = false) (hcoverHold : s.pen.coverHold = false) (hhot : s.pen.hot = false)
    (hlow : s.dsa.low = false) (hfits : 600 + 48 * s.set.dotCurrent ≤ s.set.capacity) (hcalm : s.set.printMotionDisturbs = 0)
    (hu : u = { s.lineEnded mv with
      pen.work := some { owner := .job j.number, current := .element, segs := g :: rest, row := 0 }
      job.table := [j.counted.completed.takes x y] }) :
    lineEnd raiseLoud mv s = { u with
      dsa.loads := [u.lineLoad]
      pen.line := some (u.dotLine u.dotLimit 0 g) } := by
  have ha : j.isAborted = false := printing_not_aborted hm
  have hpick : j.counted.completed.elements = e2 :: more := by simp [Job.completed, Job.counted, he]
  rw [lineEnd_text hline hw ht ha hloads hcap hact, boundary_eq, atBoundary_completed (j := j.counted) (by rfl) (by exact ha) (by rfl)]
  have htaken (z : State) (hz : z = { s.lineEnded mv with
      pen.work := some { owner := .job j.number, current := .none, segs := [], row := 0 }
      job.table := [j.counted.completed] }) (k : Nat) :
      atBoundary raiseLoud (k + 1) z = atBoundary raiseLoud k u := by
    have hcause : z.boundaryCause = none := by
      rw [hz]
      simp [State.boundaryCause, State.lineEnded, hpaper, hcover, hpaperHold, hcoverHold, hlow]
    have hzr : z.render j.binding e2 = { segs := g :: rest, truncated := x, unavailable := y } := by
      rw [← hrender, hz]
      exact render_congr (by rfl) (by rfl) (by rfl) (by rfl) _ _
    rw [atBoundary_takes (j := j.counted.completed) (by rw [hz]; rfl) (by rw [hz]) (by exact ha) hh hpick hcause hzr, hu, hz]
    rfl
  refine (htaken _ rfl _).trans ?_
  have huw : u.pen.work = some { owner := .job j.number, current := .element, segs := g :: rest, row := 0 } := by rw [hu]
  have hut : u.job.table = [j.counted.completed.takes x y] := by rw [hu]
  have hcause : u.lineCause = none := by
    rw [lineCause_eq huw (by rw [hu]; exact hpaperHold) (by rw [hu]; exact hcoverHold), hu]
    simp [State.lineEnded, hpaper, hcover, hhot, hlow]
  have huload : u.dsa.loads = [] := by rw [hu]; rfl
  have hpos : 0 < g.height := Nat.pos_of_ne_zero hg
  have hucom : u.dsa.committed = 0 := by rw [Supply.committed, huload]; rfl
  rw [atBoundary_asks (j := j.counted.completed.takes x y) huw hut rfl hm hpos hcause,
    askLine_continues (j := j.counted.completed.takes x y) huw hut rfl hm (by rw [hu]; exact hpen) (by rw [hu]; exact hqueue)
      (by rw [hu]; exact hlow) (by rw [hu]; rfl) hlong (by rw [hu]; exact hcalm)
      (by rw [hucom, hu, Nat.zero_add]; exact hfits), huload]
  rfl

end

/-! ### The stall limit (R158) -/

theorem stallExpired_none {r : Raise} {s : State} (h : ∀ j ∈ s.job.table, j.mode ≠ .paused .underrun) : stallExpired r s = s := by
  have hnone : s.job.table.find? (fun j => decide (j.mode = .paused .underrun)) = none :=
    List.find?_eq_none.mpr fun j hj => by simpa using h j hj
  unfold stallExpired
  rw [hnone]

/-- The job in its UNDERRUN pause is aborted, and its abort sequence begins (R158, R160). -/
theorem stallExpired_aborts {r : Raise} {s : State} {j : Job} (ht : s.job.table = [j]) (hm : j.mode = .paused .underrun)
    (hc : s.canPrint) :
    stallExpired r s = { s with
      job.table := [{ j with mode := .aborted .underrun .marked, elements := [], heading := false }]
      pen.mode := .printing
      pen.work := some { owner := .abort j.number true, current := .none, segs := [.mark, .cut false], row := 0 }
      pen.line := some (s.dotLine s.dotLimit 0 .mark)
      dsa.loads := s.dsa.loads ++ [s.lineLoad] } := by
  have hfind : s.job.table.find? (fun j => decide (j.mode = .paused .underrun)) = some j := by
    rw [ht, List.find?_cons_of_pos (by simp [hm])]
  have habort : abortJob r j.number .underrun s =
      boundary r { markAborted j.number .underrun .marked s with pen.work := some (abortWork j.number) } := by
    unfold abortJob
    rw [job_one ht rfl, Option.map_some, hm]
  have ⟨_, _, _, _, _, _, hqueue, _, _, hcalm⟩ := hc
  unfold stallExpired
  simp only [hfind]
  rw [habort, markAborted, modJob_one _ ht rfl, boundary_eq,
    atBoundary_line (w := abortWork j.number) (g := .mark) (rest := [.cut false]) (by exact hc) rfl rfl rfl
      (show 0 < Seg.height .mark by decide)]
  exact askLine_now (by exact hc) rfl (stepStart_calm rfl (by exact hcalm)) (by exact hqueue) rfl

/-! ### The line before a cut (R172) -/

/-- The last line before a cut ends the feed's action, and drives the cutter. -/
theorem lineEnd_cut {r : Raise} {mv m : Nat} {l : DotLine} {s : State} {o : Owner} {c : Current} {part : Bool} {rest : List Seg}
    (hline : s.pen.line = some l) (hw : s.pen.work = some { owner := o, current := c, segs := .cut part :: rest, row := 95 })
    (hjob : ∀ n j, o = .job n → s.job? n = some j → j.isAborted = false) (hloads : s.dsa.loads = [(.line, m)])
    (hqueue : s.dsa.queue = []) (hcap : s.dsa.cap = s.set.capacity) (hlow : s.dsa.low = false) (hfits : 1200 ≤ s.set.capacity)
    (hact : s.wgt.actions = [.feed]) (hguard : s.set.printGuard ≠ 0) (hp : s.wgt.chanP.stable = false)
    (hb : s.wgt.chanB.stable = false) :
    lineEnd r mv s = { s.lineEnded mv with
      pen.mode := .cutting, pen.cut := some 0
      pen.work := some { owner := o, current := c, segs := .cut part :: rest, row := 96 }
      dsa.loads := [(.cutter, 1200)]
      wgt.actions := [.cut]
      wgt.guard := some (max s.set.printGuard (s.wgt.guard.getD 0)) } := by
  have hturned : s.turned { owner := o, current := c, segs := .cut part :: rest, row := 95 } = none := by
    cases o with
    | job n =>
      cases hj : s.job? n with
      | none => simp [State.turned, hj]
      | some j => exact turned_job hj (hjob n j rfl hj)
    | abort n b => rfl
    | feed => rfl
  have hcount (x : State) : countLine { owner := o, current := c, segs := .cut part :: rest, row := 95 } (.cut part) x = x := by
    cases o <;> rfl
  have hheight : Seg.height (.cut part) ≤ 95 + 1 := Nat.le_refl 96
  rw [lineEnd_released hline hw rfl hloads hcap (by simp [hact]) hturned, if_pos hheight, hcount, endFeedAction,
    disturbEnd_one (by exact hact) (by exact hguard)]
  exact enterCutting_now (by rfl) (by exact hqueue) (by rfl) (by exact hlow) (by exact hfits) (by exact hp) (by exact hb)

/-- A line with more of its segment to come: the engine is at the boundary before the next one (R164). -/
theorem lineEnd_more {r : Raise} {mv m n row : Nat} {l : DotLine} {s : State} {j : Job} {c : Current} {g : Seg} {rest : List Seg}
    (hline : s.pen.line = some l) (hw : s.pen.work = some { owner := .job n, current := c, segs := g :: rest, row := row })
    (hrow : row + 1 < g.height) (ht : s.job.table = [j]) (hn : j.number = n) (ha : j.isAborted = false)
    (hloads : s.dsa.loads = [(.line, m)]) (hcap : s.dsa.cap = s.set.capacity) (hact : s.wgt.actions = []) :
    lineEnd r mv s = boundary r { s.lineEnded mv with
      pen.work := some { owner := .job n, current := c, segs := g :: rest, row := row + 1 } } := by
  rw [lineEnd_released hline hw rfl hloads hcap (by simp [hact]) (turned_job (job_one ht hn) ha),
    if_neg (Nat.not_le.mpr hrow)]

end Sys2Proof.Machine
end

