-- ==== Sys2Proof/Proofs/Print/Fields.lean ====
section
/-! PROOFS. The printed forms and the lines of the fields (section 8.4). -/

namespace Sys2Proof.Machine

/-! ### Decimal digits (R155) -/

/-- The value of a text of decimal digits, read after `v`. -/
def readDigits (v : Nat) (t : Text) : Nat := t.foldl (fun v c => 10 * v + (c.toNat - 48)) v

theorem readDigits_append (v : Nat) (a b : Text) : readDigits v (a ++ b) = readDigits (readDigits v a) b := List.foldl_append

/-- A character that is a decimal digit is kept by the byte it is sent as. -/
theorem toNat_of_isDigit {c : Char} (h : c.isDigit = true) : (u8 c.toNat).toNat = c.toNat ∧ 48 ≤ c.toNat ∧ c.toNat ≤ 57 := by
  have hrange : 48 ≤ c.toNat ∧ c.toNat ≤ 57 := by simpa [Char.isDigit_iff_toNat] using h
  refine ⟨?_, hrange⟩
  simp only [u8, BitVec.toNat_ofNat]
  omega

theorem isDigit_of_mem {n : Nat} {c : Char} (h : c ∈ Nat.toDigits 10 n) : c.isDigit = true :=
  Nat.isDigit_of_mem_toDigits (by decide) (by decide) h

theorem readDigits_chars {l : List Char} (h : ∀ c ∈ l, c.isDigit = true) (v : Nat) :
    readDigits v (l.map fun c => u8 c.toNat) = Nat.ofDigitChars 10 l v := by
  induction l generalizing v with
  | nil => rfl
  | cons c l ih =>
    have hc : (u8 c.toNat).toNat = c.toNat := (toNat_of_isDigit (h c List.mem_cons_self)).1
    have hstep : readDigits v ((c :: l).map fun c => u8 c.toNat) =
        readDigits (10 * v + (c.toNat - 48)) (l.map fun c => u8 c.toNat) := by
      show readDigits (10 * v + ((u8 c.toNat).toNat - 48)) _ = _
      rw [hc]
    rw [hstep, ih (fun d hd => h d (List.mem_cons_of_mem c hd))]
    rfl

theorem readDigits_digits (n : Nat) : readDigits 0 (digits n) = n := by
  rw [digits, readDigits_chars fun c => isDigit_of_mem, Nat.ofDigitChars_ten_toDigits]

theorem digits_range {n : Nat} {c : Byte} (h : c ∈ digits n) : 48 ≤ c.toNat ∧ c.toNat ≤ 57 := by
  obtain ⟨d, hd, rfl⟩ := List.mem_map.mp h
  obtain ⟨hkeep, hrange⟩ := toNat_of_isDigit (isDigit_of_mem hd)
  rw [hkeep]
  exact hrange

/-- No number but 0 begins with the digit 0. -/
theorem digits_leading {n : Nat} (h : (digits n).head? = some 0x30#8) : n = 0 := by
  induction n using Nat.strongRecOn with
  | ind n ih =>
    by_cases hn : n < 10
    · have hone : digits n = [u8 n.digitChar.toNat] := by rw [digits, Nat.toDigits_of_lt_base hn]; rfl
      rw [hone, List.head?_cons] at h
      have hval := congrArg BitVec.toNat (Option.some.inj h)
      rw [Nat.toNat_digitChar_of_lt_ten hn] at hval
      simp only [u8, BitVec.toNat_ofNat] at hval
      omega
    · have hsplit : digits n = digits (n / 10) ++ [u8 (n % 10).digitChar.toNat] := by
        rw [digits, Nat.toDigits_of_base_le (by decide) (Nat.not_lt.mp hn), List.map_append]
        rfl
      have hne : digits (n / 10) ≠ [] := by simp [digits, Nat.toDigits_ne_nil]
      obtain ⟨c, rest, hc⟩ := List.exists_cons_of_ne_nil hne
      rw [hsplit, hc, List.cons_append, List.head?_cons] at h
      have := ih (n / 10) (by omega) (by rw [hc, List.head?_cons]; exact h)
      omega

/-- A number below 10 ^ d fills its d digits with leading zeros. -/
theorem padDigits_spec {d n : Nat} (hd : 0 < d) (hn : n < 10 ^ d) :
    (padDigits d n).length = d ∧ (∀ c ∈ padDigits d n, 48 ≤ c.toNat ∧ c.toNat ≤ 57) ∧ readDigits 0 (padDigits d n) = n := by
  have hlen : (digits n).length ≤ d := by
    rw [digits, List.length_map]
    exact (Nat.length_toDigits_le_iff (by decide) hd).mpr hn
  refine ⟨by simp [padDigits, hlen], fun c hc => ?_, ?_⟩
  · rcases List.mem_append.mp hc with h | h
    · rw [List.eq_of_mem_replicate h]
      decide
    · exact digits_range h
  · have hzero (k : Nat) : readDigits 0 (List.replicate k 0x30#8) = 0 := by
      induction k with
      | zero => rfl
      | succ k ih => rw [List.replicate_succ]; exact ih
    rw [padDigits, readDigits_append, hzero, readDigits_digits]

theorem money_pos {d : Nat} (hd : 0 < d) (n : Nat) :
    money d n = digits (n / 10 ^ d) ++ 0x2E#8 :: padDigits d (n % 10 ^ d) := if_neg (Nat.ne_of_gt hd)

/-! ### Two-part lines (R155) -/

theorem twoPart_eq (l r : Text) :
    twoPart l r = l ++ (List.replicate (48 - r.length - l.length) 0x20#8 ++ r) := by
  simp only [twoPart, padRight, List.append_assoc]

theorem twoPart_spec {l r : Text} (h : l.length + r.length ≤ 48) :
    (twoPart l r).length = 48 ∧ (twoPart l r).take l.length = l ∧ (twoPart l r).drop (48 - r.length) = r ∧
      ∀ c ∈ ((twoPart l r).drop l.length).take (48 - r.length - l.length), c = 0x20#8 := by
  rw [twoPart_eq]
  refine ⟨?_, List.take_left, ?_, fun c hc => ?_⟩
  · simp only [List.length_append, List.length_replicate]
    omega
  · have hlen : (l ++ List.replicate (48 - r.length - l.length) 0x20#8).length = 48 - r.length := by
      simp only [List.length_append, List.length_replicate]
      omega
    rw [← List.append_assoc]
    exact List.drop_left' hlen
  · rw [List.drop_left, List.take_left' (by simp)] at hc
    exact List.eq_of_mem_replicate hc

/-! ### The lines of a field (R155 to R157) -/

theorem render_lines {s : State} {b : JobBinding} {f : Figures} {code arg : Nat} {l : List Text} (hf : s.figures b = some f)
    (hl : fieldTexts s.set.currencyDecimals s.sst.count f code arg = some l) :
    s.render b (.field code arg) = { segs := l.map (fieldSeg code), truncated := 0, unavailable := 0 } := by
  show s.renderField b code arg = _
  simp only [State.renderField, hf, Option.bind_some, hl]

theorem render_unavailable {s : State} {b : JobBinding} {code arg : Nat}
    (h : (s.figures b).bind (fun f => fieldTexts s.set.currencyDecimals s.sst.count f code arg) = none) :
    s.render b (.field code arg) = { segs := [blankLine], truncated := 0, unavailable := 1 } := by
  show s.renderField b code arg = _
  simp only [State.renderField, h]

theorem subtotal_split (l : List Item) : subtotal l = total l + voidedAmount l := by
  induction l with
  | nil => rfl
  | cons it l ih =>
    simp only [subtotal, total, voidedAmount, List.map_cons, List.sum_cons, List.filter_cons] at ih ⊢
    cases it.void with
    | true => simp [ih]; omega
    | false => simp [ih]; omega

/-- The details of the card tenders come in order. -/
theorem cardDetails_index {s : State} {i : Nat} {l : List Tender} {d : CardDetail} (h : d ∈ cardDetails s i l) : i ≤ d.index := by
  induction l generalizing i with
  | nil => simp [cardDetails] at h
  | cons t l ih =>
    unfold cardDetails at h
    split at h
    · rcases List.mem_cons.mp h with rfl | h
      · exact Nat.le_refl _
      · exact Nat.le_of_succ_le (ih h)
    · exact Nat.le_of_succ_le (ih h)

/-- The detail of a tender is that of the record it binds. -/
theorem cardDetails_find {s : State} (l : List Tender) (i k : Nat) :
    (cardDetails s i l).find? (fun d => d.index == i + k) =
      l[k]?.bind fun t => (t.card.bind s.card).map fun c => { index := i + k, masked := c.masked, expiry := c.expiry } := by
  induction l generalizing i k with
  | nil => rfl
  | cons t l ih =>
    unfold cardDetails
    cases k with
    | zero =>
      cases hc : t.card.bind s.card with
      | some c =>
        simp only [Nat.add_zero, List.getElem?_cons_zero, Option.bind_some, hc, Option.map_some]
        exact List.find?_cons_of_pos (by simp)
      | none =>
        simp only [Nat.add_zero, List.getElem?_cons_zero, Option.bind_some, hc, Option.map_none]
        refine List.find?_eq_none.mpr fun d hd => ?_
        have := cardDetails_index hd
        simp only [beq_iff_eq]
        omega
    | succ k =>
      have hih := ih (i + 1) k
      have hadd : i + 1 + k = i + (k + 1) := by omega
      rw [hadd] at hih
      rw [List.getElem?_cons_succ, ← hih]
      cases hc : t.card.bind s.card with
      | some c => exact List.find?_cons_of_neg (by simp)
      | none => rfl

/-! ### The obligation -/

/-- Settles O54, by the work of the line that ends, the digits of a number, and the field that is rendered. -/
theorem linesAndCuts : Obligations.LinesAndCuts := by
  refine ⟨fun mv s hu hentry hp hb => ⟨?noLine, ?feed, ?long, ?cut, ?noCut, ?abortCut, ?jobCut, ?more, ?text, ?noStall, ?stall⟩,
    ?forms, fun l r h => twoPart_spec h, fun s b d arg items tenders change id line hd hline => ⟨?none, ?lines, ?card⟩⟩
  case noLine =>
    intro hline
    show Host.Outcome.next (lineEnd raiseLoud mv.toNat s) = _
    simp only [lineEnd, hline]
  case feed =>
    intro l n hline hn hw hloads hqueue hcap hact ht hpen
    show Host.Outcome.next (lineEnd raiseLoud mv.toNat s) = _
    rw [lineEnd_feed_calm hline hn hw hloads hcap hact hqueue ht hpen, judgeEntry_none (by exact hentry)]
  case long =>
    intro l n hline hn hw hloads hqueue hcap hact hguard ht hpen
    show Host.Outcome.next (lineEnd raiseLoud mv.toNat s) = _
    rw [lineEnd_feed hline (by omega) hw hloads hcap (by simp [hact]), endFeedAction, disturbEnd_one (by exact hact) (by exact hguard),
      boundary_eq, atBoundary]
    simp only [turned_feed]
    rw [atBoundary_idle (by rfl) (.inl (by exact hpen)) (by exact hqueue) (by exact ht) (by exact hentry)]
    rfl
  case cut =>
    intro l o c part g hline hw hjob hloads hqueue hcap hlow hfits hact hguard
    exact ⟨_, congrArg Host.Outcome.next (lineEnd_cut hline hw hjob hloads hqueue hcap hlow hfits hact hguard hp hb), rfl, rfl,
      rfl, rfl, rfl, rfl, rfl⟩
  case noCut =>
    intro hcut
    constructor
    · show Host.Outcome.next (homeMade raiseLoud s) = _
      unfold homeMade
      rw [if_neg (by simp [hcut])]
    · show Host.Outcome.next (jamTimeout raiseLoud s) = _
      unfold jamTimeout
      rw [if_neg (by simp [hcut])]
  case abortCut =>
    intro age n j hcut hpen hw ht hn hm hloads hqueue hcap hline hact hguard
    subst hn
    have hreason : j.reason = .host := by rw [Job.reason, hm]
    have hsome : s.pen.cut.isSome = true := by rw [hcut]; rfl
    constructor
    · have hdone := cutDone_abort (s := { s with pen.home := true }) (by exact hu)
        (cutterStops_one (by exact hloads) (by exact hqueue) (by exact hcap) (by exact hact) (by exact hguard)) hw ht hm
        (by exact hqueue) (by exact hentry)
      refine ⟨_, congrArg Host.Outcome.next ((if_pos hsome).trans hdone), by simp, rfl, by simp, by simp [State.cutEnded],
        by simp [State.cutEnded], by simp [State.cutEnded], by simp [State.cutEnded], raiseQuiet_rpt_congr _ _ _ rfl rfl rfl⟩
    · have hjam := cutJam_one hu (cutterStops_one hloads hqueue hcap hact hguard) hw ht
        (.inr ⟨true, rfl, rfl, rfl⟩) rfl hentry
      refine ⟨_, congrArg Host.Outcome.next ((if_pos hsome).trans hjam), by simp, by simp, by simp, by simp [State.cutEnded],
        by simp [State.cutEnded], ?_, by simp [State.cutEnded]⟩
      exact (raiseQuiet_keeps_cutterJam ..).trans (raiseQuiet_keeps_cutterJam ..)
  case jobCut =>
    intro age n row part j e hcut hpen hw ht hn hm hc hh he hsale hloads hqueue hcap hline hact hguard
    subst hn
    have hsome : s.pen.cut.isSome = true := by rw [hcut]; rfl
    constructor
    · have hdone := cutDone_job (r := raiseLoud) (s := { s with pen.home := true })
        (cutterStops_one (by exact hloads) (by exact hqueue) (by exact hcap) (by exact hact) (by exact hguard)) hw
      have hend := boundary_finishes (j := j)
        (s := { State.cutEnded { s with pen.home := true } with
          pen.mode := .printing
          pen.work := some { owner := .job j.number, current := .element, segs := [], row := 0 } })
        (by exact ht) (printing_not_aborted hm) (by rfl) (by rfl) hh he hc
        ((jobDone_one (j := j.completed) (by rfl) hsale).trans (raiseLoud_unbound (by exact hu) _))
        (by simp) (by simpa [State.cutEnded] using hqueue) (by simp) (by simpa [State.cutEnded] using hentry)
      refine ⟨_, congrArg Host.Outcome.next ((if_pos hsome).trans (hdone.trans hend)), by simp, rfl, by simp, by simp [State.cutEnded],
        by simp [State.cutEnded], by simp [State.cutEnded], by simp [State.cutEnded], by simp [State.cutEnded],
        raiseQuiet_rpt_congr _ _ _ rfl rfl rfl⟩
    · obtain ⟨v, hv⟩ : ∃ v, v = raiseQuiet .cutterJam { s.cutEnded with rpt.latched.cutterJam := true } := ⟨_, rfl⟩
      have hjam := cutJam_one hu (cutterStops_one hloads hqueue hcap hact hguard) hw ht (.inl ⟨rfl, rfl, rfl⟩) hv hentry
      have hkept : v.dsa = s.cutEnded.dsa ∧ v.wgt = s.cutEnded.wgt ∧ v.pen.cut = none ∧ v.rpt.latched.cutterJam = true := by
        rw [hv, raiseQuiet_keeps_cutterJam]
        simp [State.cutEnded]
      obtain ⟨hdsa, hwgt, hpen, hlatched⟩ := hkept
      refine ⟨_, congrArg Host.Outcome.next ((if_pos hsome).trans hjam), by simp, by simp, by simp, by simpa using hpen,
        by simp [hdsa, State.cutEnded], (raiseQuiet_keeps_cutterJam ..).trans hlatched, by simp [hwgt, State.cutEnded], ?_⟩
      exact cutJam_queue _ (s := s) (u := s.cutEnded) rfl rfl rfl hv _ _
  case more =>
    intro l n row c g rest j u hline hrow hlong hw ht hn hm hpen hloads hqueue hcap hact hcalm hpaper hcover hfits hu cause hcause
    have ha : j.isAborted = false := printing_not_aborted hm
    have hend : lineEnd raiseLoud mv.toNat s = atBoundary raiseLoud (u.boundaryFuel - 8 + 7 + 1) u := by
      rw [lineEnd_more hline hw hrow ht hn ha hloads hcap hact, boundary_eq, hu]
      rfl
    have huw : u.pen.work = some { owner := .job n, current := c, segs := g :: rest, row := row + 1 } := by rw [hu]
    have hut : u.job.table = [j] := by rw [hu]; exact ht
    have hline : u.lineCause = cause := by
      rw [lineCause_eq huw (by rw [hu]; exact hpaper) (by rw [hu]; exact hcover), hcause, hu]
    have hupen : u.pen.mode = .printing := by rw [hu]; exact hpen
    have huqueue : u.dsa.queue = [] := by rw [hu]; exact hqueue
    have huload : u.dsa.loads = [] := by rw [hu]
    have hucom : u.dsa.committed = 0 := by rw [Supply.committed, huload]; rfl
    refine ⟨fun hc => congrArg Host.Outcome.next (hend.trans ?_), fun p hc => congrArg Host.Outcome.next (hend.trans ?_)⟩
    · have hlow : u.dsa.low = false := by rw [hu]; exact (pause_listed hcause).1 hc
      rw [atBoundary_asks huw hut hn hm hrow (hline.trans hc),
        askLine_continues huw hut hn hm hupen huqueue hlow (by rw [hu]) hlong (by rw [hu]; exact hcalm)
          (by rw [hucom, hu, Nat.zero_add]; exact hfits), huload]
      rfl
    · have hp := (pause_listed hcause).2 p hc
      rw [atBoundary_pauses huw hut hn hm hrow (hline.trans hc),
        takePause_job huw hut hn hm hupen huqueue hp (by rw [hu]; exact hact) (by rw [hu]; exact hpaper) (by rw [hu]; exact hcover)]
  case text =>
    intro l n chars a bold wide tall j e hline hw ht hn hm hh hpen hloads hqueue hcap hact
    subst hn
    refine ⟨fun hc he => ?_, fun e2 more g rest x y u he hrender hg hlong hpaper hcover hpaperHold hcoverHold hhot hlow hfits hcalm
      hueq => ?_⟩
    · obtain ⟨y, hy⟩ : ∃ y, raiseQuiet j.doneNotice (s.tableEmptied mv.toNat) = y := ⟨_, rfl⟩
      have hyu : y.unbound := by rw [← hy]; exact raiseQuiet_unbound (s := s.tableEmptied mv.toNat) hu _
      have hyrpt : y.rpt = (raiseQuiet j.doneNotice s).rpt := by rw [← hy]; exact raiseQuiet_rpt_congr _ _ _ rfl rfl rfl
      have hylink : y.link = (raiseQuiet j.doneNotice s).link := by rw [← hy]; exact raiseQuiet_link_congr _ _ _ rfl rfl rfl
      obtain ⟨hypen, hydsa, hyjob, hylpm, hytxn, hycrd⟩ : y.pen = (s.tableEmptied mv.toNat).pen ∧
          y.dsa = (s.tableEmptied mv.toNat).dsa ∧ y.job.table = [] ∧ y.lpm.entry = none ∧ y.txn = s.txn ∧ y.crd = s.crd := by
        rw [← hy]
        simp [State.tableEmptied, State.lineEnded, hentry]
      have hdone {x : State} := lineEnd_text_done (x := x) (mv := mv.toNat) hline hw ht hm hh hpen hloads hqueue hcap hact hu he hc
      rw [hy] at hdone
      cases hsale : j.ofSale with
      | false =>
        refine ⟨_, congrArg Host.Outcome.next (hdone (by rw [hsale]; rfl) hypen hydsa hyjob hylpm), hyjob, rfl, by rw [hypen]; rfl,
          by rw [hypen]; rfl, by rw [hydsa]; rfl, by rw [hydsa]; rfl, fun v hv => ?_⟩
        exact ⟨fun _ => ⟨hytxn, hyrpt.trans (by rw [hv]; rfl)⟩, fun h => by simp at h, fun h => by simp at h⟩
      | true =>
        obtain ⟨hxpen, hxdsa, hxjob, hxlpm⟩ := receiptDone_frame hyu
        refine ⟨_, congrArg Host.Outcome.next (hdone (by rw [hsale]; rfl) (hxpen.trans hypen) (hxdsa.trans hydsa)
          (by rw [hxjob]; exact hyjob) (by rw [hxlpm]; exact hylpm)), by rw [hxjob]; exact hyjob, rfl, by rw [hxpen, hypen]; rfl,
          by rw [hxpen, hypen]; rfl, by rw [hxdsa, hydsa]; rfl, by rw [hxdsa, hydsa]; rfl, fun v hv => ?_⟩
        refine ⟨fun h => by simp at h, fun _ hopen => ?_, fun _ hstate hent hbound => ?_⟩
        · have hwaits : receiptDone raiseLoud y = { y with txn.receiptDone := true } :=
            receiptDone_waits (by rw [hytxn]; exact hopen)
          rw [hwaits]
          exact ⟨congrArg (fun x : Txn => { x with receiptDone := true }) hytxn, hyrpt.trans (by rw [hv]; rfl)⟩
        · have hkept : y.set = s.set ∧ y.wgt = s.wgt ∧ y.bag = s.bag ∧ y.sst = s.sst := by
            rw [← hy]
            simp [State.tableEmptied, State.lineEnded]
          obtain ⟨hyset, hywgt, hybag, hysst⟩ := hkept
          obtain ⟨htx, hwgt, hbag, hsst, hcards, hrpt⟩ :=
            receiptDone_closes hyu hyrpt hylink hyset hytxn hycrd hstate hent hbound
          exact ⟨htx, hwgt.trans (by rw [hywgt]), hbag.trans (by rw [hybag]), hsst.trans (by rw [hysst]), hcards,
            hrpt.trans (by rw [hv]; rfl)⟩
    · have htaken : j.counted.completed.takes x y = { j with
          elements := e2 :: more
          lines := min (j.lines + 1) 65535
          rendered := min (j.rendered + 1) 65535
          truncated := min (j.truncated + x) 65535
          unavailable := min (j.unavailable + y) 65535 } := by
        have htail : j.elements.tail = e2 :: more := by rw [he]; rfl
        rw [← htail]
        rfl
      exact congrArg Host.Outcome.next (lineEnd_text_next hline hw ht hm hh hpen hloads hqueue hcap hact he hrender hg hlong hpaper
        hcover hpaperHold hcoverHold hhot hlow hfits hcalm (by rw [htaken, hueq]; rfl))
  case noStall =>
    exact fun h => congrArg Host.Outcome.next (stallExpired_none h)
  case stall =>
    exact fun j ht hm hpen hw hc => congrArg Host.Outcome.next (stallExpired_aborts ht hm hc)
  case forms =>
    intro n d g
    refine ⟨readDigits_digits n, fun c => digits_range, digits_leading, rfl, fun hd => ?_, ?_, rfl⟩
    · obtain ⟨hlen, hrange, hval⟩ := padDigits_spec hd (Nat.mod_lt n (Nat.pow_pos (by decide) : 0 < 10 ^ d))
      exact ⟨_, money_pos hd n, hlen, hrange, hval⟩
    · rw [money_pos (by decide)]
      rfl
  case none =>
    exact fun code => render_unavailable rfl
  case lines =>
    intro hb
    subst hd
    obtain ⟨f, hf, hitems, htenders, hchange, hid⟩ : ∃ f, s.figures b = some f ∧ f.items = items ∧ f.tenders = tenders ∧
        f.change = change ∧ f.id = id := by
      rcases hb with ⟨rfl, rfl, rfl, rfl, rfl⟩ | ⟨x, rfl, hsnap, rfl, rfl, rfl, rfl⟩
      · exact ⟨_, rfl, rfl, rfl, rfl, rfl⟩
      · exact ⟨_, by rw [State.figures, hsnap]; rfl, rfl, rfl, rfl, rfl⟩
    subst hitems htenders hchange hid hline
    refine ⟨?items, ?subtotal, ?total, ?tenders, ?change, ?id, ?count, fun it w hit hw => ?detail, fun h => ?noDetail⟩
    case items =>
      rw [render_lines hf rfl]
      refine (List.map_flatMap ..).trans (congrArg (f.items.flatMap ·) (funext fun it => ?_))
      cases hr : it.record with
      | some w =>
        simp only [itemLines, hr]
        rfl
      | none =>
        simp only [itemLines, hr]
        by_cases hq : 1 < it.quantity
        · rw [if_pos hq, if_pos hq]
          rfl
        · rw [if_neg hq, if_neg hq]
          rfl
    case subtotal =>
      rw [render_lines hf rfl, subtotal_split]
      rfl
    case total => rw [render_lines hf rfl]; rfl
    case tenders =>
      rw [render_lines hf rfl]
      refine List.map_map.trans (congrArg (f.tenders.map ·) (funext fun t => ?_))
      cases hk : t.kind <;> simp only [Function.comp, hk] <;> rfl
    case change => rw [render_lines hf rfl]; rfl
    case id => rw [render_lines hf rfl]; rfl
    case count => rw [render_lines hf rfl]; rfl
    case detail =>
      have hrecord : fieldTexts s.set.currencyDecimals s.sst.count f 7 arg = some (weighDetail s.set.currencyDecimals w) := by
        show ((findItem arg f.items).bind Item.record).map _ = _
        rw [hit, Option.bind_some, hw, Option.map_some]
      rw [render_lines hf hrecord]
      cases hk : w.kind <;> simp only [weighDetail, hk] <;> rfl
    case noDetail =>
      have hrecord : (findItem arg f.items).bind Item.record = none := by
        rcases h with h | ⟨it, h, hr⟩
        · rw [h, Option.bind_none]
        · rw [h, Option.bind_some, hr]
      refine render_unavailable ?_
      rw [hf, Option.bind_some]
      exact congrArg (Option.map (weighDetail s.set.currencyDecimals)) hrecord
  case card =>
    intro t harg ht
    obtain ⟨f, hf, hcards⟩ : ∃ f, s.figures .sale = some f ∧ f.cards = cardDetails s 1 s.txn.tenders := ⟨_, rfl, rfl⟩
    have hindex : 1 + (arg - 1) = arg := by omega
    have hfind := cardDetails_find (s := s) s.txn.tenders 1 (arg - 1)
    rw [hindex, ht, Option.bind_some, ← hcards] at hfind
    refine ⟨fun c r y m hc hr he hm => ?_, fun hc => ?_⟩
    · rw [hc, Option.bind_some, hr, Option.map_some] at hfind
      have hdiv : (100 * y + m) / 100 = y := by omega
      have hmod : (100 * y + m) % 100 = m := by omega
      have hexp : ascii "EXP " ++ expiryText (100 * y + m) =
          ascii "EXP " ++ padDigits 2 m ++ ascii "/" ++ padDigits 2 y := by
        rw [expiryText, hdiv, hmod, List.append_assoc, List.append_assoc]
        rfl
      have hcard : fieldTexts s.set.currencyDecimals s.sst.count f 6 arg =
          some [twoPart r.masked (ascii "EXP " ++ expiryText (100 * y + m))] := by
        show (cardLine f arg).map (fun t => [t]) = _
        simp only [cardLine, hfind, he, Option.map_some]
      rw [render_lines hf hcard, hexp, hline]
      rfl
    · rw [hc, Option.bind_none, Option.map_none] at hfind
      have hcard : (cardLine f arg).map (fun t => [t]) = none := by rw [cardLine, hfind]; rfl
      rw [render_unavailable (by rw [hf, Option.bind_some]; exact hcard)]

end Sys2Proof.Machine
end

