-- ==== Sys2Proof/Proofs/Card/Records.lean ====
section
/-! PROOFS. The fields and the flags of a card record (R117 to R121). -/

namespace Sys2Proof.Machine

/-! ### Separators (R118, R119) -/

theorem splitAtSep_none_iff {sep : Nat} {l : List Nat} : splitAtSep sep l = none ↔ sep ∉ l := by
  induction l with
  | nil => simp [splitAtSep]
  | cons c l ih =>
    unfold splitAtSep
    by_cases h : c = sep
    · simp [h]
    · rw [if_neg h, Option.map_eq_none_iff, ih, List.mem_cons, not_or]
      exact ⟨fun hl => ⟨fun hs => h hs.symm, hl⟩, And.right⟩

/-- The split is at the first separator. -/
theorem splitAtSep_some_iff {sep : Nat} {l a b : List Nat} :
    splitAtSep sep l = some (a, b) ↔ l = a ++ sep :: b ∧ sep ∉ a := by
  induction l generalizing a with
  | nil => simp [splitAtSep]
  | cons c l ih =>
    unfold splitAtSep
    by_cases h : c = sep
    · rw [if_pos h]
      cases a with
      | nil => simp [h]
      | cons d a => simp only [Option.some.injEq, Prod.mk.injEq, List.nil_eq, reduceCtorEq, false_and, List.cons_append,
          List.cons.injEq, List.mem_cons, not_or, false_iff]; exact fun ⟨⟨hd, _⟩, hs, _⟩ => hs (h.symm.trans hd)
    · rw [if_neg h]
      cases a with
      | nil => simp [h]
      | cons d a =>
        have hih := @ih a
        simp only [Option.map_eq_some_iff, Prod.mk.injEq, List.cons.injEq, List.cons_append, List.mem_cons, not_or]
        constructor
        · rintro ⟨⟨x, y⟩, hxy, ⟨hc, rfl⟩, rfl⟩
          obtain ⟨hl, hn⟩ := hih.mp hxy
          exact ⟨⟨hc, hl⟩, fun hs => h (hc.trans hs.symm), hn⟩
        · rintro ⟨⟨hc, hl⟩, -, hn⟩
          exact ⟨(a, b), hih.mpr ⟨hl, hn⟩, ⟨hc, rfl⟩, rfl⟩

/-! ### The account (R118, R120) -/

theorem accountOf_iff (inner acc rest : List Nat) : accountOf (0x0B :: inner ++ [0x0F]) = some (acc, rest) ↔
    inner = acc ++ 0x0D :: rest ∧ 12 ≤ acc.length ∧ acc.length ≤ 19 ∧ ∀ c ∈ acc, c ≤ 9 := by
  have hinner : innerCodes (0x0B :: inner ++ [0x0F]) = inner := by simp [innerCodes]
  have hall (l : List Nat) : (l.all fun c => decide (c ≤ 9)) = true ↔ ∀ c ∈ l, c ≤ 9 := by simp
  unfold accountOf
  rw [hinner]
  cases hs : splitAtSep (separatorCode .numeric) inner with
  | none =>
    have hno : separatorCode .numeric ∉ inner := splitAtSep_none_iff.mp hs
    refine ⟨fun h => absurd h (by simp), fun ⟨h, _⟩ => absurd ?_ hno⟩
    rw [h]
    exact List.mem_append_right _ List.mem_cons_self
  | some x =>
    obtain ⟨a, b⟩ := x
    obtain ⟨hl, hn⟩ := splitAtSep_some_iff.mp hs
    simp only [hall]
    constructor
    · intro h
      split at h
      · next hok =>
        obtain ⟨rfl, rfl⟩ := Prod.mk.inj (Option.some.inj h)
        exact ⟨hl, hok⟩
      · exact absurd h (by simp)
    · rintro ⟨hinner', hok⟩
      have hno : separatorCode .numeric ∉ acc := fun h => absurd (hok.2.2 _ h) (by decide)
      have hsame := splitAtSep_some_iff.mpr ⟨hinner', hno⟩
      obtain ⟨rfl, rfl⟩ := Prod.mk.inj (Option.some.inj (hs.symm.trans hsame))
      exact if_pos hok

theorem maskAccount_spec {acc : List Nat} (h : 10 ≤ acc.length) :
    (maskAccount acc).length = acc.length ∧ (maskAccount acc).take 6 = (acc.take 6).map (fun c => u8 (c + 0x30)) ∧
      (∀ c ∈ ((maskAccount acc).drop 6).take (acc.length - 10), c = 0x2A#8) ∧
      (maskAccount acc).drop (acc.length - 4) = (acc.drop (acc.length - 4)).map (fun c => u8 (c + 0x30)) := by
  have hfirst : (printable .numeric (acc.take 6)).length = 6 := by simp [printable]; omega
  have hstars : (printable .numeric (acc.take 6) ++ List.replicate (acc.length - 10) 0x2A#8).length = acc.length - 4 := by
    simp only [List.length_append, hfirst, List.length_replicate]
    omega
  refine ⟨?_, ?_, fun c hc => ?_, ?_⟩
  · rw [maskAccount, List.length_append, hstars]
    simp [printable]
  · rw [maskAccount, List.append_assoc, List.take_left' hfirst]
    rfl
  · rw [maskAccount, List.append_assoc, List.drop_left' hfirst, List.take_left' (by simp)] at hc
    exact List.eq_of_mem_replicate hc
  · rw [maskAccount, List.drop_left' hstars]
    rfl

/-- The check sum doubles the digits at the odd places, from the right. -/
theorem checkSum_eq (l : List Nat) (k : Nat) :
    checkSum (decide (k % 2 = 1)) l = ((l.zipIdx k).map fun (d, i) =>
      if i % 2 = 1 then (if 9 < 2 * d then 2 * d - 9 else 2 * d) else d).sum := by
  induction l generalizing k with
  | nil => rfl
  | cons d l ih =>
    have hflip : (!decide (k % 2 = 1)) = decide ((k + 1) % 2 = 1) := by
      by_cases h : k % 2 = 1
      · simp [h]; omega
      · simp [h]; omega
    rw [checkSum, List.zipIdx_cons, List.map_cons, List.sum_cons, hflip, ih]
    by_cases h : k % 2 = 1 <;> simp [h]

/-! ### Expiry and service code (R118) -/

theorem expiryService_some {y1 y2 m1 m2 v1 v2 v3 : Nat} {rest more : List Nat} (hrest : rest = [y1, y2, m1, m2, v1, v2, v3] ++ more)
    (hdigits : ∀ c ∈ rest.take 7, c ≤ 9) (hlo : 1 ≤ 10 * m1 + m2) (hhi : 10 * m1 + m2 ≤ 12) :
    expiryService rest = some (1000 * y1 + 100 * y2 + 10 * m1 + m2, 100 * v1 + 10 * v2 + v3) := by
  have hseven : rest.take 7 = [y1, y2, m1, m2, v1, v2, v3] := by rw [hrest]; rfl
  rw [hseven] at hdigits
  have hexp : digitsValue [y1, y2, m1, m2] = 1000 * y1 + 100 * y2 + 10 * m1 + m2 := by
    simp only [digitsValue, List.foldl_cons, List.foldl_nil]
    omega
  have hserv : digitsValue [v1, v2, v3] = 100 * v1 + 10 * v2 + v3 := by
    simp only [digitsValue, List.foldl_cons, List.foldl_nil]
    omega
  have hmonth : (1000 * y1 + 100 * y2 + 10 * m1 + m2) % 100 = 10 * m1 + m2 := by omega
  have htake : [y1, y2, m1, m2, v1, v2, v3].take 4 = [y1, y2, m1, m2] := rfl
  have hdrop : [y1, y2, m1, m2, v1, v2, v3].drop 4 = [v1, v2, v3] := rfl
  simp only [expiryService, hseven, htake, hdrop, hexp, hserv, hmonth]
  exact if_pos ⟨rfl, by simpa using hdigits, hlo, hhi⟩

theorem expiryService_none {rest : List Nat} (h : rest.length < 7 ∨ (∃ c ∈ rest.take 7, 9 < c) ∨
    ∃ y1 y2 m1 m2 more, rest = [y1, y2, m1, m2] ++ more ∧ (10 * m1 + m2 = 0 ∨ 12 < 10 * m1 + m2)) :
    expiryService rest = none := by
  refine if_neg ?_
  rintro ⟨hlen, hall, hlo, hhi⟩
  have hdigits : ∀ c ∈ rest.take 7, c ≤ 9 := by simpa using hall
  rcases h with h | ⟨c, hc, h9⟩ | ⟨y1, y2, m1, m2, more, rfl, hmonth⟩
  · rw [List.length_take] at hlen
    omega
  · have := hdigits c hc
    omega
  · have hm1 : m1 ≤ 9 := hdigits m1 (by simp)
    have hm2 : m2 ≤ 9 := hdigits m2 (by simp)
    have hexp : digitsValue ((([y1, y2, m1, m2] ++ more).take 7).take 4) = 1000 * y1 + 100 * y2 + 10 * m1 + m2 := by
      rw [List.take_take]
      simp only [digitsValue, show min 4 7 = 4 from rfl, List.take_left' (show [y1, y2, m1, m2].length = 4 from rfl),
        List.foldl_cons, List.foldl_nil]
      omega
    rw [hexp] at hlo hhi
    omega

/-! ### The alpha track's fields (R119) -/

theorem alphaFields_none {codes : List Nat} (h : 0x3E ∉ (innerCodes codes).drop 1) : alphaFields codes = none := by
  unfold alphaFields
  rw [show splitAtSep (separatorCode .alpha) ((innerCodes codes).drop 1) = none from splitAtSep_none_iff.mpr h]

theorem alphaFields_some {codes a more : List Nat} {fmt : Nat} (h : innerCodes codes = fmt :: a ++ 0x3E :: more) (ha : 0x3E ∉ a) :
    ∃ name, alphaFields codes = some (printable .alpha a, name) ∧ (0x3E ∉ more → name = []) ∧
      ∀ n tail, more = n ++ 0x3E :: tail → 0x3E ∉ n → name =
        if 2 ≤ n.length ∧ n.length ≤ 26 then n.map (fun c => u8 (c + 0x20)) else [] := by
  have hsplit : splitAtSep (separatorCode .alpha) ((innerCodes codes).drop 1) = some (a, more) :=
    splitAtSep_some_iff.mpr ⟨by rw [h]; rfl, ha⟩
  unfold alphaFields
  simp only [hsplit]
  refine ⟨_, rfl, fun hno => ?_, fun n tail hmore hn => ?_⟩
  · rw [show splitAtSep (separatorCode .alpha) more = none from splitAtSep_none_iff.mpr hno]
  · rw [show splitAtSep (separatorCode .alpha) more = some (n, tail) from splitAtSep_some_iff.mpr ⟨hmore, hn⟩]
    rfl

/-! ### The flags (R119 to R121) -/

section
variable {x : Txn} {num alp : Framed} {acc rest : List Nat} {r : CardRec} (hr : r = makeRecord x num alp acc rest)

include hr

theorem makeRecord_dates : r.expiry = (expiryService rest).map Prod.fst ∧ r.service = (expiryService rest).map Prod.snd ∧
    r.format = (expiryService rest).isNone := by
  subst hr
  exact ⟨rfl, rfl, rfl⟩

theorem makeRecord_check : r.check = true ↔ ((acc.reverse.zipIdx.map fun (d, i) =>
    if i % 2 = 1 then (if 9 < 2 * d then 2 * d - 9 else 2 * d) else d).sum) % 10 ≠ 0 := by
  subst hr
  show (!accountValid acc) = true ↔ _
  have hsum := checkSum_eq acc.reverse 0
  rw [accountValid, show checkSum false acc.reverse = _ from hsum, Bool.not_eq_true', decide_eq_false_iff_not]

theorem makeRecord_alpha_none (h : alp.result ≠ .ok ∨ 0x3E ∉ (innerCodes alp.codes).drop 1) : r.disagree = false ∧ r.name = [] := by
  have hnone : (if alp.result = .ok then alphaFields alp.codes else none) = none := by
    by_cases hok : alp.result = .ok
    · rw [if_pos hok]
      exact alphaFields_none (h.resolve_left (not_not_intro hok))
    · exact if_neg hok
  subst hr
  simp [makeRecord, CardRec.judge, hnone]

theorem makeRecord_alpha_some {a more : List Nat} {fmt : Nat} (hok : alp.result = .ok)
    (h : innerCodes alp.codes = fmt :: a ++ 0x3E :: more) (ha : 0x3E ∉ a) :
    (r.disagree = true ↔ a.map (fun c => u8 (c + 0x20)) ≠ acc.map (fun c => u8 (c + 0x30))) ∧
      (0x3E ∉ more → r.name = []) ∧
      ∀ name tail, more = name ++ 0x3E :: tail → 0x3E ∉ name → r.name =
        if 2 ≤ name.length ∧ name.length ≤ 26 then name.map (fun c => u8 (c + 0x20)) else [] := by
  obtain ⟨name, hfields, hnone, hsome⟩ := alphaFields_some h ha
  have haf : (if alp.result = .ok then alphaFields alp.codes else none) = some (printable .alpha a, name) :=
    (if_pos hok).trans hfields
  subst hr
  simp only [makeRecord, CardRec.judge, haf]
  exact ⟨decide_eq_true_iff, hnone, hsome⟩

theorem makeRecord_expired : r.expired = true ↔ x.state ≠ .idle ∧ ∃ e, r.expiry = some e ∧
    e < (x.date / 10000 % 100) * 100 + x.date / 100 % 100 := by
  obtain ⟨hexp, -, -⟩ := makeRecord_dates hr
  have hflag : r.expired = expiredNow x r.expiry := by
    subst hr
    rfl
  rw [hflag]
  cases r.expiry with
  | none => simp [expiredNow]
  | some e => simp [expiredNow]

theorem makeRecord_bindable : r.bindable = true ↔ r.numeric = .ok ∧ r.format = false ∧ r.check = false ∧ r.disagree = false ∧
    r.expired = false := by
  have hflag : r.bindable =
      (decide (r.numeric = .ok) && !r.format && !r.check && !r.disagree && !r.expired) := by
    subst hr
    rfl
  rw [hflag]
  simp [and_assoc]

end

end Sys2Proof.Machine
end

