-- ==== Sys2Proof/Proofs/Card/Swipes.lean ====
section
/-! PROOFS. The course of a swipe (R108, R110 to R112, R122). -/

namespace Sys2Proof.Machine

/-! ### The captures of the two tracks -/

@[simp] theorem track_setTrack (tr : Track) (t : TrackCap) (s : State) : (setTrack tr t s).crd.track tr = t := by cases tr <;> rfl

theorem track_setTrack_ne {tr other : Track} (h : tr ≠ other) (t : TrackCap) (s : State) :
    (setTrack tr t s).crd.track other = s.crd.track other := by
  cases tr <;> cases other <;> first | rfl | exact absurd rfl h

theorem setTrack_rest (tr : Track) (t : TrackCap) (s : State) :
    setTrack tr t s = { s with crd := (setTrack tr t s).crd } ∧ (setTrack tr t s).crd.state = s.crd.state ∧
      (setTrack tr t s).crd.swipeAge = s.crd.swipeAge ∧ (setTrack tr t s).crd.one = s.crd.one ∧
      (setTrack tr t s).crd.two = s.crd.two := by cases tr <;> exact ⟨rfl, rfl, rfl, rfl, rfl⟩

theorem setTrack_same {tr : Track} {t : TrackCap} {s : State} (h : t = s.crd.track tr) : setTrack tr t s = s := by
  subst h
  cases tr <;> rfl

theorem both_ended_iff {tr other : Track} (h : tr ≠ other) (s : State) :
    (s.crd.alpha.ended = true ∧ s.crd.numeric.ended = true) ↔
      ((s.crd.track tr).ended = true ∧ (s.crd.track other).ended = true) := by
  cases tr <;> cases other
  · exact absurd rfl h
  · exact Iff.rfl
  · exact and_comm
  · exact absurd rfl h

/-- Decoding begins where both tracks have ended (R112). -/
theorem judgeSwipeEnd_eq {tr other : Track} (h : tr ≠ other) {s : State} (hs : s.crd.state = .reading) :
    judgeSwipeEnd s = { s with
      crd.state := if (s.crd.track tr).ended = true ∧ (s.crd.track other).ended = true then .decoding else .reading } := by
  unfold judgeSwipeEnd
  by_cases hb : (s.crd.track tr).ended = true ∧ (s.crd.track other).ended = true
  · rw [if_pos hb, if_pos ⟨hs, (both_ended_iff h s).mpr hb⟩]
  · rw [if_neg hb, if_neg fun hc => hb ((both_ended_iff h s).mp hc.2), ← hs]

/-- The track of a capture whose reader changes state. -/
theorem track_withState (c : Card) (m : ReaderState) (tr : Track) : Card.track { c with state := m } tr = c.track tr := by
  cases tr <;> rfl

/-! ### A transition (R112) -/

theorem search_ended (t : TrackCap) (dt : Nat) : (t.search dt).ended = t.ended := by
  unfold TrackCap.search
  simp only
  split <;> rfl

theorem addBit_ended (t : TrackCap) (bit : Bool) (p : Nat) : (t.addBit bit p).ended = t.ended := by
  unfold TrackCap.addBit
  split <;> rfl

theorem cell_ended (t : TrackCap) (p dt : Nat) : (t.cell p dt).ended = t.ended := by
  unfold TrackCap.cell
  split
  · split
    · exact addBit_ended ..
    · rfl
  · split
    · rfl
    · exact addBit_ended ..

theorem interval_ended (t : TrackCap) (dt : Nat) : (t.interval dt).ended = t.ended := by
  unfold TrackCap.interval
  split
  · rfl
  · split
    · exact search_ended t dt
    · exact cell_ended t _ dt

theorem transition_late {t : TrackCap} {dt : Nat} (he : t.ended = false) (h : t.idle < dt) :
    t.transition dt = { t with ended := true } := by
  unfold TrackCap.transition
  rw [if_neg (by simp [he]), if_pos h]

theorem transition_counts {t : TrackCap} {dt : Nat} (he : t.ended = false) (h : dt ≤ t.idle) :
    (t.transition dt).transitions = t.transitions + 1 ∧ (t.transition dt).ended = false := by
  unfold TrackCap.transition
  rw [if_neg (by simp [he]), if_neg (Nat.not_lt.mpr h)]
  split
  · next hz => exact ⟨by rw [hz], he⟩
  · exact ⟨rfl, (interval_ended t dt).trans he⟩

theorem transition_ended {t : TrackCap} {dt : Nat} (he : t.ended = true) : t.transition dt = t := by
  unfold TrackCap.transition
  exact if_pos he

/-! ### The events that find no swipe (log entry 6) -/

theorem swipeStart_none {r : Raise} {head : Head} {s : State} (h : Head.track head = none ∨ s.crd.state ≠ .armed) :
    swipeStart r head s = s := by
  unfold swipeStart
  split
  · next hst htr => exact h.elim (fun h => by rw [h] at htr; exact absurd htr (by simp)) (absurd hst)
  · rfl

theorem trackTransition_none {head : Head} {dt : Nat} {s : State} (h : Head.track head = none ∨ s.crd.state ≠ .reading) :
    trackTransition head dt s = s := by
  unfold trackTransition
  split
  · next hst htr => exact h.elim (fun h => by rw [h] at htr; exact absurd htr (by simp)) (absurd hst)
  · rfl

/-! ### A swipe's start, transitions and end -/

theorem swipeStart_active {r : Raise} {head : Head} {tr : Track} {s : State} (ht : Head.track head = some tr)
    (hs : s.crd.state = .armed) (hm : s.lpm.mode = .active) :
    swipeStart r head s = setTrack tr { TrackCap.empty with transitions := 1 } (readerTo .reading s) := by
  unfold swipeStart
  simp only [hs, ht]
  exact wake_active (by rw [setTrack_lpm]; exact hm)

theorem trackTransition_reading {head : Head} {tr : Track} {dt : Nat} {s : State} (ht : Head.track head = some tr)
    (hs : s.crd.state = .reading) :
    trackTransition head dt s = judgeSwipeEnd (setTrack tr ((s.crd.track tr).transition dt) s) := by
  unfold trackTransition
  simp only [hs, ht]

/-- A track's capture replaced in READING, and the swipe judged (R112). -/
theorem judged_track {tr other : Track} (h : tr ≠ other) {s : State} (hs : s.crd.state = .reading) (t : TrackCap) :
    ∃ u, judgeSwipeEnd (setTrack tr t s) = u ∧ u = { s with crd := u.crd } ∧ u.crd.track tr = t ∧
      u.crd.track other = s.crd.track other ∧
      u.crd.state = if t.ended = true ∧ (s.crd.track other).ended = true then .decoding else .reading := by
  obtain ⟨hrest, hstate, -, -, -⟩ := setTrack_rest tr t s
  have heq := judgeSwipeEnd_eq h (s := setTrack tr t s) (hstate.trans hs)
  rw [track_setTrack, track_setTrack_ne h] at heq
  refine ⟨_, rfl, ?_, ?_, ?_, ?_⟩
  · rw [heq, hrest]
  · rw [heq]
    exact (track_withState ..).trans (track_setTrack ..)
  · rw [heq]
    exact (track_withState ..).trans (track_setTrack_ne h ..)
  · rw [heq]

theorem swipeTimeLimit_reading {s : State} (hs : s.crd.state = .reading) (tr : Track) :
    (swipeTimeLimit s).crd.state = .decoding ∧ (swipeTimeLimit s).crd.track tr = (s.crd.track tr).cutOff := by
  unfold swipeTimeLimit
  rw [if_pos hs]
  cases tr <;> exact ⟨rfl, rfl⟩

/-! ### The decode end (R122) -/

theorem judgeSwipe_bad {r : Raise} {num alp : Framed} {s : State} (h : num.result ≠ .ok) :
    judgeSwipe r num alp s = r (.cardSwipeBad num.result alp.result false) s := if_neg h

theorem judgeSwipe_malformed {r : Raise} {num alp : Framed} {s : State} (h : num.result = .ok) (ha : accountOf num.codes = none) :
    judgeSwipe r num alp s = r (.cardSwipeBad .ok alp.result true) s := by
  unfold judgeSwipe
  simp only [h, if_true, ha]

theorem judgeSwipe_good {r : Raise} {num alp : Framed} {s : State} {acc rest : List Nat} (h : num.result = .ok)
    (ha : accountOf num.codes = some (acc, rest)) :
    judgeSwipe r num alp s = storeSwipe r (makeRecord s.txn num alp acc rest) s := by
  unfold judgeSwipe
  simp only [h, if_true, ha]

theorem storeSwipe_one {r : Raise} {c : CardRec} {s : State} (h : s.crd.one = none) :
    storeSwipe r c s = r (.cardSwipe .one c.flags c.expiry c.masked) (s.setCard .one (some c)) := by
  simp only [storeSwipe, h]

theorem storeSwipe_two {r : Raise} {c : CardRec} {s : State} (h1 : s.crd.one ≠ none) (h2 : s.crd.two = none) :
    storeSwipe r c s = r (.cardSwipe .two c.flags c.expiry c.masked) (s.setCard .two (some c)) := by
  cases h : s.crd.one with
  | none => exact absurd h h1
  | some x => simp only [storeSwipe, h, h2]

theorem storeSwipe_full {r : Raise} {c : CardRec} {s : State} (h1 : s.crd.one ≠ none) (h2 : s.crd.two ≠ none) :
    storeSwipe r c s = r (.cardStoreFull c.numeric c.alpha) s := by
  cases h : s.crd.one with
  | none => exact absurd h h1
  | some x =>
    cases h' : s.crd.two with
    | none => exact absurd h' h2
    | some y => simp only [storeSwipe, h, h']

theorem setCard_reader (s : State) (c : CardSlot) (y : Option CardRec) (tr : Track) :
    (s.setCard c y).crd.track tr = s.crd.track tr ∧ (s.setCard c y).crd.state = s.crd.state ∧
      (s.setCard c y).crd.disarm = s.crd.disarm := by
  cases c <;> cases tr <;> exact ⟨rfl, rfl, rfl⟩

/-- A swipe judged raises one notice, with at most one slot of the store filled before it. -/
theorem judgeSwipe_raises {num alp : Framed} {s : State} (hu : s.unbound) :
    ∃ n x, judgeSwipe raiseLoud num alp s = raiseQuiet n x ∧ x.unbound ∧
      (x = s ∨ ∃ c y, x = s.setCard c y) := by
  have hset (c : CardSlot) (y : Option CardRec) : (s.setCard c y).unbound := by cases c <;> exact hu
  by_cases h : num.result = .ok
  · cases ha : accountOf num.codes with
    | none => exact ⟨_, s, (judgeSwipe_malformed h ha).trans (raiseLoud_unbound hu _), hu, .inl rfl⟩
    | some a =>
      obtain ⟨acc, rest⟩ := a
      rw [judgeSwipe_good h ha]
      by_cases h1 : s.crd.one = none
      · exact ⟨_, _, (storeSwipe_one h1).trans (raiseLoud_unbound (hset ..) _), hset .., .inr ⟨_, _, rfl⟩⟩
      · by_cases h2 : s.crd.two = none
        · exact ⟨_, _, (storeSwipe_two h1 h2).trans (raiseLoud_unbound (hset ..) _), hset .., .inr ⟨_, _, rfl⟩⟩
        · exact ⟨_, s, (storeSwipe_full h1 h2).trans (raiseLoud_unbound hu _), hu, .inl rfl⟩
  · exact ⟨_, s, (judgeSwipe_bad h).trans (raiseLoud_unbound hu _), hu, .inl rfl⟩

/-- Settles O44: the reader state and the track for each event, then the record's fields. -/
theorem swipeFollowed : Obligations.SwipeFollowed := by
  refine ⟨fun head tr other interval s hne => ⟨?start, fun h => ?noStart, fun h => ?noTransition, ?transition, ?ignored, ?idle,
      ?noSwipe, ?limit, ?decoded, ?noDecode⟩,
    fun x num alp acc rest r hr => ?record, accountOf_iff⟩
  case start =>
    intro ht hs hm
    obtain ⟨hrest, hstate, hage, hone, htwo⟩ :=
      setTrack_rest tr { TrackCap.empty with transitions := 1 } (readerTo .reading s)
    refine ⟨_, congrArg Host.Outcome.next (swipeStart_active ht hs hm), hrest, hstate, hage, hone, htwo, track_setTrack ..,
      (track_setTrack_ne hne ..).trans ?_⟩
    cases other <;> rfl
  case noStart => exact congrArg Host.Outcome.next (swipeStart_none h)
  case noTransition => exact congrArg Host.Outcome.next (trackTransition_none h)
  case transition =>
    intro ht hs he
    obtain ⟨u, hu, hrest, htr, hother, hstate⟩ := judged_track hne hs ((s.crd.track tr).transition interval.toNat)
    refine ⟨u, congrArg Host.Outcome.next ((trackTransition_reading ht hs).trans hu), hrest, hother, fun hin => ?_, fun hlate => ?_⟩
    · obtain ⟨hcount, hend⟩ := transition_counts he hin
      refine ⟨by rw [htr, hcount], by rw [htr, hend], ?_⟩
      rw [hstate, hend]
      exact if_neg fun h => absurd h.1 (by decide)
    · rw [transition_late he hlate] at htr hstate
      refine ⟨htr, hstate.trans ?_⟩
      simp
  case ignored =>
    intro ht hs he ho
    obtain ⟨u, hu, hrest, htr, hother, hstate⟩ := judged_track hne hs ((s.crd.track tr).transition interval.toNat)
    show Host.Outcome.next (trackTransition head interval.toNat s) = _
    rw [trackTransition_reading ht hs, transition_ended he, setTrack_same rfl, judgeSwipeEnd_eq hne hs,
      if_neg fun h => by rw [ho] at h; exact absurd h.2 (by decide), ← hs]
  case idle =>
    intro hs
    obtain ⟨u, hu, -, htr, hother, hstate⟩ := judged_track hne hs { s.crd.track tr with ended := true }
    refine ⟨u, congrArg Host.Outcome.next ((if_pos hs).trans hu), htr, hother, hstate.trans ?_⟩
    simp
  case noSwipe =>
    exact fun hs => ⟨congrArg Host.Outcome.next (if_neg hs), congrArg Host.Outcome.next (if_neg hs)⟩
  case limit =>
    intro hs
    obtain ⟨hstate, htr⟩ := swipeTimeLimit_reading hs tr
    refine ⟨_, rfl, hstate, fun he => htr.trans (if_pos he), fun he => htr.trans (if_neg ?_)⟩
    rw [he]
    decide
  case decoded =>
    intro hs hu
    obtain ⟨z, hz⟩ : ∃ z, readerTo (if s.crd.disarm then .disarmed else .armed) s = z := ⟨_, rfl⟩
    have hzu : z.unbound := by rw [← hz]; exact hu
    have hdecode : exec .decodeEnd s = .next
        (judgeSwipe raiseLoud (frameTrack .numeric s.crd.numeric) (frameTrack .alpha s.crd.alpha) z) := by
      show Host.Outcome.next (decodeEnd raiseLoud s) = _
      rw [decodeEnd, if_pos hs, decodeSwipe, hz]
    have hreader : z.crd.track tr = TrackCap.empty ∧ z.crd.state = (if s.crd.disarm then .disarmed else .armed) ∧
        z.crd.disarm = false := by
      rw [← hz]
      cases tr <;> exact ⟨rfl, rfl, rfl⟩
    obtain ⟨hone, htwo, hlink, hrpt, hset, htxn⟩ : z.crd.one = s.crd.one ∧ z.crd.two = s.crd.two ∧ z.link = s.link ∧
        z.rpt = s.rpt ∧ z.set = s.set ∧ z.txn = s.txn := by
      rw [← hz]
      exact ⟨rfl, rfl, rfl, rfl, rfl, rfl⟩
    have hcard1 (n : Notice) : (raiseQuiet n z).card .one = s.card .one := (card_raiseQuiet ..).trans hone
    have hcard2 (n : Notice) : (raiseQuiet n z).card .two = s.card .two := (card_raiseQuiet ..).trans htwo
    have hnotice (n : Notice) : (raiseQuiet n z).rpt = (raiseQuiet n s).rpt := raiseQuiet_rpt_congr _ _ _ hlink hrpt hset
    refine ⟨_, hdecode, ?_⟩
    have hends : ∀ u, judgeSwipe raiseLoud (frameTrack .numeric s.crd.numeric) (frameTrack .alpha s.crd.alpha) z = u →
        u.crd.track tr = TrackCap.empty ∧ u.crd.state = (if s.crd.disarm then .disarmed else .armed) ∧ u.crd.disarm = false := by
      rintro u rfl
      obtain ⟨n, x, hraise, -, hx⟩ := judgeSwipe_raises hzu
      rw [hraise, raiseQuiet_crd]
      rcases hx with rfl | ⟨c, y, rfl⟩
      · exact hreader
      · obtain ⟨htrack, hstate, hdisarm⟩ := setCard_reader z c y tr
        rw [htrack, hstate, hdisarm]
        exact hreader
    obtain ⟨htrack, hstate, hdisarm⟩ := hends _ rfl
    refine ⟨htrack, hstate, hdisarm, fun num alp hnum halp => ?_⟩
    rw [← hnum, ← halp]
    refine ⟨fun hbad => ?_, fun hok hacc => ?_, fun acc rest r hok hacc hr => ?_⟩
    · rw [judgeSwipe_bad hbad, raiseLoud_unbound hzu]
      exact ⟨hcard1 _, hcard2 _, hnotice _⟩
    · rw [judgeSwipe_malformed hok hacc, raiseLoud_unbound hzu]
      exact ⟨hcard1 _, hcard2 _, hnotice _⟩
    · rw [judgeSwipe_good hok hacc, htxn, ← hr]
      refine ⟨fun h1 => ?_, fun h1 h2 => ?_, fun h1 h2 => ?_⟩
      · rw [storeSwipe_one (hone.trans h1), raiseLoud_unbound (by exact hzu), card_raiseQuiet, card_raiseQuiet]
        exact ⟨rfl, htwo, raiseQuiet_rpt_congr _ _ _ hlink hrpt hset⟩
      · rw [storeSwipe_two (by rw [hone]; exact h1) (htwo.trans h2), raiseLoud_unbound (by exact hzu), card_raiseQuiet,
          card_raiseQuiet]
        exact ⟨rfl, hone, raiseQuiet_rpt_congr _ _ _ hlink hrpt hset⟩
      · have hkinds : r.numeric = .ok ∧ r.alpha = alp.result := by
          rw [hr]
          exact ⟨hok, rfl⟩
        rw [storeSwipe_full (by rw [hone]; exact h1) (by rw [htwo]; exact h2), raiseLoud_unbound hzu, hkinds.1, hkinds.2]
        exact ⟨hcard1 _, hcard2 _, hnotice _⟩
  case noDecode =>
    exact fun hs => congrArg Host.Outcome.next (if_neg hs)
  case record =>
    obtain ⟨hexp, hserv, hformat⟩ := makeRecord_dates hr
    have hfields : r.bound = false ∧ r.age = 0 ∧ r.released = false ∧ r.reverse = num.reverse ∧ r.numeric = num.result ∧
        r.alpha = alp.result ∧ r.track = num.codes.map (fun c => u8 (c + 0x30)) ∧ r.masked = maskAccount acc := by
      subst hr
      exact ⟨rfl, rfl, rfl, rfl, rfl, rfl, rfl, rfl⟩
    obtain ⟨hbound, hage, hreleased, hreverse, hnumeric, halpha, htrack, hmasked⟩ := hfields
    refine ⟨hbound, hage, hreleased, hreverse, hnumeric, halpha, htrack, fun h => ?_,
      fun y1 y2 m1 m2 v1 v2 v3 more hrest hdigits hlo hhi => ?_, fun h => ?_, makeRecord_check hr, makeRecord_alpha_none hr,
      fun fmt a more hok h ha => makeRecord_alpha_some hr hok h ha, makeRecord_expired hr, makeRecord_bindable hr⟩
    · rw [hmasked]
      exact maskAccount_spec h
    · rw [hexp, hserv, hformat, expiryService_some hrest hdigits hlo hhi]
      exact ⟨rfl, rfl, rfl⟩
    · rw [hexp, hserv, hformat, expiryService_none h]
      exact ⟨rfl, rfl, rfl⟩

end Sys2Proof.Machine
end

