-- ==== Sys2Proof/Proofs/Report/Bindings.lean ====
section
/-! PROOFS. EVT_BIND and the bound actions (R190, R191). -/

namespace Sys2Proof.Machine

/-! ### One binding that fires -/

theorem fireSlot_empty {code slot : Nat} {s : State} (h : s.rpt.binding slot = none) : fireSlot code slot s = s := by
  unfold fireSlot
  rw [h]

/-- On an ACTIVE lane with no entry pending, a binding that fires executes its action, once its slot is emptied where it
is a once slot. -/
theorem fireOne_active {slot : Nat} {b : Binding} {s u t : State} {st : Status}
    (hu : u = if b.once then { s with rpt := s.rpt.setBinding none slot } else s) (hm : u.lpm.mode = .active)
    (hentry : u.lpm.entry = none) (hact : boundAction b.action u = (t, st)) :
    fireOne slot b s = if st.accepted then t else raiseQuiet (.bindingFailed slot b.trigger b.action.code st) t := by
  have hcancel : boundCancel b.action u = u := if_neg (by simp [hentry])
  unfold fireOne
  simp only [← hu, wake_active hm, hcancel, hact]

section
variable {n : Notice} {once : Bool} {a : BindAction} {s u : State} (hm : s.lpm.mode = .active) (hentry : s.lpm.entry = none)
  (h1 : s.rpt.bind1 = some { once := once, trigger := n.code, action := a }) (h2 : s.rpt.bind2 = none)
  (h3 : s.rpt.bind3 = none) (h4 : s.rpt.bind4 = none) (hu : u = if once then { s with rpt.bind1 := none } else s)

include h2 h3 h4 hu in
/-- The lane as the binding fires differs in its report unit alone, whose other slots stay empty. -/
theorem fired_rest : ∃ r, u = { s with rpt := r } ∧ r.bind2 = none ∧ r.bind3 = none ∧ r.bind4 = none := by
  cases once with
  | true => exact ⟨_, hu, h2, h3, h4⟩
  | false => exact ⟨s.rpt, hu, h2, h3, h4⟩

include hm hentry h1 h2 h3 h4 hu in
/-- A notice whose kind is bound in slot 1 alone. -/
theorem raiseLoud_bound {t x : State} {st : Status} (hact : boundAction a u = (t, st)) (hrpt : t.rpt = u.rpt)
    (hx : (if st.accepted then t else raiseQuiet (.bindingFailed 1 n.code a.code st) t) = x) :
    raiseLoud n s = raiseQuiet n x := by
  obtain ⟨r, hur, hr2, hr3, hr4⟩ := fired_rest h2 h3 h4 hu
  have hone : fireSlot n.code 1 s = x := by
    have hfire := fireOne_active (slot := 1) (b := { once := once, trigger := n.code, action := a }) hu
      (by rw [hur]; exact hm) (by rw [hur]; exact hentry) hact
    unfold fireSlot
    rw [show s.rpt.binding 1 = _ from h1]
    simp only [if_true]
    exact hfire.trans hx
  have hbind (i : Nat) : x.rpt.binding i = u.rpt.binding i := by
    rw [← hx]
    split
    · rw [hrpt]
    · rw [raiseQuiet_binding, hrpt]
  have hempty (i : Nat) (hi : i = 2 ∨ i = 3 ∨ i = 4) : fireSlot n.code i x = x := by
    refine fireSlot_empty ((hbind i).trans ?_)
    rw [hur]
    rcases hi with rfl | rfl | rfl
    · exact hr2
    · exact hr3
    · exact hr4
  rw [raiseLoud, fireBindings, hone, hempty 2 (by simp), hempty 3 (by simp), hempty 4 (by simp)]

include hm hentry h1 h2 h3 h4 hu in
/-- An action that passes its checks. -/
theorem raiseLoud_acts {t : State} {st : Status} (hact : boundAction a u = (t, st)) (hst : st.accepted = true)
    (hrpt : t.rpt = u.rpt) : raiseLoud n s = raiseQuiet n t :=
  raiseLoud_bound hm hentry h1 h2 h3 h4 hu hact hrpt (if_pos hst)

include hm hentry h1 h2 h3 h4 hu in
/-- An action that its checks refuse. -/
theorem raiseLoud_fails {st : Status} (hact : boundAction a u = (u, st)) (hst : st.accepted = false) :
    raiseLoud n s = raiseQuiet n (raiseQuiet (.bindingFailed 1 n.code a.code st) u) :=
  raiseLoud_bound hm hentry h1 h2 h3 h4 hu hact rfl (if_neg (by rw [hst]; decide))

end

/-! ### What the bound actions draw -/

theorem boundKick_refused {p : Port} {s : State} {st : Status} (h : kickRefusal p s = some st) :
    boundAction (.kick p) s = (s, st) := by
  show kick raiseQuiet 0#8 p s = _
  simp only [kick, h]

theorem boundKick_accepted {p : Port} {s : State} (h : kickRefusal p s = none) :
    boundAction (.kick p) s = (kickAccepted raiseQuiet 0#8 p s, .ok) := by
  show kick raiseQuiet 0#8 p s = _
  simp only [kick, h]

/-- What a kick draws of a present port with a permit, from its mode. -/
theorem kickRefusal_busy {p : Port} {s : State} (hp : s.set.present p = true) (hk : s.permitOf p ≠ .none)
    (hm : (s.port p).mode = .unknown ∨ (s.port p).mode = .kicking ∨ (s.port p).mode = .fault) :
    kickRefusal p s = some .refusedBusy := by
  rcases hm with h | h | h <;> simp [kickRefusal, hp, hk, h]

section
variable {price : Nat} {s : State} (hopen : s.txn.state = .opened) (hhold : s.bag.watch ≠ .hold) (h0 : price ≠ 0)
  (hmax : price ≤ 999999)

include hopen hhold h0 hmax in
theorem boundCapture_taken (hcal : s.wgt.chanP.calValid = true) (hop : s.wgt.chanP.op = none) :
    boundAction (.capture price) s = (takeSlot .p (.capture price 0 []) 0#8 (1000 * s.set.captureTimeout) s, .pending) := by
  show startCapture 0#8 0 price [] s = _
  simp [startCapture, hopen, hhold, h0, Nat.not_lt.mpr hmax, hcal, hop, Settings.captureMs]

theorem boundCapture_closed (h : s.txn.state ≠ .opened) : boundAction (.capture price) s = (s, .refusedState) := if_pos h

include hopen in
theorem boundCapture_hold (h : s.bag.watch = .hold) : boundAction (.capture price) s = (s, .refusedHold) :=
  (if_neg (not_not_intro hopen)).trans (if_pos h)

include hopen hhold h0 hmax in
theorem boundCapture_uncalibrated (hcal : s.wgt.chanP.calValid = false) :
    boundAction (.capture price) s = (s, .refusedState) := by
  show startCapture 0#8 0 price [] s = _
  simp [startCapture, hopen, hhold, h0, Nat.not_lt.mpr hmax, hcal]

include hopen hhold h0 hmax in
theorem boundCapture_busy (hcal : s.wgt.chanP.calValid = true) (hop : s.wgt.chanP.op ≠ none) :
    boundAction (.capture price) s = (s, .refusedBusy) := by
  have hheld : s.wgt.chanP.op.isSome = true := Option.isSome_iff_ne_none.mpr hop
  show startCapture 0#8 0 price [] s = _
  simp [startCapture, hopen, hhold, h0, Nat.not_lt.mpr hmax, hcal, hheld]

end

theorem boundFeed_started {lines : Nat} {s : State} (hm : s.pen.mode = .idle) (hs : s.sst.started = true)
    (hpaper : s.pen.paperOut = false) (hcover : s.pen.coverOpen = false) (hn : 1 ≤ lines) :
    boundAction (.startFeed lines) s = (startFeed raiseQuiet lines s, .ok) := by
  have h0 : lines ≠ 0 := by omega
  show prnFeed raiseQuiet lines s = _
  simp [prnFeed, hm, hs, hpaper, hcover, h0]

theorem boundFeed_fault {lines : Nat} {s : State} (hm : s.pen.mode = .fault) :
    boundAction (.startFeed lines) s = (s, .refusedState) := by
  show prnFeed raiseQuiet lines s = _
  simp only [prnFeed, hm]

theorem boundFeed_printing {lines : Nat} {s : State} (hm : s.pen.mode = .printing) :
    boundAction (.startFeed lines) s = (s, .refusedBusy) := by
  show prnFeed raiseQuiet lines s = _
  simp only [prnFeed, hm]

theorem boundFeed_open {lines : Nat} {s : State} (hm : s.pen.mode = .idle) (hs : s.sst.started = true)
    (h : s.pen.paperOut = true ∨ s.pen.coverOpen = true) : boundAction (.startFeed lines) s = (s, .refusedState) := by
  show prnFeed raiseQuiet lines s = _
  rcases h with h | h <;> simp [prnFeed, hm, hs, h]

/-! ### EVT_BIND (R190) -/

theorem actBind_range {r : Raise} {slot mode trigger action : Byte} {argument : BitVec 32} {s : State}
    (h : slot.toNat < 1 ∨ 4 < slot.toNat ∨ 2 < mode.toNat) :
    actBind slot mode trigger action argument r s = refuse .refusedRange s := if_pos h

theorem actBind_unreadable {r : Raise} {slot mode trigger action : Byte} {argument : BitVec 32} {s : State}
    (hm : mode ≠ 0#8) (h : BindAction.read action argument.toNat = none ∨ isTrigger trigger.toNat = false) :
    actBind slot mode trigger action argument r s = refuse .refusedRange s := by
  by_cases hout : slot.toNat < 1 ∨ 4 < slot.toNat ∨ 2 < mode.toNat
  · exact actBind_range hout
  · unfold actBind
    rw [if_neg hout, if_neg hm]
    cases ha : BindAction.read action argument.toNat with
    | none => rfl
    | some a =>
      have htrigger : isTrigger trigger.toNat = false := h.resolve_left (by rw [ha]; simp)
      simp only [htrigger, Bool.false_eq_true, if_false]

/-- Settles O16: the checks of EVT_BIND, and what each bound action draws on the lane as its binding fires. -/
theorem bindingSetAndFired : Obligations.BindingSetAndFired := by
  refine ⟨fun tag slot mode trigger action argument s hs h1 h4 => ⟨fun hm => ?clears, fun a hm ha ht => ?sets, fun h => ?refuses⟩,
    fun tag slot mode trigger action argument s hs h => ?slot, fun n once s hm hentry h1 h2 h3 h4 => ?arms,
    fun n once a s u hm hentry h1 h2 h3 h4 hu => ⟨fun p ha => ?kick, fun price ha => ?capture, fun lines ha => ?feed⟩⟩
  case clears =>
    have hin : ¬ (slot.toNat < 1 ∨ 4 < slot.toNat ∨ 2 < mode.toNat) := by
      rw [hm]
      simp only [BitVec.toNat_ofNat]
      omega
    exact exec_answers_of_ready rfl rfl hs rfl fun q => (if_neg hin).trans (if_pos hm)
  case sets =>
    have hm0 : mode ≠ 0#8 := by rcases hm with rfl | rfl <;> decide
    have hm2 : mode.toNat ≤ 2 := by rcases hm with rfl | rfl <;> decide
    have hin : ¬ (slot.toNat < 1 ∨ 4 < slot.toNat ∨ 2 < mode.toNat) := by omega
    refine exec_answers_of_ready rfl rfl hs rfl fun q => ?_
    show actBind slot mode trigger action argument raiseLoud (s.executing q) = _
    unfold actBind
    rw [if_neg hin, if_neg hm0]
    simp only [ha, ht, if_true]
    rfl
  case refuses =>
    refine refuses_of_ready rfl rfl hs fun q => ?_
    rcases h with h | ⟨hm, h⟩
    · exact actBind_range (r := raiseLoud) (.inr (.inr h))
    · exact actBind_unreadable (r := raiseLoud) hm h
  case slot =>
    exact refuses_of_ready rfl rfl hs fun q => actBind_range (r := raiseLoud) (h.imp id .inl)
  case arms =>
    refine raiseLoud_acts hm hentry h1 h2 h3 h4 rfl rfl rfl ?_
    unfold armReader
    split <;> rfl
  case kick =>
    subst ha
    obtain ⟨r, hur, -, -, -⟩ := fired_rest h2 h3 h4 hu
    refine ⟨fun hp hk hmode hretry hP hB hqueue hline hlow hfits => ?_, fun hp => ?_, fun hp hk => ?_, fun hp hk hmode => ?_⟩
    · have hgo : boundAction (.kick p) u = (u.energising 0#8 (s.permitOf p) p, .ok) := by
        rw [hur]
        refine (boundKick_accepted (s := { s with rpt := r }) (kickRefusal_closed (s := { s with rpt := r }) hp hk hmode hretry)).trans
          (congrArg (·, Status.ok) ?_)
        exact kickAccepted_granted (s := { s with rpt := r }) hmode hqueue hline hlow hfits hP hB
      refine (raiseLoud_acts hm hentry h1 h2 h3 h4 hu hgo rfl (by cases p <;> rfl)).trans (congrArg (raiseQuiet n) ?_)
      rw [hur]
      rfl
    · exact raiseLoud_fails hm hentry h1 h2 h3 h4 hu (boundKick_refused (by rw [hur]; simp [kickRefusal, hp])) rfl
    · refine raiseLoud_fails hm hentry h1 h2 h3 h4 hu (boundKick_refused ?_) rfl
      rw [hur]
      exact (if_neg (by simp [hp])).trans (if_pos hk)
    · refine raiseLoud_fails hm hentry h1 h2 h3 h4 hu (boundKick_refused ?_) rfl
      rw [hur]
      exact kickRefusal_busy hp hk hmode
  case capture =>
    subst ha
    obtain ⟨r, hur, -, -, -⟩ := fired_rest h2 h3 h4 hu
    have hfails {st : Status} := raiseLoud_fails (st := st) hm hentry h1 h2 h3 h4 hu
    refine ⟨fun hopen hhold h0 hmax hcal hop => ?_, fun h => ?_, fun hopen hhold => ?_,
      fun hopen hhold h0 hmax => ⟨fun hcal => ?_, fun hcal hop => ?_⟩⟩
    · have hgo : boundAction (.capture price) u = (takeSlot .p (.capture price 0 []) 0#8 (1000 * s.set.captureTimeout) u, .pending) := by
        rw [hur]
        exact boundCapture_taken hopen hhold h0 hmax hcal hop
      exact raiseLoud_acts hm hentry h1 h2 h3 h4 hu hgo rfl rfl
    · exact hfails (boundCapture_closed (by rw [hur]; exact h)) rfl
    · exact hfails (boundCapture_hold (by rw [hur]; exact hopen) (by rw [hur]; exact hhold)) rfl
    · exact hfails (boundCapture_uncalibrated (by rw [hur]; exact hopen) (by rw [hur]; exact hhold) h0 hmax
        (by rw [hur]; exact hcal)) rfl
    · exact hfails (boundCapture_busy (by rw [hur]; exact hopen) (by rw [hur]; exact hhold) h0 hmax
        (by rw [hur]; exact hcal) (by rw [hur]; exact hop)) rfl
  case feed =>
    subst ha
    obtain ⟨r, hur, -, -, -⟩ := fired_rest h2 h3 h4 hu
    have hfails {st : Status} := raiseLoud_fails (st := st) hm hentry h1 h2 h3 h4 hu
    refine ⟨fun hidle hs hc hn hP hB hact => ?_, fun h => ?_, fun h => ?_, fun hidle hs h => ?_⟩
    · have ⟨hpaper, hcover, _⟩ := hc
      have hgo := boundFeed_started (lines := lines) (s := u) (by rw [hur]; exact hidle) (by rw [hur]; exact hs)
        (by rw [hur]; exact hpaper) (by rw [hur]; exact hcover) hn
      have hstart := startFeed_now (r := raiseQuiet) (s := u) (by rw [hur]; exact hc) hn (by rw [hur]; exact hP)
        (by rw [hur]; exact hB) (by rw [hur]; exact hact)
      rw [hstart] at hgo
      refine (raiseLoud_acts hm hentry h1 h2 h3 h4 hu hgo rfl rfl).trans (congrArg (raiseQuiet n) ?_)
      rw [hur]
      rfl
    · exact hfails (boundFeed_fault (by rw [hur]; exact h)) rfl
    · exact hfails (boundFeed_printing (by rw [hur]; exact h)) rfl
    · exact hfails (boundFeed_open (by rw [hur]; exact hidle) (by rw [hur]; exact hs) (by rw [hur]; exact h)) rfl

end Sys2Proof.Machine
end

