-- ==== Sys2Proof/Proofs/Report/SettingEffects.lean ====
section
/-! PROOFS. The settings whose change acts at once (R25, R32, R41, R77, R124, R129, R141, R151, R158, R177). -/

namespace Sys2Proof.Machine

/-! ### What each change does -/

section
variable {r : Raise} {s : State}

theorem settingChanged_depth (ch : Channel) : settingChanged r (if ch = .p then 3#8 else 4#8 : Byte).toNat s =
    restartWindows r ch { s with set := s.set.raiseWindows } := by cases ch <;> rfl

theorem settingChanged_window (ch : Channel) : settingChanged r (if ch = .p then 5#8 else 6#8 : Byte).toNat s =
    restartStability r ch s := by cases ch <;> rfl

theorem settingChanged_track (ch : Channel) : settingChanged r (if ch = .p then 7#8 else 8#8 : Byte).toNat s = trackOff ch s := by
  cases ch <;> rfl

theorem settingChanged_present (p : Port) : settingChanged r (if p = .d1 then 19#8 else 20#8 : Byte).toNat s =
    presentChanged r p s := by cases p <;> rfl

theorem settingChanged_polarity (p : Port) : settingChanged r (if p = .d1 then 21#8 else 22#8 : Byte).toNat s =
    polarityChanged r p s := by cases p <;> rfl

end

/-! ### The bagging monitor and the card store (R77, R124) -/

/-- One PENDING entry has reached BAG_TIMEOUT. -/
theorem judgeOverdue_one {r : Raise} {s : State} {pre post : List Entry} {e : Entry} (hent : s.bag.entries = pre ++ e :: post)
    (hnot : e.overdue = false) (hage : 1000 * s.set.bagTimeout ≤ e.age)
    (hother : ∀ x ∈ pre ++ post, x.slot ≠ e.slot ∧ (x.overdue = true ∨ x.age < 1000 * s.set.bagTimeout)) :
    judgeOverdue r s = r (.bagOverdue e.slot e.remove e.weight) { s with
      bag.entries := pre ++ { e with overdue := true } :: post
      txn.items := s.txn.items.map fun (it : Item) => if it.slot = e.slot then { it with bag := .overdue } else it } := by
  have hkeep (l : List Entry) (hl : ∀ x ∈ l, x ∈ pre ++ post) :
      l.filter (fun e => !e.overdue && decide (1000 * s.set.bagTimeout ≤ e.age)) = [] := by
    refine List.filter_eq_nil_iff.mpr fun x hx => ?_
    rcases (hother x (hl x hx)).2 with h | h
    · simp [h]
    · simp [Nat.not_le.mpr h]
  have hdue : s.bag.entries.filter (fun e => !e.overdue && decide (1000 * s.set.bagTimeout ≤ e.age)) = [e] := by
    rw [hent, List.filter_append, hkeep pre (fun x hx => List.mem_append_left _ hx), List.nil_append,
      List.filter_cons_of_pos (by simp [hnot, hage]), hkeep post (fun x hx => List.mem_append_right _ hx)]
  have hmax : max e.age (1000 * s.set.bagTimeout) = e.age := Nat.max_eq_left hage
  rw [judgeOverdue, hdue, List.foldl_cons, List.foldl_nil, entryOverdue_some hent rfl hnot (fun x hx => (hother x hx).1), hmax]

theorem judgeHold_kept {r : Raise} {c : CardSlot} {s : State}
    (h : ∀ x, s.card c = some x → x.bound = true ∨ x.age < 1000 * s.set.cardHold) : judgeHold r c s = s := by
  unfold judgeHold
  cases hc : s.card c with
  | none => rfl
  | some x =>
    refine if_neg ?_
    rcases h x hc with hb | ha
    · simp [hb]
    · simp [Nat.not_le.mpr ha]

theorem judgeHold_wipes {r : Raise} {c : CardSlot} {s : State} {x : CardRec} (hc : s.card c = some x) (hb : x.bound = false)
    (ha : 1000 * s.set.cardHold ≤ x.age) : judgeHold r c s = r (.cardWiped c .holdTimer) (s.setCard c none) := by
  have hdue : (!x.bound && decide (1000 * s.set.cardHold ≤ x.age)) = true := by simp [hb, ha]
  unfold judgeHold wipeCard
  rw [hc]
  simp only [hdue, if_true]

theorem setCard_other {s : State} {c o : CardSlot} (h : o ≠ c) (x : Option CardRec) : (s.setCard c x).card o = s.card o := by
  cases c <;> cases o <;> first | rfl | exact absurd rfl h

theorem setCard_set (s : State) (c : CardSlot) (x : Option CardRec) : (s.setCard c x).set = s.set := by cases c <;> rfl

/-- The hold timers judged where that of one slot alone can have run out. -/
theorem judgeHolds_one {s : State} {c : CardSlot} {x : CardRec} (hu : s.unbound) (hc : s.card c = some x) (hb : x.bound = false)
    (hother : ∀ o y, o ≠ c → s.card o = some y → y.bound = true ∨ y.age < 1000 * s.set.cardHold) :
    judgeHold raiseLoud .two (judgeHold raiseLoud .one s) =
      if 1000 * s.set.cardHold ≤ x.age then raiseQuiet (.cardWiped c .holdTimer) (s.setCard c none) else s := by
  by_cases ha : 1000 * s.set.cardHold ≤ x.age
  · rw [if_pos ha]
    have hwipe : judgeHold raiseLoud c s = raiseQuiet (.cardWiped c .holdTimer) (s.setCard c none) :=
      (judgeHold_wipes hc hb ha).trans (raiseLoud_unbound (setCard_unbound hu c none) _)
    have hkept (o : CardSlot) (ho : o ≠ c) : judgeHold raiseLoud o (raiseQuiet (.cardWiped c .holdTimer) (s.setCard c none)) =
        raiseQuiet (.cardWiped c .holdTimer) (s.setCard c none) := by
      refine judgeHold_kept fun y hy => ?_
      rw [card_raiseQuiet, setCard_other ho] at hy
      rw [raiseQuiet_set, setCard_set]
      exact hother o y ho hy
    cases c with
    | one => rw [hwipe, hkept .two (by decide)]
    | two => rw [judgeHold_kept (hother .one · (by decide)), hwipe]
  · rw [if_neg ha]
    have hall (o : CardSlot) : judgeHold raiseLoud o s = s := by
      refine judgeHold_kept fun y hy => ?_
      by_cases ho : o = c
      · subst ho
        rw [hc] at hy
        obtain rfl := Option.some.inj hy
        exact .inr (Nat.lt_of_not_le ha)
      · exact hother o y ho hy
    rw [hall, hall]

/-! ### The drawers (R129, R131, R141) -/

/-- PRESENT off takes a port that no attempt holds to UNKNOWN. -/
theorem presentOff_resting {r : Raise} {p : Port} {s : State} (hr : (s.port p).retry = false)
    (h1 : (s.port p).mode ≠ .grantWait) (h2 : (s.port p).mode ≠ .kicking) (h3 : (s.port p).mode ≠ .waitOpen) :
    presentOff r p s = s.setPort p { s.port p with mode := .unknown, present := false, leaving := false, openMs := 0 } := by
  have hoff : presentOff r p s = modPort p PortState.absentNow s := by
    unfold presentOff
    cases hm : (s.port p).mode with
    | grantWait => exact absurd hm h1
    | kicking => exact absurd hm h2
    | waitOpen => exact absurd hm h3
    | closed => simp only [hm, hr, Bool.false_eq_true, if_false]
    | unknown => simp only [hm]
    | opened => simp only [hm]
    | openOverdue => simp only [hm]
    | fault => simp only [hm]
  exact hoff

/-- A port made present: it takes its debounced sense, unless a level is being debounced (R129, R131). -/
def PortState.madePresent (q : PortState) (o : Option Bool) : PortState :=
  match q.deb, o with
  | none, some true => { q with present := true }.opened
  | none, some false => { q with present := true, mode := .closed }
  | _, _ => { q with present := true }

theorem madePresent_keeps {q : PortState} {o : Option Bool} (h : q.deb ≠ none ∨ o = none) :
    q.madePresent o = { q with present := true } := by
  unfold PortState.madePresent
  split
  · next hd => exact h.elim (absurd hd) (fun h => absurd h (by simp))
  · next hd => exact h.elim (absurd hd) (fun h => absurd h (by simp))
  · rfl

theorem presentOn_eq {p : Port} {s : State} (hl : (s.port p).leaving = false) :
    presentOn p s = s.setPort p ((s.port p).madePresent (s.sense p)) := by
  obtain ⟨z, hz⟩ : ∃ z, z = s.setPort p { s.port p with present := true } := ⟨_, rfl⟩
  have hzp : z.port p = { s.port p with present := true } := by rw [hz, State.setPort_port]
  have hset (y : PortState) : z.setPort p y = s.setPort p y := by
    rw [hz]
    cases p <;> rfl
  have hsense : z.sense p = s.sense p := by
    unfold State.sense
    rw [hzp, hz]
    cases p <;> rfl
  have hdeb : (z.port p).deb = (s.port p).deb := by rw [hzp]
  have hon : presentOn p s = if (s.port p).deb.isNone then takeSense p z else z := by
    unfold presentOn
    rw [if_neg (by simp [hl])]
    simp only [modPort, ← hz, hdeb]
  rw [hon]
  cases hd : (s.port p).deb with
  | some d =>
    rw [madePresent_keeps (.inl (by rw [hd]; simp)), if_neg (by simp)]
    exact hz
  | none =>
    cases ho : s.sense p with
    | none =>
      have hsame : takeSense p z = z := by simp only [takeSense, hsense, ho]
      rw [madePresent_keeps (.inr rfl), hsame, ite_self]
      exact hz
    | some o =>
      rw [Option.isNone_none, if_pos rfl, takeSense_eq (hsense.trans ho), hset, hzp]
      cases o <;> simp only [PortState.madePresent, hd] <;> rfl

theorem madePresent_effects (q : PortState) (o : Option Bool) :
    (q.madePresent o).present = true ∧ (q.madePresent o).mode = (match q.deb, o with
      | none, some true => .opened
      | none, some false => .closed
      | _, _ => q.mode) := by
  unfold PortState.madePresent
  cases q.deb with
  | some d => exact ⟨rfl, rfl⟩
  | none =>
    cases o with
    | none => exact ⟨rfl, rfl⟩
    | some b => cases b <;> exact ⟨rfl, rfl⟩

theorem polarityChanged_closed {r : Raise} {p : Port} {s : State} (hp : (s.port p).present = true)
    (hm : (s.port p).mode = .closed) (hr : (s.port p).retry = false) :
    polarityChanged r p s = s.setPort p { s.port p with mode := .unknown } := by
  have hunknown : polarityChanged r p s = modPort p (fun q => { q with mode := .unknown }) s := by
    unfold polarityChanged
    simp only [hp, hm, hr, Bool.not_true, Bool.false_eq_true, if_false]
  exact hunknown

theorem polarityChanged_open {r : Raise} {p : Port} {s : State} (hp : (s.port p).present = true)
    (hm : (s.port p).mode = .opened ∨ (s.port p).mode = .openOverdue) :
    polarityChanged r p s = s.setPort p { s.port p with mode := .unknown, openMs := 0 } := by
  have hunknown : polarityChanged r p s = modPort p (fun q => { q with mode := .unknown, openMs := 0 }) s := by
    unfold polarityChanged
    rcases hm with hm | hm
    · simp only [hp, hm, Bool.not_true, Bool.false_eq_true, if_false]
    · simp only [hp, hm, Bool.not_true, Bool.false_eq_true, if_false]
  exact hunknown

theorem judgeLeftOpen_closed {r : Raise} {p : Port} {s : State} (h : (s.port p).mode ≠ .opened) : judgeLeftOpen r p s = s := by
  have hno : leftOpen r p s = s := if_neg h
  rw [judgeLeftOpen, hno]
  exact ite_self _

theorem judgeLeftOpen_opened {s : State} {p : Port} (hu : s.unbound) (hm : (s.port p).mode = .opened) :
    judgeLeftOpen raiseLoud p s = if 1000 * s.set.leftOpen ≤ (s.port p).openMs then
      raiseQuiet (.drawerLeftOpen p (sat16 ((s.port p).openMs / 1000))) (s.setPort p { s.port p with mode := .openOverdue })
      else s := by
  have hopen : leftOpen raiseLoud p s =
      raiseQuiet (.drawerLeftOpen p (sat16 ((s.port p).openMs / 1000))) (s.setPort p { s.port p with mode := .openOverdue }) :=
    (if_pos hm).trans (raiseLoud_unbound (by cases p <;> exact hu) _)
  rw [judgeLeftOpen, hopen]

/-- The open times judged where one port alone is OPEN. -/
theorem judgeLeftOpens_one {s : State} {p o : Port} (hu : s.unbound) (hne : p ≠ o) (hp : (s.port p).mode = .opened)
    (ho : (s.port o).mode ≠ .opened) : judgeLeftOpen raiseLoud .d2 (judgeLeftOpen raiseLoud .d1 s) =
      if 1000 * s.set.leftOpen ≤ (s.port p).openMs then
        raiseQuiet (.drawerLeftOpen p (sat16 ((s.port p).openMs / 1000))) (s.setPort p { s.port p with mode := .openOverdue })
      else s := by
  have hjudged := judgeLeftOpen_opened hu hp
  have hkept : judgeLeftOpen raiseLoud o (judgeLeftOpen raiseLoud p s) = judgeLeftOpen raiseLoud p s := by
    refine judgeLeftOpen_closed ?_
    rw [hjudged]
    split
    · rw [port_raiseQuiet]
      cases p <;> cases o <;> first | exact absurd rfl hne | exact ho
    · exact ho
  rw [← hjudged]
  cases p <;> cases o
  · exact absurd rfl hne
  · exact hkept
  · rw [judgeLeftOpen_closed ho]
  · exact absurd rfl hne

/-! ### The stall limit and the supply (R158, R177, R178) -/

theorem judgeStall_one {r : Raise} {s : State} {j : Job} (ht : s.job.table = [j]) (hm : j.mode = .paused .underrun) :
    judgeStall r s = if s.set.stallLimit ≤ j.stall then stallExpired r s else s := by
  have hfind : s.job.table.find? (fun j => decide (j.mode = .paused .underrun)) = some j := by
    rw [ht, List.find?_cons_of_pos (by simp [hm])]
  unfold judgeStall stallExpired
  rw [hfind]

theorem capacityChanged_free {r : Raise} {s : State} (hqueue : s.dsa.queue = []) : capacityChanged r s =
    if s.dsa.cap ≤ s.set.capacity ∨ s.dsa.committed ≤ s.set.capacity then { s with dsa.cap := s.set.capacity } else s := by
  have hscan (x : State) (hx : x.dsa.queue = []) : (if x.dsa.cap = x.set.capacity then scan r x else x) = x := by
    rw [scan_nil hx]
    exact ite_self _
  unfold capacityChanged
  simp only
  rw [hscan]
  · rfl
  · unfold settleCap
    split
    · exact hqueue
    · exact hqueue

theorem capacityChanged_raised {r : Raise} {s : State} (hcap : s.dsa.cap ≤ s.set.capacity) :
    capacityChanged r s = scan r { s with dsa.cap := s.set.capacity } := by
  have hsettle : settleCap s = { s with dsa.cap := s.set.capacity } := if_pos (.inl hcap)
  unfold capacityChanged
  simp only [hsettle, if_true]

/-- The head job judged where it is the only one. -/
theorem judgeStart_only {r : Raise} {s : State} {j : Job} (ht : s.job.table = [j]) :
    judgeStart r s = judgeStart r { s with job.table := [j] } := by rw [← ht]

/-! ### SET_PUT (R193) -/

/-- A notice raised in the action of a request. -/
theorem raiseQuiet_executing (n : Notice) (t : State) (q : Request) :
    (raiseQuiet n t).executing q = raiseQuiet n (t.executing q) := (raiseQuiet_frame ..).symm

section
variable {tag number : Byte} {value : BitVec 32} {v : Nat} {s t : State} (hs : s.ready) (h1 : number ≠ 1#8)
  (ht : s.set.taken number.toNat value.toNat = some v)

include hs h1 ht

/-- A SET_PUT of a setting other than BAUD_RATE, from what its change does. -/
theorem exec_setPut (hexec : t.link.inExec = s.link.inExec) (hsoft : t.link.softReset = s.link.softReset)
    (h : ∀ q, (actSetPut number value raiseLoud (s.executing q)).1 = t.executing q) :
    exec (.setPut tag number value) s = .next (t.setAnswered tag number value.toNat v) := by
  refine exec_answers_of_ready' rfl rfl hs hexec hsoft fun q => ?_
  have hreply : (actSetPut number value raiseLoud (s.executing q)).2 =
      .reply (if v = value.toNat then .ok else .okClamped) (number :: be32 v) none := by
    unfold actSetPut
    rw [show (s.executing q).set.taken number.toNat value.toNat = some v from ht]
    simp only [if_neg h1]
  exact Prod.ext (h q) hreply

theorem exec_setPut_same (hv : v = s.set.get number.toNat) :
    exec (.setPut tag number value) s = .next (s.setAnswered tag number value.toNat v) := by
  refine exec_setPut hs h1 ht rfl rfl fun q => ?_
  rw [actSetPut_eq (s := s.executing q) raiseLoud ht]
  exact if_pos hv.symm

theorem exec_setPut_changed (hv : v ≠ s.set.get number.toNat) (hexec : t.link.inExec = s.link.inExec)
    (hsoft : t.link.softReset = s.link.softReset)
    (h : ∀ q, settingChanged raiseLoud number.toNat
      (State.executing { s with set := s.set.put v number.toNat } q) = t.executing q) :
    exec (.setPut tag number value) s = .next (t.setAnswered tag number value.toNat v) := by
  refine exec_setPut hs h1 ht hexec hsoft fun q => ?_
  rw [actSetPut_eq (s := s.executing q) raiseLoud ht]
  exact (if_neg (Ne.symm hv)).trans (h q)

end

/-- Settles O18, by the number of the setting and what its change does. -/
theorem settingsActAtOnce : Obligations.SettingsActAtOnce := by
  refine fun tag number value v s hs hsu h1 htaken => ⟨exec_setPut_same hs h1 htaken, fun u hu hv => ?_⟩
  have hput {t : State} := exec_setPut_changed (tag := tag) (t := t) hs h1 htaken hv
  subst hu
  refine ⟨fun ch hn hst => ?depth, fun ch hn hst => ?window, fun ch hn => ?track,
    fun pre e post hn hent hnot hother hage => ?overdue,
    fun c r hn hc hb hother => ?hold, fun p hn => ⟨fun hv0 hr hm1 hm2 hm3 => ?off, fun hv1 hl => ?on⟩,
    fun p hn hp => ⟨fun ⟨hm, hr⟩ => ?shut, fun hm => ?openPort⟩, fun p o hn hne hp ho => ?leftOpen,
    fun j hn ht => ⟨fun hv1 hc hm => ?unready, fun hv0 hm hc he hsale htxn => ?settles⟩,
    fun j hn ht hm hpen hw hc => ⟨fun hlt => ?running, fun hle => ?aborted⟩,
    fun hn => ⟨fun hqueue => ?free, fun p hqueue hlow hline hcap hfits hP hB => ?granted⟩⟩
  case depth =>
    subst hn
    obtain ⟨x, hx⟩ : ∃ x, x = State.setChan
      { s with set := (s.set.put v (if ch = .p then 3#8 else 4#8 : Byte).toNat).raiseWindows } ch
      { s.chan ch with win := [], stab := [] } := ⟨_, rfl⟩
    have hexec : exec (.setPut tag (if ch = .p then 3#8 else 4#8) value) s =
        .next (x.setAnswered tag (if ch = .p then 3#8 else 4#8) value.toNat v) := by
      refine hput (by rw [hx]; simp) (by rw [hx]; simp) fun q => ?_
      rw [settingChanged_depth, restartWindows_calm _ _ _ (by cases ch <;> exact hst), hx]
      cases ch <;> rfl
    obtain ⟨l, q, ht⟩ := answered_rest x tag 0x11#8 (if v = value.toNat then .ok else .okClamped)
      ((if ch = .p then 3#8 else 4#8) :: be32 v)
    refine ⟨_, hexec.trans (congrArg Host.Outcome.next ht), ?_⟩
    rw [hx]
    cases ch with
    | p =>
      refine ⟨rfl, Nat.le_max_right .., fun hle => Nat.max_eq_left hle, rfl, fun o ho => ?_, rfl, rfl, rfl⟩
      cases o with
      | p => exact absurd rfl ho
      | b => rfl
    | b =>
      refine ⟨rfl, Nat.le_max_right .., fun hle => Nat.max_eq_left hle, rfl, fun o ho => ?_, rfl, rfl, rfl⟩
      cases o with
      | p => rfl
      | b => exact absurd rfl ho
  case window =>
    subst hn
    refine hput (by simp) (by simp) fun q => ?_
    rw [settingChanged_window, restartStability_calm (by cases ch <;> exact hst)]
    cases ch <;> rfl
  case track =>
    subst hn
    refine hput (by split <;> simp) (by split <;> simp) fun q => ?_
    rw [settingChanged_track, trackOff]
    by_cases hv0 : v = 0
    · rw [if_pos hv0, if_neg (by cases ch <;> simp [Settings.zeroTrack, Settings.put, hv0])]
      cases ch <;> rfl
    · rw [if_neg hv0, if_pos (by cases ch <;> simp [Settings.zeroTrack, Settings.put, hv0])]
  case overdue =>
    subst hn
    refine hput (by simp) (by simp) fun q => ?_
    show judgeOverdue raiseLoud _ = _
    rw [judgeOverdue_one (by exact hent) hnot (by exact hage) (by exact hother), raiseLoud_unbound (by exact hsu)]
    rw [raiseQuiet_executing]
  case hold =>
    subst hn
    refine hput (by split <;> simp) (by split <;> simp) fun q => ?_
    show judgeHold raiseLoud .two (judgeHold raiseLoud .one _) = _
    rw [judgeHolds_one (c := c) (x := r) (by exact hsu) (by cases c <;> exact hc) hb
      (fun o y ho hy => hother o y ho (by cases o <;> exact hy))]
    by_cases hage : 1000 * v ≤ r.age
    · rw [if_pos (by exact hage), if_pos hage, raiseQuiet_executing]
      cases c <;> rfl
    · rw [if_neg (by exact hage), if_neg hage]
  case off =>
    subst hn
    refine hput (by simp) (by simp) fun q => ?_
    rw [settingChanged_present, presentChanged, if_neg (by cases p <;> simp [Settings.present, Settings.put, hv0]),
      presentOff_resting (by cases p <;> exact hr) (by cases p <;> exact hm1) (by cases p <;> exact hm2) (by cases p <;> exact hm3)]
    cases p <;> rfl
  case on =>
    subst hn
    obtain ⟨hpresent, hmode⟩ := madePresent_effects (s.port p) (s.sense p)
    refine ⟨State.setPort { s with set := s.set.put v (if p = .d1 then 19#8 else 20#8 : Byte).toNat } p
      ((s.port p).madePresent (s.sense p)), hput (by simp) (by simp) fun q => ?_, ?_, by simp, by cases p <;> rfl, ?_⟩
    · rw [settingChanged_present, presentChanged, if_pos (by cases p <;> simp [Settings.present, Settings.put, hv1]),
        presentOn_eq (by cases p <;> exact hl)]
      cases p <;> rfl
    · rw [State.setPort_port]
      exact hpresent
    · rw [State.setPort_port]
      exact hmode
  case shut =>
    subst hn
    refine hput (by simp) (by simp) fun q => ?_
    rw [settingChanged_polarity, polarityChanged_closed (by cases p <;> exact hp) (by cases p <;> exact hm)
      (by cases p <;> exact hr)]
    cases p <;> rfl
  case openPort =>
    subst hn
    refine hput (by simp) (by simp) fun q => ?_
    rw [settingChanged_polarity, polarityChanged_open (by cases p <;> exact hp) (by cases p <;> exact hm)]
    cases p <;> rfl
  case leftOpen =>
    subst hn
    refine hput (by split <;> simp) (by split <;> simp) fun q => ?_
    show judgeLeftOpen raiseLoud .d2 (judgeLeftOpen raiseLoud .d1 _) = _
    rw [judgeLeftOpens_one (by exact hsu) hne (by cases p <;> exact hp) (by cases o <;> exact ho)]
    have hmade (x : State) (hx : x = State.executing { s with set := s.set.put v (25#8).toNat } q) :
        (x.port p).openMs = (s.port p).openMs := by
      rw [hx]
      cases p <;> rfl
    rw [hmade _ rfl]
    by_cases hage : 1000 * v ≤ (s.port p).openMs
    · rw [if_pos (by exact hage), if_pos hage, raiseQuiet_executing]
      cases p <;> rfl
    · rw [if_neg (by exact hage), if_neg hage]
  case unready =>
    subst hn hv1
    refine hput (by simp) (by simp) fun q => ?_
    have hun : j.unstarted = true := by rcases hm with h | h <;> simp [Job.unstarted, h]
    refine (judgeStart_only (by exact ht)).trans ((judgeStart_unready hun ?_).trans rfl)
    simp [Job.ready, hc, Settings.put]
  case settles =>
    subst hn hv0
    refine hput (by simp) (by simp) fun q => ?_
    have hun : j.unstarted = true := by simp [Job.unstarted, hm]
    refine (judgeStart_only (by exact ht)).trans ((judgeStart_settles hun ?_ hsale (by exact htxn)).trans rfl)
    simp [Job.ready, Settings.put, he]
  case running =>
    subst hn
    refine hput (by simp) (by simp) fun q => ?_
    show judgeStall raiseLoud _ = _
    rw [judgeStall_one (by exact ht) hm]
    exact if_neg (Nat.not_le.mpr hlt)
  case aborted =>
    subst hn
    refine hput rfl rfl fun q => ?_
    show judgeStall raiseLoud _ = _
    rw [judgeStall_one (by exact ht) hm, if_pos (by exact hle), stallExpired_aborts (by exact ht) hm (by exact hc)]
    rfl
  case free =>
    subst hn
    refine hput (by split <;> rfl) (by split <;> rfl) fun q => ?_
    refine (capacityChanged_free (by exact hqueue)).trans ?_
    by_cases hfits : s.dsa.cap ≤ 100 * v ∨ s.dsa.committed ≤ 100 * v
    · rw [if_pos (by exact hfits), if_pos hfits]
      rfl
    · rw [if_neg (by exact hfits), if_neg hfits]
  case granted =>
    subst hn
    obtain ⟨t, ht⟩ : ∃ t, scan raiseLoud { s with set := s.set.put v (30#8).toNat, dsa.cap := 100 * v } = t := ⟨_, rfl⟩
    have hscan := scan_port (r := raiseLoud) (p := p) (s := { s with set := s.set.put v (30#8).toNat, dsa.cap := 100 * v })
      hqueue hline hlow hfits hP hB
    rw [ht] at hscan
    refine ⟨t, hput (by rw [hscan]; simp) (by rw [hscan]; simp) fun q => ?_, ?_⟩
    · refine (capacityChanged_raised (by exact hcap)).trans ?_
      rw [scan_port (by exact hqueue) (by exact hline) (by exact hlow) (by exact hfits) (by exact hP) (by exact hB), hscan]
      cases p <;> rfl
    · rw [hscan]
      cases p <;> exact ⟨rfl, rfl, rfl, rfl, rfl⟩

end Sys2Proof.Machine
end
